-- ==== Sys2Proof/Word.lean ====
section
/-! DEFINITION. The word types of the Omnia DSP CORE: every command, data word, response and register is 32 bits
wide (00_scope.md R11, 10_state.md R100), and an F32 value is a binary32 bit pattern (00_scope.md R12). -/

namespace Sys2Proof

/-- A 32-bit word: a command word, a data word, a response, a U32 register (00_scope.md R11, R12). -/
abbrev Word := BitVec 32

/-- One byte of a byte-wide link that carries words (20_memory.md R205). -/
abbrev Byte := BitVec 8

/-- An IEEE 754 binary32 bit pattern: bit 31 the sign, bits 30:23 the biased exponent, bits 22:0 the fraction
(00_scope.md R12, 20_memory.md R205). -/
abbrev F32 := BitVec 32

end Sys2Proof
end

