-- ==== Sys2Proof/Config.lean ====
section
/-! DEFINITION. What an instance of the CORE fixes (the parameters of 00_scope.md R9, plain data) and the free values
the spec leaves open (opaque constants with no body: nothing can be proved of what they are). -/

namespace Sys2Proof.Config

/-- The parameters of 00_scope.md R9 that have a default. An instance is plain data, held in State.cfg and fixed for
the life of the instance. N_COMB is the length of `combLen`, NCHORD the length of `chordTable`; NCH is `nch`. -/
structure Params where
  /-- TABLE_SIZE -/
  tableSize : Nat
  /-- NUM_FRAMES -/
  numFrames : Nat
  /-- MIP_LEVELS -/
  mipLevels : Nat
  /-- NUM_BANKS -/
  numBanks : Nat
  /-- STAGE_MAX -/
  stageMax : Nat
  /-- MIP_T0 -/
  mipT0 : F32
  /-- HARM_MAX -/
  harmMax : Nat
  /-- T_EPS -/
  tEps : F32
  /-- N_VOICES -/
  nVoices : Nat
  /-- NSTACK -/
  nStack : Nat
  /-- AGE_EPS -/
  ageEps : F32
  /-- GLIDE_SNAP -/
  glideSnap : F32
  /-- CHORD_TABLE: one list of semitone intervals per chord code (48_arp.md R800) -/
  chordTable : List (List Nat)
  /-- N_GRAINS -/
  nGrains : Nat
  /-- GQ_DEPTH -/
  gqDepth : Nat
  /-- GRAN_K -/
  granK : F32
  /-- GRAN_JSPAN -/
  granJspan : F32
  /-- SRC_MAX -/
  srcMax : Nat
  /-- DEFAULT_SRC_RATE -/
  defaultSrcRate : F32
  /-- RNG_SEED_RESET -/
  rngSeedReset : Word
  /-- RING_CAP -/
  ringCap : Nat
  /-- LOOP_MAX -/
  loopMax : Nat
  /-- L_MIN -/
  lMin : Nat
  /-- EXIT_FADE -/
  exitFade : F32
  /-- MAXSPD_MAX -/
  maxSpdMax : F32
  /-- DLY_CAP -/
  dlyCap : Nat
  /-- COMB_LEN, one length per comb line -/
  combLen : List Nat
  /-- FB_MAX -/
  fbMax : F32
  /-- PULSE_S -/
  pulseS : F32
  /-- F_C4 -/
  fC4 : F32
  /-- IN_DIV -/
  inDiv : F32
  /-- OUT_MUL -/
  outMul : F32
  /-- GATE_TH -/
  gateTh : F32
  /-- TRIG_V -/
  trigV : F32
  /-- IN_MAX -/
  inMax : F32
  /-- SR_RESET -/
  srReset : F32
  /-- SR_MIN -/
  srMin : F32
  /-- SR_MAX -/
  srMax : F32
  /-- RESP_DEPTH -/
  respDepth : Nat
  deriving DecidableEq, Repr

/-- The defaults of the table of 00_scope.md R9 and of 48_arp.md R800. -/
def Params.default : Params where
  tableSize := 2048
  numFrames := 16
  mipLevels := 8
  numBanks := 4
  stageMax := 1048576
  mipT0 := 0x3F800000          -- 1.0
  harmMax := 8
  tEps := 0x3A83126F           -- 0.001
  nVoices := 8
  nStack := 1
  ageEps := 0x3A83126F         -- 0.001
  glideSnap := 0x38D1B717      -- 0.0001
  chordTable := [[0, 4, 7], [0, 3, 7], [0, 4, 7, 10], [0, 4, 7, 11], [0, 3, 7, 10], [0, 2, 7], [0, 5, 7], [0, 3, 6]]
  nGrains := 32
  gqDepth := 8
  granK := 0x40E00000          -- 7.0
  granJspan := 0x3E800000      -- 0.25
  srcMax := 1048576
  defaultSrcRate := 0x472C4400 -- 44100.0
  rngSeedReset := 0x9E3779B9
  ringCap := 524288
  loopMax := 524287
  lMin := 16
  exitFade := 0x3CA3D70A       -- 0.02
  maxSpdMax := 0x41000000      -- 8.0
  dlyCap := 65536
  combLen := [1116, 1188, 1277, 1356, 1422, 1491, 1557, 1617]
  fbMax := 0x3F7D70A4          -- 0.99
  pulseS := 0x3A83126F         -- 0.001
  fC4 := 0x4382D014            -- 261.6256
  inDiv := 0x40A00000          -- 5.0
  outMul := 0x40A00000         -- 5.0
  gateTh := 0x3F800000         -- 1.0
  trigV := 0x41200000          -- 10.0
  inMax := 0x41400000          -- 12.0
  srReset := 0x472C4400        -- 44100.0
  srMin := 0x3F800000          -- 1.0
  srMax := 0x49742400          -- 1.0e6
  respDepth := 16

/-- N_COMB: the number of comb lines. -/
def Params.nComb (c : Params) : Nat := c.combLen.length

/-- NCHORD: the number of chord codes. -/
def Params.nChord (c : Params) : Nat := c.chordTable.length

/-- NCH, fixed at 2: the channels of the looper and of the echo (00_scope.md R9). -/
def nch : Nat := 2

/-! Free values. Each is an opaque constant: a proof holds whatever it is. The log entry is named at each. -/

/-- `fexp2` where 00_scope.md R30 leaves a choice (log entry 2); Machine/Transcend.lean keeps it inside R30's bounds. -/
opaque fexp2Free : F32 → F32

/-- `fsin2pi` where 00_scope.md R31 leaves a choice (log entry 3); Machine/Transcend.lean keeps it inside R31's bounds. -/
opaque fsinFree : F32 → F32

/-- DEFAULT_BANK, element by element (00_scope.md R9; log entry 4). -/
opaque defaultBankFree : Nat → F32

/-- DEFAULT_SRC, element by element (00_scope.md R9; log entry 5). -/
opaque defaultSrcFree : Nat → F32

/-- The length of DEFAULT_SRC (00_scope.md R9; log entry 5). -/
opaque defaultSrcLenFree : Nat

/-- Sign and payload of the NaN an operation gives, from its operands (00_scope.md R15; log entry 6). -/
opaque nanBits : F32 → F32 → Word

/-- What `min` and `max` give when an operand is NaN (00_scope.md R18; log entry 7). -/
opaque minMaxNaN : F32 → F32 → F32

/-- What `floor` and `ceil` give of an infinity or a NaN (00_scope.md R18; log entry 8). -/
opaque floorNonFinite : F32 → Int

/-- The agent that moves at the n-th choice the spec leaves open (20_memory.md R211; log entry 9). -/
opaque schedule : Nat → Nat

/-- How many choices may pass a port over before its next turn, drawn at the port's n-th choice: finite, with no bound
(20_memory.md R218; log entry 9). -/
opaque patience : Nat → Nat

/-- What an element outside its memory reads as: no rule reads one (20_memory.md R201; log entry 16). -/
opaque absentElem : Nat → F32

end Sys2Proof.Config
end

