-- ==== Sys2Proof/Syntax.lean ====
section
/-! DEFINITION. The 20 commands of 30_encoding.md R304 and spec/opcode_table.json, one constructor per row. -/

namespace Sys2Proof

/-- A command with its operand fields (30_encoding.md R300, R301, R303). -/
inductive Instr where
  /-- NOP (40_host_commands.md R406) -/
  | nop
  /-- TICK: `imm` is the count less one (40_host_commands.md R407) -/
  | tick (imm : BitVec 14)
  /-- WRREG: unit, register, data word (40_host_commands.md R408) -/
  | wrreg (unit : BitVec 4) (reg : BitVec 8) (data : Word)
  /-- RDREG: unit, register (40_host_commands.md R409) -/
  | rdreg (unit : BitVec 4) (reg : BitVec 8)
  /-- SRESET: 0 the whole CORE, 1 to 8 one unit (40_host_commands.md R410) -/
  | sreset (unit : BitVec 4)
  /-- CLRSTAT: mask of STATUS bits (40_host_commands.md R405) -/
  | clrstat (mask : BitVec 14)
  /-- NOTE_ON: data word, a frequency in Hz (44_voice_pool.md R620) -/
  | noteOn (freq : F32)
  /-- NOTE_ON_MIDI: note number (44_voice_pool.md R621) -/
  | noteOnMidi (note : BitVec 7)
  /-- NOTE_OFF: slot number (44_voice_pool.md R622) -/
  | noteOff (slot : BitVec 8)
  /-- ALL_OFF (44_voice_pool.md R623) -/
  | allOff
  /-- CHORD_ON: chord code, root note (44_voice_pool.md R624) -/
  | chordOn (chord : BitVec 8) (root : BitVec 7)
  /-- BANK_BEGIN: logical bank (42_wavetable.md R520) -/
  | bankBegin (bank : BitVec 8)
  /-- BANK_DATA: data word, a sample (42_wavetable.md R521) -/
  | bankData (sample : F32)
  /-- BANK_COMMIT (42_wavetable.md R523) -/
  | bankCommit
  /-- BANK_ABORT (42_wavetable.md R524) -/
  | bankAbort
  /-- SRC_BEGIN: data word, a native sample rate in Hz (45_granular.md R660) -/
  | srcBegin (rate : F32)
  /-- SRC_DATA: data word, a sample (45_granular.md R661) -/
  | srcData (sample : F32)
  /-- SRC_COMMIT (45_granular.md R662) -/
  | srcCommit
  /-- SRC_ABORT (45_granular.md R663) -/
  | srcAbort
  /-- GRAN_SPAWN (45_granular.md R664) -/
  | granSpawn
  deriving DecidableEq, Repr

end Sys2Proof
end

