-- ==== Sys2Proof/WellFormed.lean ====
section
/-! DEFINITION. Which commands are well-formed: the field checks of 30_encoding.md R304 that depend on a value or on a
parameter. (The fields that must be zero are no operands of Instr; Decode.lean checks them in the word.) -/

namespace Sys2Proof

/-- The checks of 30_encoding.md R304 on a command's operands: WRREG and RDREG UNIT at most 8, SRESET UNIT at most 8,
NOTE_OFF slot < N_VOICES, CHORD_ON code < NCHORD, BANK_BEGIN bank < NUM_BANKS. -/
def Instr.wellFormed (cfg : Config.Params) : Instr → Bool
  | .nop => true
  | .tick _ => true
  | .wrreg unit _ _ => decide (unit.toNat ≤ 8)
  | .rdreg unit _ => decide (unit.toNat ≤ 8)
  | .sreset unit => decide (unit.toNat ≤ 8)
  | .clrstat _ => true
  | .noteOn _ => true
  | .noteOnMidi _ => true
  | .noteOff slot => decide (slot.toNat < cfg.nVoices)
  | .allOff => true
  | .chordOn chord _ => decide (chord.toNat < cfg.nChord)
  | .bankBegin bank => decide (bank.toNat < cfg.numBanks)
  | .bankData _ => true
  | .bankCommit => true
  | .bankAbort => true
  | .srcBegin _ => true
  | .srcData _ => true
  | .srcCommit => true
  | .srcAbort => true
  | .granSpawn => true

end Sys2Proof
end

