-- ==== Sys2Proof/Decode.lean ====
section
/-! DEFINITION. Decoding command words and encoding commands (30_encoding.md), and the link's bytes (20_memory.md
R205, R206). Decoding is total: what is not a well-formed command is rejected by name. -/

namespace Sys2Proof

/-! Fields of a command word (30_encoding.md R300, R303): all unsigned. -/

/-- OP, bits 31:26. -/
def opField (w : Word) : BitVec 6 := w.extractLsb' 26 6

/-- UNIT, bits 25:22. -/
def unitField (w : Word) : BitVec 4 := w.extractLsb' 22 4

/-- REG, bits 21:14. -/
def regField (w : Word) : BitVec 8 := w.extractLsb' 14 8

/-- IMM, bits 13:0. -/
def immField (w : Word) : BitVec 14 := w.extractLsb' 0 14

/-- IMM[6:0], a MIDI note (30_encoding.md R303). -/
def noteField (w : Word) : BitVec 7 := w.extractLsb' 0 7

/-- IMM[13:7], zero in a MIDI-note command (30_encoding.md R303). -/
def noteHighField (w : Word) : BitVec 7 := w.extractLsb' 7 7

/-- The command word with the given fields: `{OP, UNIT, REG, IMM}` (30_encoding.md R300). -/
def commandWord (op : BitVec 6) (unit : BitVec 4) (reg : BitVec 8) (imm : BitVec 14) : Word :=
  (op ++ unit ++ reg ++ imm : BitVec 32)

/-- The length of a command in words, from OP alone (30_encoding.md R302). -/
def commandLength (w : Word) : Nat :=
  if opField w = 0x02 ∨ opField w = 0x08 ∨ opField w = 0x11 ∨ opField w = 0x14 ∨ opField w = 0x15 then 2 else 1

/-- Why words are no well-formed command (30_encoding.md R306, R307; 20_memory.md R206, R212). -/
inductive DecodeError where
  /-- the words of the command have not all arrived -/
  | incomplete
  /-- OP is one of 0x06, 0x07, 0x0D to 0x0F, 0x19 to 0x3F -/
  | undefinedOp
  /-- a field that the row fixes has another value -/
  | fixedField
  /-- a unit, slot, chord code or bank out of range -/
  | operandRange
  deriving DecidableEq, Repr

/-- A command, if the fields its row fixes have their values. -/
def checkFixed (ok : Bool) (i : Instr) : Except DecodeError Instr := if ok then .ok i else .error .fixedField

/-- UNIT as given, REG and IMM zero: the rows without an operand in the command word (30_encoding.md R304). -/
def bareFields (w : Word) (unit : BitVec 4) : Bool := unitField w == unit && regField w == 0 && immField w == 0

/-- The command of the word `w` and, for a 2-word command, the data word `d`, before the checks of operand ranges:
OP picks the row, and every field the row fixes is checked (30_encoding.md R304). -/
def decodeRow (w d : Word) : Except DecodeError Instr :=
  let unit := unitField w
  let reg := regField w
  let imm := immField w
  match (opField w).toNat with
  | 0x00 => checkFixed (bareFields w 0) .nop
  | 0x01 => checkFixed (unit == 0 && reg == 0) (.tick imm)
  | 0x02 => checkFixed (imm == 0) (.wrreg unit reg d)
  | 0x03 => checkFixed (imm == 0) (.rdreg unit reg)
  | 0x04 => checkFixed (reg == 0 && imm == 0) (.sreset unit)
  | 0x05 => checkFixed (unit == 0 && reg == 0) (.clrstat imm)
  | 0x08 => checkFixed (bareFields w 4) (.noteOn d)
  | 0x09 => checkFixed (unit == 4 && reg == 0 && noteHighField w == 0) (.noteOnMidi (noteField w))
  | 0x0A => checkFixed (unit == 4 && imm == 0) (.noteOff reg)
  | 0x0B => checkFixed (bareFields w 4) .allOff
  | 0x0C => checkFixed (unit == 4 && noteHighField w == 0) (.chordOn reg (noteField w))
  | 0x10 => checkFixed (unit == 2 && imm == 0) (.bankBegin reg)
  | 0x11 => checkFixed (bareFields w 2) (.bankData d)
  | 0x12 => checkFixed (bareFields w 2) .bankCommit
  | 0x13 => checkFixed (bareFields w 2) .bankAbort
  | 0x14 => checkFixed (bareFields w 5) (.srcBegin d)
  | 0x15 => checkFixed (bareFields w 5) (.srcData d)
  | 0x16 => checkFixed (bareFields w 5) .srcCommit
  | 0x17 => checkFixed (bareFields w 5) .srcAbort
  | 0x18 => checkFixed (bareFields w 5) .granSpawn
  | _ => .error .undefinedOp

/-- `wellformed(w)` of 40_host_commands.md R400 with its command: the row's fixed fields and its operand ranges. -/
def decodeCommand (cfg : Config.Params) (w d : Word) : Except DecodeError Instr :=
  match decodeRow w d with
  | .error e => .error e
  | .ok i => if i.wellFormed cfg then .ok i else .error .operandRange

/-- The first command of a list of words, and the words after it. The length is told from OP before any other field is
checked (30_encoding.md R302). -/
def decodeWords (cfg : Config.Params) : List Word → Except DecodeError (Instr × List Word)
  | [] => .error .incomplete
  | w :: rest =>
    if commandLength w = 1 then (decodeCommand cfg w 0).map fun i => (i, rest)
    else match rest with
      | [] => .error .incomplete
      | d :: rest => (decodeCommand cfg w d).map fun i => (i, rest)

/-- The words that bytes of a byte-wide link carry, the least significant byte first; a partial word at the end is not
a word yet (20_memory.md R205, R206). -/
def wordsOfBytes : List Byte → List Word
  | b0 :: b1 :: b2 :: b3 :: rest => (b3 ++ b2 ++ b1 ++ b0 : BitVec 32) :: wordsOfBytes rest
  | _ => []

/-- Decoding from the bytes of a link: total on any bytes. -/
def decodeBytes (cfg : Config.Params) (bs : List Byte) : Except DecodeError (Instr × List Word) :=
  decodeWords cfg (wordsOfBytes bs)

/-- The words of a command (30_encoding.md R300, R301, R304). -/
def encode : Instr → List Word
  | .nop => [commandWord 0x00 0 0 0]
  | .tick imm => [commandWord 0x01 0 0 imm]
  | .wrreg unit reg data => [commandWord 0x02 unit reg 0, data]
  | .rdreg unit reg => [commandWord 0x03 unit reg 0]
  | .sreset unit => [commandWord 0x04 unit 0 0]
  | .clrstat mask => [commandWord 0x05 0 0 mask]
  | .noteOn freq => [commandWord 0x08 4 0 0, freq]
  | .noteOnMidi note => [commandWord 0x09 4 0 (note.setWidth 14)]
  | .noteOff slot => [commandWord 0x0A 4 slot 0]
  | .allOff => [commandWord 0x0B 4 0 0]
  | .chordOn chord root => [commandWord 0x0C 4 chord (root.setWidth 14)]
  | .bankBegin bank => [commandWord 0x10 2 bank 0]
  | .bankData sample => [commandWord 0x11 2 0 0, sample]
  | .bankCommit => [commandWord 0x12 2 0 0]
  | .bankAbort => [commandWord 0x13 2 0 0]
  | .srcBegin rate => [commandWord 0x14 5 0 0, rate]
  | .srcData sample => [commandWord 0x15 5 0 0, sample]
  | .srcCommit => [commandWord 0x16 5 0 0]
  | .srcAbort => [commandWord 0x17 5 0 0]
  | .granSpawn => [commandWord 0x18 5 0 0]

/-- A word as the bytes of a link, the least significant first (20_memory.md R205). -/
def bytesOfWord (w : Word) : List Byte :=
  [w.extractLsb' 0 8, w.extractLsb' 8 8, w.extractLsb' 16 8, w.extractLsb' 24 8]

/-- A command as the bytes of a link. -/
def encodeBytes (i : Instr) : List Byte := (encode i).flatMap bytesOfWord

/-- The bytes of the number `v` of `nbits` bits as spec/opcode_table.json numbers them, bits above `nbits` zero, up to
the longest command (two words): bit 0 is the least significant bit of the first word, and each word goes with its
least significant byte first. -/
def tableBytes (nbits v : Nat) : List Byte :=
  (List.range 8).map fun k => BitVec.ofNat 8 (v % 2 ^ nbits / 2 ^ (8 * k))

/-- The command the decoder reads from the bits `v` of a row of spec/opcode_table.json, on the default instance. -/
def decodeTableWord (nbits w : Nat) : Option Instr :=
  match decodeBytes Config.Params.default (tableBytes nbits w) with
  | .ok (i, _) => some i
  | .error _ => none

end Sys2Proof
end

