-- ==== Sys2Proof/Machine/Units.lean ====
section
/-! DEFINITION. The state of each unit, of the internal memories and of the command ports, as plain data: every register
of the tables of 10_state.md and every hidden element. Registers are 32-bit words (10_state.md R100); a field is named
after its register or hidden element. Registers that are constants or that are computed from other state when they are
read (class C, "derived" and "mirrored") have no field of their own. -/

namespace Sys2Proof.Machine

/-- GLOBAL registers that are state (10_state.md R101). -/
structure GlobalRegs where
  sampleRate : F32
  dt : F32
  status : Word
  tickCount : Word
  deriving DecidableEq, Repr

/-- OSC (10_state.md R110, R111). -/
structure OscUnit where
  wave : Word
  pitch : F32
  harmN : Word
  harmStr : F32
  conn : Word
  voctIn : F32
  syncIn : F32
  out : F32
  phase : F32
  freq : F32
  syncPrev : Bool
  deriving DecidableEq, Repr

/-- WT (10_state.md R115, R116). `slotOf[b]` is st.WT.map[b], the physical slot of logical bank b. -/
structure WtUnit where
  bank : Word
  framePos : F32
  pitch : F32
  quality : Word
  conn : Word
  voctIn : F32
  frameIn : F32
  out : F32
  phase : F32
  mip : Word
  slotOf : List Nat
  spare : Nat
  loading : Bool
  target : Nat
  count : Nat
  ready : List Bool
  deriving DecidableEq, Repr

/-- The envelope states (43_envelope.md R550). -/
inductive EnvState where
  | idle
  | attack
  | decay
  | sustain
  | release
  deriving DecidableEq, Repr

/-- The code of an envelope state in ENV.STATE and V_FLAGS (43_envelope.md R550). -/
def EnvState.code : EnvState → Nat
  | .idle => 0
  | .attack => 1
  | .decay => 2
  | .sustain => 3
  | .release => 4

/-- ENV (10_state.md R120, R121). -/
structure EnvUnit where
  attack : F32
  decay : F32
  sustain : F32
  release : F32
  variant : Word
  gateIn : F32
  out : F32
  level : F32
  state : EnvState
  gatePrev : Bool
  deriving DecidableEq, Repr

/-- One voice slot (10_state.md R126). -/
structure Voice where
  active : Bool
  gate : Bool
  gatePrev : Bool
  primed : Bool
  freq : F32
  target : F32
  phase : List F32
  envState : EnvState
  envLevel : F32
  wave : BitVec 2
  deriving DecidableEq, Repr

/-- VPOOL (10_state.md R125, R126). -/
structure VoicePool where
  wave : Word
  attack : F32
  decay : F32
  sustain : F32
  release : F32
  variant : Word
  glide : F32
  detune : F32
  out : F32
  lastSlot : Word
  voices : List Voice
  deriving DecidableEq, Repr

/-- The tag of a spawn event (10_state.md R131, 45_granular.md R654). -/
inductive SpawnTag where
  | clock
  | timer
  | host
  deriving DecidableEq, Repr

/-- One grain slot (10_state.md R131). -/
structure Grain where
  active : Bool
  elapsed : F32
  dur : F32
  phase : F32
  rate : F32
  deriving DecidableEq, Repr

/-- GRAN (10_state.md R130, R131). -/
structure GranUnit where
  bpm : F32
  density : F32
  vitality : F32
  position : F32
  size : F32
  rate : F32
  rng : Word
  conn : Word
  clockIn : F32
  out : F32
  spawnCount : Word
  srcLen : Word
  srcRate : F32
  clkPeriod : Word
  schedT : F32
  clkPrev : Bool
  clkCount : Nat
  clkEdges : Nat
  queue : List SpawnTag
  srcLoading : Bool
  srcCount : Nat
  srcStageRate : F32
  srcCur : Fin 2
  grains : List Grain
  deriving DecidableEq, Repr

/-- The looper states (46_looper.md R700). -/
inductive LoopState where
  | idle
  | active
  | exitFade
  deriving DecidableEq, Repr

/-- The code of a looper state in LOOP.STATE (46_looper.md R700). -/
def LoopState.code : LoopState → Nat
  | .idle => 0
  | .active => 1
  | .exitFade => 2

/-- LOOP (10_state.md R135, R136). -/
structure LoopUnit where
  lenS : F32
  bars : Word
  intensity : F32
  rampS : F32
  xfadeS : F32
  mode : Word
  boostEn : Word
  conn : Word
  inL : F32
  inR : F32
  buildIn : F32
  clockIn : F32
  outL : F32
  outR : F32
  state : LoopState
  loopLen : Word
  xfLen : Word
  pos : F32
  speed : F32
  wcur : Word
  clkPeriod : Word
  req : Bool
  tAct : F32
  tExit : F32
  buildPrev : Bool
  clkPrev : Bool
  clkCount : Nat
  clkEdges : Nat
  deriving DecidableEq, Repr

/-- DLY (10_state.md R140, R141). -/
structure DlyUnit where
  revFb : F32
  revMix : F32
  echoTime : F32
  echoFb : F32
  echoMix : F32
  revIn : F32
  echoInL : F32
  echoInR : F32
  revOut : F32
  echoOutL : F32
  echoOutR : F32
  echoOff : Word
  combW : List Nat
  echoWL : Nat
  echoWR : Nat
  deriving DecidableEq, Repr

/-- ARP (10_state.md R145, R146). -/
structure ArpUnit where
  root : Word
  chord : Word
  bpm : F32
  div : Word
  conn : Word
  clockIn : F32
  pitchOut : F32
  trigOut : F32
  note : Word
  index : Word
  stepCount : Word
  acc : F32
  pulse : Nat
  clkPrev : Bool
  deriving DecidableEq, Repr

/-- The cells of one internal memory that differ from its reset contents: (index, element) pairs, indices strictly
rising, no element equal to what the reset contents hold there (20_memory.md R200; log entries 15 and 17). -/
abbrev Cells := List (Nat × F32)

/-- The seven internal memories (20_memory.md R200). -/
structure Memory where
  bankmem : Cells
  wtStage : Cells
  gsrc : Cells
  ring : Cells
  loopbuf : Cells
  comb : Cells
  echo : Cells
  deriving DecidableEq, Repr

/-- The names of the internal memories (20_memory.md R200). -/
inductive Space where
  | bankmem
  | wtStage
  | gsrc
  | ring
  | loopbuf
  | comb
  | echo
  deriving DecidableEq, Repr

/-- The two command ports (20_memory.md R210). -/
inductive PortId where
  | A
  | L
  deriving DecidableEq, Repr

/-- The other port. -/
def PortId.other : PortId → PortId
  | .A => .L
  | .L => .A

/-- One command port with its end of the host (10_state.md R106; 20_memory.md R210 to R213; log entries 10, 12, 14). -/
structure Port where
  /-- st.port[P].pc: index of the next command word to decode, from the start of the port's stream -/
  pc : Nat
  /-- st.port[P].pending: the first word of a 2-word command whose data word has not arrived yet, or none -/
  pending : Option Word
  /-- the arrived words of the stream from index pc on; none while a word is pending -/
  stream : List Word
  /-- ticks still to run of the TICK at the head; 0 when no TICK is part-way -/
  ticksLeft : Nat
  /-- the response FIFO, the front first -/
  resp : List Word
  /-- the words the host has still to send -/
  unsent : List Word
  /-- the response words the host has removed, the first removed first -/
  taken : List Word
  deriving DecidableEq, Repr

/-- Who moves next (20_memory.md R211 to R213; log entries 9 and 10). -/
inductive Agent where
  /-- the CORE executes for this port, or for the other one where this one is not ready -/
  | port (p : PortId)
  /-- the next word the host sends on this port arrives -/
  | hostSend (p : PortId)
  /-- the host removes the front word of this port's response FIFO -/
  | hostTake (p : PortId)
  deriving DecidableEq, Repr

/-- The agent a free number stands for. -/
def Agent.ofNat (n : Nat) : Agent :=
  match n % 6 with
  | 0 => .port .A
  | 1 => .port .L
  | 2 => .hostSend .A
  | 3 => .hostSend .L
  | 4 => .hostTake .A
  | _ => .hostTake .L

/-- The arbiter (20_memory.md R211, R218; log entry 9). All its fields are the model's own. -/
structure Arbiter where
  /-- who moves at this step -/
  turn : Agent
  /-- how many free values have been drawn -/
  count : Nat
  /-- how many more choices may pass port A over -/
  waitA : Nat
  /-- how many more choices may pass port L over -/
  waitL : Nat
  deriving DecidableEq, Repr

end Sys2Proof.Machine
end

