-- ==== Sys2Proof/Machine/Flags.lean ====
section
/-! DEFINITION. GLOBAL.STATUS: the sticky event bits (10_state.md R150, 60_exceptions.md R900 to R903). The CORE has no
arithmetic flags. -/

namespace Sys2Proof.Machine

/-- The events (60_exceptions.md R901). -/
inductive Event where
  | voiceDrop
  | grainDrop
  | queueOverflow
  | loadFail
  | loadTrunc
  | badCommand
  deriving DecidableEq, Repr

/-- The code of an event, its STATUS bit number (60_exceptions.md R901). -/
def Event.code : Event → Nat
  | .voiceDrop => 0
  | .grainDrop => 1
  | .queueOverflow => 2
  | .loadFail => 3
  | .loadTrunc => 4
  | .badCommand => 5

/-- STATUS with the bit of an event set: `STATUS OR (1 << code)` (60_exceptions.md R902). -/
def raiseBit (e : Event) (status : Word) : Word := status ||| (1#32 <<< e.code)

/-- STATUS with the bits of a mask cleared: `STATUS AND NOT zext_32(m)` (40_host_commands.md R405). -/
def clearBits (mask : BitVec 14) (status : Word) : Word := status &&& ~~~(mask.setWidth 32)

end Sys2Proof.Machine
end

