-- ==== Sys2Proof/Machine/Float.lean ====
section
/-! DEFINITION. IEEE 754 binary32 as the CORE uses it (00_scope.md R12, R15 to R18): every operator rounds once, to
nearest with ties to even; subnormals are kept; conversions between F32 and Int.

A finite F32 is an integer multiple of 2^-149, so its exact value is held as that integer (`scaled`); sums are exact in
Int, products and quotients are exact fractions, and `roundMag` rounds a fraction once. -/

namespace Sys2Proof.Machine

/-- 1.0 in units of 2^-149. -/
def unitScale : Nat := 2 ^ 149

/-- The sign bit. -/
def fSign (x : F32) : Bool := decide (2 ^ 31 ≤ x.toNat)

/-- The biased exponent field, bits 30:23. -/
def fExp (x : F32) : Nat := x.toNat / 2 ^ 23 % 2 ^ 8

/-- The fraction field, bits 22:0. -/
def fFrac (x : F32) : Nat := x.toNat % 2 ^ 23

def isNaN (x : F32) : Bool := fExp x == 255 && fFrac x != 0

def isInf (x : F32) : Bool := fExp x == 255 && fFrac x == 0

def isFinite (x : F32) : Bool := fExp x != 255

/-- The magnitude of a finite value, in units of 2^-149. -/
def scaledMag (x : F32) : Nat :=
  if fExp x = 0 then fFrac x else (2 ^ 23 + fFrac x) * 2 ^ (fExp x - 1)

/-- A finite value, in units of 2^-149. -/
def scaled (x : F32) : Int := if fSign x then -(scaledMag x : Int) else (scaledMag x : Int)

/-- The pattern of the non-negative value nearest to `num / den` units of 2^-149, ties to even; infinity where the
rounded magnitude reaches 2^128 (00_scope.md R15). The spacing at that magnitude is 2^shift units. -/
def roundMag (num den : Nat) : Nat :=
  let shift := Nat.log2 (num / den) - 23
  let step := den * 2 ^ shift
  let q := num / step
  let r := num % step
  let q := if step < 2 * r ∨ (step = 2 * r ∧ q % 2 = 1) then q + 1 else q
  min (shift * 2 ^ 23 + q) 0x7F800000

/-- A pattern from a sign and a magnitude pattern. -/
def packSign (neg : Bool) (mag : Nat) : F32 := BitVec.ofNat 32 (if neg then mag + 2 ^ 31 else mag)

/-- A NaN of unstated sign and payload (00_scope.md R15; log entry 6). -/
def nanOf (a b : F32) : F32 := (Config.nanBits a b &&& 0x803FFFFF#32) ||| 0x7FC00000#32

/-- Sign change: flips the sign bit. -/
def fneg (x : F32) : F32 := x ^^^ 0x80000000#32

/-- `fabs(x)` clears the sign bit (00_scope.md R18). -/
def fabs (x : F32) : F32 := x &&& 0x7FFFFFFF#32

/-- `a + b`, rounded once (00_scope.md R15). -/
def fadd (a b : F32) : F32 :=
  if isNaN a || isNaN b then nanOf a b
  else if isInf a then (if isInf b && fSign a != fSign b then nanOf a b else a)
  else if isInf b then b
  else
    let n := scaled a + scaled b
    if n = 0 then packSign (fSign a && fSign b) 0
    else packSign (decide (n < 0)) (roundMag n.natAbs 1)

/-- `a − b`, rounded once (00_scope.md R15). -/
def fsub (a b : F32) : F32 := fadd a (fneg b)

/-- `a · b`, rounded once (00_scope.md R15). -/
def fmul (a b : F32) : F32 :=
  let neg := fSign a != fSign b
  if isNaN a || isNaN b then nanOf a b
  else if isInf a || isInf b then
    (if scaledMag a = 0 ∨ scaledMag b = 0 then nanOf a b else packSign neg 0x7F800000)
  else packSign neg (roundMag (scaledMag a * scaledMag b) unitScale)

/-- `a / b`, rounded once (00_scope.md R15). -/
def fdiv (a b : F32) : F32 :=
  let neg := fSign a != fSign b
  if isNaN a || isNaN b then nanOf a b
  else if isInf a then (if isInf b then nanOf a b else packSign neg 0x7F800000)
  else if isInf b then packSign neg 0
  else if scaledMag b = 0 then (if scaledMag a = 0 then nanOf a b else packSign neg 0x7F800000)
  else packSign neg (roundMag (scaledMag a * unitScale) (scaledMag b))

/-- The order of patterns that are no NaN: −0.0 and +0.0 are one value (00_scope.md R15). -/
def orderKey (x : F32) : Int :=
  if fSign x then -((x.toNat % 2 ^ 31 : Nat) : Int) else ((x.toNat % 2 ^ 31 : Nat) : Int)

/-- `a < b`; false where an operand is NaN. -/
def flt (a b : F32) : Bool := !isNaN a && !isNaN b && decide (orderKey a < orderKey b)

/-- `a <= b`; false where an operand is NaN. -/
def fle (a b : F32) : Bool := !isNaN a && !isNaN b && decide (orderKey a ≤ orderKey b)

/-- `a == b`; false where an operand is NaN. -/
def feq (a b : F32) : Bool := !isNaN a && !isNaN b && decide (orderKey a = orderKey b)

/-- `clamp(x, lo, hi)` on F32: NaN gives `lo` (00_scope.md R16). -/
def fclamp (x lo hi : F32) : F32 :=
  if isNaN x then lo else if flt x lo then lo else if flt hi x then hi else x

/-- `clamp` on integers (00_scope.md R16). -/
def clampInt (x lo hi : Int) : Int := if x < lo then lo else if hi < x then hi else x

/-- `max` on F32; a NaN operand gives an unstated value (00_scope.md R18; log entry 7). -/
def fmax (a b : F32) : F32 :=
  if isNaN a || isNaN b then Config.minMaxNaN a b else if flt a b then b else a

/-- `min` on F32; a NaN operand gives an unstated value (00_scope.md R18; log entry 7). -/
def fmin (a b : F32) : F32 :=
  if isNaN a || isNaN b then Config.minMaxNaN a b else if flt b a then b else a

/-- `lerp(a, b, t) = a + t·(b − a)`, three roundings (00_scope.md R17). -/
def lerp (a b t : F32) : F32 := fadd a (fmul t (fsub b a))

/-- `floor(x)`: the largest Int at most x (00_scope.md R18); unstated where x is not finite (log entry 8). -/
def ffloor (x : F32) : Int :=
  if isFinite x then scaled x / (unitScale : Int) else Config.floorNonFinite x

/-- `ceil(x)`: the smallest Int at least x (00_scope.md R18); unstated where x is not finite (log entry 8). -/
def fceil (x : F32) : Int :=
  if isFinite x then -(-scaled x / (unitScale : Int)) else Config.floorNonFinite x

/-- `toIntSat(x, lo, hi) = clamp(floor(x), lo, hi)`, and `lo` for NaN (00_scope.md R18). -/
def toIntSat (x : F32) (lo hi : Int) : Int := if isNaN x then lo else clampInt (ffloor x) lo hi

/-- `toF32(n)`: the binary32 value nearest to the Int n, ties to even (00_scope.md R18). -/
def toF32 (n : Int) : F32 := packSign (decide (n < 0)) (roundMag (n.natAbs * unitScale) 1)

/-- A non-finite data word is replaced by 0.0 (00_scope.md R20, 42_wavetable.md R521, 45_granular.md R661). -/
def finiteOrZero (x : F32) : F32 := if isFinite x then x else 0

end Sys2Proof.Machine
end

