-- ==== Sys2Proof/Machine/Cells.lean ====
section
/-! DEFINITION. One internal memory as a canonical list of cells: reading and writing an element, and writing a block.
`dflt` gives the reset contents, which every unlisted index holds (20_memory.md R201, R202; log entry 17). -/

namespace Sys2Proof.Machine

/-- The element at an index (20_memory.md R201). -/
def cellsRead (dflt : Nat → F32) : Cells → Nat → F32
  | [], a => dflt a
  | (b, v) :: m, a => if a = b then v else cellsRead dflt m a

/-- Stores an element (20_memory.md R201), keeping the canonical form: an element equal to the reset contents is not
listed. -/
def cellsWrite (dflt : Nat → F32) : Cells → Nat → F32 → Cells
  | [], a, v => if v = dflt a then [] else [(a, v)]
  | (b, u) :: m, a, v =>
    if a < b then (if v = dflt a then (b, u) :: m else (a, v) :: (b, u) :: m)
    else if a = b then (if v = dflt a then m else (a, v) :: m)
    else (b, u) :: cellsWrite dflt m a v

/-- The listed cells of the elements `vs` stored from index `base` on. -/
def blockCells (dflt : Nat → F32) (base : Nat) (vs : List F32) : Cells :=
  ((vs.zipIdx base).map Prod.swap).filter fun c => c.2 != dflt c.1

/-- Stores the elements `vs` at the indices from `base` on, in one pass; Laws/Memory.lean says that it reads back as
element-wise stores do. -/
def cellsWriteBlock (dflt : Nat → F32) (m : Cells) (base : Nat) (vs : List F32) : Cells :=
  m.filter (fun c => decide (c.1 < base)) ++ blockCells dflt base vs
    ++ m.filter (fun c => decide (base + vs.length ≤ c.1))

/-- The canonical form: indices strictly rising and below `size`, no element equal to the reset contents. -/
def cellsWf (size : Nat) (dflt : Nat → F32) (m : Cells) : Bool :=
  decide (m.Pairwise fun c d => c.1 < d.1) && m.all fun c => decide (c.1 < size) && (c.2 != dflt c.1)

end Sys2Proof.Machine
end

