-- ==== Sys2Proof/Machine/Mip.lean ====
section
/-! DEFINITION. Wavetable mip levels and the resampling of a staged bank, as functions on samples (42_wavetable.md R501,
R522). -/

namespace Sys2Proof.Machine

/-- The element of mip level k ≥ 1 at index i of a table of n samples: the sum of the 2^k samples at the offsets
−2^(k−1) to 2^(k−1)−1, circularly and in ascending offset order, divided by 2^k (42_wavetable.md R501). -/
def windowMean (y : Nat → F32) (n k i : Nat) : F32 :=
  let acc := (List.range (2 ^ k)).foldl (fun acc (j : Nat) =>
    fadd acc (y (((i : Int) + (j : Int) - ((2 ^ (k - 1) : Nat) : Int)) % (n : Int)).toNat)) 0
  fdiv acc (toF32 ((2 ^ k : Nat) : Int))

/-- The element of mip level k at index i: the raw table at level 0, the box-filtered one above (42_wavetable.md R501). -/
def mipElem (y : Nat → F32) (n k i : Nat) : F32 := if k = 0 then y i else windowMean y n k i

/-- Sample j of the staged samples `stage 0 … stage (n − 1)` resampled to M samples (42_wavetable.md R522). -/
def resampleElem (n M : Nat) (stage : Nat → F32) (j : Nat) : F32 :=
  if n = M then stage j
  else
    let ratio := fdiv (toF32 ((n : Int) - 1)) (toF32 ((M : Int) - 1))
    let pos := fmul (toF32 j) ratio
    let i0 := toIntSat pos 0 ((n : Int) - 1)
    let i1 := min (i0 + 1) ((n : Int) - 1)
    lerp (stage i0.toNat) (stage i1.toNat) (fsub pos (toF32 i0))

/-- The largest magnitude of a list of samples (42_wavetable.md R522). -/
def peakOf (vs : List F32) : F32 := vs.foldl (fun p v => fmax p (fabs v)) 0

/-- Scaling to unit peak, unless every sample is zero (42_wavetable.md R522). -/
def normalise (vs : List F32) : List F32 :=
  let peak := peakOf vs
  if flt 0 peak then vs.map fun v => fdiv v peak else vs

/-- The M level-0 samples of a bank built from n staged samples (42_wavetable.md R522). -/
def level0 (n M : Nat) (stage : Nat → F32) : List F32 :=
  normalise ((List.range M).map (resampleElem n M stage))

/-- A whole physical slot in the element order of 42_wavetable.md R500, frame by frame and level by level, from its
level-0 samples (42_wavetable.md R501, R522). -/
def slotImage (cfg : Config.Params) (v : Array F32) : List F32 :=
  (List.range cfg.numFrames).flatMap fun f =>
    (List.range cfg.mipLevels).flatMap fun k =>
      (List.range cfg.tableSize).map fun i =>
        mipElem (fun j => v.getD (f * cfg.tableSize + j) 0) cfg.tableSize k i

end Sys2Proof.Machine
end

