-- ==== Sys2Proof/Machine/ResetValues.lean ====
section
/-! DEFINITION. The reset value of every register, hidden element and internal memory (10_state.md, 20_memory.md R202,
70_reset_and_hazards.md R950). State.reset and SRESET are made of these. -/

namespace Sys2Proof.Machine

/-- DEFAULT_BANK, one element in the order bank, frame, sample: some finite value in [−1, 1] (00_scope.md R9; log
entry 4). -/
def defaultBankElem (i : Nat) : F32 := fclamp (Config.defaultBankFree i) 0xBF800000 0x3F800000

/-- The length of DEFAULT_SRC: some number in [2, SRC_MAX] (00_scope.md R9; log entry 5). -/
def defaultSrcLen (cfg : Config.Params) : Nat := max 2 (min cfg.srcMax Config.defaultSrcLenFree)

/-- DEFAULT_SRC, one element: some finite value (00_scope.md R9; log entry 5). -/
def defaultSrcElem (i : Nat) : F32 := finiteOrZero (Config.defaultSrcFree i)

/-- The number of elements of one physical slot of BANKMEM (20_memory.md R200). -/
def slotSize (cfg : Config.Params) : Nat := cfg.numFrames * cfg.mipLevels * cfg.tableSize

/-- The number of elements of a memory (20_memory.md R200). -/
def spaceSize (cfg : Config.Params) : Space → Nat
  | .bankmem => (cfg.numBanks + 1) * slotSize cfg
  | .wtStage => cfg.stageMax
  | .gsrc => 2 * cfg.srcMax
  | .ring => Config.nch * cfg.ringCap
  | .loopbuf => Config.nch * cfg.loopMax
  | .comb => cfg.nComb * cfg.dlyCap
  | .echo => Config.nch * cfg.dlyCap

/-- BANKMEM at reset: the default banks with their generated mips, the spare slot 0.0 (20_memory.md R202). -/
def bankResetElem (cfg : Config.Params) (a : Nat) : F32 :=
  let i := a % cfg.tableSize
  let k := a / cfg.tableSize % cfg.mipLevels
  let table := a / (cfg.tableSize * cfg.mipLevels)
  if table / cfg.numFrames < cfg.numBanks then
    mipElem (fun j => defaultBankElem (table * cfg.tableSize + j)) cfg.tableSize k i
  else 0

/-- GSRC at reset: DEFAULT_SRC in buffer 0, 0.0 above it and in buffer 1 (20_memory.md R202). -/
def gsrcResetElem (cfg : Config.Params) (a : Nat) : F32 :=
  if a < cfg.srcMax ∧ a < defaultSrcLen cfg then defaultSrcElem a else 0

/-- What a memory holds at reset, and so at every index its list does not name (20_memory.md R202; log entries 16 and
17). -/
def resetElem (cfg : Config.Params) (sp : Space) (a : Nat) : F32 :=
  if a < spaceSize cfg sp then
    match sp with
    | .bankmem => bankResetElem cfg a
    | .gsrc => gsrcResetElem cfg a
    | .wtStage | .ring | .loopbuf | .comb | .echo => 0
  else Config.absentElem a

/-- Every memory at its reset contents. -/
def memoryReset : Memory := ⟨[], [], [], [], [], [], []⟩

/-- 10_state.md R101; DT is 1.0 / SR_RESET with one rounding. -/
def globalReset (cfg : Config.Params) : GlobalRegs where
  sampleRate := cfg.srReset
  dt := fdiv 0x3F800000 cfg.srReset
  status := 0
  tickCount := 0

/-- 10_state.md R110, R111. -/
def oscReset : OscUnit where
  wave := 0
  pitch := 0
  harmN := 0
  harmStr := 0
  conn := 0
  voctIn := 0
  syncIn := 0
  out := 0
  phase := 0
  freq := 0
  syncPrev := false

/-- 10_state.md R115, R116. -/
def wtReset (cfg : Config.Params) : WtUnit where
  bank := 0
  framePos := 0
  pitch := 0
  quality := 2
  conn := 0
  voctIn := 0
  frameIn := 0
  out := 0
  phase := 0
  mip := 0
  slotOf := List.range cfg.numBanks
  spare := cfg.numBanks
  loading := false
  target := 0
  count := 0
  ready := List.replicate cfg.numBanks true

/-- 10_state.md R120, R121. -/
def envReset : EnvUnit where
  attack := 0x3C23D70A        -- 0.01
  decay := 0x3DCCCCCD         -- 0.1
  sustain := 0x3F000000       -- 0.5
  release := 0x3E800000       -- 0.25
  variant := 0
  gateIn := 0
  out := 0
  level := 0
  state := .idle
  gatePrev := false

/-- 10_state.md R126. -/
def voiceReset (cfg : Config.Params) : Voice where
  active := false
  gate := false
  gatePrev := false
  primed := false
  freq := 0
  target := 0
  phase := List.replicate cfg.nStack 0
  envState := .idle
  envLevel := 0
  wave := 0

/-- 10_state.md R125. -/
def vpoolReset (cfg : Config.Params) : VoicePool where
  wave := 0
  attack := 0x3C23D70A        -- 0.01
  decay := 0x3DCCCCCD         -- 0.1
  sustain := 0x3F000000       -- 0.5
  release := 0x3E800000       -- 0.25
  variant := 0
  glide := 0x3C23D70A         -- 0.01
  detune := 0
  out := 0
  lastSlot := 0xFFFFFFFF
  voices := List.replicate cfg.nVoices (voiceReset cfg)

/-- 10_state.md R131. -/
def grainReset : Grain where
  active := false
  elapsed := 0
  dur := 0
  phase := 0
  rate := 0

/-- 10_state.md R130, R131. -/
def granReset (cfg : Config.Params) : GranUnit where
  bpm := 0x42F00000           -- 120.0
  density := 0x3F000000       -- 0.5
  vitality := 0
  position := 0
  size := 0x3D4CCCCD          -- 0.05
  rate := 0x3F800000          -- 1.0
  rng := cfg.rngSeedReset
  conn := 0
  clockIn := 0
  out := 0
  spawnCount := 0
  srcLen := BitVec.ofNat 32 (defaultSrcLen cfg)
  srcRate := cfg.defaultSrcRate
  clkPeriod := 0
  schedT := 0
  clkPrev := false
  clkCount := 0
  clkEdges := 0
  queue := []
  srcLoading := false
  srcCount := 0
  srcStageRate := 0
  srcCur := 0
  grains := List.replicate cfg.nGrains grainReset

/-- 10_state.md R135, R136. -/
def loopReset : LoopUnit where
  lenS := 0x3F800000          -- 1.0
  bars := 1
  intensity := 0x40000000     -- 2.0
  rampS := 0x40800000         -- 4.0
  xfadeS := 0x3C23D70A        -- 0.01
  mode := 0
  boostEn := 1
  conn := 0
  inL := 0
  inR := 0
  buildIn := 0
  clockIn := 0
  outL := 0
  outR := 0
  state := .idle
  loopLen := 0
  xfLen := 0
  pos := 0
  speed := 0x3F800000         -- 1.0
  wcur := 0
  clkPeriod := 0
  req := false
  tAct := 0
  tExit := 0
  buildPrev := false
  clkPrev := false
  clkCount := 0
  clkEdges := 0

/-- 10_state.md R140, R141. -/
def dlyReset (cfg : Config.Params) : DlyUnit where
  revFb := 0x3F400000         -- 0.75
  revMix := 0x3E800000        -- 0.25
  echoTime := 0x3E800000      -- 0.25
  echoFb := 0x3F000000        -- 0.5
  echoMix := 0x3F000000       -- 0.5
  revIn := 0
  echoInL := 0
  echoInR := 0
  revOut := 0
  echoOutL := 0
  echoOutR := 0
  echoOff := 0
  combW := List.replicate cfg.nComb 0
  echoWL := 0
  echoWR := 0

/-- 10_state.md R145, R146. -/
def arpReset : ArpUnit where
  root := 60
  chord := 0
  bpm := 0x42F00000           -- 120.0
  div := 2
  conn := 0
  clockIn := 0
  pitchOut := 0
  trigOut := 0
  note := 60
  index := 0
  stepCount := 0
  acc := 0
  pulse := 0
  clkPrev := false

/-- A port at power-on: position 0, nothing pending, no response (70_reset_and_hazards.md R950); no word has arrived
and the host has none to send (log entries 10 and 11). -/
def portReset : Port := ⟨0, none, [], 0, [], [], []⟩

/-- The arbiter at power-on: the first free choices (log entry 9). -/
def arbiterReset : Arbiter where
  turn := Agent.ofNat (Config.schedule 0)
  count := 2
  waitA := Config.patience 0
  waitL := Config.patience 1

end Sys2Proof.Machine
end

