-- ==== Sys2Proof/Machine/State.lean ====
section
/-! DEFINITION. The state of the CORE, the (empty) faults, the refusals, and the state after power-on reset. -/

namespace Sys2Proof.Machine

/-- Everything the spec gives the CORE (10_state.md, 20_memory.md), the parameter instance, and the model's own fields
`sched` and `serving` (log entry 9). -/
structure State where
  /-- the parameter instance (00_scope.md R9; log entry 1): no command and no tick changes it -/
  cfg : Config.Params
  global : GlobalRegs
  osc : OscUnit
  wt : WtUnit
  env : EnvUnit
  vpool : VoicePool
  gran : GranUnit
  loop : LoopUnit
  dly : DlyUnit
  arp : ArpUnit
  mem : Memory
  portA : Port
  portL : Port
  /-- the arbiter: who moves next, and how long a port may still be passed over (the model's own field; log entry 9) -/
  sched : Arbiter
  /-- the port whose command is executing: the P of 40_host_commands.md R400 (the model's own field; log entry 9) -/
  serving : PortId
  deriving DecidableEq, Repr

/-- Why the CORE stops with a fault: never. The spec defines no fault for any command or tick (40_host_commands.md
R401, 60_exceptions.md R904, R905; log entry 18), so the type has no constructor; nobody raises one. -/
inductive Fault where
  deriving DecidableEq, Repr

/-- Why an instruction has no meaning. -/
inductive Refusal where
  /-- raised by an arm of exec whose instruction has no meaning yet, and by nothing else; safe (the model stops where
  the hardware goes on). No arm raises it. -/
  | notModelled (mnemonic : String)
  deriving DecidableEq, Repr

/-- The state after power-on reset of an instance (70_reset_and_hazards.md R950). -/
def State.resetOf (cfg : Config.Params) : State where
  cfg := cfg
  global := globalReset cfg
  osc := oscReset
  wt := wtReset cfg
  env := envReset
  vpool := vpoolReset cfg
  gran := granReset cfg
  loop := loopReset
  dly := dlyReset cfg
  arp := arpReset
  mem := memoryReset
  portA := portReset
  portL := portReset
  sched := arbiterReset
  serving := .A

/-- The state after power-on reset of the default instance (70_reset_and_hazards.md R950, 00_scope.md R9). -/
def State.reset : State := State.resetOf Config.Params.default

end Sys2Proof.Machine
end

