-- ==== Sys2Proof/Machine/Ops.lean ====
section
/-! DEFINITION. The named operations on the state: reading and writing the internal memories, raising an event (the
CORE's only form of exception: it sets a STATUS bit and execution goes on), the command ports, and reset. -/

namespace Sys2Proof.Machine

/-! ## Internal memories (20_memory.md R200, R201) -/

/-- The cells of a memory. -/
def Memory.cells (m : Memory) : Space → Cells
  | .bankmem => m.bankmem
  | .wtStage => m.wtStage
  | .gsrc => m.gsrc
  | .ring => m.ring
  | .loopbuf => m.loopbuf
  | .comb => m.comb
  | .echo => m.echo

/-- The memories with the cells of one replaced. -/
def Memory.setCells (m : Memory) (sp : Space) (c : Cells) : Memory :=
  match sp with
  | .bankmem => { m with bankmem := c }
  | .wtStage => { m with wtStage := c }
  | .gsrc => { m with gsrc := c }
  | .ring => { m with ring := c }
  | .loopbuf => { m with loopbuf := c }
  | .comb => { m with comb := c }
  | .echo => { m with echo := c }

/-- `MemRead(space, a, 1)` (20_memory.md R201). -/
def Memory.read (cfg : Config.Params) (m : Memory) (sp : Space) (a : Nat) : F32 :=
  cellsRead (resetElem cfg sp) (m.cells sp) a

/-- `MemWrite(space, a, 1, v)` (20_memory.md R201). -/
def Memory.write (cfg : Config.Params) (m : Memory) (sp : Space) (a : Nat) (v : F32) : Memory :=
  m.setCells sp (cellsWrite (resetElem cfg sp) (m.cells sp) a v)

/-- `MemWrite` of consecutive elements from index `base` on. -/
def Memory.writeBlock (cfg : Config.Params) (m : Memory) (sp : Space) (base : Nat) (vs : List F32) : Memory :=
  m.setCells sp (cellsWriteBlock (resetElem cfg sp) (m.cells sp) base vs)

/-- The canonical form of every memory. -/
def Memory.wf (cfg : Config.Params) (m : Memory) : Bool :=
  cellsWf (spaceSize cfg .bankmem) (resetElem cfg .bankmem) m.bankmem
    && cellsWf (spaceSize cfg .wtStage) (resetElem cfg .wtStage) m.wtStage
    && cellsWf (spaceSize cfg .gsrc) (resetElem cfg .gsrc) m.gsrc
    && cellsWf (spaceSize cfg .ring) (resetElem cfg .ring) m.ring
    && cellsWf (spaceSize cfg .loopbuf) (resetElem cfg .loopbuf) m.loopbuf
    && cellsWf (spaceSize cfg .comb) (resetElem cfg .comb) m.comb
    && cellsWf (spaceSize cfg .echo) (resetElem cfg .echo) m.echo

/-- One element of the CORE's memory. -/
def State.read (s : State) (sp : Space) (a : Nat) : F32 := s.mem.read s.cfg sp a

/-- The CORE with one element of its memory written. -/
def State.write (s : State) (sp : Space) (a : Nat) (v : F32) : State := { s with mem := s.mem.write s.cfg sp a v }

/-! ## Events (60_exceptions.md R900 to R903): taking an "exception" on this hardware -/

/-- `raise Event(info)`: sets the event's STATUS bit and nothing else; execution continues (60_exceptions.md R900,
R902). There is no trap to enter and none to return from (60_exceptions.md R904). -/
def State.raise (e : Event) (s : State) : State :=
  { s with global := { s.global with status := raiseBit e s.global.status } }

/-! ## Command ports (10_state.md R106; 20_memory.md R210 to R213) -/

/-- The arrived words of a port from its position on, the pending one first. -/
def Port.words (p : Port) : List Word := p.pending.toList ++ p.stream

/-- A port with these arrived words from its position on: the first word of a 2-word command is pending exactly while it
is alone, its data word not having arrived (10_state.md R106, 20_memory.md R212). -/
def Port.withWords (p : Port) (ws : List Word) : Port :=
  match ws with
  | [w] => if commandLength w = 2 then { p with pending := some w, stream := [] } else { p with pending := none, stream := [w] }
  | ws => { p with pending := none, stream := ws }

/-- The head command's word and data word (0 for a 1-word command), if all its words have arrived
(40_host_commands.md R400, 20_memory.md R212). -/
def Port.head (p : Port) : Option (Word × Word) :=
  match p.words with
  | [] => none
  | w :: rest =>
    if commandLength w = 1 then some (w, 0)
    else match rest with
      | d :: _ => some (w, d)
      | [] => none

/-- Whether the response FIFO holds RESP_DEPTH words (20_memory.md R213). -/
def Port.respFull (cfg : Config.Params) (p : Port) : Bool := decide (cfg.respDepth ≤ p.resp.length)

/-- Whether the port can execute: its head command has arrived, and it is no RDREG waiting on a full FIFO (20_memory.md
R211 to R213; log entry 13). -/
def Port.ready (cfg : Config.Params) (p : Port) : Bool :=
  match p.head with
  | none => false
  | some (w, _) => !(opField w == 0x03 && p.respFull cfg)

/-- The port past a finished command of n words (10_state.md R106, 40_host_commands.md R400). -/
def Port.retire (n : Nat) (p : Port) : Port := { p with pc := p.pc + n, ticksLeft := 0 }.withWords (p.words.drop n)

/-- The next word the host sends arrives (20_memory.md R210; log entry 10). -/
def Port.hostSend (p : Port) : Port :=
  match p.unsent with
  | [] => p
  | w :: ws => { p with unsent := ws }.withWords (p.words ++ [w])

/-- The host removes the front word of the response FIFO (20_memory.md R213; log entry 10). -/
def Port.hostTake (p : Port) : Port :=
  match p.resp with
  | [] => p
  | w :: ws => { p with resp := ws, taken := p.taken ++ [w] }

def State.port (s : State) : PortId → Port
  | .A => s.portA
  | .L => s.portL

def State.setPort (s : State) (p : PortId) (q : Port) : State :=
  match p with
  | .A => { s with portA := q }
  | .L => { s with portL := q }

/-- The port whose command is executing moves past it: n words (40_host_commands.md R400). -/
def State.retire (n : Nat) (s : State) : State := s.setPort s.serving ((s.port s.serving).retire n)

/-- `respond(P, w)`: appends a word to the response FIFO of the port whose command is executing (20_memory.md R213). -/
def State.respond (w : Word) (s : State) : State :=
  s.setPort s.serving { s.port s.serving with resp := (s.port s.serving).resp ++ [w] }

/-- The port whose command is executing holds a TICK with k ticks left (40_host_commands.md R407). -/
def State.holdTick (k : Nat) (s : State) : State :=
  s.setPort s.serving { s.port s.serving with ticksLeft := k }

/-- A command that is refused with BadCommand: raises the event, moves past the command, changes nothing else
(40_host_commands.md R400, 30_encoding.md R306). -/
def State.badCommand (n : Nat) (s : State) : State := (s.raise .badCommand).retire n

/-- The port that executes when it is port p's turn: p if it is ready, else the other if that is (20_memory.md R211). -/
def State.grant (s : State) (p : PortId) : Option PortId :=
  if (s.port p).ready s.cfg then some p
  else if (s.port p.other).ready s.cfg then some p.other
  else none

/-- The agent after this one: a free choice, but a port that may not be passed over again comes next, and a port that
gets a turn draws how long it may be passed over until the one after. So a port has a turn after finitely many steps, with
no bound on how many: the arbiter is weakly fair and nothing else is known of it (20_memory.md R211, R218; log entry 9). -/
def Arbiter.next (c : Arbiter) : Arbiter :=
  let turn : Agent :=
    if c.waitA = 0 then .port .A else if c.waitL = 0 then .port .L else Agent.ofNat (Config.schedule c.count)
  { turn := turn
    count := c.count + 1
    waitA := if turn = .port .A then Config.patience c.count + 1 else c.waitA - 1
    waitL := if turn = .port .L then Config.patience c.count + 1 else c.waitL - 1 }

/-- The state with the agent after this one chosen (20_memory.md R211; log entry 9). -/
def State.reschedule (s : State) : State := { s with sched := s.sched.next }

/-- The execution of an illegal word of a port: BadCommand; an illegal RDREG answers 0; the port moves past the
command by its length (40_host_commands.md R400, 30_encoding.md R306, R307). -/
def State.illegal (w : Word) (s : State) : State :=
  if opField w = 0x03 then ((s.raise .badCommand).respond 0).retire (commandLength w)
  else s.badCommand (commandLength w)

/-! ## Reset (70_reset_and_hazards.md R950, R952) -/

/-- `reset_core()` as SRESET runs it: everything but the ports (and the model's own fields) at its reset value
(40_host_commands.md R410, 70_reset_and_hazards.md R950; log entry 14). -/
def State.resetCore (s : State) : State :=
  { State.resetOf s.cfg with
    portA := s.portA, portL := s.portL, sched := s.sched, serving := s.serving }

/-- `reset_unit(u)` for u in [1, 8]: the unit's registers, hidden elements and memories; for another u, nothing
(70_reset_and_hazards.md R952). -/
def State.resetUnit (u : Nat) (s : State) : State :=
  match u with
  | 1 => { s with osc := oscReset }
  | 2 => { s with wt := wtReset s.cfg, mem := { s.mem with bankmem := [], wtStage := [] } }
  | 3 => { s with env := envReset }
  | 4 => { s with vpool := vpoolReset s.cfg }
  | 5 => { s with gran := granReset s.cfg, mem := { s.mem with gsrc := [] } }
  | 6 => { s with loop := loopReset, mem := { s.mem with ring := [], loopbuf := [] } }
  | 7 => { s with dly := dlyReset s.cfg, mem := { s.mem with comb := [], echo := [] } }
  | 8 => { s with arp := arpReset }
  | _ => s

end Sys2Proof.Machine
end

