-- ==== Sys2Proof/Machine/Transcend.lean ====
section
/-! DEFINITION. The configuration functions `fexp2` and `fsin2pi` (00_scope.md R30, R31). Each is exact where the rule
says so; elsewhere in the rule's domain it is a free value that is kept inside the rule's bound, no more and no less (log
entries 2 and 3). The bound is decided by comparing with a fixed-point value of 2^x or sin(2πp) that is closer than 2^-29,
and, where that is too near the edge of the bound to tell, by an exact comparison of rationals. -/

namespace Sys2Proof.Machine

/-! ## Exact comparisons -/

/-- The exact value of a finite F32. -/
def ratOf (x : F32) : Rat := (scaled x : Rat) / (unitScale : Rat)

/-- `z ≤ 2^(j / 2^m)` for z ≥ 0: squared m times, the right side is 2^j. -/
def leExp2 (z : Rat) (j : Int) : Nat → Bool
  | 0 => decide (z ≤ 2 ^ j)
  | m + 1 => leExp2 (z * z) j m

/-- `2^(j / 2^m) ≤ z` for z ≥ 0. -/
def exp2Le (z : Rat) (j : Int) : Nat → Bool
  | 0 => decide (2 ^ j ≤ z)
  | m + 1 => exp2Le (z * z) j m

/-- `z ≤ cos(π·j / 2^m)` for j ≤ 2^m, by doubling the angle: where the cosine is not negative, z is at most it exactly when
z ≤ 0 or 2z² − 1 is at most the cosine of the double angle; where it is negative, the same of the angle from π. -/
def leCos (z : Rat) : Nat → Nat → Bool
  | j, 0 => decide (z ≤ if j = 0 then 1 else -1)
  | j, m + 1 =>
    if j ≤ 2 ^ m then decide (z ≤ 0) || leCos (2 * (z * z) - 1) j m
    else decide (z < 0) && leCos (1 - 2 * (z * z)) (j - 2 ^ m) m

/-- The j ≤ 2^150 with sin(2πp) = cos(π·j / 2^150), for p in [0, 1): the angle from the crest at p = 1/4. -/
def crestAngle (p : F32) : Nat :=
  let k := ((4 * scaledMag p : Nat) - (unitScale : Int)).natAbs
  min k (2 ^ 151 - k)

/-! ## fexp2 -/

/-- 1.0 in 60-bit fixed point. -/
def fix60 : Nat := 2 ^ 60

/-- ln 2 in 60-bit fixed point. -/
def ln2Fix : Nat := 799144290325165979

/-- π/2 in 60-bit fixed point. -/
def halfPiFix : Nat := 1811004864519280711

/-- The Taylor polynomial of e^t by Horner's rule: `1 + t/1·(1 + t/2·(… (1 + t/k·acc)))`, in fixed point. -/
def expHorner (one t : Nat) : Nat → Nat → Nat
  | 0, acc => acc
  | k + 1, acc => expHorner one t k (one + t * acc / ((k + 1) * one))

/-- 2^f for f in [0, 1), both in 60-bit fixed point. -/
def exp2Fix (f : Nat) : Nat := expHorner fix60 (f * ln2Fix / fix60) 20 fix60

/-- 2^x in units of 2^-149 for a finite x in [−20, 20]. -/
def exp2Scaled (x : F32) : Nat :=
  let n := ffloor x
  let f := ((scaled x - n * (unitScale : Int)).toNat * fix60) / unitScale
  exp2Fix f * 2 ^ (n + 89).toNat

/-- `(1 − 2^-16)·2^x ≤ y ≤ (1 + 2^-16)·2^x`, compared exactly (00_scope.md R30 (b)). -/
def exp2Within (x y : F32) : Bool :=
  leExp2 (ratOf y / (1 + 1 / 2 ^ 16)) (scaled x) 149 && exp2Le (ratOf y / (1 - 1 / 2 ^ 16)) (scaled x) 149

/-- Whether `y` is finite, positive and within `2^-16 · 2^x` of 2^x (00_scope.md R30 (b), (c)), for x in [−20, 20]. An
error below 2^-16 − 2^-28 or above 2^-16 + 2^-28 against the fixed-point 2^x decides; else the exact comparison does. -/
def exp2Admits (x y : F32) : Bool :=
  let a := exp2Scaled x
  let err := ((scaledMag y : Int) - (a : Int)).natAbs
  isFinite y && !fSign y
    && (if err * 2 ^ 28 ≤ a * (2 ^ 12 - 1) then true
      else if a * (2 ^ 12 + 1) < err * 2 ^ 28 then false
      else exp2Within x y)

/-- The integer k with x = toF32(k), if there is one; −0.0 is not toF32(0). -/
def exactInt (x : F32) : Option Int :=
  if isFinite x && decide (scaled x = ffloor x * (unitScale : Int)) && x != 0x80000000#32 then some (ffloor x) else none

/-- `fexp2`: exactly 2^k at every integer k in [−126, 127] (R30 (a)); within 2^-16 of 2^x, so finite and positive, on
[−20, 20] (R30 (b), (c)); unconstrained elsewhere (00_scope.md R30; log entry 2). -/
def fexp2 (x : F32) : F32 :=
  match exactInt x with
  | some k =>
    if -126 ≤ k ∧ k ≤ 127 then BitVec.ofNat 32 ((k + 127).toNat * 2 ^ 23) else Config.fexp2Free x
  | none =>
    if isFinite x && decide (scaledMag x ≤ 20 * unitScale) then
      (if exp2Admits x (Config.fexp2Free x) then Config.fexp2Free x else packSign false (roundMag (exp2Scaled x) 1))
    else Config.fexp2Free x

/-! ## fsin2pi -/

/-- The Taylor polynomial of sin(t)/t by Horner's rule on t², in fixed point. -/
def sinHorner (one t2 : Nat) : Nat → Nat → Nat
  | 0, acc => acc
  | k + 1, acc => sinHorner one t2 k (one - t2 * acc / ((2 * k + 2) * (2 * k + 3) * one))

/-- sin(π/2 · r) for r in [0, 1], both in 60-bit fixed point. -/
def quarterSine (r : Nat) : Nat :=
  let t := r * halfPiFix / fix60
  min fix60 (t * sinHorner fix60 (t * t / fix60) 12 fix60 / fix60)

/-- sin(π/2 · (k + r)) for the quarter period k < 4 and r in [0, 1], in 60-bit fixed point. -/
def sinQuadrant (k r : Nat) : Int :=
  match k with
  | 0 => (quarterSine r : Int)
  | 1 => (quarterSine (fix60 - r) : Int)
  | 2 => -(quarterSine r : Int)
  | _ => -(quarterSine (fix60 - r) : Int)

/-- sin(2πp) in 60-bit fixed point for p in [0, 1). -/
def sinFix (p : F32) : Int :=
  sinQuadrant (4 * scaledMag p / unitScale) (4 * scaledMag p % unitScale * fix60 / unitScale)

/-- `y − 2^-16 ≤ sin(2πp) ≤ y + 2^-16`, compared exactly (00_scope.md R31 (b)). -/
def sinWithin (p y : F32) : Bool :=
  leCos (ratOf y - 1 / 2 ^ 16) (crestAngle p) 150 && leCos (-(ratOf y + 1 / 2 ^ 16)) (2 ^ 150 - crestAngle p) 150

/-- Whether `y` is finite, in [−1, 1] and within 2^-16 of sin(2πp) (00_scope.md R31 (b), (c)), for p in [0, 1). An error
below 2^-16 − 2^-28 or above 2^-16 + 2^-28 against the fixed-point sine decides; else the exact comparison does. -/
def sinAdmits (p y : F32) : Bool :=
  let err := (scaled y - sinFix p * 2 ^ 89).natAbs
  isFinite y && decide (scaledMag y ≤ unitScale)
    && (if err ≤ 2 ^ 133 - 2 ^ 121 then true
      else if 2 ^ 133 + 2 ^ 121 < err then false
      else sinWithin p y)

/-- `fsin2pi`: exact at 0, 0.25, 0.5 and 0.75 (R31 (a)); within 2^-16 of sin(2πp) and in [−1, 1] on [0, 1) (R31 (b),
(c)); unconstrained elsewhere (00_scope.md R31; log entry 3). -/
def fsin2pi (p : F32) : F32 :=
  if isFinite p && decide (0 ≤ scaled p) && decide (scaledMag p < unitScale) then
    if p = 0 ∨ 2 * scaledMag p = unitScale then 0
    else if 4 * scaledMag p = unitScale then 0x3F800000
    else if 4 * scaledMag p = 3 * unitScale then 0xBF800000
    else if sinAdmits p (Config.fsinFree p) then Config.fsinFree p
    else packSign (decide (sinFix p < 0)) (roundMag ((sinFix p).natAbs * 2 ^ 89) 1)
  else Config.fsinFree p

end Sys2Proof.Machine
end

