-- ==== Sys2Proof/Machine/Operands.lean ====
section
/-! DEFINITION. Operand forms. The register operand of WRREG and RDREG: the register map of 10_state.md (unit and register
number to register, access class, legalisation of a write, value of a read). The operands a tick samples: connected
inputs, gate levels, pitch. -/

namespace Sys2Proof.Machine

/-! ## Constants of the register ranges -/

def f0 : F32 := 0x00000000       -- 0.0
def f1 : F32 := 0x3F800000       -- 1.0
def f0p001 : F32 := 0x3A83126F   -- 0.001
def f8 : F32 := 0x41000000       -- 8.0
def fNeg8 : F32 := 0xC1000000    -- −8.0
def f10 : F32 := 0x41200000      -- 10.0
def f20 : F32 := 0x41A00000      -- 20.0
def f54 : F32 := 0x42580000      -- 54.0
def fNeg54 : F32 := 0xC2580000   -- −54.0
def f100 : F32 := 0x42C80000     -- 100.0
def f300 : F32 := 0x43960000     -- 300.0
def f10000 : F32 := 0x461C4000   -- 10000.0

/-! ## Legalisation (10_state.md R102, R103) -/

/-- `legal(d)` of an F32 P register with range [lo, hi] (10_state.md R102). -/
def legalF (lo hi : F32) (d : Word) : F32 := fclamp d lo hi

/-- `legal(d)` of a U32 P register with range [lo, hi], unsigned (10_state.md R102). -/
def legalU (lo hi : Word) (d : Word) : Word := if d.toNat < lo.toNat then lo else if hi.toNat < d.toNat then hi else d

/-- `legal(d)` of a CONN register: the defined bits (10_state.md R102). -/
def legalMask (mask : Word) (d : Word) : Word := d &&& mask

/-- GRAN.RNG: any value, but 0 stores RNG_SEED_RESET (10_state.md R130, 40_host_commands.md R408). -/
def legalRng (cfg : Config.Params) (d : Word) : Word := if d = 0 then cfg.rngSeedReset else d

/-- The value an input latch stores, in volts (10_state.md R103). -/
def legalIn (cfg : Config.Params) (d : Word) : F32 := fclamp d (fneg cfg.inMax) cfg.inMax

/-! ## Words made of fields -/

/-- Four 8-bit fields, the most significant first (GLOBAL.CFG0, CFG7). -/
def bytes4 (a b c d : Nat) : Word :=
  (BitVec.ofNat 8 a ++ BitVec.ofNat 8 b ++ BitVec.ofNat 8 c ++ BitVec.ofNat 8 d : BitVec 32)

/-- Bit i is element i of the list (WT.BANK_READY, VPOOL.ACTIVE_MASK). -/
def bitsOf : List Bool → Word
  | [] => 0
  | b :: bs => (bitsOf bs <<< 1) ||| (if b then 1 else 0)

/-- WT.LOAD_STATE: bit 0 a load is open, bits 11:8 its target bank (10_state.md R115, R116; log entry 24). -/
def loadStateWord (loading : Bool) (target : Nat) : Word :=
  if loading then (BitVec.ofNat 4 target).setWidth 32 <<< 8 ||| 1 else 0

/-- VPOOL.V_FLAGS of a voice (10_state.md R125). -/
def voiceFlags (v : Voice) : Word :=
  (if v.active then 1 else 0) ||| (if v.gate then 2 else 0) ||| (if v.primed then 4 else 0)
    ||| BitVec.ofNat 32 (v.envState.code * 2 ^ 4) ||| v.wave.setWidth 32 <<< 8

/-! ## The register map (10_state.md) -/

/-- Access classes (10_state.md R100). -/
inductive RegClass where
  /-- parameter: read-write, a write stores the legalised value -/
  | P
  /-- input latch: read-write, a write stores the legalised voltage -/
  | I
  /-- output or status: read-only to the host -/
  | O
  /-- constant: read-only -/
  | C
  deriving DecidableEq, Repr

/-- The registers of GLOBAL (10_state.md R101). -/
inductive GlobalReg where
  | id
  | sampleRate
  | dt
  | status
  | tickCount
  | cfg0
  | cfg1
  | cfg2
  | cfg3
  | cfg4
  | cfg5
  | cfg6
  | cfg7
  | cfg8
  deriving DecidableEq, Repr

/-- The register of GLOBAL at a register number (10_state.md R101). -/
def GlobalReg.ofAddr (r : Nat) : Option GlobalReg :=
  match r with
  | 0x00 => some .id
  | 0x01 => some .sampleRate
  | 0x02 => some .dt
  | 0x03 => some .status
  | 0x04 => some .tickCount
  | 0x05 => some .cfg0
  | 0x06 => some .cfg1
  | 0x07 => some .cfg2
  | 0x08 => some .cfg3
  | 0x09 => some .cfg4
  | 0x0A => some .cfg5
  | 0x0B => some .cfg6
  | 0x0C => some .cfg7
  | 0x0D => some .cfg8
  | _ => none

/-- Access class (10_state.md R101). -/
def GlobalReg.cls : GlobalReg → RegClass
  | .sampleRate => .P
  | .dt | .status | .tickCount => .O
  | .id | .cfg0 | .cfg1 | .cfg2 | .cfg3 | .cfg4 | .cfg5 | .cfg6 | .cfg7 | .cfg8 => .C

/-- The value a read gives (10_state.md R101, R104; 40_host_commands.md R409). -/
def GlobalReg.value (s : State) : GlobalReg → Word
  | .id => 0x4F4D4E37#32
  | .sampleRate => s.global.sampleRate
  | .dt => s.global.dt
  | .status => s.global.status
  | .tickCount => s.global.tickCount
  | .cfg0 => bytes4 s.cfg.nComb s.cfg.numBanks s.cfg.nGrains s.cfg.nVoices
  | .cfg1 => BitVec.ofNat 32 s.cfg.tableSize
  | .cfg2 => (BitVec.ofNat 16 s.cfg.mipLevels ++ BitVec.ofNat 16 s.cfg.numFrames : BitVec 32)
  | .cfg3 => BitVec.ofNat 32 s.cfg.ringCap
  | .cfg4 => BitVec.ofNat 32 s.cfg.dlyCap
  | .cfg5 => BitVec.ofNat 32 s.cfg.srcMax
  | .cfg6 => BitVec.ofNat 32 s.cfg.stageMax
  | .cfg7 => bytes4 0 s.cfg.gqDepth s.cfg.harmMax s.cfg.nStack
  | .cfg8 => BitVec.ofNat 32 s.cfg.loopMax

/-- The unit after a write of a P or I register with the legalised value; a register of another class has no
writable storage (10_state.md R101, R102 to R104). -/
def GlobalReg.store (cfg : Config.Params) (d : Word) (u : GlobalRegs) : GlobalReg → GlobalRegs
  | .sampleRate =>
    let rate := legalF cfg.srMin cfg.srMax d
    { u with sampleRate := rate, dt := fdiv f1 rate }
  | .id | .dt | .status | .tickCount | .cfg0 | .cfg1 | .cfg2 | .cfg3 | .cfg4 | .cfg5 | .cfg6 | .cfg7 | .cfg8 => u

/-- The registers of OSC (10_state.md R110). -/
inductive OscReg where
  | wave
  | pitch
  | harmN
  | harmStr
  | conn
  | voctIn
  | syncIn
  | out
  | phase
  | freq
  deriving DecidableEq, Repr

/-- The register of OSC at a register number (10_state.md R110). -/
def OscReg.ofAddr (r : Nat) : Option OscReg :=
  match r with
  | 0x00 => some .wave
  | 0x01 => some .pitch
  | 0x02 => some .harmN
  | 0x03 => some .harmStr
  | 0x04 => some .conn
  | 0x10 => some .voctIn
  | 0x11 => some .syncIn
  | 0x20 => some .out
  | 0x21 => some .phase
  | 0x22 => some .freq
  | _ => none

/-- Access class (10_state.md R110). -/
def OscReg.cls : OscReg → RegClass
  | .wave | .pitch | .harmN | .harmStr | .conn => .P
  | .voctIn | .syncIn => .I
  | .out | .phase | .freq => .O

/-- The value a read gives (10_state.md R110, R104; 40_host_commands.md R409). -/
def OscReg.value (s : State) : OscReg → Word
  | .wave => s.osc.wave
  | .pitch => s.osc.pitch
  | .harmN => s.osc.harmN
  | .harmStr => s.osc.harmStr
  | .conn => s.osc.conn
  | .voctIn => s.osc.voctIn
  | .syncIn => s.osc.syncIn
  | .out => s.osc.out
  | .phase => s.osc.phase
  | .freq => s.osc.freq

/-- The unit after a write of a P or I register with the legalised value; a register of another class has no
writable storage (10_state.md R110, R102 to R104). -/
def OscReg.store (cfg : Config.Params) (d : Word) (u : OscUnit) : OscReg → OscUnit
  | .wave => { u with wave := legalU 0 3 d }
  | .pitch => { u with pitch := legalF fNeg54 f54 d }
  | .harmN => { u with harmN := legalU 0 (BitVec.ofNat 32 cfg.harmMax) d }
  | .harmStr => { u with harmStr := legalF f0 f1 d }
  | .conn => { u with conn := legalMask 0x3 d }
  | .voctIn => { u with voctIn := legalIn cfg d }
  | .syncIn => { u with syncIn := legalIn cfg d }
  | .out | .phase | .freq => u

/-- The registers of WT (10_state.md R115). -/
inductive WtReg where
  | bank
  | framePos
  | pitch
  | quality
  | conn
  | voctIn
  | frameIn
  | out
  | phase
  | mip
  | bankReady
  | loadState
  | loadCount
  deriving DecidableEq, Repr

/-- The register of WT at a register number (10_state.md R115). -/
def WtReg.ofAddr (r : Nat) : Option WtReg :=
  match r with
  | 0x00 => some .bank
  | 0x01 => some .framePos
  | 0x02 => some .pitch
  | 0x03 => some .quality
  | 0x04 => some .conn
  | 0x10 => some .voctIn
  | 0x11 => some .frameIn
  | 0x20 => some .out
  | 0x21 => some .phase
  | 0x22 => some .mip
  | 0x23 => some .bankReady
  | 0x24 => some .loadState
  | 0x25 => some .loadCount
  | _ => none

/-- Access class (10_state.md R115). -/
def WtReg.cls : WtReg → RegClass
  | .bank | .framePos | .pitch | .quality | .conn => .P
  | .voctIn | .frameIn => .I
  | .out | .phase | .mip | .bankReady | .loadState | .loadCount => .O

/-- The value a read gives (10_state.md R115, R104; 40_host_commands.md R409). -/
def WtReg.value (s : State) : WtReg → Word
  | .bank => s.wt.bank
  | .framePos => s.wt.framePos
  | .pitch => s.wt.pitch
  | .quality => s.wt.quality
  | .conn => s.wt.conn
  | .voctIn => s.wt.voctIn
  | .frameIn => s.wt.frameIn
  | .out => s.wt.out
  | .phase => s.wt.phase
  | .mip => s.wt.mip
  | .bankReady => bitsOf s.wt.ready
  | .loadState => loadStateWord s.wt.loading s.wt.target
  | .loadCount => BitVec.ofNat 32 s.wt.count

/-- The unit after a write of a P or I register with the legalised value; a register of another class has no
writable storage (10_state.md R115, R102 to R104). -/
def WtReg.store (cfg : Config.Params) (d : Word) (u : WtUnit) : WtReg → WtUnit
  | .bank => { u with bank := legalU 0 (BitVec.ofNat 32 (cfg.numBanks - 1)) d }
  | .framePos => { u with framePos := legalF f0 f1 d }
  | .pitch => { u with pitch := legalF fNeg54 f54 d }
  | .quality => { u with quality := legalU 0 2 d }
  | .conn => { u with conn := legalMask 0x3 d }
  | .voctIn => { u with voctIn := legalIn cfg d }
  | .frameIn => { u with frameIn := legalIn cfg d }
  | .out | .phase | .mip | .bankReady | .loadState | .loadCount => u

/-- The registers of ENV (10_state.md R120). -/
inductive EnvReg where
  | attack
  | decay
  | sustain
  | release
  | variant
  | gateIn
  | out
  | level
  | state
  deriving DecidableEq, Repr

/-- The register of ENV at a register number (10_state.md R120). -/
def EnvReg.ofAddr (r : Nat) : Option EnvReg :=
  match r with
  | 0x00 => some .attack
  | 0x01 => some .decay
  | 0x02 => some .sustain
  | 0x03 => some .release
  | 0x04 => some .variant
  | 0x10 => some .gateIn
  | 0x20 => some .out
  | 0x21 => some .level
  | 0x22 => some .state
  | _ => none

/-- Access class (10_state.md R120). -/
def EnvReg.cls : EnvReg → RegClass
  | .attack | .decay | .sustain | .release | .variant => .P
  | .gateIn => .I
  | .out | .level | .state => .O

/-- The value a read gives (10_state.md R120, R104; 40_host_commands.md R409). -/
def EnvReg.value (s : State) : EnvReg → Word
  | .attack => s.env.attack
  | .decay => s.env.decay
  | .sustain => s.env.sustain
  | .release => s.env.release
  | .variant => s.env.variant
  | .gateIn => s.env.gateIn
  | .out => s.env.out
  | .level => s.env.level
  | .state => BitVec.ofNat 32 s.env.state.code

/-- The unit after a write of a P or I register with the legalised value; a register of another class has no
writable storage (10_state.md R120, R102 to R104). -/
def EnvReg.store (cfg : Config.Params) (d : Word) (u : EnvUnit) : EnvReg → EnvUnit
  | .attack => { u with attack := legalF cfg.tEps f10000 d }
  | .decay => { u with decay := legalF cfg.tEps f10000 d }
  | .sustain => { u with sustain := legalF f0 f1 d }
  | .release => { u with release := legalF cfg.tEps f10000 d }
  | .variant => { u with variant := legalU 0 1 d }
  | .gateIn => { u with gateIn := legalIn cfg d }
  | .out | .level | .state => u

/-- The registers of VPOOL (10_state.md R125). -/
inductive VpoolReg where
  | wave
  | attack
  | decay
  | sustain
  | release
  | variant
  | glide
  | detune
  | out
  | activeCount
  | lastSlot
  | activeMask
  | vFreq (slot : Nat)
  | vTarget (slot : Nat)
  | vLevel (slot : Nat)
  | vFlags (slot : Nat)
  deriving DecidableEq, Repr

/-- The register of VPOOL at a register number (10_state.md R125). A readback entry exists for the configured slots only (10_state.md R105). -/
def VpoolReg.ofAddr (cfg : Config.Params) (r : Nat) : Option VpoolReg :=
  match r with
  | 0x00 => some .wave
  | 0x01 => some .attack
  | 0x02 => some .decay
  | 0x03 => some .sustain
  | 0x04 => some .release
  | 0x05 => some .variant
  | 0x06 => some .glide
  | 0x07 => some .detune
  | 0x20 => some .out
  | 0x21 => some .activeCount
  | 0x22 => some .lastSlot
  | 0x23 => some .activeMask
  | _ =>
    if 0x80 ≤ r ∧ (r - 0x80) / 4 < cfg.nVoices then
      match (r - 0x80) % 4 with
      | 0 => some (.vFreq ((r - 0x80) / 4))
      | 1 => some (.vTarget ((r - 0x80) / 4))
      | 2 => some (.vLevel ((r - 0x80) / 4))
      | _ => some (.vFlags ((r - 0x80) / 4))
    else none

/-- Access class (10_state.md R125). -/
def VpoolReg.cls : VpoolReg → RegClass
  | .wave | .attack | .decay | .sustain | .release | .variant | .glide | .detune => .P
  | .out | .activeCount | .lastSlot | .activeMask | .vFreq _ | .vTarget _ | .vLevel _ | .vFlags _ => .O

/-- The value a read gives (10_state.md R125, R104; 40_host_commands.md R409). -/
def VpoolReg.value (s : State) : VpoolReg → Word
  | .wave => s.vpool.wave
  | .attack => s.vpool.attack
  | .decay => s.vpool.decay
  | .sustain => s.vpool.sustain
  | .release => s.vpool.release
  | .variant => s.vpool.variant
  | .glide => s.vpool.glide
  | .detune => s.vpool.detune
  | .out => s.vpool.out
  | .activeCount => BitVec.ofNat 32 (s.vpool.voices.countP fun v => v.active)
  | .lastSlot => s.vpool.lastSlot
  | .activeMask => bitsOf (s.vpool.voices.map fun v => v.active)
  | .vFreq slot => (s.vpool.voices.map fun v => v.freq).getD slot 0
  | .vTarget slot => (s.vpool.voices.map fun v => v.target).getD slot 0
  | .vLevel slot => (s.vpool.voices.map fun v => v.envLevel).getD slot 0
  | .vFlags slot => (s.vpool.voices.map voiceFlags).getD slot 0

/-- The unit after a write of a P or I register with the legalised value; a register of another class has no
writable storage (10_state.md R125, R102 to R104). -/
def VpoolReg.store (cfg : Config.Params) (d : Word) (u : VoicePool) : VpoolReg → VoicePool
  | .wave => { u with wave := legalU 0 3 d }
  | .attack => { u with attack := legalF cfg.tEps f10000 d }
  | .decay => { u with decay := legalF cfg.tEps f10000 d }
  | .sustain => { u with sustain := legalF f0 f1 d }
  | .release => { u with release := legalF cfg.tEps f10000 d }
  | .variant => { u with variant := legalU 0 1 d }
  | .glide => { u with glide := legalF f0p001 f1 d }
  | .detune => { u with detune := legalF f0 f100 d }
  | .out | .activeCount | .lastSlot | .activeMask | .vFreq _ | .vTarget _ | .vLevel _ | .vFlags _ => u

/-- The registers of GRAN (10_state.md R130). -/
inductive GranReg where
  | bpm
  | density
  | vitality
  | position
  | size
  | rate
  | rng
  | conn
  | clockIn
  | out
  | activeCount
  | spawnCount
  | srcLen
  | srcRate
  | queueLevel
  | loadState
  | loadCount
  | clkPeriod
  | gFlags (slot : Nat)
  | gElapsed (slot : Nat)
  | gDur (slot : Nat)
  | gPhase (slot : Nat)
  deriving DecidableEq, Repr

/-- The register of GRAN at a register number (10_state.md R130). A readback entry exists for the configured slots only (10_state.md R105). -/
def GranReg.ofAddr (cfg : Config.Params) (r : Nat) : Option GranReg :=
  match r with
  | 0x00 => some .bpm
  | 0x01 => some .density
  | 0x02 => some .vitality
  | 0x03 => some .position
  | 0x04 => some .size
  | 0x05 => some .rate
  | 0x06 => some .rng
  | 0x07 => some .conn
  | 0x10 => some .clockIn
  | 0x20 => some .out
  | 0x21 => some .activeCount
  | 0x22 => some .spawnCount
  | 0x23 => some .srcLen
  | 0x24 => some .srcRate
  | 0x25 => some .queueLevel
  | 0x26 => some .loadState
  | 0x27 => some .loadCount
  | 0x28 => some .clkPeriod
  | _ =>
    if 0x80 ≤ r ∧ (r - 0x80) / 4 < cfg.nGrains then
      match (r - 0x80) % 4 with
      | 0 => some (.gFlags ((r - 0x80) / 4))
      | 1 => some (.gElapsed ((r - 0x80) / 4))
      | 2 => some (.gDur ((r - 0x80) / 4))
      | _ => some (.gPhase ((r - 0x80) / 4))
    else none

/-- Access class (10_state.md R130). -/
def GranReg.cls : GranReg → RegClass
  | .bpm | .density | .vitality | .position | .size | .rate | .rng | .conn => .P
  | .clockIn => .I
  | .out | .activeCount | .spawnCount | .srcLen | .srcRate | .queueLevel | .loadState | .loadCount | .clkPeriod | .gFlags _ | .gElapsed _ | .gDur _ | .gPhase _ => .O

/-- The value a read gives (10_state.md R130, R104; 40_host_commands.md R409). -/
def GranReg.value (s : State) : GranReg → Word
  | .bpm => s.gran.bpm
  | .density => s.gran.density
  | .vitality => s.gran.vitality
  | .position => s.gran.position
  | .size => s.gran.size
  | .rate => s.gran.rate
  | .rng => s.gran.rng
  | .conn => s.gran.conn
  | .clockIn => s.gran.clockIn
  | .out => s.gran.out
  | .activeCount => BitVec.ofNat 32 (s.gran.grains.countP fun g => g.active)
  | .spawnCount => s.gran.spawnCount
  | .srcLen => s.gran.srcLen
  | .srcRate => s.gran.srcRate
  | .queueLevel => BitVec.ofNat 32 s.gran.queue.length
  | .loadState => if s.gran.srcLoading then 1 else 0
  | .loadCount => BitVec.ofNat 32 s.gran.srcCount
  | .clkPeriod => s.gran.clkPeriod
  | .gFlags slot => if (s.gran.grains.map fun g => g.active).getD slot false then 1 else 0
  | .gElapsed slot => (s.gran.grains.map fun g => g.elapsed).getD slot 0
  | .gDur slot => (s.gran.grains.map fun g => g.dur).getD slot 0
  | .gPhase slot => (s.gran.grains.map fun g => g.phase).getD slot 0

/-- The unit after a write of a P or I register with the legalised value; a register of another class has no
writable storage (10_state.md R130, R102 to R104). -/
def GranReg.store (cfg : Config.Params) (d : Word) (u : GranUnit) : GranReg → GranUnit
  | .bpm => { u with bpm := legalF f20 f300 d }
  | .density => { u with density := legalF f0 f1 d }
  | .vitality => { u with vitality := legalF f0 f1 d }
  | .position => { u with position := legalF f0 f1 d }
  | .size => { u with size := legalF f0p001 f10 d }
  | .rate => { u with rate := legalF fNeg8 f8 d }
  | .rng => { u with rng := legalRng cfg d }
  | .conn => { u with conn := legalMask 0x1 d }
  | .clockIn => { u with clockIn := legalIn cfg d }
  | .out | .activeCount | .spawnCount | .srcLen | .srcRate | .queueLevel | .loadState | .loadCount | .clkPeriod | .gFlags _ | .gElapsed _ | .gDur _ | .gPhase _ => u

/-- The registers of LOOP (10_state.md R135). -/
inductive LoopReg where
  | lenS
  | bars
  | intensity
  | rampS
  | xfadeS
  | mode
  | boostEn
  | conn
  | inL
  | inR
  | buildIn
  | clockIn
  | outL
  | outR
  | state
  | loopLen
  | xfLen
  | pos
  | speed
  | wcur
  | clkPeriod
  | req
  deriving DecidableEq, Repr

/-- The register of LOOP at a register number (10_state.md R135). -/
def LoopReg.ofAddr (r : Nat) : Option LoopReg :=
  match r with
  | 0x00 => some .lenS
  | 0x01 => some .bars
  | 0x02 => some .intensity
  | 0x03 => some .rampS
  | 0x04 => some .xfadeS
  | 0x05 => some .mode
  | 0x06 => some .boostEn
  | 0x07 => some .conn
  | 0x10 => some .inL
  | 0x11 => some .inR
  | 0x12 => some .buildIn
  | 0x13 => some .clockIn
  | 0x20 => some .outL
  | 0x21 => some .outR
  | 0x22 => some .state
  | 0x23 => some .loopLen
  | 0x24 => some .xfLen
  | 0x25 => some .pos
  | 0x26 => some .speed
  | 0x27 => some .wcur
  | 0x28 => some .clkPeriod
  | 0x29 => some .req
  | _ => none

/-- Access class (10_state.md R135). -/
def LoopReg.cls : LoopReg → RegClass
  | .lenS | .bars | .intensity | .rampS | .xfadeS | .mode | .boostEn | .conn => .P
  | .inL | .inR | .buildIn | .clockIn => .I
  | .outL | .outR | .state | .loopLen | .xfLen | .pos | .speed | .wcur | .clkPeriod | .req => .O

/-- The value a read gives (10_state.md R135, R104; 40_host_commands.md R409). -/
def LoopReg.value (s : State) : LoopReg → Word
  | .lenS => s.loop.lenS
  | .bars => s.loop.bars
  | .intensity => s.loop.intensity
  | .rampS => s.loop.rampS
  | .xfadeS => s.loop.xfadeS
  | .mode => s.loop.mode
  | .boostEn => s.loop.boostEn
  | .conn => s.loop.conn
  | .inL => s.loop.inL
  | .inR => s.loop.inR
  | .buildIn => s.loop.buildIn
  | .clockIn => s.loop.clockIn
  | .outL => s.loop.outL
  | .outR => s.loop.outR
  | .state => BitVec.ofNat 32 s.loop.state.code
  | .loopLen => s.loop.loopLen
  | .xfLen => s.loop.xfLen
  | .pos => s.loop.pos
  | .speed => s.loop.speed
  | .wcur => s.loop.wcur
  | .clkPeriod => s.loop.clkPeriod
  | .req => if s.loop.req then 1 else 0

/-- The unit after a write of a P or I register with the legalised value; a register of another class has no
writable storage (10_state.md R135, R102 to R104). -/
def LoopReg.store (cfg : Config.Params) (d : Word) (u : LoopUnit) : LoopReg → LoopUnit
  | .lenS => { u with lenS := legalF f0 f10000 d }
  | .bars => { u with bars := legalU 1 64 d }
  | .intensity => { u with intensity := legalF f1 cfg.maxSpdMax d }
  | .rampS => { u with rampS := legalF cfg.tEps f10000 d }
  | .xfadeS => { u with xfadeS := legalF f0 f10000 d }
  | .mode => { u with mode := legalU 0 1 d }
  | .boostEn => { u with boostEn := legalU 0 1 d }
  | .conn => { u with conn := legalMask 0x1 d }
  | .inL => { u with inL := legalIn cfg d }
  | .inR => { u with inR := legalIn cfg d }
  | .buildIn => { u with buildIn := legalIn cfg d }
  | .clockIn => { u with clockIn := legalIn cfg d }
  | .outL | .outR | .state | .loopLen | .xfLen | .pos | .speed | .wcur | .clkPeriod | .req => u

/-- The registers of DLY (10_state.md R140). -/
inductive DlyReg where
  | revFb
  | revMix
  | echoTime
  | echoFb
  | echoMix
  | revIn
  | echoInL
  | echoInR
  | revOut
  | echoOutL
  | echoOutR
  | echoOff
  | combLen (slot : Nat)
  deriving DecidableEq, Repr

/-- The register of DLY at a register number (10_state.md R140). A readback entry exists for the configured slots only (10_state.md R105). -/
def DlyReg.ofAddr (cfg : Config.Params) (r : Nat) : Option DlyReg :=
  match r with
  | 0x00 => some .revFb
  | 0x01 => some .revMix
  | 0x02 => some .echoTime
  | 0x03 => some .echoFb
  | 0x04 => some .echoMix
  | 0x10 => some .revIn
  | 0x11 => some .echoInL
  | 0x12 => some .echoInR
  | 0x20 => some .revOut
  | 0x21 => some .echoOutL
  | 0x22 => some .echoOutR
  | 0x23 => some .echoOff
  | _ => if 0x30 ≤ r ∧ r - 0x30 < cfg.nComb then some (.combLen (r - 0x30)) else none

/-- Access class (10_state.md R140). -/
def DlyReg.cls : DlyReg → RegClass
  | .revFb | .revMix | .echoTime | .echoFb | .echoMix => .P
  | .revIn | .echoInL | .echoInR => .I
  | .revOut | .echoOutL | .echoOutR | .echoOff => .O
  | .combLen _ => .C

/-- The value a read gives (10_state.md R140, R104; 40_host_commands.md R409). -/
def DlyReg.value (s : State) : DlyReg → Word
  | .revFb => s.dly.revFb
  | .revMix => s.dly.revMix
  | .echoTime => s.dly.echoTime
  | .echoFb => s.dly.echoFb
  | .echoMix => s.dly.echoMix
  | .revIn => s.dly.revIn
  | .echoInL => s.dly.echoInL
  | .echoInR => s.dly.echoInR
  | .revOut => s.dly.revOut
  | .echoOutL => s.dly.echoOutL
  | .echoOutR => s.dly.echoOutR
  | .echoOff => s.dly.echoOff
  | .combLen slot => BitVec.ofNat 32 (s.cfg.combLen.getD slot 0)

/-- The unit after a write of a P or I register with the legalised value; a register of another class has no
writable storage (10_state.md R140, R102 to R104). -/
def DlyReg.store (cfg : Config.Params) (d : Word) (u : DlyUnit) : DlyReg → DlyUnit
  | .revFb => { u with revFb := legalF f0 cfg.fbMax d }
  | .revMix => { u with revMix := legalF f0 f1 d }
  | .echoTime => { u with echoTime := legalF f0 f10000 d }
  | .echoFb => { u with echoFb := legalF f0 cfg.fbMax d }
  | .echoMix => { u with echoMix := legalF f0 f1 d }
  | .revIn => { u with revIn := legalIn cfg d }
  | .echoInL => { u with echoInL := legalIn cfg d }
  | .echoInR => { u with echoInR := legalIn cfg d }
  | .revOut | .echoOutL | .echoOutR | .echoOff | .combLen _ => u

/-- The registers of ARP (10_state.md R145). -/
inductive ArpReg where
  | root
  | chord
  | bpm
  | div
  | conn
  | clockIn
  | pitchOut
  | trigOut
  | note
  | index
  | stepCount
  deriving DecidableEq, Repr

/-- The register of ARP at a register number (10_state.md R145). -/
def ArpReg.ofAddr (r : Nat) : Option ArpReg :=
  match r with
  | 0x00 => some .root
  | 0x01 => some .chord
  | 0x02 => some .bpm
  | 0x03 => some .div
  | 0x04 => some .conn
  | 0x10 => some .clockIn
  | 0x20 => some .pitchOut
  | 0x21 => some .trigOut
  | 0x22 => some .note
  | 0x23 => some .index
  | 0x24 => some .stepCount
  | _ => none

/-- Access class (10_state.md R145). -/
def ArpReg.cls : ArpReg → RegClass
  | .root | .chord | .bpm | .div | .conn => .P
  | .clockIn => .I
  | .pitchOut | .trigOut | .note | .index | .stepCount => .O

/-- The value a read gives (10_state.md R145, R104; 40_host_commands.md R409). -/
def ArpReg.value (s : State) : ArpReg → Word
  | .root => s.arp.root
  | .chord => s.arp.chord
  | .bpm => s.arp.bpm
  | .div => s.arp.div
  | .conn => s.arp.conn
  | .clockIn => s.arp.clockIn
  | .pitchOut => s.arp.pitchOut
  | .trigOut => s.arp.trigOut
  | .note => s.arp.note
  | .index => s.arp.index
  | .stepCount => s.arp.stepCount

/-- The unit after a write of a P or I register with the legalised value; a register of another class has no
writable storage (10_state.md R145, R102 to R104). -/
def ArpReg.store (cfg : Config.Params) (d : Word) (u : ArpUnit) : ArpReg → ArpUnit
  | .root => { u with root := legalU 0 127 d }
  | .chord => { u with chord := legalU 0 (BitVec.ofNat 32 (cfg.nChord - 1)) d }
  | .bpm => { u with bpm := legalF f20 f300 d }
  | .div => { u with div := legalU 0 5 d }
  | .conn => { u with conn := legalMask 0x1 d }
  | .clockIn => { u with clockIn := legalIn cfg d }
  | .pitchOut | .trigOut | .note | .index | .stepCount => u

/-- A register of the CORE: its unit and the register within it. -/
inductive Reg where
  | global (r : GlobalReg)
  | osc (r : OscReg)
  | wt (r : WtReg)
  | env (r : EnvReg)
  | vpool (r : VpoolReg)
  | gran (r : GranReg)
  | loop (r : LoopReg)
  | dly (r : DlyReg)
  | arp (r : ArpReg)
  deriving DecidableEq, Repr

/-- The register at (UNIT, REG), none where the pair is unmapped (10_state.md R105). -/
def Reg.ofAddr (cfg : Config.Params) (unit : BitVec 4) (reg : BitVec 8) : Option Reg :=
  match unit.toNat with
  | 0 => (GlobalReg.ofAddr reg.toNat).map Reg.global
  | 1 => (OscReg.ofAddr reg.toNat).map Reg.osc
  | 2 => (WtReg.ofAddr reg.toNat).map Reg.wt
  | 3 => (EnvReg.ofAddr reg.toNat).map Reg.env
  | 4 => (VpoolReg.ofAddr cfg reg.toNat).map Reg.vpool
  | 5 => (GranReg.ofAddr cfg reg.toNat).map Reg.gran
  | 6 => (LoopReg.ofAddr reg.toNat).map Reg.loop
  | 7 => (DlyReg.ofAddr cfg reg.toNat).map Reg.dly
  | 8 => (ArpReg.ofAddr reg.toNat).map Reg.arp
  | _ => none

/-- Access class (10_state.md R100). -/
def Reg.cls : Reg → RegClass
  | .global r => r.cls
  | .osc r => r.cls
  | .wt r => r.cls
  | .env r => r.cls
  | .vpool r => r.cls
  | .gran r => r.cls
  | .loop r => r.cls
  | .dly r => r.cls
  | .arp r => r.cls

/-- `value(u, r)`: the stored value, or for a derived register the value computed now (40_host_commands.md R409). -/
def Reg.value (s : State) : Reg → Word
  | .global r => r.value s
  | .osc r => r.value s
  | .wt r => r.value s
  | .env r => r.value s
  | .vpool r => r.value s
  | .gran r => r.value s
  | .loop r => r.value s
  | .dly r => r.value s
  | .arp r => r.value s

/-- The state after a write of a P or I register (40_host_commands.md R408). A write of SAMPLE_RATE also sets DT. -/
def Reg.store (d : Word) (s : State) : Reg → State
  | .global r => { s with global := r.store s.cfg d s.global }
  | .osc r => { s with osc := r.store s.cfg d s.osc }
  | .wt r => { s with wt := r.store s.cfg d s.wt }
  | .env r => { s with env := r.store s.cfg d s.env }
  | .vpool r => { s with vpool := r.store s.cfg d s.vpool }
  | .gran r => { s with gran := r.store s.cfg d s.gran }
  | .loop r => { s with loop := r.store s.cfg d s.loop }
  | .dly r => { s with dly := r.store s.cfg d s.dly }
  | .arp r => { s with arp := r.store s.cfg d s.arp }

/-! ## Operands a tick samples -/

/-- An optional input: its latch where its CONN bit is set, else 0.0 V (00_scope.md R23). -/
def connected (conn : Word) (bit : Nat) (v : F32) : F32 := if conn.getLsbD bit then v else f0

/-- A voltage is high when it is above GATE_TH (00_scope.md R22). -/
def gateHigh (cfg : Config.Params) (v : F32) : Bool := flt cfg.gateTh v

/-- An optional gate or clock input is high (00_scope.md R22, R23). -/
def connectedHigh (cfg : Config.Params) (conn : Word) (bit : Nat) (v : F32) : Bool :=
  conn.getLsbD bit && gateHigh cfg v

/-- `noteHz(n) = F_C4 · fexp2(toF32(n − 60) / 12.0)` (00_scope.md R24). -/
def noteHz (cfg : Config.Params) (n : Nat) : F32 :=
  fmul cfg.fC4 (fexp2 (fdiv (toF32 ((n : Int) - 60)) 0x41400000))

/-- `pitchHz(s, v) = F_C4 · fexp2(s / 12.0 + v)` (00_scope.md R24). -/
def pitchHz (cfg : Config.Params) (semis v : F32) : F32 :=
  fmul cfg.fC4 (fexp2 (fadd (fdiv semis 0x41400000) v))

/-- The result of the clock measurement shared by GRAN and LOOP (45_granular.md R651). -/
structure ClockMeasure where
  rise : Bool
  count : Nat
  edges : Nat
  period : Word
  deriving DecidableEq, Repr

/-- `clockMeasure(hi, prev, count, edges, P)` (45_granular.md R651). -/
def clockMeasure (hi prev : Bool) (count edges : Nat) (period : Word) : ClockMeasure :=
  let count := min (count + 1) (2 ^ 32 - 1)
  if hi && !prev then
    { rise := true, count := 0, edges := min (edges + 1) 2
      period := if 1 ≤ edges then BitVec.ofNat 32 count else period }
  else { rise := false, count := count, edges := edges, period := period }

end Sys2Proof.Machine
end

