-- ==== Sys2Proof/Machine/Envelope.lean ====
section
/-! DEFINITION. ENV: the ADSR step function, shared with VPOOL, and the unit's tick (43_envelope.md). -/

namespace Sys2Proof.Machine

/-- The four times and levels and the variant of an envelope (43_envelope.md R552). -/
structure Adsr where
  attack : F32
  decay : F32
  sustain : F32
  release : F32
  /-- 0 PAD, 1 PLUCK (43_envelope.md R551) -/
  variant : Word
  deriving DecidableEq, Repr

/-- The edge part of `envStep`: a gate-on edge by the variant, then a gate-off edge (43_envelope.md R551, R552). -/
def envEdges (e : EnvState) (l : F32) (on off : Bool) (variant : Word) : EnvState × F32 :=
  let (e, l) : EnvState × F32 :=
    if on then
      (if variant = 1 then (.attack, f0)
       else if e = .idle ∨ e = .release then (.attack, l) else (e, l))
    else (e, l)
  if off ∧ (e = .attack ∨ e = .decay ∨ e = .sustain) then (.release, l) else (e, l)

/-- The level part of `envStep`, of the state after the edges (43_envelope.md R552). -/
def envLevelStep (dt : F32) (p : Adsr) : EnvState → F32 → EnvState × F32
  | .idle, _ => (.idle, f0)
  | .attack, l =>
    let l := fadd l (fdiv dt p.attack)
    if fle f1 l then (.decay, f1) else (.attack, l)
  | .decay, l =>
    let l := fsub l (fdiv dt p.decay)
    if fle l p.sustain then (.sustain, p.sustain) else (.decay, l)
  | .sustain, _ => (.sustain, p.sustain)
  | .release, l =>
    let l := fsub l (fdiv dt p.release)
    if fle l f0 then (.idle, f0) else (.release, l)

/-- `envStep(e, l, on, off, A, D, S, R, var)` (43_envelope.md R552). -/
def envStep (dt : F32) (p : Adsr) (e : EnvState) (l : F32) (on off : Bool) : EnvState × F32 :=
  let el := envEdges e l on off p.variant
  envLevelStep dt p el.1 el.2

/-- The envelope parameters of ENV. -/
def EnvUnit.adsr (u : EnvUnit) : Adsr := ⟨u.attack, u.decay, u.sustain, u.release, u.variant⟩

/-- `ENV_tick()` (43_envelope.md R560). -/
def envTick (cfg : Config.Params) (g : GlobalRegs) (u : EnvUnit) : EnvUnit :=
  let hi := gateHigh cfg u.gateIn
  let el := envStep g.dt u.adsr u.state u.level (hi && !u.gatePrev) (!hi && u.gatePrev)
  { u with state := el.1, level := el.2, gatePrev := hi, out := fmul el.2 f10 }

/-- ENV's part of a tick. -/
def State.envTick (s : State) : State := { s with env := Machine.envTick s.cfg s.global s.env }

end Sys2Proof.Machine
end

