-- ==== Sys2Proof/Machine/Osc.lean ====
section
/-! DEFINITION. OSC: the phase accumulator, the waveforms and the harmonic stack, and the unit's tick (41_oscillator.md). -/

namespace Sys2Proof.Machine

/-- `phaseStep(p, f)` (41_oscillator.md R450). -/
def phaseStep (dt p f : F32) : F32 :=
  let inc := fclamp (fmul f dt) 0xBF000000 0x3F000000
  let q := fadd p inc
  if fle f1 q then fsub q f1
  else if flt q f0 then
    let q := fadd q f1
    if fle f1 q then f0 else q
  else q

/-- `wave(k, p)`: sine, triangle, saw, square (41_oscillator.md R452). -/
def waveAt (k : BitVec 2) (p : F32) : F32 :=
  match k.toNat with
  | 0 => fsin2pi p
  | 1 =>
    if flt p 0x3E800000 then fmul 0x40800000 p
    else if flt p 0x3F400000 then fsub 0x40000000 (fmul 0x40800000 p)
    else fsub (fmul 0x40800000 p) 0x40800000
  | 2 => fsub (fmul 0x40000000 p) f1
  | _ => if flt p 0x3F000000 then f1 else 0xBF800000

/-- The waveform code of a WAVE register, legal in [0, 3] (log entry 21). -/
def waveCode (w : Word) : BitVec 2 := w.setWidth 2

/-- The weighted sum and the weights of the harmonics 2 … N + 1 of a waveform, in ascending order: (acc', wsum')
(41_oscillator.md R453). -/
def harmonicSums (k : BitVec 2) (p : F32) (n : Nat) : F32 × F32 :=
  (List.range n).foldl (fun (acc : F32 × F32) h =>
    let m := toF32 (((h + 1) + 1 : Nat) : Int)
    let x := fmul p m
    let ph := fsub x (toF32 (ffloor x))
    let w := fdiv f1 m
    (fadd acc.1 (fmul w (waveAt k ph)), fadd acc.2 w)) (f0, f0)

/-- `harmwave(k, p, N, s)`: the harmonic stack (41_oscillator.md R453). -/
def harmwave (k : BitVec 2) (p : F32) (n : Nat) (s : F32) : F32 :=
  let y0 := waveAt k p
  if n = 0 then y0
  else
    let sums := harmonicSums k p n
    let st := fdiv sums.1 sums.2
    fclamp (lerp y0 st s) 0xBF800000 f1

/-- `OSC_tick()` (41_oscillator.md R460, R454). -/
def oscTick (cfg : Config.Params) (g : GlobalRegs) (o : OscUnit) : OscUnit :=
  let v := connected o.conn 0 o.voctIn
  let f := pitchHz cfg o.pitch v
  let hi := connectedHigh cfg o.conn 1 o.syncIn
  let phase := if hi && !o.syncPrev then f0 else phaseStep g.dt o.phase f
  { o with
    phase := phase
    syncPrev := hi
    freq := f
    out := fmul (harmwave (waveCode o.wave) phase o.harmN.toNat o.harmStr) cfg.outMul }

/-- OSC's part of a tick. -/
def State.oscTick (s : State) : State := { s with osc := Machine.oscTick s.cfg s.global s.osc }

end Sys2Proof.Machine
end

