-- ==== Sys2Proof/Machine/VoicePool.lean ====
section
/-! DEFINITION. VPOOL: allocation, the voice step, the mix, the unit's tick, and the note commands (44_voice_pool.md). -/

namespace Sys2Proof.Machine

/-! ## Allocation (44_voice_pool.md R601) -/

/-- The lowest slot that is not active, if there is one. -/
def freeVoice (vs : List Voice) : Option Nat := vs.findIdx? fun v => !v.active

/-- A free slot started at frequency f (44_voice_pool.md R601). -/
def Voice.start (u : VoicePool) (f : F32) (v : Voice) : Voice :=
  let target := fclamp f f0 0x469C4000
  { v with
    target := target
    freq := if v.primed then v.freq else target
    primed := true
    wave := waveCode u.wave
    envState := .attack
    envLevel := if u.variant = 1 then f0 else v.envLevel
    gate := true
    gatePrev := true
    active := true }

/-- The pool after a note-on at frequency f takes slot i (44_voice_pool.md R601). -/
def VoicePool.startSlot (u : VoicePool) (i : Nat) (f : F32) : VoicePool :=
  { u with voices := u.voices.modify i (Voice.start u f), lastSlot := BitVec.ofNat 32 i }

/-- `allocate(f)`: starts a voice in the lowest free slot, or drops the note (44_voice_pool.md R601, R602). -/
def State.allocate (f : F32) (s : State) : State :=
  match freeVoice s.vpool.voices with
  | none => State.raise .voiceDrop { s with vpool := { s.vpool with lastSlot := 0xFFFFFFFF } }
  | some i => { s with vpool := s.vpool.startSlot i f }

/-! ## One voice's tick (44_voice_pool.md R610 to R613, R630) -/

/-- `glide(s)`: the frequency after one tick (44_voice_pool.md R610). -/
def glideStep (cfg : Config.Params) (glide freq target : F32) : F32 :=
  let e := fsub target freq
  let freq := fadd freq (fmul glide e)
  if fle (fabs (fsub target freq)) (fmul cfg.glideSnap (fmax (fabs target) f1)) then target else freq

/-- `ratio(k)` (44_voice_pool.md R611). -/
def detuneRatio (cfg : Config.Params) (detune : F32) (k : Nat) : F32 :=
  if cfg.nStack = 1 ∨ feq detune f0 then f1
  else
    let c := fmul detune (fsub (fdiv (toF32 ((2 * k : Nat) : Int)) (toF32 ((cfg.nStack : Int) - 1))) f1)
    fexp2 (fdiv c 0x44960000)

/-- The oscillator phases of a voice after one tick (44_voice_pool.md R630). -/
def stackPhases (cfg : Config.Params) (dt detune freq : F32) (phases : List F32) : List F32 :=
  phases.zipIdx.map fun (p, k) => phaseStep dt p (fmul freq (detuneRatio cfg detune k))

/-- The sum of a voice's oscillators at its new phases, in ascending order (44_voice_pool.md R613, R630). -/
def stackSum (wave : BitVec 2) (phases : List F32) : F32 :=
  phases.foldl (fun acc p => fadd acc (waveAt wave p)) f0

/-- The envelope parameters of VPOOL. -/
def VoicePool.adsr (u : VoicePool) : Adsr := ⟨u.attack, u.decay, u.sustain, u.release, u.variant⟩

/-- An active voice after its envelope, glide and oscillators (44_voice_pool.md R630). -/
def Voice.advance (cfg : Config.Params) (dt : F32) (u : VoicePool) (v : Voice) : Voice :=
  let el := envStep dt u.adsr v.envState v.envLevel (v.gate && !v.gatePrev) (!v.gate && v.gatePrev)
  let freq := glideStep cfg u.glide v.freq v.target
  { v with
    envState := el.1
    envLevel := el.2
    gatePrev := v.gate
    freq := freq
    phase := stackPhases cfg dt u.detune freq v.phase }

/-- The sample of an advanced voice: `env_level · (Σ wave / NSTACK)` (44_voice_pool.md R613). -/
def Voice.sample (cfg : Config.Params) (v : Voice) : F32 :=
  fmul v.envLevel (fdiv (stackSum v.wave v.phase) (toF32 cfg.nStack))

/-- Age-out at the end of a voice's step (44_voice_pool.md R612). -/
def Voice.ageOut (cfg : Config.Params) (v : Voice) : Voice :=
  if v.envState ≠ .attack ∧ flt v.envLevel cfg.ageEps ∧ feq v.freq v.target then
    { v with active := false, gate := false, gatePrev := false, envState := .idle, envLevel := f0 }
  else v

/-- The slots of the pool after one tick, and the sum of the active ones' samples, in ascending order
(44_voice_pool.md R630). -/
def voicesTick (cfg : Config.Params) (dt : F32) (u : VoicePool) : List Voice → F32 → List Voice × F32
  | [], sum => ([], sum)
  | v :: vs, sum =>
    if v.active then
      let w := v.advance cfg dt u
      let r := voicesTick cfg dt u vs (fadd sum (w.sample cfg))
      (w.ageOut cfg :: r.1, r.2)
    else
      let r := voicesTick cfg dt u vs sum
      (v :: r.1, r.2)

/-- `VPOOL_tick()` (44_voice_pool.md R630). -/
def vpoolTick (cfg : Config.Params) (g : GlobalRegs) (u : VoicePool) : VoicePool :=
  let n := u.voices.countP fun v => v.active
  let r := voicesTick cfg g.dt u u.voices f0
  { u with
    voices := r.1
    out := if 0 < n then fmul (fdiv r.2 (toF32 n)) cfg.outMul else f0 }

/-- VPOOL's part of a tick. -/
def State.vpoolTick (s : State) : State := { s with vpool := Machine.vpoolTick s.cfg s.global s.vpool }

/-! ## Note commands (44_voice_pool.md R620 to R624) -/

/-- NOTE_ON: starts a voice at a frequency in Hz (44_voice_pool.md R620). -/
def execNoteOn (freq : F32) (s : State) : Host.Outcome State Fault Refusal :=
  .next ((s.allocate freq).retire 2)

/-- NOTE_ON_MIDI: starts a voice at a MIDI note (44_voice_pool.md R621). -/
def execNoteOnMidi (note : BitVec 7) (s : State) : Host.Outcome State Fault Refusal :=
  .next ((s.allocate (noteHz s.cfg note.toNat)).retire 1)

/-- An active voice's gate closes; an inactive one is left alone (44_voice_pool.md R622, R623). -/
def Voice.gateOff (v : Voice) : Voice := if v.active then { v with gate := false } else v

/-- NOTE_OFF: releases one voice (44_voice_pool.md R622). -/
def execNoteOff (slot : BitVec 8) (s : State) : Host.Outcome State Fault Refusal :=
  if slot.toNat < s.cfg.nVoices then
    .next (State.retire 1 { s with vpool := { s.vpool with voices := s.vpool.voices.modify slot.toNat Voice.gateOff } })
  else .next (s.badCommand 1)

/-- ALL_OFF: releases every voice (44_voice_pool.md R623). -/
def execAllOff (s : State) : Host.Outcome State Fault Refusal :=
  .next (State.retire 1 { s with vpool := { s.vpool with voices := s.vpool.voices.map Voice.gateOff } })

/-- The notes of a chord on a root, clamped to 127, in table order (44_voice_pool.md R624, 48_arp.md R801). -/
def chordNotes (cfg : Config.Params) (chord root : Nat) : List Nat :=
  (cfg.chordTable.getD chord []).map fun iv => min (root + iv) 127

/-- CHORD_ON: starts one voice per chord note (44_voice_pool.md R624). -/
def execChordOn (chord : BitVec 8) (root : BitVec 7) (s : State) : Host.Outcome State Fault Refusal :=
  if chord.toNat < s.cfg.nChord then
    .next (State.retire 1
      ((chordNotes s.cfg chord.toNat root.toNat).foldl (fun s n => s.allocate (noteHz s.cfg n)) s))
  else .next (s.badCommand 1)

end Sys2Proof.Machine
end

