-- ==== Sys2Proof/Machine/Arpeggiator.lean ====
section
/-! DEFINITION. ARP: the note list, the step timer and the unit's tick (48_arp.md). -/

namespace Sys2Proof.Machine

/-- The denominator of a division code (48_arp.md R802), legal in [0, 5] (log entry 21). -/
def divisionDen (code : Nat) : Nat := 2 ^ min code 5

/-- The step period in ticks (48_arp.md R803). -/
def arpPeriod (fs : F32) (u : ArpUnit) : F32 :=
  fmul (fmul (fdiv 0x42700000 u.bpm) (fdiv 0x40800000 (toF32 (divisionDen u.div.toNat)))) fs

/-- Step detection: at a clock edge when the clock is connected, else by the internal timer; and the timer's
accumulator after it (48_arp.md R803, R810). -/
def arpStepDetect (fs : F32) (u : ArpUnit) (hi : Bool) : Bool × F32 :=
  if u.conn.getLsbD 0 then (hi && !u.clkPrev, u.acc)
  else
    let due := fle u.acc f0
    let acc := if due then fadd u.acc (arpPeriod fs u) else u.acc
    (due, fsub acc f1)

/-- The trigger pulse length in ticks: `max(1, ceil(PULSE_S · fs))` (48_arp.md R810). -/
def pulseTicks (cfg : Config.Params) (fs : F32) : Nat := (max 1 (fceil (fmul cfg.pulseS fs))).toNat

/-- The note advance of a step (48_arp.md R801, R810). -/
def arpAdvance (cfg : Config.Params) (fs : F32) (u : ArpUnit) : ArpUnit :=
  let notes := chordNotes cfg u.chord.toNat u.root.toNat
  let i := u.index.toNat % notes.length
  { u with
    note := BitVec.ofNat 32 (notes.getD i 0)
    index := BitVec.ofNat 32 ((i + 1) % notes.length)
    pulse := pulseTicks cfg fs
    stepCount := u.stepCount + 1 }

/-- Trigger pulse and pitch output (48_arp.md R810). -/
def arpOutput (cfg : Config.Params) (u : ArpUnit) : ArpUnit :=
  { u with
    trigOut := if 0 < u.pulse then cfg.trigV else f0
    pulse := u.pulse - 1
    pitchOut := fdiv (toF32 ((u.note.toNat : Int) - 60)) 0x41400000 }

/-- `ARP_tick()` (48_arp.md R810). -/
def arpTick (cfg : Config.Params) (g : GlobalRegs) (u : ArpUnit) : ArpUnit :=
  let hi := connectedHigh cfg u.conn 0 u.clockIn
  let step := arpStepDetect g.sampleRate u hi
  let u := { u with acc := step.2, clkPrev := hi }
  arpOutput cfg (if step.1 then arpAdvance cfg g.sampleRate u else u)

/-- ARP's part of a tick. -/
def State.arpTick (s : State) : State := { s with arp := Machine.arpTick s.cfg s.global s.arp }

end Sys2Proof.Machine
end

