-- ==== Sys2Proof/Machine/Delay.lean ====
section
/-! DEFINITION. DLY: the delay line, the comb reverb, the echo, and the unit's tick (47_delay.md). A line is a region of
DLY_CAP elements of a memory, from `base` on, with a write cursor of its own. -/

namespace Sys2Proof.Machine

/-- `read(line, o)`: the element o steps behind the write cursor (47_delay.md R750). -/
def lineRead (cfg : Config.Params) (m : Memory) (sp : Space) (base w : Nat) (o : Int) : F32 :=
  let o := clampInt o 0 ((cfg.dlyCap : Int) - 1)
  m.read cfg sp (base + (((w : Int) - o) % (cfg.dlyCap : Int)).toNat)

/-- The memory part of `push(line, x)` (47_delay.md R750). -/
def linePush (cfg : Config.Params) (m : Memory) (sp : Space) (base w : Nat) (x : F32) : Memory :=
  m.write cfg sp (base + w) x

/-- The cursor part of `push(line, x)` (47_delay.md R750). -/
def cursorStep (cfg : Config.Params) (w : Nat) : Nat := (w + 1) % cfg.dlyCap

/-- The comb lines from line i on, given as (length, cursor) pairs: each is read, then pushed; the cursors after it,
the memories after it, and the sum of the reads, in ascending order (47_delay.md R751). -/
def combsTick (cfg : Config.Params) (fb x : F32) : Nat → List (Nat × Nat) → Memory → F32 → List Nat × Memory × F32
  | _, [], m, sum => ([], m, sum)
  | i, (len, w) :: lines, m, sum =>
    let y := lineRead cfg m .comb (i * cfg.dlyCap) w len
    let m := linePush cfg m .comb (i * cfg.dlyCap) w (fadd x (fmul fb y))
    let r := combsTick cfg fb x (i + 1) lines m (fadd sum y)
    (cursorStep cfg w :: r.1, r.2.1, r.2.2)

/-- `reverb()` (47_delay.md R751). -/
def reverbTick (cfg : Config.Params) (u : DlyUnit) (m : Memory) : DlyUnit × Memory :=
  let x := fdiv u.revIn cfg.inDiv
  let r := combsTick cfg u.revFb x 0 (cfg.combLen.zip u.combW) m f0
  let wet := fdiv r.2.2 (toF32 cfg.nComb)
  ({ u with combW := r.1, revOut := fmul (lerp x wet u.revMix) cfg.outMul }, r.2.1)

/-- The echo read offset o' in ticks (47_delay.md R755). -/
def echoOffset (cfg : Config.Params) (fs echoTime : F32) : Int :=
  clampInt (max 1 (ffloor (fmul echoTime fs))) 1 ((cfg.dlyCap : Int) - 1)

/-- One echo channel: its output in volts and the memories after the push (47_delay.md R755). -/
def echoChannel (cfg : Config.Params) (u : DlyUnit) (m : Memory) (c w : Nat) (o : Int) (input : F32) : F32 × Memory :=
  let x := fdiv input cfg.inDiv
  let y := lineRead cfg m .echo (c * cfg.dlyCap) w o
  let m := linePush cfg m .echo (c * cfg.dlyCap) w (fadd x (fmul y u.echoFb))
  (fmul (lerp x y u.echoMix) cfg.outMul, m)

/-- `echo()` (47_delay.md R755). -/
def echoTick (cfg : Config.Params) (fs : F32) (u : DlyUnit) (m : Memory) : DlyUnit × Memory :=
  let o := echoOffset cfg fs u.echoTime
  let l := echoChannel cfg u m 0 u.echoWL o u.echoInL
  let r := echoChannel cfg u l.2 1 u.echoWR o u.echoInR
  ({ u with
    echoOff := BitVec.ofNat 32 o.toNat
    echoOutL := l.1
    echoOutR := r.1
    echoWL := cursorStep cfg u.echoWL
    echoWR := cursorStep cfg u.echoWR }, r.2)

/-- `DLY_tick()`: the reverb, then the echo (47_delay.md R751, R755). -/
def dlyTick (cfg : Config.Params) (g : GlobalRegs) (u : DlyUnit) (m : Memory) : DlyUnit × Memory :=
  let r := reverbTick cfg u m
  echoTick cfg g.sampleRate r.1 r.2

/-- DLY's part of a tick. -/
def State.dlyTick (s : State) : State :=
  let r := Machine.dlyTick s.cfg s.global s.dly s.mem
  { s with dly := r.1, mem := r.2 }

end Sys2Proof.Machine
end

