-- ==== Sys2Proof/Machine/Granular.lean ====
section
/-! DEFINITION. GRAN: the spawn event queue, spawning, the grains, the unit's tick, and the source and spawn commands
(45_granular.md). A procedure that can raise an event carries GLOBAL.STATUS beside the unit. -/

namespace Sys2Proof.Machine

/-- The unit and GLOBAL.STATUS. -/
abbrev GranStep := GranUnit × Word

/-! ## Random draw (45_granular.md R653) -/

/-- The next state of the 32-bit xorshift generator (45_granular.md R653). -/
def xorshift (x : Word) : Word :=
  let x := x ^^^ (x <<< 13)
  let x := x ^^^ (x >>> 17)
  x ^^^ (x <<< 5)

/-- The value of a draw, from the generator's new state: `toF32(x >> 8) · 2^−24` (45_granular.md R653). -/
def drawValue (x : Word) : F32 := fmul (toF32 ((x >>> 8).toNat : Int)) 0x33800000

/-! ## Spawning (45_granular.md R654, R655) -/

/-- `enqueue(tag)` (45_granular.md R654). -/
def enqueue (cfg : Config.Params) (tag : SpawnTag) (s : GranStep) : GranStep :=
  if s.1.queue.length = cfg.gqDepth then (s.1, raiseBit .queueOverflow s.2)
  else ({ s.1 with queue := s.1.queue ++ [tag] }, s.2)

/-- The lowest slot that is not active, if there is one. -/
def freeGrain (gs : List Grain) : Option Nat := gs.findIdx? fun g => !g.active

/-- The start phase of a grain from a draw u' (45_granular.md R655). -/
def spawnPhase (cfg : Config.Params) (u : GranUnit) (draw : F32) : F32 :=
  let j := fmul (fmul u.vitality cfg.granJspan) (fsub (fmul 0x40000000 draw) f1)
  let pos := fclamp (fadd u.position j) f0 f1
  fmul pos (toF32 ((u.srcLen.toNat : Int) - 1))

/-- `spawn()`: starts one grain in the lowest free slot, or drops it without a draw (45_granular.md R655). -/
def spawn (cfg : Config.Params) (s : GranStep) : GranStep :=
  match freeGrain s.1.grains with
  | none => (s.1, raiseBit .grainDrop s.2)
  | some i =>
    let u := s.1
    let rng := xorshift u.rng
    let grain : Grain :=
      { active := true, elapsed := f0, dur := u.size, rate := u.rate, phase := spawnPhase cfg u (drawValue rng) }
    ({ u with rng := rng, grains := u.grains.set i grain, spawnCount := u.spawnCount + 1 }, s.2)

/-- The whole queue is drained, one spawn per event in FIFO order (45_granular.md R670). -/
def drainQueue (cfg : Config.Params) (s : GranStep) : GranStep :=
  s.1.queue.foldl (fun s _ => spawn cfg s) ({ s.1 with queue := [] }, s.2)

/-! ## Grains (45_granular.md R671, R672, R670) -/

/-- The spawn interval (45_granular.md R652). -/
def spawnInterval (cfg : Config.Params) (dt : F32) (u : GranUnit) : F32 :=
  let beat := if u.conn.getLsbD 0 && decide (0 < u.clkPeriod.toNat) then fmul (toF32 u.clkPeriod.toNat) dt
    else fdiv 0x42700000 u.bpm
  fdiv beat (fadd f1 (fmul u.density cfg.granK))

/-- `grainEnv(x)` (45_granular.md R672). -/
def grainEnv (x : F32) : F32 :=
  if flt x 0x3DCCCCCD then fmul x f10
  else if flt 0x3F19999A x then fmul (fsub f1 x) 0x40200000
  else f1

/-- The index of element i of source buffer b in GSRC (20_memory.md R200). -/
def srcIndex (cfg : Config.Params) (b : Fin 2) (i : Nat) : Nat := b.val * cfg.srcMax + i

/-- `srcRead(ph)` (45_granular.md R671). -/
def srcRead (cfg : Config.Params) (m : Memory) (u : GranUnit) (ph : F32) : F32 :=
  let n : Int := u.srcLen.toNat
  let i0 := toIntSat ph 0 (n - 1)
  let i1 := min (i0 + 1) (n - 1)
  lerp (m.read cfg .gsrc (srcIndex cfg u.srcCur i0.toNat)) (m.read cfg .gsrc (srcIndex cfg u.srcCur i1.toNat))
    (fsub ph (toF32 i0))

/-- An active grain after one tick: older, and moved (45_granular.md R670). -/
def Grain.advance (dt srcRate : F32) (g : Grain) : Grain :=
  { g with elapsed := fadd g.elapsed dt, phase := fadd g.phase (fmul (fmul dt g.rate) srcRate) }

/-- Whether an advanced grain has ended (45_granular.md R670). -/
def Grain.ended (u : GranUnit) (g : Grain) : Bool :=
  flt g.dur g.elapsed || flt g.phase f0 || flt (toF32 ((u.srcLen.toNat : Int) - 1)) g.phase

/-- The grain slots after one tick, and the sum of the sounding grains, in ascending order (45_granular.md R670). -/
def grainsTick (cfg : Config.Params) (dt : F32) (m : Memory) (u : GranUnit) : List Grain → F32 → List Grain × F32
  | [], sum => ([], sum)
  | g :: gs, sum =>
    if g.active then
      let h := g.advance dt u.srcRate
      if h.ended u then
        let r := grainsTick cfg dt m u gs sum
        ({ h with active := false } :: r.1, r.2)
      else
        let r := grainsTick cfg dt m u gs
          (fadd sum (fmul (grainEnv (fdiv h.elapsed h.dur)) (srcRead cfg m u h.phase)))
        (h :: r.1, r.2)
    else
      let r := grainsTick cfg dt m u gs sum
      (g :: r.1, r.2)

/-! ## The tick (45_granular.md R670) -/

/-- The clock part of the tick: measurement, and the clock-driven spawn event (45_granular.md R651, R670). -/
def granClock (cfg : Config.Params) (s : GranStep) : GranStep :=
  let u := s.1
  let hi := connectedHigh cfg u.conn 0 u.clockIn
  let c := clockMeasure hi u.clkPrev u.clkCount u.clkEdges u.clkPeriod
  let u := { u with clkCount := c.count, clkEdges := c.edges, clkPeriod := c.period, clkPrev := hi }
  if c.rise then enqueue cfg .clock ({ u with schedT := f0 }, s.2) else (u, s.2)

/-- The free-running timer part of the tick (45_granular.md R652, R670). -/
def granTimer (cfg : Config.Params) (dt : F32) (s : GranStep) : GranStep :=
  let u := s.1
  let interval := spawnInterval cfg dt u
  let t := fadd u.schedT dt
  if fle interval t then
    let t := fsub t interval
    let t := if fle interval t then f0 else t
    let rng := xorshift u.rng
    let u := { u with schedT := t, rng := rng }
    if flt (drawValue rng) u.density then enqueue cfg .timer (u, s.2) else (u, s.2)
  else ({ u with schedT := t }, s.2)

/-- The grain part of the tick: every active grain moves, and OUT is their sum (45_granular.md R670). -/
def granSound (cfg : Config.Params) (dt : F32) (m : Memory) (s : GranStep) : GranStep :=
  let r := grainsTick cfg dt m s.1 s.1.grains f0
  ({ s.1 with grains := r.1, out := fmul r.2 cfg.outMul }, s.2)

/-- `GRAN_tick()`: clock, timer, drain, grains (45_granular.md R670). -/
def granTick (cfg : Config.Params) (dt : F32) (m : Memory) (s : GranStep) : GranStep :=
  granSound cfg dt m (drainQueue cfg (granTimer cfg dt (granClock cfg s)))

/-- The state with GRAN and GLOBAL.STATUS replaced. -/
def State.withGran (s : State) (r : GranStep) : State :=
  { s with gran := r.1, global := { s.global with status := r.2 } }

/-- GRAN's part of a tick. -/
def State.granTick (s : State) : State :=
  s.withGran (Machine.granTick s.cfg s.global.dt s.mem (s.gran, s.global.status))

/-! ## Source and spawn commands (45_granular.md R660 to R664) -/

/-- SRC_BEGIN: opens a source load (45_granular.md R660). -/
def execSrcBegin (rate : F32) (s : State) : Host.Outcome State Fault Refusal :=
  let s := if s.gran.srcLoading then s.raise .loadFail else s
  .next (State.retire 2 { s with gran :=
    { s.gran with srcLoading := true, srcCount := 0, srcStageRate := fclamp rate f1 0x49742400 } })

/-- The staging buffer: the one the grains do not read (45_granular.md R650). -/
def GranUnit.staging (u : GranUnit) : Fin 2 := if u.srcCur = 0 then 1 else 0

/-- SRC_DATA: appends one sample to the source staging buffer (45_granular.md R661). -/
def execSrcData (sample : F32) (s : State) : Host.Outcome State Fault Refusal :=
  if s.gran.srcLoading then
    if s.cfg.srcMax ≤ s.gran.srcCount then .next ((s.raise .loadTrunc).retire 2)
    else
      let s := s.write .gsrc (srcIndex s.cfg s.gran.staging s.gran.srcCount) (finiteOrZero sample)
      .next (State.retire 2 { s with gran := { s.gran with srcCount := s.gran.srcCount + 1 } })
  else .next (s.badCommand 2)

/-- The publication of a staged source: the buffers change places and every grain stops (45_granular.md R662). -/
def GranUnit.publish (u : GranUnit) : GranUnit :=
  { u with
    srcCur := u.staging
    srcLen := BitVec.ofNat 32 u.srcCount
    srcRate := u.srcStageRate
    grains := u.grains.map fun g => { g with active := false } }

/-- SRC_COMMIT: publishes the staged source (45_granular.md R662). -/
def execSrcCommit (s : State) : Host.Outcome State Fault Refusal :=
  if s.gran.srcLoading then
    if s.gran.srcCount < 2 then
      .next (State.retire 1 (State.raise .loadFail { s with gran := { s.gran with srcLoading := false } }))
    else
      .next (State.retire 1 { s with gran := { s.gran.publish with srcLoading := false } })
  else .next (s.badCommand 1)

/-- SRC_ABORT: discards an open source load (45_granular.md R663). -/
def execSrcAbort (s : State) : Host.Outcome State Fault Refusal :=
  if s.gran.srcLoading then
    .next (State.retire 1 (State.raise .loadFail { s with gran := { s.gran with srcLoading := false } }))
  else .next (s.badCommand 1)

/-- GRAN_SPAWN: requests one grain (45_granular.md R664). -/
def execGranSpawn (s : State) : Host.Outcome State Fault Refusal :=
  .next (State.retire 1 (s.withGran (enqueue s.cfg .host (s.gran, s.global.status))))

end Sys2Proof.Machine
end

