-- ==== Sys2Proof/Machine/Looper.lean ====
section
/-! DEFINITION. LOOP: the ring, the snapshot, playback with its seam crossfade, and the unit's tick (46_looper.md). A
procedure that writes a memory carries the memories beside the unit. -/

namespace Sys2Proof.Machine

/-- The unit and the memories. -/
abbrev LoopStep := LoopUnit × Memory

/-- Ring write: both working-range inputs at the write cursor, then the cursor advances (46_looper.md R702). -/
def ringWrite (cfg : Config.Params) (xL xR : F32) (s : LoopStep) : LoopStep :=
  let w := s.1.wcur.toNat
  let m := s.2.write cfg .ring (0 * cfg.ringCap + w) xL
  let m := m.write cfg .ring (1 * cfg.ringCap + w) xR
  ({ s.1 with wcur := BitVec.ofNat 32 ((w + 1) % cfg.ringCap) }, m)

/-- The loop length L' of a snapshot (46_looper.md R704). -/
def snapshotLength (cfg : Config.Params) (fs : F32) (u : LoopUnit) : Int :=
  let raw : Int :=
    if u.conn.getLsbD 0 && decide (0 < u.clkPeriod.toNat) then (u.bars.toNat * u.clkPeriod.toNat : Nat)
    else ffloor (fadd (fmul u.lenS fs) 0x3F000000)
  clampInt raw cfg.lMin cfg.loopMax

/-- The crossfade window W' of a snapshot of length L' (46_looper.md R704). -/
def snapshotWindow (fs : F32) (u : LoopUnit) (len : Int) : Int :=
  clampInt (ffloor (fmul u.xfadeS fs)) 0 (len / 2)

/-- The most recent `len` samples of a channel, the oldest first (46_looper.md R705). -/
def ringTail (cfg : Config.Params) (m : Memory) (wcur len c : Nat) : List F32 :=
  (List.range len).map fun (i : Nat) =>
    m.read cfg .ring (c * cfg.ringCap + (((wcur : Int) - (len : Int) + (i : Int)) % (cfg.ringCap : Int)).toNat)

/-- `snapshot()` (46_looper.md R705). -/
def snapshot (cfg : Config.Params) (fs : F32) (s : LoopStep) : LoopStep :=
  let len := snapshotLength cfg fs s.1
  let win := snapshotWindow fs s.1 len
  let w := s.1.wcur.toNat
  let left := ringTail cfg s.2 w len.toNat 0
  let right := ringTail cfg s.2 w len.toNat 1
  let m := s.2.writeBlock cfg .loopbuf (0 * cfg.loopMax) left
  let m := m.writeBlock cfg .loopbuf (1 * cfg.loopMax) right
  ({ s.1 with loopLen := BitVec.ofNat 32 len.toNat, xfLen := BitVec.ofNat 32 win.toNat }, m)

/-- The playback speed sp' (46_looper.md R707). -/
def playSpeed (u : LoopUnit) : F32 :=
  let x := fmin (fdiv u.tAct u.rampS) f1
  let sm := fmul (fmul x x) (fsub 0x40400000 (fmul 0x40000000 x))
  fadd f1 (fmul (fsub u.intensity f1) sm)

/-- `samp(c, q)`: an interpolated sample of the loop buffer (46_looper.md R708). -/
def loopSample (cfg : Config.Params) (m : Memory) (u : LoopUnit) (c : Nat) (q : F32) : F32 :=
  let len : Int := u.loopLen.toNat
  let i0 := toIntSat q 0 (len - 1)
  let i1 := min (i0 + 1) (len - 1)
  lerp (m.read cfg .loopbuf (c * cfg.loopMax + i0.toNat)) (m.read cfg .loopbuf (c * cfg.loopMax + i1.toNat))
    (fsub q (toF32 i0))

/-- L − W, the loop period (46_looper.md R708). -/
def loopPeriod (u : LoopUnit) : F32 := toF32 ((u.loopLen.toNat : Int) - (u.xfLen.toNat : Int))

/-- `loopRead(c, q)`: with the seam crossfade (46_looper.md R708). -/
def loopRead (cfg : Config.Params) (m : Memory) (u : LoopUnit) (c : Nat) (q : F32) : F32 :=
  if decide (0 < u.xfLen.toNat) && fle (loopPeriod u) q then
    let h := fsub q (loopPeriod u)
    lerp (loopSample cfg m u c q) (loopSample cfg m u c h) (fdiv h (toF32 u.xfLen.toNat))
  else loopSample cfg m u c q

/-- `advance()`: the next playback position (46_looper.md R708). -/
def advancePos (u : LoopUnit) (speed : F32) : F32 :=
  let q := fadd u.pos speed
  if fle (toF32 u.loopLen.toNat) q then fsub q (loopPeriod u) else q

/-- `boost(y) = (2.0 · y) / (1.0 + fabs(y))` (46_looper.md R709). -/
def boost (y : F32) : F32 := fdiv (fmul 0x40000000 y) (fadd f1 (fabs y))

/-- Clock measurement and build request of a tick (45_granular.md R651; 46_looper.md R701, R710). -/
def loopControls (cfg : Config.Params) (u : LoopUnit) : LoopUnit :=
  let chi := connectedHigh cfg u.conn 0 u.clockIn
  let c := clockMeasure chi u.clkPrev u.clkCount u.clkEdges u.clkPeriod
  let bhi := gateHigh cfg u.buildIn
  { u with
    clkCount := c.count
    clkEdges := c.edges
    clkPeriod := c.period
    clkPrev := chi
    req := if u.mode = 0 then bhi else if bhi && !u.buildPrev then !u.req else u.req
    buildPrev := bhi }

/-- The at most one transition of a tick (46_looper.md R710). -/
def loopTransition (cfg : Config.Params) (fs : F32) (s : LoopStep) : LoopStep :=
  match s.1.state with
  | .idle =>
    if s.1.req then
      let r := snapshot cfg fs s
      ({ r.1 with pos := f0, tAct := f0, state := .active }, r.2)
    else s
  | .active => if s.1.req then s else ({ s.1 with tExit := f0, state := .exitFade }, s.2)
  | .exitFade => if fle cfg.exitFade s.1.tExit then ({ s.1 with state := .idle }, s.2) else s

/-- A channel's working-range output in Active or ExitFade, from its live input x' (46_looper.md R708 to R710). -/
def loopVoice (cfg : Config.Params) (m : Memory) (u : LoopUnit) (c : Nat) (x : F32) : F32 :=
  let y := loopRead cfg m u c u.pos
  let y := if u.boostEn = 0 then y else boost y
  if u.state = .exitFade then lerp x y (fsub f1 (fdiv u.tExit cfg.exitFade)) else y

/-- The output of the resulting state (46_looper.md R710). -/
def loopOutput (cfg : Config.Params) (dt xL xR : F32) (m : Memory) (u : LoopUnit) : LoopUnit :=
  if u.state = .idle then { u with outL := u.inL, outR := u.inR, speed := f1 }
  else
    let sp := playSpeed u
    { u with
      speed := sp
      outL := fmul (loopVoice cfg m u 0 xL) cfg.outMul
      outR := fmul (loopVoice cfg m u 1 xR) cfg.outMul
      tExit := if u.state = .exitFade then fadd u.tExit dt else u.tExit
      pos := advancePos u sp
      tAct := fadd u.tAct dt }

/-- `LOOP_tick()` (46_looper.md R710). -/
def loopTick (cfg : Config.Params) (g : GlobalRegs) (s : LoopStep) : LoopStep :=
  let xL := fdiv s.1.inL cfg.inDiv
  let xR := fdiv s.1.inR cfg.inDiv
  let s := ringWrite cfg xL xR s
  let s := loopTransition cfg g.sampleRate (loopControls cfg s.1, s.2)
  (loopOutput cfg g.dt xL xR s.2 s.1, s.2)

/-- LOOP's part of a tick. -/
def State.loopTick (s : State) : State :=
  let r := Machine.loopTick s.cfg s.global (s.loop, s.mem)
  { s with loop := r.1, mem := r.2 }

end Sys2Proof.Machine
end

