-- ==== Sys2Proof/Machine/Wavetable.lean ====
section
/-! DEFINITION. WT: reading a table, the unit's tick, and the bank replacement commands (42_wavetable.md). -/

namespace Sys2Proof.Machine

/-- The index of element (s, f, k, i) of BANKMEM (42_wavetable.md R500). -/
def bankIndex (cfg : Config.Params) (s f k i : Nat) : Nat :=
  ((s * cfg.numFrames + f) * cfg.mipLevels + k) * cfg.tableSize + i

/-- The first level k whose threshold MIP_T0 · 2^k is above r', else the top level (42_wavetable.md R505). -/
def mipLevelFor (cfg : Config.Params) (r : F32) : Nat :=
  ((List.range cfg.mipLevels).find? fun k => flt r (fmul cfg.mipT0 (toF32 ((2 ^ k : Nat) : Int)))).getD (cfg.mipLevels - 1)

/-- `mipSelect(f0, q)` (42_wavetable.md R505). -/
def mipSelect (cfg : Config.Params) (fs freq : F32) (q : Nat) : Nat :=
  let r := fmul (fdiv (fabs freq) fs) (toF32 cfg.tableSize)
  let k := mipLevelFor cfg r
  if q = 0 then min (k + 1) (cfg.mipLevels - 1) else k

/-- The cubic Hermite (Catmull-Rom) form on four samples (42_wavetable.md R507). -/
def cubicRead (ym y0 y1 y2 t : F32) : F32 :=
  let half : F32 := 0x3F000000
  let c1 := fmul half (fsub y1 ym)
  let c2 := fsub (fadd (fsub ym (fmul 0x40200000 y0)) (fmul 0x40000000 y1)) (fmul half y2)
  let c3 := fadd (fmul half (fsub y2 ym)) (fmul 0x3FC00000 (fsub y0 y1))
  fadd (fmul (fadd (fmul (fadd (fmul c3 t) c2) t) c1) t) y0

/-- `tableRead` of a table `y` of TABLE_SIZE samples: linear for q ≤ 1, cubic for q = 2 (42_wavetable.md R506, R507). -/
def tableRead (n : Nat) (y : Nat → F32) (p : F32) (q : Nat) : F32 :=
  let x := fmul p (toF32 n)
  let i0 := ffloor x
  let t := fsub x (toF32 i0)
  let at' := fun (i : Int) => y (i % (n : Int)).toNat
  if q ≤ 1 then lerp (at' i0) (at' (i0 + 1)) t
  else cubicRead (at' (i0 - 1)) (at' i0) (at' (i0 + 1)) (at' (i0 + 2)) t

/-- `wtRead(s, fr, k, p, q)`: linear interpolation between two frames (42_wavetable.md R508). -/
def wtRead (cfg : Config.Params) (m : Memory) (slot : Nat) (fr : F32) (k : Nat) (p : F32) (q : Nat) : F32 :=
  let fp := fmul fr (toF32 ((cfg.numFrames : Int) - 1))
  let i0 := toIntSat fp 0 ((cfg.numFrames : Int) - 1)
  let i1 := min (i0 + 1) ((cfg.numFrames : Int) - 1)
  let tf := fsub fp (toF32 i0)
  let table := fun (f : Int) => tableRead cfg.tableSize (fun i => m.read cfg .bankmem (bankIndex cfg slot f.toNat k i)) p q
  lerp (table i0) (table i1) tf

/-- `WT_tick()` (42_wavetable.md R510). -/
def wtTick (cfg : Config.Params) (g : GlobalRegs) (m : Memory) (u : WtUnit) : WtUnit :=
  let v := connected u.conn 0 u.voctIn
  let freq := pitchHz cfg u.pitch v
  let phase := phaseStep g.dt u.phase freq
  let c := if u.conn.getLsbD 1 then fdiv u.frameIn f10 else f0
  let fr := fclamp (fadd u.framePos c) f0 f1
  let q := u.quality.toNat
  let k := mipSelect cfg g.sampleRate freq q
  let b := u.bank.toNat
  { u with
    phase := phase
    mip := BitVec.ofNat 32 k
    out := if u.ready.getD b false then fmul (wtRead cfg m (u.slotOf.getD b 0) fr k phase q) cfg.outMul else f0 }

/-- WT's part of a tick. -/
def State.wtTick (s : State) : State := { s with wt := Machine.wtTick s.cfg s.global s.mem s.wt }

/-! ## Bank replacement (42_wavetable.md R520 to R524) -/

/-- The open load's bank is ready again and the load is closed. -/
def WtUnit.closeLoad (u : WtUnit) : WtUnit := { u with ready := u.ready.set u.target true, loading := false }

/-- `BANK_BEGIN(b)`'s change of WT once an open load has been discarded (42_wavetable.md R520). -/
def WtUnit.openLoad (u : WtUnit) (b : Nat) : WtUnit :=
  { u with loading := true, target := b, count := 0, ready := u.ready.set b false }

/-- BANK_BEGIN: opens a load into a logical bank (42_wavetable.md R520). -/
def execBankBegin (bank : BitVec 8) (s : State) : Host.Outcome State Fault Refusal :=
  if bank.toNat < s.cfg.numBanks then
    let s := if s.wt.loading then (State.raise .loadFail { s with wt := s.wt.closeLoad }) else s
    .next (State.retire 1 { s with wt := s.wt.openLoad bank.toNat })
  else .next (s.badCommand 1)

/-- BANK_DATA: appends one sample to the staging memory (42_wavetable.md R521). -/
def execBankData (sample : F32) (s : State) : Host.Outcome State Fault Refusal :=
  if s.wt.loading then
    if s.cfg.stageMax ≤ s.wt.count then .next ((s.raise .loadTrunc).retire 2)
    else
      let s := s.write .wtStage s.wt.count (finiteOrZero sample)
      .next (State.retire 2 { s with wt := { s.wt with count := s.wt.count + 1 } })
  else .next (s.badCommand 2)

/-- The memories after the staged samples were built into the spare slot: level 0 resampled and normalised, the mips
generated (42_wavetable.md R522, R501). -/
def buildSpare (cfg : Config.Params) (u : WtUnit) (m : Memory) : Memory :=
  let v := level0 u.count (cfg.tableSize * cfg.numFrames) (fun i => m.read cfg .wtStage i)
  m.writeBlock cfg .bankmem (u.spare * slotSize cfg) (slotImage cfg v.toArray)

/-- The publication: the target bank's slot and the spare slot change places (42_wavetable.md R523). -/
def WtUnit.publish (u : WtUnit) : WtUnit :=
  { u with slotOf := u.slotOf.set u.target u.spare, spare := u.slotOf.getD u.target 0 }

/-- BANK_COMMIT: builds the staged bank and publishes it (42_wavetable.md R523). -/
def execBankCommit (s : State) : Host.Outcome State Fault Refusal :=
  if s.wt.loading then
    if s.wt.count = 0 then
      .next (State.retire 1 (State.raise .loadFail { s with wt := s.wt.closeLoad }))
    else
      .next (State.retire 1 { s with mem := buildSpare s.cfg s.wt s.mem, wt := s.wt.publish.closeLoad })
  else .next (s.badCommand 1)

/-- BANK_ABORT: discards an open load (42_wavetable.md R524). -/
def execBankAbort (s : State) : Host.Outcome State Fault Refusal :=
  if s.wt.loading then .next (State.retire 1 (State.raise .loadFail { s with wt := s.wt.closeLoad }))
  else .next (s.badCommand 1)

end Sys2Proof.Machine
end

