-- ==== Sys2Proof/Machine/Commands.lean ====
section
/-! DEFINITION. The tick of the whole CORE and the six generic commands (40_host_commands.md). -/

namespace Sys2Proof.Machine

/-- TICK_COUNT's part of a tick (40_host_commands.md R402). -/
def State.countTick (s : State) : State :=
  { s with global := { s.global with tickCount := s.global.tickCount + 1 } }

/-- `tick()`: one audio sample of every unit, in UNIT order (40_host_commands.md R402, R403). -/
def State.tick (s : State) : State :=
  s.oscTick.wtTick.envTick.vpoolTick.granTick.loopTick.dlyTick.arpTick.countTick

/-- NOP (40_host_commands.md R406). -/
def execNop (s : State) : Host.Outcome State Fault Refusal := .next (s.retire 1)

/-- TICK: one tick of the n = IMM + 1 ticks of the command. The port stays at the command while ticks are left and
moves past it after the last (40_host_commands.md R407, 20_memory.md R211; log entry 14). -/
def execTick (imm : BitVec 14) (s : State) : Host.Outcome State Fault Refusal :=
  let left := (s.port s.serving).ticksLeft
  let n := if left = 0 then imm.toNat + 1 else left
  .next (if n = 1 then s.tick.retire 1 else s.tick.holdTick (n - 1))

/-- WRREG (40_host_commands.md R408). -/
def execWrreg (unit : BitVec 4) (reg : BitVec 8) (data : Word) (s : State) : Host.Outcome State Fault Refusal :=
  match Reg.ofAddr s.cfg unit reg with
  | none => .next (s.badCommand 2)
  | some r =>
    if r.cls = .O ∨ r.cls = .C then .next (s.badCommand 2)
    else .next (State.retire 2 (r.store data s))

/-- RDREG; with a full response FIFO it waits (40_host_commands.md R409, 20_memory.md R213; log entry 13). -/
def execRdreg (unit : BitVec 4) (reg : BitVec 8) (s : State) : Host.Outcome State Fault Refusal :=
  if (s.port s.serving).respFull s.cfg then .next s
  else match Reg.ofAddr s.cfg unit reg with
    | none => .next (((s.raise .badCommand).respond 0).retire 1)
    | some r => .next ((s.respond (r.value s)).retire 1)

/-- SRESET (40_host_commands.md R410). -/
def execSreset (unit : BitVec 4) (s : State) : Host.Outcome State Fault Refusal :=
  if 8 < unit.toNat then .next (s.badCommand 1)
  else if unit.toNat = 0 then .next (s.resetCore.retire 1)
  else .next ((s.resetUnit unit.toNat).retire 1)

/-- CLRSTAT (40_host_commands.md R405). -/
def execClrstat (mask : BitVec 14) (s : State) : Host.Outcome State Fault Refusal :=
  .next (State.retire 1 { s with global := { s.global with status := clearBits mask s.global.status } })

end Sys2Proof.Machine
end

