-- ==== Sys2Proof/Machine/Dispatch.lean ====
section
/-! DEFINITION. The meaning of each command: one arm per constructor of Instr. -/

namespace Sys2Proof.Machine

def exec (i : Instr) (s : State) : Host.Outcome State Fault Refusal :=
  match i with
  | .nop => Sys2Proof.Machine.execNop s
  | .tick imm => Sys2Proof.Machine.execTick imm s
  | .wrreg unit reg data => Sys2Proof.Machine.execWrreg unit reg data s
  | .rdreg unit reg => Sys2Proof.Machine.execRdreg unit reg s
  | .sreset unit => Sys2Proof.Machine.execSreset unit s
  | .clrstat mask => Sys2Proof.Machine.execClrstat mask s
  | .noteOn freq => Sys2Proof.Machine.execNoteOn freq s
  | .noteOnMidi note => Sys2Proof.Machine.execNoteOnMidi note s
  | .noteOff slot => Sys2Proof.Machine.execNoteOff slot s
  | .allOff => Sys2Proof.Machine.execAllOff s
  | .chordOn chord root => Sys2Proof.Machine.execChordOn chord root s
  | .bankBegin bank => Sys2Proof.Machine.execBankBegin bank s
  | .bankData sample => Sys2Proof.Machine.execBankData sample s
  | .bankCommit => Sys2Proof.Machine.execBankCommit s
  | .bankAbort => Sys2Proof.Machine.execBankAbort s
  | .srcBegin rate => Sys2Proof.Machine.execSrcBegin rate s
  | .srcData sample => Sys2Proof.Machine.execSrcData sample s
  | .srcCommit => Sys2Proof.Machine.execSrcCommit s
  | .srcAbort => Sys2Proof.Machine.execSrcAbort s
  | .granSpawn => Sys2Proof.Machine.execGranSpawn s

end Sys2Proof.Machine
end

