-- ==== Sys2Proof/Machine/Step.lean ====
section
/-! DEFINITION. One step of the CORE and its host: the execution of one command or one tick, the arrival of one word, or
the removal of one response (40_host_commands.md R400, 20_memory.md R210 to R213). -/

namespace Sys2Proof.Machine

/-- `execute(P)`: the head command of port p, decoded and performed, or raised as illegal (40_host_commands.md R400). -/
def State.execute (s : State) (p : PortId) : Host.Outcome State Fault Refusal :=
  let s := { s with serving := p }
  match (s.port p).head with
  | none => .next s
  | some (w, d) =>
    match decodeCommand s.cfg w d with
    | .ok i => exec i s
    | .error _ => .next (s.illegal w)

/-- One step. The agent whose turn it is moves, and the agent after it is chosen: a port executes (or the other,
where this one is not ready; where neither is, the CORE holds its state: 60_exceptions.md R915), a word arrives, or a
response leaves (20_memory.md R211 to R213, R218; log entries 9 and 10). -/
def step (s : State) : Host.Outcome State Fault Refusal :=
  let t := s.reschedule
  match s.sched.turn with
  | .port p =>
    match s.grant p with
    | none => .next t
    | some q => t.execute q
  | .hostSend p => .next (t.setPort p (t.port p).hostSend)
  | .hostTake p => .next (t.setPort p (t.port p).hostTake)

/-- The state with the command whose bits are `w` (as spec/opcode_table.json numbers them, bits above `nbits` zero) as
the next one: its words arrive at the head of port A, it is port A's turn, and port A is not part-way through another
command and has room for a response (log entry 11). -/
def State.withFetchWord (s : State) (nbits w : Nat) : State :=
  let words := wordsOfBytes (tableBytes nbits w)
  let first := words.headD 0
  { s with
    sched := { s.sched with turn := .port .A }
    portA :=
      { s.portA with
        pending := none
        ticksLeft := 0
        stream := words.take (commandLength first)
        resp := s.portA.resp.drop (s.portA.resp.length + 1 - s.cfg.respDepth) } }

end Sys2Proof.Machine
end

