-- ==== Sys2Proof/Safety.lean ====
section
/-! DEFINITION. The terms that statements about the CORE are made in: legal parameter instances, the ranges of registers,
what a command leaves alone, and the invariants of the state. No part of the machine reads this file. -/

namespace Sys2Proof

open Machine

/-! ## Values -/

/-- A finite F32 value in [lo, hi]. -/
def inRange (lo hi x : F32) : Bool := isFinite x && fle lo x && fle x hi

/-- A phase: a value in [0, 1) that is no −0.0. The patterns of the non-negative values below 1.0 are the numbers below
the pattern of 1.0 (41_oscillator.md R451). -/
def isPhase (p : F32) : Bool := decide (p.toNat < 0x3F800000)

/-- A level: a value in [0, 1] (43_envelope.md R550). -/
def isLevel (l : F32) : Bool := inRange 0x00000000 0x3F800000 l

/-- A finite value above 0.0. -/
def isPositive (x : F32) : Bool := isFinite x && flt 0x00000000 x

/-- r is a finite value nearest to the exact num / den units of 2^-149; where another value is as near, r's pattern is even
(00_scope.md R15). -/
def Machine.nearestEven (r : F32) (num : Int) (den : Nat) : Prop :=
  ∀ c : F32, isFinite c = true →
    |scaled r * den - num| ≤ |scaled c * den - num| ∧
      (|scaled c * den - num| = |scaled r * den - num| → scaled c ≠ scaled r → r.getLsbD 0 = false)

/-! ## The encoding table of 30_encoding.md R304 -/

/-- The check of a row that depends on a value or a parameter (30_encoding.md R304). -/
inductive RowCheck where
  | always
  | unitAtMost8
  | slot
  | chordCode
  | bank
  deriving DecidableEq, Repr

/-- Whether a command word passes a row's check: the field is read as the number in bits 25:22 or 21:14. -/
def RowCheck.passes (cfg : Config.Params) (w : Word) : RowCheck → Bool
  | .always => true
  | .unitAtMost8 => decide (w.toNat / 2 ^ 22 % 2 ^ 4 ≤ 8)
  | .slot => decide (w.toNat / 2 ^ 14 % 2 ^ 8 < cfg.nVoices)
  | .chordCode => decide (w.toNat / 2 ^ 14 % 2 ^ 8 < cfg.nChord)
  | .bank => decide (w.toNat / 2 ^ 14 % 2 ^ 8 < cfg.numBanks)

/-- A row of the match and mask table of 30_encoding.md R304. The meanings and the decoder do not read it: a statement
holds the decoder against it. -/
structure EncodingRow where
  bits : Word
  mask : Word
  check : RowCheck
  deriving DecidableEq, Repr

/-- `(word AND mask) = match`, and the row's check (30_encoding.md R304). -/
def EncodingRow.accepts (cfg : Config.Params) (w : Word) (r : EncodingRow) : Bool :=
  (w &&& r.mask == r.bits) && r.check.passes cfg w

/-- The 20 rows, in the order of the table (30_encoding.md R304). -/
def encodingTable : List EncodingRow :=
  [⟨0x00000000, 0xFFFFFFFF, .always⟩, ⟨0x04000000, 0xFFFFC000, .always⟩, ⟨0x08000000, 0xFC003FFF, .unitAtMost8⟩,
    ⟨0x0C000000, 0xFC003FFF, .unitAtMost8⟩, ⟨0x10000000, 0xFC3FFFFF, .unitAtMost8⟩, ⟨0x14000000, 0xFFFFC000, .always⟩,
    ⟨0x21000000, 0xFFFFFFFF, .always⟩, ⟨0x25000000, 0xFFFFFF80, .always⟩, ⟨0x29000000, 0xFFC03FFF, .slot⟩,
    ⟨0x2D000000, 0xFFFFFFFF, .always⟩, ⟨0x31000000, 0xFFC03F80, .chordCode⟩, ⟨0x40800000, 0xFFC03FFF, .bank⟩,
    ⟨0x44800000, 0xFFFFFFFF, .always⟩, ⟨0x48800000, 0xFFFFFFFF, .always⟩, ⟨0x4C800000, 0xFFFFFFFF, .always⟩,
    ⟨0x51400000, 0xFFFFFFFF, .always⟩, ⟨0x55400000, 0xFFFFFFFF, .always⟩, ⟨0x59400000, 0xFFFFFFFF, .always⟩,
    ⟨0x5D400000, 0xFFFFFFFF, .always⟩, ⟨0x61400000, 0xFFFFFFFF, .always⟩]

/-- The row of a command in that table. -/
def Instr.row : Instr → Nat
  | .nop => 0
  | .tick _ => 1
  | .wrreg _ _ _ => 2
  | .rdreg _ _ => 3
  | .sreset _ => 4
  | .clrstat _ => 5
  | .noteOn _ => 6
  | .noteOnMidi _ => 7
  | .noteOff _ => 8
  | .allOff => 9
  | .chordOn _ _ => 10
  | .bankBegin _ => 11
  | .bankData _ => 12
  | .bankCommit => 13
  | .bankAbort => 14
  | .srcBegin _ => 15
  | .srcData _ => 16
  | .srcCommit => 17
  | .srcAbort => 18
  | .granSpawn => 19

/-- Whether a command is a TICK, each execution of which is one tick (log entry 14). -/
def Instr.isTick : Instr → Bool
  | .tick _ => true
  | _ => false

namespace Config

/-- The constraints of 00_scope.md R9 on an instance, as one test; the bounds marked (log entry 22) are those that make
every register and every CFG field wide enough for what it holds. -/
def Params.legal (c : Params) : Bool :=
  decide (c.tableSize = 2 ^ Nat.log2 c.tableSize) && decide (4 ≤ c.tableSize) && decide (c.tableSize ≤ 2 ^ 16)
    && decide (1 ≤ c.numFrames) && decide (c.numFrames ≤ 256)
    && decide (1 ≤ c.mipLevels) && decide (2 ^ (c.mipLevels - 1) ≤ c.tableSize)
    && decide (1 ≤ c.numBanks) && decide (c.numBanks ≤ 16)
    && decide (2 ≤ c.stageMax) && decide (c.stageMax < 2 ^ 32)
    && isPositive c.mipT0 && decide (c.harmMax ≤ 64) && isPositive c.tEps
    && decide (1 ≤ c.nVoices) && decide (c.nVoices ≤ 32) && decide (1 ≤ c.nStack) && decide (c.nStack ≤ 4)
    && isPositive c.ageEps && isPositive c.glideSnap
    && c.chordTable.all (fun l => !l.isEmpty) && decide (c.chordTable.head? = some [0, 4, 7])
    && decide (c.chordTable.length ≤ 256)
    && decide (1 ≤ c.nGrains) && decide (c.nGrains ≤ 32) && decide (1 ≤ c.gqDepth) && decide (c.gqDepth ≤ 64)
    && isFinite c.granK && fle 0x00000000 c.granK && inRange 0x00000000 0x3F800000 c.granJspan
    && decide (2 ≤ c.srcMax) && decide (c.srcMax < 2 ^ 32) && inRange 0x3F800000 0x49742400 c.defaultSrcRate
    && decide (c.rngSeedReset ≠ 0)
    && decide (c.lMin + 1 ≤ c.ringCap) && decide (c.ringCap < 2 ^ 32)
    && decide (c.lMin ≤ c.loopMax) && decide (c.loopMax < c.ringCap)
    && isFinite c.maxSpdMax && fle 0x3F800000 c.maxSpdMax && fle (fmul 0x40000000 c.maxSpdMax) (toF32 c.lMin)
    && isPositive c.exitFade
    && decide (2 ≤ c.dlyCap) && decide (c.dlyCap < 2 ^ 32)
    && decide (1 ≤ c.nComb) && decide (c.nComb ≤ 16)
    && c.combLen.all (fun l => decide (1 ≤ l) && decide (l + 1 ≤ c.dlyCap))
    && isFinite c.fbMax && fle 0x00000000 c.fbMax && flt c.fbMax 0x3F800000
    && isPositive c.pulseS && isPositive c.fC4 && isPositive c.inDiv && isPositive c.outMul
    && isFinite c.gateTh && isFinite c.trigV && isPositive c.inMax
    && isPositive c.srMin && isFinite c.srMax && flt c.srMin c.srMax && inRange c.srMin c.srMax c.srReset
    && decide (1 ≤ c.respDepth)

end Config

namespace Machine

/-! ## Registers -/

/-- What a write of a register stores (10_state.md R100 to R103 and the class and range columns of its tables). -/
inductive RegRange where
  /-- P, F32 in [lo, hi] -/
  | f32 (lo hi : F32)
  /-- P, U32 in [lo, hi] -/
  | u32 (lo hi : Word)
  /-- P, a CONN register with these bits defined -/
  | mask (m : Word)
  /-- P, the random generator's state -/
  | seed
  /-- I, volts -/
  | volts
  /-- O or C -/
  | readOnly
  deriving DecidableEq, Repr

/-- The range column of the tables of 10_state.md, register by register (R101, R110, R115, R120, R125, R130, R135, R140,
R145). The meanings do not read it: statements hold `Reg.store` against it. -/
def Reg.range (cfg : Config.Params) : Reg → RegRange
  | .global .sampleRate => .f32 cfg.srMin cfg.srMax
  | .osc .wave => .u32 0 3
  | .osc .pitch => .f32 0xC2580000 0x42580000
  | .osc .harmN => .u32 0 (BitVec.ofNat 32 cfg.harmMax)
  | .osc .harmStr => .f32 0x00000000 0x3F800000
  | .osc .conn => .mask 0x3
  | .osc .voctIn => .volts
  | .osc .syncIn => .volts
  | .wt .bank => .u32 0 (BitVec.ofNat 32 (cfg.numBanks - 1))
  | .wt .framePos => .f32 0x00000000 0x3F800000
  | .wt .pitch => .f32 0xC2580000 0x42580000
  | .wt .quality => .u32 0 2
  | .wt .conn => .mask 0x3
  | .wt .voctIn => .volts
  | .wt .frameIn => .volts
  | .env .attack => .f32 cfg.tEps 0x461C4000
  | .env .decay => .f32 cfg.tEps 0x461C4000
  | .env .sustain => .f32 0x00000000 0x3F800000
  | .env .release => .f32 cfg.tEps 0x461C4000
  | .env .variant => .u32 0 1
  | .env .gateIn => .volts
  | .vpool .wave => .u32 0 3
  | .vpool .attack => .f32 cfg.tEps 0x461C4000
  | .vpool .decay => .f32 cfg.tEps 0x461C4000
  | .vpool .sustain => .f32 0x00000000 0x3F800000
  | .vpool .release => .f32 cfg.tEps 0x461C4000
  | .vpool .variant => .u32 0 1
  | .vpool .glide => .f32 0x3A83126F 0x3F800000
  | .vpool .detune => .f32 0x00000000 0x42C80000
  | .gran .bpm => .f32 0x41A00000 0x43960000
  | .gran .density => .f32 0x00000000 0x3F800000
  | .gran .vitality => .f32 0x00000000 0x3F800000
  | .gran .position => .f32 0x00000000 0x3F800000
  | .gran .size => .f32 0x3A83126F 0x41200000
  | .gran .rate => .f32 0xC1000000 0x41000000
  | .gran .rng => .seed
  | .gran .conn => .mask 0x1
  | .gran .clockIn => .volts
  | .loop .lenS => .f32 0x00000000 0x461C4000
  | .loop .bars => .u32 1 64
  | .loop .intensity => .f32 0x3F800000 cfg.maxSpdMax
  | .loop .rampS => .f32 cfg.tEps 0x461C4000
  | .loop .xfadeS => .f32 0x00000000 0x461C4000
  | .loop .mode => .u32 0 1
  | .loop .boostEn => .u32 0 1
  | .loop .conn => .mask 0x1
  | .loop .inL => .volts
  | .loop .inR => .volts
  | .loop .buildIn => .volts
  | .loop .clockIn => .volts
  | .dly .revFb => .f32 0x00000000 cfg.fbMax
  | .dly .revMix => .f32 0x00000000 0x3F800000
  | .dly .echoTime => .f32 0x00000000 0x461C4000
  | .dly .echoFb => .f32 0x00000000 cfg.fbMax
  | .dly .echoMix => .f32 0x00000000 0x3F800000
  | .dly .revIn => .volts
  | .dly .echoInL => .volts
  | .dly .echoInR => .volts
  | .arp .root => .u32 0 127
  | .arp .chord => .u32 0 (BitVec.ofNat 32 (cfg.nChord - 1))
  | .arp .bpm => .f32 0x41A00000 0x43960000
  | .arp .div => .u32 0 5
  | .arp .conn => .mask 0x1
  | .arp .clockIn => .volts
  | _ => .readOnly

/-- `legal(d)` of a range (10_state.md R102, R103; 40_host_commands.md R408); a read-only register has none. -/
def RegRange.legal (cfg : Config.Params) (d : Word) : RegRange → Option Word
  | .f32 lo hi => some (fclamp d lo hi)
  | .u32 lo hi => some (if d.toNat < lo.toNat then lo else if hi.toNat < d.toNat then hi else d)
  | .mask m => some (d &&& m)
  | .seed => some (if d = 0 then cfg.rngSeedReset else d)
  | .volts => some (fclamp d (fneg cfg.inMax) cfg.inMax)
  | .readOnly => none

/-- Whether a value is one the range allows. -/
def RegRange.allows (cfg : Config.Params) (v : Word) : RegRange → Bool
  | .f32 lo hi => inRange lo hi v
  | .u32 lo hi => decide (lo.toNat ≤ v.toNat) && decide (v.toNat ≤ hi.toNat)
  | .mask m => v &&& ~~~m == 0
  | .seed => v != 0
  | .volts => inRange (fneg cfg.inMax) cfg.inMax v
  | .readOnly => true

/-- The reset column of the tables of 10_state.md (R101, R110, R115, R120, R125, R130, R135, R140, R145) for the registers
that are no constants and whose reset value is not 0. SRC_LEN, the length of DEFAULT_SRC, has no fixed value and none here.
State.reset does not read it: a statement holds the reset state against it. -/
def Reg.resetColumn (cfg : Config.Params) : Reg → Word
  | .global .sampleRate => cfg.srReset
  | .global .dt => fdiv 0x3F800000 cfg.srReset
  | .wt .quality => 2
  | .wt .bankReady => BitVec.ofNat 32 (2 ^ cfg.numBanks - 1)
  | .env .attack => 0x3C23D70A        -- 0.01
  | .env .decay => 0x3DCCCCCD         -- 0.1
  | .env .sustain => 0x3F000000       -- 0.5
  | .env .release => 0x3E800000       -- 0.25
  | .vpool .attack => 0x3C23D70A      -- 0.01
  | .vpool .decay => 0x3DCCCCCD       -- 0.1
  | .vpool .sustain => 0x3F000000     -- 0.5
  | .vpool .release => 0x3E800000     -- 0.25
  | .vpool .glide => 0x3C23D70A       -- 0.01
  | .vpool .lastSlot => 0xFFFFFFFF
  | .gran .bpm => 0x42F00000          -- 120.0
  | .gran .density => 0x3F000000      -- 0.5
  | .gran .size => 0x3D4CCCCD         -- 0.05
  | .gran .rate => 0x3F800000         -- 1.0
  | .gran .rng => cfg.rngSeedReset
  | .gran .srcRate => cfg.defaultSrcRate
  | .loop .lenS => 0x3F800000         -- 1.0
  | .loop .bars => 1
  | .loop .intensity => 0x40000000    -- 2.0
  | .loop .rampS => 0x40800000        -- 4.0
  | .loop .xfadeS => 0x3C23D70A       -- 0.01
  | .loop .boostEn => 1
  | .loop .speed => 0x3F800000        -- 1.0
  | .dly .revFb => 0x3F400000         -- 0.75
  | .dly .revMix => 0x3E800000        -- 0.25
  | .dly .echoTime => 0x3E800000      -- 0.25
  | .dly .echoFb => 0x3F000000        -- 0.5
  | .dly .echoMix => 0x3F000000       -- 0.5
  | .arp .root => 60
  | .arp .bpm => 0x42F00000           -- 120.0
  | .arp .div => 2
  | .arp .note => 60
  | _ => 0

/-! ## The register tables of 10_state.md, as (UNIT, REG, register). No meaning reads them: a statement holds the register
map against them. -/

/-- 10_state.md R101. -/
def globalTable : List (Nat × Nat × Reg) :=
  [(0, 0x00, .global .id), (0, 0x01, .global .sampleRate), (0, 0x02, .global .dt), (0, 0x03, .global .status),
    (0, 0x04, .global .tickCount), (0, 0x05, .global .cfg0), (0, 0x06, .global .cfg1), (0, 0x07, .global .cfg2),
    (0, 0x08, .global .cfg3), (0, 0x09, .global .cfg4), (0, 0x0A, .global .cfg5), (0, 0x0B, .global .cfg6),
    (0, 0x0C, .global .cfg7), (0, 0x0D, .global .cfg8)]

/-- 10_state.md R110. -/
def oscTable : List (Nat × Nat × Reg) :=
  [(1, 0x00, .osc .wave), (1, 0x01, .osc .pitch), (1, 0x02, .osc .harmN), (1, 0x03, .osc .harmStr),
    (1, 0x04, .osc .conn), (1, 0x10, .osc .voctIn), (1, 0x11, .osc .syncIn), (1, 0x20, .osc .out),
    (1, 0x21, .osc .phase), (1, 0x22, .osc .freq)]

/-- 10_state.md R115. -/
def wtTable : List (Nat × Nat × Reg) :=
  [(2, 0x00, .wt .bank), (2, 0x01, .wt .framePos), (2, 0x02, .wt .pitch), (2, 0x03, .wt .quality),
    (2, 0x04, .wt .conn), (2, 0x10, .wt .voctIn), (2, 0x11, .wt .frameIn), (2, 0x20, .wt .out),
    (2, 0x21, .wt .phase), (2, 0x22, .wt .mip), (2, 0x23, .wt .bankReady), (2, 0x24, .wt .loadState),
    (2, 0x25, .wt .loadCount)]

/-- 10_state.md R120. -/
def envTable : List (Nat × Nat × Reg) :=
  [(3, 0x00, .env .attack), (3, 0x01, .env .decay), (3, 0x02, .env .sustain), (3, 0x03, .env .release),
    (3, 0x04, .env .variant), (3, 0x10, .env .gateIn), (3, 0x20, .env .out), (3, 0x21, .env .level),
    (3, 0x22, .env .state)]

/-- 10_state.md R125. -/
def vpoolTable : List (Nat × Nat × Reg) :=
  [(4, 0x00, .vpool .wave), (4, 0x01, .vpool .attack), (4, 0x02, .vpool .decay), (4, 0x03, .vpool .sustain),
    (4, 0x04, .vpool .release), (4, 0x05, .vpool .variant), (4, 0x06, .vpool .glide), (4, 0x07, .vpool .detune),
    (4, 0x20, .vpool .out), (4, 0x21, .vpool .activeCount), (4, 0x22, .vpool .lastSlot),
    (4, 0x23, .vpool .activeMask)]

/-- 10_state.md R130. -/
def granTable : List (Nat × Nat × Reg) :=
  [(5, 0x00, .gran .bpm), (5, 0x01, .gran .density), (5, 0x02, .gran .vitality), (5, 0x03, .gran .position),
    (5, 0x04, .gran .size), (5, 0x05, .gran .rate), (5, 0x06, .gran .rng), (5, 0x07, .gran .conn),
    (5, 0x10, .gran .clockIn), (5, 0x20, .gran .out), (5, 0x21, .gran .activeCount), (5, 0x22, .gran .spawnCount),
    (5, 0x23, .gran .srcLen), (5, 0x24, .gran .srcRate), (5, 0x25, .gran .queueLevel), (5, 0x26, .gran .loadState),
    (5, 0x27, .gran .loadCount), (5, 0x28, .gran .clkPeriod)]

/-- 10_state.md R135. -/
def loopTable : List (Nat × Nat × Reg) :=
  [(6, 0x00, .loop .lenS), (6, 0x01, .loop .bars), (6, 0x02, .loop .intensity), (6, 0x03, .loop .rampS),
    (6, 0x04, .loop .xfadeS), (6, 0x05, .loop .mode), (6, 0x06, .loop .boostEn), (6, 0x07, .loop .conn),
    (6, 0x10, .loop .inL), (6, 0x11, .loop .inR), (6, 0x12, .loop .buildIn), (6, 0x13, .loop .clockIn),
    (6, 0x20, .loop .outL), (6, 0x21, .loop .outR), (6, 0x22, .loop .state), (6, 0x23, .loop .loopLen),
    (6, 0x24, .loop .xfLen), (6, 0x25, .loop .pos), (6, 0x26, .loop .speed), (6, 0x27, .loop .wcur),
    (6, 0x28, .loop .clkPeriod), (6, 0x29, .loop .req)]

/-- 10_state.md R140. -/
def dlyTable : List (Nat × Nat × Reg) :=
  [(7, 0x00, .dly .revFb), (7, 0x01, .dly .revMix), (7, 0x02, .dly .echoTime), (7, 0x03, .dly .echoFb),
    (7, 0x04, .dly .echoMix), (7, 0x10, .dly .revIn), (7, 0x11, .dly .echoInL), (7, 0x12, .dly .echoInR),
    (7, 0x20, .dly .revOut), (7, 0x21, .dly .echoOutL), (7, 0x22, .dly .echoOutR), (7, 0x23, .dly .echoOff)]

/-- 10_state.md R145. -/
def arpTable : List (Nat × Nat × Reg) :=
  [(8, 0x00, .arp .root), (8, 0x01, .arp .chord), (8, 0x02, .arp .bpm), (8, 0x03, .arp .div), (8, 0x04, .arp .conn),
    (8, 0x10, .arp .clockIn), (8, 0x20, .arp .pitchOut), (8, 0x21, .arp .trigOut), (8, 0x22, .arp .note),
    (8, 0x23, .arp .index), (8, 0x24, .arp .stepCount)]

/-- The readback entries of voice slot k (10_state.md R125). -/
def voiceReadback (k : Nat) : List (Nat × Nat × Reg) :=
  [(4, 0x80 + 4 * k, .vpool (.vFreq k)), (4, 0x80 + 4 * k + 1, .vpool (.vTarget k)),
    (4, 0x80 + 4 * k + 2, .vpool (.vLevel k)), (4, 0x80 + 4 * k + 3, .vpool (.vFlags k))]

/-- The readback entries of grain slot k (10_state.md R130). -/
def grainReadback (k : Nat) : List (Nat × Nat × Reg) :=
  [(5, 0x80 + 4 * k, .gran (.gFlags k)), (5, 0x80 + 4 * k + 1, .gran (.gElapsed k)),
    (5, 0x80 + 4 * k + 2, .gran (.gDur k)), (5, 0x80 + 4 * k + 3, .gran (.gPhase k))]

end Machine

/-- Every register of an instance with its address: the fixed rows, the readback entries of the configured slots and the
lengths of the comb lines (10_state.md R101 to R145). -/
def Config.Params.registerTable (cfg : Config.Params) : List (Nat × Nat × Reg) :=
  globalTable ++ oscTable ++ wtTable ++ envTable ++ vpoolTable ++ granTable ++ loopTable ++ dlyTable ++ arpTable
    ++ (List.range cfg.nVoices).flatMap voiceReadback ++ (List.range cfg.nGrains).flatMap grainReadback
    ++ (List.range cfg.nComb).map fun i => (7, 0x30 + i, .dly (.combLen i))

namespace Machine

/-- The unit that owns a memory (20_memory.md R200, 70_reset_and_hazards.md R952). -/
def Space.unit : Space → Nat
  | .bankmem => 2
  | .wtStage => 2
  | .gsrc => 5
  | .ring => 6
  | .loopbuf => 6
  | .comb => 7
  | .echo => 7

/-- The code of an envelope state (43_envelope.md R550). -/
def EnvState.number : EnvState → Nat
  | .idle => 0
  | .attack => 1
  | .decay => 2
  | .sustain => 3
  | .release => 4

/-- The code of a looper state (46_looper.md R700). -/
def LoopState.number : LoopState → Nat
  | .idle => 0
  | .active => 1
  | .exitFade => 2

/-! ## Waveforms -/

/-- `wave(k, p)` as 41_oscillator.md R452 writes it, for a code k in [0, 3]. No meaning reads it: statements hold the
oscillators' outputs against it. -/
def waveform (k : Nat) (p : F32) : F32 :=
  if k = 0 then fsin2pi p
  else if k = 1 then
    if flt p 0x3E800000 = true then fmul 0x40800000 p
    else if flt p 0x3F400000 = true then fsub 0x40000000 (fmul 0x40800000 p)
    else fsub (fmul 0x40800000 p) 0x40800000
  else if k = 2 then fsub (fmul 0x40000000 p) 0x3F800000
  else if flt p 0x3F000000 = true then 0x3F800000 else 0xBF800000

/-- Sample i of mip level k over a level-0 table y of n samples, as 42_wavetable.md R501 writes it: the mean of the 2^k
samples at the offsets −2^(k−1) .. 2^(k−1)−1, indices modulo n, summed in ascending order; y itself at level 0. No meaning
reads it: statements hold the built banks against it. -/
def boxFilter (n : Nat) (y : Nat → F32) (k i : Nat) : F32 :=
  if k = 0 then y i
  else
    let sum := (List.range (2 ^ k)).foldl (fun acc (j : Nat) =>
      fadd acc (y (((i : Int) + ((j : Int) - 2 ^ (k - 1))) % n).toNat)) 0x00000000
    fdiv sum (toF32 (2 ^ k))

/-! ## Voices -/

/-- A slot as a note-on at frequency f leaves it (44_voice_pool.md R601). -/
def Voice.startedAt (pool : VoicePool) (f : F32) (v : Voice) : Voice where
  active := true
  gate := true
  gatePrev := true
  primed := true
  freq := if v.primed then v.freq else fclamp f 0x00000000 0x469C4000
  target := fclamp f 0x00000000 0x469C4000
  phase := v.phase
  envState := .attack
  envLevel := if pool.variant = 1 then 0x00000000 else v.envLevel
  wave := BitVec.ofNat 2 pool.wave.toNat

/-- The numbers of the free slots, ascending (44_voice_pool.md R600, R601). -/
def VoicePool.freeSlots (u : VoicePool) : List Nat :=
  (List.range u.voices.length).filter fun i => u.voices[i]?.map Voice.active == some false

/-! ## What a command leaves alone -/

/-- Every element of every memory reads as before. -/
def State.memoryKept (s t : State) : Prop := ∀ sp a, t.read sp a = s.read sp a

/-- The serving port has moved past a command of n words and has the responses `rs` appended; no tick is left on it;
nothing else of either port, and nothing of the choice of agents, has changed. -/
def State.movedPast (n : Nat) (rs : List Word) (s t : State) : Prop :=
  (t.port s.serving).pc = (s.port s.serving).pc + n
    ∧ (t.port s.serving).words = (s.port s.serving).words.drop n
    ∧ (t.port s.serving).ticksLeft = 0
    ∧ (t.port s.serving).resp = (s.port s.serving).resp ++ rs
    ∧ (t.port s.serving).unsent = (s.port s.serving).unsent
    ∧ (t.port s.serving).taken = (s.port s.serving).taken
    ∧ t.port s.serving.other = s.port s.serving.other
    ∧ t.serving = s.serving ∧ t.sched = s.sched

/-- The state s with the ports of t. -/
def State.withPortsOf (s t : State) : State := { s with portA := t.portA, portL := t.portL }

/-- t is the state u but for the command ports: the serving port has moved past a command of n words and has the
responses `rs` appended. -/
def State.becomes (n : Nat) (rs : List Word) (s u t : State) : Prop := t.withPortsOf s = u ∧ s.movedPast n rs t

/-- The state s with an event of STATUS set. -/
def State.withEvent (e : Event) (s : State) : State :=
  { s with global := { s.global with status := s.global.status ||| BitVec.ofNat 32 (2 ^ e.code) } }

/-- The hidden elements of the units: everything a register read does not give (10_state.md R155). -/
structure Hidden where
  oscSyncPrev : Bool
  wtSlots : List Nat × Nat
  wtLoad : Bool × Nat × Nat
  wtReady : List Bool
  envGatePrev : Bool
  voices : List Voice
  granClock : Bool × Nat × Nat
  granSched : F32
  granQueue : List SpawnTag
  granLoad : Bool × Nat × F32 × Fin 2
  grains : List Grain
  loopTimes : F32 × F32
  loopEdges : Bool × Bool × Nat × Nat
  dlyCursors : List Nat × Nat × Nat
  arpStep : F32 × Nat × Bool
  deriving DecidableEq, Repr

/-- The hidden elements of a state. -/
def State.hidden (s : State) : Hidden where
  oscSyncPrev := s.osc.syncPrev
  wtSlots := (s.wt.slotOf, s.wt.spare)
  wtLoad := (s.wt.loading, s.wt.target, s.wt.count)
  wtReady := s.wt.ready
  envGatePrev := s.env.gatePrev
  voices := s.vpool.voices
  granClock := (s.gran.clkPrev, s.gran.clkCount, s.gran.clkEdges)
  granSched := s.gran.schedT
  granQueue := s.gran.queue
  granLoad := (s.gran.srcLoading, s.gran.srcCount, s.gran.srcStageRate, s.gran.srcCur)
  grains := s.gran.grains
  loopTimes := (s.loop.tAct, s.loop.tExit)
  loopEdges := (s.loop.buildPrev, s.loop.clkPrev, s.loop.clkCount, s.loop.clkEdges)
  dlyCursors := (s.dly.combW, s.dly.echoWL, s.dly.echoWR)
  arpStep := (s.arp.acc, s.arp.pulse, s.arp.clkPrev)

/-! ## Runs -/

/-- n executions of one command, one after the other. -/
def execTimes (i : Instr) : Nat → State → Host.Outcome State Fault Refusal
  | 0, s => .next s
  | n + 1, s =>
    match exec i s with
    | .next t => execTimes i n t
    | .fault f => .fault f
    | .refused r => .refused r

/-- The commands of a list, one after the other. -/
def execAll : List Instr → State → Host.Outcome State Fault Refusal
  | [], s => .next s
  | i :: is, s =>
    match exec i s with
    | .next t => execAll is t
    | .fault f => .fault f
    | .refused r => .refused r

/-- n steps, one after the other. -/
def stepTimes : Nat → State → Host.Outcome State Fault Refusal
  | 0, s => .next s
  | n + 1, s =>
    match step s with
    | .next t => stepTimes n t
    | .fault f => .fault f
    | .refused r => .refused r

/-- How many more choices may pass a port over (log entry 9). -/
def Arbiter.wait (c : Arbiter) : PortId → Nat
  | .A => c.waitA
  | .L => c.waitL

/-- n ticks, one after the other. -/
def State.ticks : Nat → State → State
  | 0, s => s
  | n + 1, s => State.ticks n s.tick

/-- The end of a run: both ports have executed every command of their streams, no TICK has ticks remaining, no RDREG
waits on a full FIFO, and no 2-word command lacks its data word (40_host_commands.md R441). -/
def State.runEnded (s : State) : Bool :=
  s.portA.words.isEmpty && s.portA.unsent.isEmpty && s.portL.words.isEmpty && s.portL.unsent.isEmpty

/-! ## Invariants -/

/-- Only the six event bits of STATUS can be set (10_state.md R150). -/
def State.statusOk (s : State) : Bool := decide (s.global.status.toNat < 2 ^ 6)

/-- The bank map of WT: one slot per logical bank and a spare one, all different; a logical bank is ready exactly when
no load is open on it; an open load has an existing target (10_state.md R116; 70_reset_and_hazards.md R973). -/
def State.bankMapOk (s : State) : Bool :=
  decide (s.wt.slotOf.length = s.cfg.numBanks) && decide (s.wt.ready.length = s.cfg.numBanks)
    && decide (s.wt.spare :: s.wt.slotOf).Nodup
    && (s.wt.spare :: s.wt.slotOf).all (fun b => decide (b ≤ s.cfg.numBanks))
    && (!s.wt.loading || decide (s.wt.target < s.cfg.numBanks))
    && (List.range s.cfg.numBanks).all fun b => s.wt.ready.getD b false == !(s.wt.loading && s.wt.target == b)

/-- An inactive slot is silent and closed (44_voice_pool.md R600). -/
def Voice.rested (v : Voice) : Bool :=
  v.active || (!v.gate && !v.gatePrev && decide (v.envState = .idle) && decide (v.envLevel = 0))

/-- The pool has N_VOICES slots of NSTACK phases, and an inactive slot is silent and closed (44_voice_pool.md R600). -/
def State.voicesOk (s : State) : Bool :=
  decide (s.vpool.voices.length = s.cfg.nVoices)
    && s.vpool.voices.all fun v => decide (v.phase.length = s.cfg.nStack) && v.rested

/-- GRAN has N_GRAINS slots, its queue at most GQ_DEPTH events, its generator is not 0, it has seen at most 2 counted clock
edges, and its load holds at most SRC_MAX samples (10_state.md R131; 45_granular.md R653, R654). -/
def State.granOk (s : State) : Bool :=
  decide (s.gran.grains.length = s.cfg.nGrains) && decide (s.gran.queue.length ≤ s.cfg.gqDepth)
    && decide (s.gran.rng ≠ 0) && decide (s.gran.clkEdges ≤ 2) && decide (s.gran.srcCount ≤ s.cfg.srcMax)
    && decide (2 ≤ s.gran.srcLen.toNat) && decide (s.gran.srcLen.toNat ≤ s.cfg.srcMax)

/-- The looper has seen at most 2 counted clock edges, its loop fits the loop buffer, and its crossfade window is at most
half the loop (46_looper.md R704). -/
def State.loopOk (s : State) : Bool :=
  decide (s.loop.clkEdges ≤ 2) && decide (s.loop.loopLen.toNat ≤ s.cfg.loopMax)
    && decide (2 * s.loop.xfLen.toNat ≤ s.loop.loopLen.toNat)

/-- Every cursor and every count that indexes a memory is in range (10_state.md R116, R135, R141; 20_memory.md R201). -/
def State.cursorsOk (s : State) : Bool :=
  decide (s.wt.spare ≤ s.cfg.numBanks) && s.wt.slotOf.all (fun b => decide (b ≤ s.cfg.numBanks))
    && decide (s.wt.count ≤ s.cfg.stageMax) && decide (s.gran.srcCount ≤ s.cfg.srcMax)
    && decide (s.loop.wcur.toNat < s.cfg.ringCap)
    && decide (s.dly.combW.length = s.cfg.nComb) && s.dly.combW.all (fun w => decide (w < s.cfg.dlyCap))
    && decide (s.dly.echoWL < s.cfg.dlyCap) && decide (s.dly.echoWR < s.cfg.dlyCap)

/-- Every memory is in its canonical form, inside its size (20_memory.md R200, R201; log entry 17). -/
def State.memoryOk (s : State) : Bool := s.mem.wf s.cfg

/-- Every phase of OSC, WT and the voices is in [0, 1) (41_oscillator.md R451). -/
def State.phasesOk (s : State) : Bool :=
  isPhase s.osc.phase && isPhase s.wt.phase && s.vpool.voices.all fun v => v.phase.all isPhase

/-- Every P and I register holds a value of its range (10_state.md R102, R103). -/
def State.registersOk (s : State) : Prop := ∀ r : Reg, (r.range s.cfg).allows s.cfg (r.value s) = true

/-- DT is 1.0 / SAMPLE_RATE (00_scope.md R25). -/
def State.dtOk (s : State) : Bool := decide (s.global.dt = fdiv 0x3F800000 s.global.sampleRate)

/-- Every envelope level is in [0, 1] (43_envelope.md R554). -/
def State.levelsOk (s : State) : Bool := isLevel s.env.level && s.vpool.voices.all fun v => isLevel v.envLevel

/-- A port: the response FIFO holds at most RESP_DEPTH words; a word is pending exactly when it is the only one that has
arrived and is the first of a 2-word command; ticks are left only on a TICK at the head (10_state.md R106; 20_memory.md
R211 to R213). -/
def Port.ok (cfg : Config.Params) (p : Port) : Bool :=
  decide (p.resp.length ≤ cfg.respDepth)
    && decide (p.pending = match p.words with
      | [w] => if commandLength w = 2 then some w else none
      | _ => none)
    && (decide (p.ticksLeft = 0)
      || match p.words with
        | w :: _ => opField w == 0x01 && decide (p.ticksLeft ≤ (immField w).toNat)
        | [] => false)

/-- Both ports. -/
def State.portsOk (s : State) : Bool := s.portA.ok s.cfg && s.portL.ok s.cfg

end Machine

end Sys2Proof
end

