-- ==== Sys2Proof/Certificates/Slice0/Obligations.lean ====
section
/-! DEFINITION. The statements about the CORE, for the provers. Each says which rules of spec/ it formalises; a value or a
convention that is the model's own is said so, with its log entry (notes/assumptions). -/

open Sys2Proof Sys2Proof.Machine

/-! ## Encoding (30_encoding.md) -/

/-- The words of a well-formed command decode to that command, with every operand at every value its field admits, and
whatever follows stays (R300 to R304); so do its bytes on a byte-wide link (20_memory.md R205). -/
def Obligations.DecodeReadsBackEncode : Prop :=
  ∀ (cfg : Config.Params) (i : Instr) (rest : List Word), i.wellFormed cfg = true →
    decodeWords cfg (encode i ++ rest) = .ok (i, rest) ∧
      decodeBytes cfg (encodeBytes i) = .ok (i, [])

/-- A word that decodes is the encoding of what it decodes to: no command has two words (R300, R302, R304). -/
def Obligations.EncodeReadsBackDecode : Prop :=
  ∀ (cfg : Config.Params) (w d : Word) (i : Instr), decodeCommand cfg w d = .ok i →
    i.wellFormed cfg = true ∧ encode i = if commandLength w = 2 then [w, d] else [w]

/-- The well-formed words are exactly those that a row of the match and mask table accepts, and the row is the
command's own (R304). -/
def Obligations.WellFormedWordsMatchTheTable : Prop :=
  ∀ (cfg : Config.Params) (w d : Word),
    (∀ i, decodeCommand cfg w d = .ok i → ∃ r, encodingTable[i.row]? = some r ∧ r.accepts cfg w = true) ∧
      ∀ r ∈ encodingTable, r.accepts cfg w = true →
        ∃ i, decodeCommand cfg w d = .ok i ∧ encodingTable[i.row]? = some r

/-- Words of the examples of 40_host_commands.md, 42_wavetable.md, 44_voice_pool.md and 45_granular.md, read off their
bits, and words that R306 and R307 call illegal. -/
def Obligations.DecodesWordsOfTheEncodingTable : Prop :=
  decodeWords .default [0x00000000] = .ok (.nop, []) ∧
    decodeWords .default [0x04000003] = .ok (.tick 3, []) ∧
    decodeWords .default [0x08004000, 0x44800000] = .ok (.wrreg 0 1 0x44800000, []) ∧
    decodeWords .default [0x14000001] = .ok (.clrstat 1, []) ∧
    decodeWords .default [0x2500003C] = .ok (.noteOnMidi 60, []) ∧
    decodeWords .default [0x3100003C] = .ok (.chordOn 0 60, []) ∧
    decodeWords .default [0x40804000] = .ok (.bankBegin 1, []) ∧
    decodeWords .default [0x55400000, 0x3F000000] = .ok (.srcData 0x3F000000, []) ∧
    decodeWords .default [0x18000000] = .error .undefinedOp ∧
    decodeWords .default [0xC0000000] = .error .undefinedOp ∧
    decodeWords .default [0x00000001] = .error .fixedField ∧
    decodeWords .default [0x29020000] = .error .operandRange

/-! ## One step (20_memory.md R210 to R213; 40_host_commands.md R400, R401) -/

/-- When it is a port's turn and port q is granted, the step runs exactly the command at q's head, with q serving; the
step's own part is the choice of who moves next (the model's own field sched, log entry 9). -/
def Obligations.StepRunsTheDecodedCommand : Prop :=
  ∀ (s : State) (p q : PortId) (i : Instr) (rest : List Word), s.sched.turn = .port p → s.grant p = some q →
    decodeWords s.cfg (s.port q).words = .ok (i, rest) →
    step s = exec i { s.reschedule with serving := q } ∧
      { s.reschedule with sched := s.sched } = s

/-- An illegal word raises BadCommand, moves its port past the command by its length, answers 0 if its OP is RDREG's, and
changes nothing else (R306, R307; 40_host_commands.md R400). -/
def Obligations.StepTakesAnIllegalWord : Prop :=
  ∀ (s : State) (p q : PortId) (e : DecodeError) (w : Word) (rest : List Word), s.sched.turn = .port p →
    s.grant p = some q → (s.port q).words = w :: rest → decodeWords s.cfg (w :: rest) = .error e →
    ∃ t, step s = .next t ∧
      State.becomes (commandLength w) (if opField w = 0x03 then [0] else []) { s.reschedule with serving := q }
        (State.withEvent .badCommand { s.reschedule with serving := q }) t

/-- A port can execute exactly when all the words of its head command have arrived and, for an RDREG, its response FIFO
has room (R212, R213); when no port can, the CORE holds its state (60_exceptions.md R915). That an ill-formed RDREG waits
for room too, being told by its OP alone, is the model's reading (log entry 13, DEDUCED). -/
def Obligations.PortIsReadyWhenItsCommandHasArrived : Prop :=
  (∀ (cfg : Config.Params) (p : Port),
    (p.ready cfg = true ↔ ∃ w rest, p.words = w :: rest ∧ commandLength w ≤ p.words.length ∧
      (opField w = 0x03 → p.resp.length < cfg.respDepth))) ∧
    ∀ (s : State) (p : PortId), s.sched.turn = .port p → (∀ q, (s.port q).ready s.cfg = false) →
      step s = .next s.reschedule

/-- A word the host sends arrives at the end of its port's stream, and a response leaves from the front of its FIFO;
nothing else changes (R210, R213; the host as an agent is the model's own, log entry 10). -/
def Obligations.WordsArriveAndResponsesLeave : Prop :=
  ∀ (s : State) (p : PortId),
    (∀ w ws, s.sched.turn = .hostSend p → (s.port p).unsent = w :: ws →
      ∃ t, step s = .next t ∧ t.withPortsOf s = s.reschedule ∧ t.port p.other = s.port p.other ∧
        (t.port p).words = (s.port p).words ++ [w] ∧ (t.port p).unsent = ws ∧ (t.port p).pc = (s.port p).pc ∧
        (t.port p).resp = (s.port p).resp ∧ (t.port p).taken = (s.port p).taken ∧
        (t.port p).ticksLeft = (s.port p).ticksLeft) ∧
    ∀ w ws, s.sched.turn = .hostTake p → (s.port p).resp = w :: ws →
      ∃ t, step s = .next t ∧ t.withPortsOf s = s.reschedule ∧ t.port p.other = s.port p.other ∧
        t.port p = { s.port p with resp := ws, taken := (s.port p).taken ++ [w] }

/-- Whatever a step does, each port's words are consumed in stream order, none or exactly those of its head command, with
its position advanced by as many, and its responses are given in order, at most one (10_state.md R106; R211, R213). -/
def Obligations.StepsKeepTheOrderOfWordsAndResponses : Prop :=
  ∀ (s t : State) (p : PortId), step s = .next t →
    ∃ n rs, (n = 0 ∨ ∃ w rest, (s.port p).words = w :: rest ∧ n = commandLength w ∧ n ≤ (s.port p).words.length) ∧
      rs.length ≤ 1 ∧ (t.port p).pc = (s.port p).pc + n ∧
      (t.port p).words ++ (t.port p).unsent = ((s.port p).words ++ (s.port p).unsent).drop n ∧
      (t.port p).taken ++ (t.port p).resp = (s.port p).taken ++ (s.port p).resp ++ rs

/-- Forward progress under the weakly fair arbiter: a port whose head command is ready executes that command, or a tick of
it, after finitely many steps, whatever the other port and the host do meanwhile (R211, R218). How many choices may pass a
port over is a free value without a bound (Config.patience, log entry 9); the bound in it is the model's. -/
def Obligations.ReadyPortsAreServed : Prop :=
  ∀ (s : State) (p : PortId), (s.port p).ready s.cfg = true →
    ∃ n u q, n ≤ s.sched.wait p + 2 ∧ stepTimes n s = .next u ∧ u.sched.turn = .port q ∧ u.grant q = some p ∧
      (u.port p).head = (s.port p).head ∧ (u.port p).pc = (s.port p).pc ∧
      (u.port p).ticksLeft = (s.port p).ticksLeft

/-- Commands never stop, trap or reset the CORE: every command and every step answers a next state, and it is of the same
parameter instance (40_host_commands.md R401; 00_scope.md R9). -/
def Obligations.EveryCommandAnswersANextState : Prop :=
  (∀ (i : Instr) (s : State), ∃ t, exec i s = .next t ∧ t.cfg = s.cfg) ∧
    ∀ s : State, ∃ t, step s = .next t ∧ t.cfg = s.cfg

/-! ## TICK (40_host_commands.md R402 to R404, R407) -/

/-- TICK completes from every state, and runs one tick: every unit's tick takes what it needs from the state the tick
began with, so the order of the units cannot be seen (R402, R403); TICK_COUNT counts modulo 2^32 (60_exceptions.md R911);
the port stays at the command while ticks are left and moves past it after the last (R407; the count left is held in the
model's field ticksLeft, log entry 14). -/
def Obligations.TickRunsEveryUnit : Prop :=
  ∀ (imm : BitVec 14) (s : State), ∃ t, exec (.tick imm) s = .next t ∧
    t.osc = oscTick s.cfg s.global s.osc ∧ t.wt = wtTick s.cfg s.global s.mem s.wt ∧
    t.env = envTick s.cfg s.global s.env ∧ t.vpool = vpoolTick s.cfg s.global s.vpool ∧
    (t.gran, t.global.status) = granTick s.cfg s.global.dt s.mem (s.gran, s.global.status) ∧
    t.loop = (loopTick s.cfg s.global (s.loop, s.mem)).1 ∧ t.dly = (dlyTick s.cfg s.global s.dly s.mem).1 ∧
    t.arp = arpTick s.cfg s.global s.arp ∧
    t.global.tickCount = BitVec.ofNat 32 ((s.global.tickCount.toNat + 1) % 2 ^ 32) ∧
    t.global.sampleRate = s.global.sampleRate ∧ t.global.dt = s.global.dt ∧ t.cfg = s.cfg ∧
    (∀ a, t.read .bankmem a = s.read .bankmem a ∧ t.read .wtStage a = s.read .wtStage a ∧
      t.read .gsrc a = s.read .gsrc a ∧
      t.read .ring a = (loopTick s.cfg s.global (s.loop, s.mem)).2.read s.cfg .ring a ∧
      t.read .loopbuf a = (loopTick s.cfg s.global (s.loop, s.mem)).2.read s.cfg .loopbuf a ∧
      t.read .comb a = (dlyTick s.cfg s.global s.dly s.mem).2.read s.cfg .comb a ∧
      t.read .echo a = (dlyTick s.cfg s.global s.dly s.mem).2.read s.cfg .echo a) ∧
    (let left := if (s.port s.serving).ticksLeft = 0 then imm.toNat + 1 else (s.port s.serving).ticksLeft
     (left = 1 → s.movedPast 1 [] t) ∧
       (left ≠ 1 → t.port s.serving = { s.port s.serving with ticksLeft := left - 1 } ∧
         t.port s.serving.other = s.port s.serving.other ∧ t.serving = s.serving ∧ t.sched = s.sched))

/-- A tick writes no P or I register (R404). GRAN.RNG is the exception: R653 and R670 make a draw step it, and the model
follows them against R404's general sentence (log entry 26). -/
def Obligations.TickWritesNoParameterOrInput : Prop :=
  ∀ (imm : BitVec 14) (s t : State) (r : Reg), exec (.tick imm) s = .next t → r.cls = .P ∨ r.cls = .I →
    r ≠ .gran .rng → r.value t = r.value s

/-- A tick stores only at its cursors: RING at the write cursor of both channels (46_looper.md R702), LOOPBUF's first L'
elements of both channels when LOOP goes from Idle to Active (R705, R710), COMB and ECHO at each line's write cursor
(47_delay.md R750, R751, R755). Every other element of every memory reads as before. -/
def Obligations.TickStoresOnlyAtItsCursors : Prop :=
  ∀ (imm : BitVec 14) (s t : State) (a : Nat), exec (.tick imm) s = .next t →
    (∀ sp, sp = .bankmem ∨ sp = .wtStage ∨ sp = .gsrc → t.read sp a = s.read sp a) ∧
    (a ≠ s.loop.wcur.toNat → a ≠ s.cfg.ringCap + s.loop.wcur.toNat → t.read .ring a = s.read .ring a) ∧
    (¬ (s.loop.state = .idle ∧ (loopControls s.cfg s.loop).req = true ∧
        ∃ c < 2, c * s.cfg.loopMax ≤ a ∧
          a < c * s.cfg.loopMax +
            (snapshotLength s.cfg s.global.sampleRate (loopControls s.cfg s.loop)).toNat) →
      t.read .loopbuf a = s.read .loopbuf a) ∧
    ((∀ k w, s.dly.combW[k]? = some w → a ≠ k * s.cfg.dlyCap + w) → t.read .comb a = s.read .comb a) ∧
    (a ≠ s.dly.echoWL → a ≠ s.cfg.dlyCap + s.dly.echoWR → t.read .echo a = s.read .echo a)

/-- A TICK that has not begun, executed once per tick of its count n = IMM + 1, leaves the state of n ticks, with its
port moved past the one word of the command (R407). -/
def Obligations.TickCommandRunsAllItsTicks : Prop :=
  ∀ (imm : BitVec 14) (s : State), (s.port s.serving).ticksLeft = 0 →
    ∃ t, execTimes (.tick imm) (imm.toNat + 1) s = .next t ∧ s.becomes 1 [] (s.ticks (imm.toNat + 1)) t

/-! ## Generic commands (40_host_commands.md R405 to R410) -/

/-- WRREG to a P or I register stores the legalised data word, sets DT when the register is SAMPLE_RATE, and changes
nothing else; to an unmapped register or one of class O or C it raises BadCommand and changes nothing else (R408;
10_state.md R102 to R105). The ranges are those of the tables of 10_state.md, which the meaning does not read. -/
def Obligations.WrregStoresTheLegalValue : Prop :=
  ∀ (unit : BitVec 4) (reg : BitVec 8) (d : Word) (s : State),
    (∀ r v, Reg.ofAddr s.cfg unit reg = some r → (r.range s.cfg).legal s.cfg d = some v →
      ∃ t, exec (.wrreg unit reg d) s = .next t ∧ r.value t = v ∧
        (∀ q, q ≠ r → q ≠ .global .dt → q.value t = q.value s) ∧
        t.global.dt = (if r = .global .sampleRate then fdiv 0x3F800000 v else s.global.dt) ∧
        t.hidden = s.hidden ∧ s.memoryKept t ∧ t.cfg = s.cfg ∧ s.movedPast 2 [] t) ∧
    ((∀ r, Reg.ofAddr s.cfg unit reg = some r → (r.range s.cfg).legal s.cfg d = none) →
      ∃ t, exec (.wrreg unit reg d) s = .next t ∧ s.becomes 2 [] (s.withEvent .badCommand) t ∧ s.memoryKept t)

/-- The register map is that of the tables of 10_state.md, row by row: the register at (UNIT, REG) is the one the table
lists there, readback entries of the configured slots and comb lines included; every register of the table has an address,
and no two pairs name one register; units 9 to 15 are unmapped (R100, R101, R105, R110, R115, R120, R125, R130, R135, R140,
R145). -/
def Obligations.RegisterMapIsTheTable : Prop :=
  ∀ cfg : Config.Params,
    (∀ (unit : BitVec 4) (reg : BitVec 8) (r : Reg),
      Reg.ofAddr cfg unit reg = some r ↔ (unit.toNat, reg.toNat, r) ∈ cfg.registerTable) ∧
    (cfg.legal = true → ∀ u a r, (u, a, r) ∈ cfg.registerTable → u ≤ 8 ∧ a < 2 ^ 8) ∧
    (∀ u a u' a' r, (u, a, r) ∈ cfg.registerTable → (u', a', r) ∈ cfg.registerTable → u' = u ∧ a' = a) ∧
    ∀ (unit : BitVec 4) (reg : BitVec 8), 9 ≤ unit.toNat → Reg.ofAddr cfg unit reg = none

/-- RDREG with room in the response FIFO answers the value of a mapped register and changes nothing else; of an unmapped
one it answers 0 and raises BadCommand (R409; 10_state.md R105); with a full response FIFO it waits (20_memory.md R213).
That exec then answers the same state, for an ill-formed unit 9 to 15 too, is the model's reading (log entry 13, DEDUCED). -/
def Obligations.RdregAnswersTheRegister : Prop :=
  ∀ (unit : BitVec 4) (reg : BitVec 8) (s : State),
    ((s.port s.serving).resp.length < s.cfg.respDepth →
      (∀ r, Reg.ofAddr s.cfg unit reg = some r →
        ∃ t, exec (.rdreg unit reg) s = .next t ∧ s.becomes 1 [r.value s] s t ∧ s.memoryKept t) ∧
      (Reg.ofAddr s.cfg unit reg = none →
        ∃ t, exec (.rdreg unit reg) s = .next t ∧ s.becomes 1 [0] (s.withEvent .badCommand) t ∧ s.memoryKept t)) ∧
    (s.cfg.respDepth ≤ (s.port s.serving).resp.length → exec (.rdreg unit reg) s = .next s)

/-- What the constant, derived and mirrored registers answer (10_state.md R101, R115, R116, R120, R125, R130, R131, R135,
R140): the parameters of the instance field by field, the counts and masks of the active slots, V_FLAGS and G_FLAGS bit by
bit, the bank ready bits, the state of the loads, the queue level and the codes of the envelope and looper states. The
premises are invariants that every step keeps. The target bits of LOAD_STATE are stated for an open load only (log entry 24). -/
def Obligations.ConstantAndDerivedRegistersTellTheirState : Prop :=
  ∀ s : State, s.cfg.legal = true → s.bankMapOk = true → s.voicesOk = true → s.granOk = true → s.cursorsOk = true →
    let v : Reg → Nat := fun r => (r.value s).toNat
    (v (.global .id) = 0x4F4D4E37 ∧
      v (.global .cfg0) = s.cfg.nVoices + 2 ^ 8 * s.cfg.nGrains + 2 ^ 16 * s.cfg.numBanks + 2 ^ 24 * s.cfg.nComb ∧
      v (.global .cfg1) = s.cfg.tableSize ∧ v (.global .cfg2) = s.cfg.numFrames + 2 ^ 16 * s.cfg.mipLevels ∧
      v (.global .cfg3) = s.cfg.ringCap ∧ v (.global .cfg4) = s.cfg.dlyCap ∧ v (.global .cfg5) = s.cfg.srcMax ∧
      v (.global .cfg6) = s.cfg.stageMax ∧
      v (.global .cfg7) = s.cfg.nStack + 2 ^ 8 * s.cfg.harmMax + 2 ^ 16 * s.cfg.gqDepth ∧
      v (.global .cfg8) = s.cfg.loopMax ∧ ∀ i len, s.cfg.combLen[i]? = some len → v (.dly (.combLen i)) = len) ∧
    ((∀ b, ((Reg.wt .bankReady).value s).getLsbD b = (decide (b < s.cfg.numBanks) && s.wt.ready.getD b false)) ∧
      ((Reg.wt .loadState).value s).getLsbD 0 = s.wt.loading ∧
      (s.wt.loading = true → v (.wt .loadState) / 2 ^ 8 % 2 ^ 4 = s.wt.target) ∧
      (∀ b, b ≠ 0 → b < 8 ∨ 12 ≤ b → ((Reg.wt .loadState).value s).getLsbD b = false) ∧
      v (.wt .loadCount) = s.wt.count) ∧
    (v (.vpool .activeCount) = (s.vpool.voices.filter Voice.active).length ∧
      (∀ k, ((Reg.vpool .activeMask).value s).getLsbD k = ((s.vpool.voices[k]?).map Voice.active == some true)) ∧
      ∀ (k : Nat) (x : Voice), s.vpool.voices[k]? = some x →
        (Reg.vpool (.vFreq k)).value s = x.freq ∧ (Reg.vpool (.vTarget k)).value s = x.target ∧
        (Reg.vpool (.vLevel k)).value s = x.envLevel ∧
        v (.vpool (.vFlags k)) = x.active.toNat + 2 * x.gate.toNat + 4 * x.primed.toNat + 2 ^ 4 * x.envState.number
          + 2 ^ 8 * x.wave.toNat) ∧
    (v (.gran .activeCount) = (s.gran.grains.filter Grain.active).length ∧
      v (.gran .queueLevel) = s.gran.queue.length ∧ v (.gran .loadState) = s.gran.srcLoading.toNat ∧
      v (.gran .loadCount) = s.gran.srcCount ∧
      ∀ (k : Nat) (g : Grain), s.gran.grains[k]? = some g →
        v (.gran (.gFlags k)) = g.active.toNat ∧ (Reg.gran (.gElapsed k)).value s = g.elapsed ∧
        (Reg.gran (.gDur k)).value s = g.dur ∧ (Reg.gran (.gPhase k)).value s = g.phase) ∧
    v (.env .state) = s.env.state.number ∧ v (.loop .state) = s.loop.state.number ∧ v (.loop .req) = s.loop.req.toNat

/-- `sreset all` gives everything but the ports its reset value, every memory too (R410; 70_reset_and_hazards.md R950).
The model's own fields sched and serving stay (log entry 9), and the other port stays wholly as it is, a TICK that is
part-way on it included (log entry 14, DESIGN CHOICE: R410 names the positions, pending words and FIFOs only). -/
def Obligations.SresetRestoresTheCore : Prop :=
  ∀ s : State, ∃ t, exec (.sreset 0) s = .next t ∧
    { t.withPortsOf (State.resetOf s.cfg) with
      sched := (State.resetOf s.cfg).sched
      serving := (State.resetOf s.cfg).serving } = State.resetOf s.cfg ∧
    (∀ sp a, t.read sp a = (State.resetOf s.cfg).read sp a) ∧ s.movedPast 1 [] t

/-- `sreset u` for a unit u gives that unit's registers, hidden elements and memories their reset values and leaves every
other unit, GLOBAL and the memories of other units as they are (R410; 70_reset_and_hazards.md R952). -/
def Obligations.SresetOfAUnitResetsThatUnitOnly : Prop :=
  ∀ (u : BitVec 4) (s : State), u.toNat ≠ 0 → u.toNat ≤ 8 →
    ∃ t, exec (.sreset u) s = .next t ∧ t.cfg = s.cfg ∧ t.global = s.global ∧
      t.osc = (if u.toNat = 1 then (State.resetOf s.cfg).osc else s.osc) ∧
      t.wt = (if u.toNat = 2 then (State.resetOf s.cfg).wt else s.wt) ∧
      t.env = (if u.toNat = 3 then (State.resetOf s.cfg).env else s.env) ∧
      t.vpool = (if u.toNat = 4 then (State.resetOf s.cfg).vpool else s.vpool) ∧
      t.gran = (if u.toNat = 5 then (State.resetOf s.cfg).gran else s.gran) ∧
      t.loop = (if u.toNat = 6 then (State.resetOf s.cfg).loop else s.loop) ∧
      t.dly = (if u.toNat = 7 then (State.resetOf s.cfg).dly else s.dly) ∧
      t.arp = (if u.toNat = 8 then (State.resetOf s.cfg).arp else s.arp) ∧
      (∀ sp a, t.read sp a = if sp.unit = u.toNat then (State.resetOf s.cfg).read sp a else s.read sp a) ∧
      s.movedPast 1 [] t

/-- A command whose unit, slot, chord code or bank is out of range raises BadCommand and does nothing else; an RDREG
among them answers 0 (R304, R306; R400). The premise on RDREG is its wait for room (20_memory.md R213; log entry 13). The
same of a load command that needs an open load and finds none (42_wavetable.md R521, R523, R524; 45_granular.md R661 to
R663). -/
def Obligations.RefusedCommandsRaiseBadCommand : Prop :=
  ∀ (i : Instr) (s : State),
    (i.wellFormed s.cfg = false →
      (∀ unit reg, i = .rdreg unit reg → (s.port s.serving).resp.length < s.cfg.respDepth) →
      ∃ t, exec i s = .next t ∧
        s.becomes (encode i).length (match i with | .rdreg _ _ => [0] | _ => []) (s.withEvent .badCommand) t ∧
        s.memoryKept t) ∧
    (s.wt.loading = false → (∃ x, i = .bankData x) ∨ i = .bankCommit ∨ i = .bankAbort →
      ∃ t, exec i s = .next t ∧ s.becomes (encode i).length [] (s.withEvent .badCommand) t ∧ s.memoryKept t) ∧
    (s.gran.srcLoading = false → (∃ x, i = .srcData x) ∨ i = .srcCommit ∨ i = .srcAbort →
      ∃ t, exec i s = .next t ∧ s.becomes (encode i).length [] (s.withEvent .badCommand) t ∧ s.memoryKept t)

/-- CLRSTAT clears the STATUS bits whose mask bit is set and leaves every other bit and everything else (R405); NOP changes
nothing but its port's position (R406). -/
def Obligations.ClrstatAndNopChangeOnlyTheirBits : Prop :=
  ∀ s : State,
    (∀ mask : BitVec 14, ∃ t, exec (.clrstat mask) s = .next t ∧
      (∀ k, k < 32 →
        t.global.status.getLsbD k = (s.global.status.getLsbD k && !(decide (k < 14) && mask.getLsbD k))) ∧
      s.becomes 1 [] { s with global := { s.global with status := t.global.status } } t ∧ s.memoryKept t) ∧
    ∃ t, exec .nop s = .next t ∧ s.becomes 1 [] s t ∧ s.memoryKept t

/-! ## Voices (44_voice_pool.md) -/

/-- NOTE_ON and NOTE_ON_MIDI start a voice in the lowest free slot k, as `allocate` says, set LAST_SLOT, and change
nothing else (R601, R620, R621). Note n starts it at F_C4 · 2^((n − 60) / 12), with fexp2 as the power (00_scope.md R24). -/
def Obligations.NoteOnStartsTheLowestFreeSlot : Prop :=
  ∀ (s : State) (f : F32) (k : Nat) (v : Voice), s.vpool.voices[k]? = some v → v.active = false →
    (∀ (j : Nat) (w : Voice), j < k → s.vpool.voices[j]? = some w → w.active = true) →
    (∃ t, exec (.noteOn f) s = .next t ∧ s.memoryKept t ∧
      s.becomes 2 [] { s with vpool :=
        { s.vpool with
          voices := s.vpool.voices.set k (v.startedAt s.vpool f), lastSlot := BitVec.ofNat 32 k } } t) ∧
    ∀ note : BitVec 7,
      let hz := fmul s.cfg.fC4 (fexp2 (fdiv (toF32 ((note.toNat : Int) - 60)) 0x41400000))
      ∃ t, exec (.noteOnMidi note) s = .next t ∧ s.memoryKept t ∧ s.becomes 1 [] { s with vpool :=
        { s.vpool with
          voices := s.vpool.voices.set k (v.startedAt s.vpool hz)
          lastSlot := BitVec.ofNat 32 k } } t

/-- With every slot active a note-on changes no voice: it sets VOICE_DROP and LAST_SLOT (R601, R602). -/
def Obligations.NoteOnWithAFullPoolIsDropped : Prop :=
  ∀ (s : State) (f : F32) (note : BitVec 7), (∀ v ∈ s.vpool.voices, v.active = true) →
    (∃ t, exec (.noteOn f) s = .next t ∧ s.memoryKept t ∧
      s.becomes 2 [] { s.withEvent .voiceDrop with vpool := { s.vpool with lastSlot := 0xFFFFFFFF } } t) ∧
    ∃ t, exec (.noteOnMidi note) s = .next t ∧ s.memoryKept t ∧
      s.becomes 1 [] { s.withEvent .voiceDrop with vpool := { s.vpool with lastSlot := 0xFFFFFFFF } } t

/-- NOTE_OFF of an existing slot closes the gate of that slot if it is active, ALL_OFF closes the gate of every active
slot; neither changes anything else (R622, R623). -/
def Obligations.NoteOffAndAllOffCloseGates : Prop :=
  ∀ (slot : BitVec 8) (s : State),
    (slot.toNat < s.cfg.nVoices → ∃ t, exec (.noteOff slot) s = .next t ∧
      (∀ k : Nat, t.vpool.voices[k]? = (s.vpool.voices[k]?).map fun v =>
        if k = slot.toNat ∧ v.active = true then { v with gate := false } else v) ∧
      s.becomes 1 [] { s with vpool := { s.vpool with voices := t.vpool.voices } } t ∧ s.memoryKept t) ∧
    ∃ t, exec .allOff s = .next t ∧
      (∀ k : Nat, t.vpool.voices[k]? = (s.vpool.voices[k]?).map fun v =>
        if v.active = true then { v with gate := false } else v) ∧
      s.becomes 1 [] { s with vpool := { s.vpool with voices := t.vpool.voices } } t ∧ s.memoryKept t

/-- CHORD_ON starts the notes of its chord, clamped to 127, in the free slots in ascending order; the notes left without
a slot are dropped: VOICE_DROP is set exactly then, and LAST_SLOT tells the last allocation (R601, R602, R624). Note n starts
at F_C4 · 2^((n − 60) / 12), with fexp2 as the power (00_scope.md R24). -/
def Obligations.ChordOnStartsItsNotesInFreeSlots : Prop :=
  ∀ (chord : BitVec 8) (root : BitVec 7) (s : State), chord.toNat < s.cfg.nChord →
    let notes := (s.cfg.chordTable.getD chord.toNat []).map fun iv => min (root.toNat + iv) 127
    let free := s.vpool.freeSlots
    let hz : Nat → F32 := fun n => fmul s.cfg.fC4 (fexp2 (fdiv (toF32 ((n : Int) - 60)) 0x41400000))
    ∃ t, exec (.chordOn chord root) s = .next t ∧ s.memoryKept t ∧
      t.vpool.voices.length = s.vpool.voices.length ∧
      (∀ (k : Nat) (v : Voice), s.vpool.voices[k]? = some v →
        t.vpool.voices[k]? = some (match (free.zip notes).lookup k with
          | some n => v.startedAt s.vpool (hz n)
          | none => v)) ∧
      t.global.status = (if free.length < notes.length then s.global.status ||| 1 else s.global.status) ∧
      t.vpool.lastSlot = (if free.length < notes.length then 0xFFFFFFFF
        else match (free.take notes.length).getLast? with
          | some k => BitVec.ofNat 32 k
          | none => s.vpool.lastSlot) ∧
      s.becomes 1 [] { s with
        global := { s.global with status := t.global.status }
        vpool := { s.vpool with voices := t.vpool.voices, lastSlot := t.vpool.lastSlot } } t

/-! ## Bank replacement and source loads (42_wavetable.md R520 to R524; 45_granular.md R660 to R664) -/

/-- BANK_BEGIN opens a load into its bank, which is not ready any more; an open load is discarded: its bank is ready
again and LOAD_FAIL is set; nothing else changes (42_wavetable.md R520). SRC_BEGIN opens a source load at its rate, clamped
to [1.0, 1.0e6]; an open one is discarded with LOAD_FAIL; nothing else changes (45_granular.md R660). -/
def Obligations.BeginCommandsOpenALoad : Prop :=
  ∀ s : State,
    (∀ bank : BitVec 8, bank.toNat < s.cfg.numBanks →
      ∃ t, exec (.bankBegin bank) s = .next t ∧
        (∀ b : Nat, t.wt.ready[b]? = (s.wt.ready[b]?).map fun r =>
          if b = bank.toNat then false else if s.wt.loading = true ∧ b = s.wt.target then true else r) ∧
        s.becomes 1 [] { (if s.wt.loading = true then s.withEvent .loadFail else s) with
          wt := { s.wt with loading := true, target := bank.toNat, count := 0, ready := t.wt.ready } } t ∧
        s.memoryKept t) ∧
    ∀ rate : F32, ∃ t, exec (.srcBegin rate) s = .next t ∧ s.memoryKept t ∧
      s.becomes 2 [] { (if s.gran.srcLoading = true then s.withEvent .loadFail else s) with
        gran := { s.gran with
          srcLoading := true, srcCount := 0, srcStageRate := fclamp rate 0x3F800000 0x49742400 } } t

/-- BANK_DATA and SRC_DATA in an open load store their sample, 0.0 for a non-finite one, at the next element of the bank
staging memory, or of the source buffer that the grains do not read, and change no other element; with that memory full
they set LOAD_TRUNC and drop the word (42_wavetable.md R521; 45_granular.md R661). -/
def Obligations.DataCommandsAppendASample : Prop :=
  ∀ (x : F32) (s : State), s.memoryOk = true →
    (s.wt.loading = true →
      (s.wt.count < s.cfg.stageMax →
        ∃ t, exec (.bankData x) s = .next t ∧
          t.read .wtStage s.wt.count = (if isFinite x = true then x else 0x00000000) ∧
          (∀ sp a, ¬ (sp = .wtStage ∧ a = s.wt.count) → t.read sp a = s.read sp a) ∧
          s.becomes 2 [] { s with mem := t.mem, wt := { s.wt with count := s.wt.count + 1 } } t) ∧
      (s.cfg.stageMax ≤ s.wt.count →
        ∃ t, exec (.bankData x) s = .next t ∧ s.becomes 2 [] (s.withEvent .loadTrunc) t ∧ s.memoryKept t)) ∧
    (s.gran.srcLoading = true →
      (s.gran.srcCount < s.cfg.srcMax →
        ∃ t, exec (.srcData x) s = .next t ∧
          t.read .gsrc ((1 - s.gran.srcCur.val) * s.cfg.srcMax + s.gran.srcCount) =
            (if isFinite x = true then x else 0x00000000) ∧
          (∀ sp a, ¬ (sp = .gsrc ∧ a = (1 - s.gran.srcCur.val) * s.cfg.srcMax + s.gran.srcCount) →
            t.read sp a = s.read sp a) ∧
          s.becomes 2 [] { s with mem := t.mem, gran := { s.gran with srcCount := s.gran.srcCount + 1 } } t) ∧
      (s.cfg.srcMax ≤ s.gran.srcCount →
        ∃ t, exec (.srcData x) s = .next t ∧ s.becomes 2 [] (s.withEvent .loadTrunc) t ∧ s.memoryKept t))

/-- BANK_COMMIT of a load with samples builds every mip level of every frame of the spare slot from the staged samples:
resampled end to end by linear interpolation unless their number fits, divided by the largest magnitude unless that is 0,
and averaged over the windows of R501. It exchanges the spare slot with the target bank's, makes the bank ready and closes the load (42_wavetable.md R500, R501, R522,
R523). That no element outside that slot changes, so that the old bank's slot keeps its elements, is the model's reading of
R523's stale contents (log entry 20, DEDUCED; 93_implementation_defined.md leaves them open). SRC_COMMIT of at least two
samples makes the staging buffer the current one, with its length and rate, stops every grain and closes the load; nothing
else changes (45_granular.md R662). -/
def Obligations.CommitCommandsPublishTheLoad : Prop :=
  ∀ s : State,
    (s.wt.loading = true → 0 < s.wt.count →
      let N : Nat := s.cfg.tableSize
      let M : Nat := N * s.cfg.numFrames
      let last : Int := (s.wt.count : Int) - 1
      let stage : Int → F32 := fun i => s.read .wtStage i.toNat
      let sample : Nat → F32 := fun j =>
        if s.wt.count = M then stage j
        else
          let pos := fmul (toF32 j) (fdiv (toF32 last) (toF32 ((M : Int) - 1)))
          let i := toIntSat pos 0 last
          lerp (stage i) (stage (min (i + 1) last)) (fsub pos (toF32 i))
      let peak := (List.range M).foldl (fun p j => fmax p (fabs (sample j))) 0x00000000
      let level0 : Nat → F32 := fun j => if flt 0x00000000 peak = true then fdiv (sample j) peak else sample j
      ∃ t, exec .bankCommit s = .next t ∧
        (∀ f k i, f < s.cfg.numFrames → k < s.cfg.mipLevels → i < N →
          t.read .bankmem (((s.wt.spare * s.cfg.numFrames + f) * s.cfg.mipLevels + k) * N + i) =
            boxFilter N (fun j => level0 (f * N + j)) k i) ∧
        (∀ sp a, ¬ (sp = .bankmem ∧ s.wt.spare * slotSize s.cfg ≤ a ∧ a < (s.wt.spare + 1) * slotSize s.cfg) →
          t.read sp a = s.read sp a) ∧
        s.becomes 1 [] { s with
          mem := t.mem
          wt := { s.wt with
            slotOf := s.wt.slotOf.set s.wt.target s.wt.spare
            spare := s.wt.slotOf.getD s.wt.target 0
            ready := s.wt.ready.set s.wt.target true
            loading := false } } t) ∧
    (s.gran.srcLoading = true → 2 ≤ s.gran.srcCount →
      ∃ t, exec .srcCommit s = .next t ∧ s.memoryKept t ∧ t.gran.srcCur.val = 1 - s.gran.srcCur.val ∧
        (∀ g : Nat, t.gran.grains[g]? = (s.gran.grains[g]?).map fun x => { x with active := false }) ∧
        s.becomes 1 [] { s with gran :=
          { s.gran with
            srcCur := t.gran.srcCur
            grains := t.gran.grains
            srcLen := BitVec.ofNat 32 s.gran.srcCount
            srcRate := s.gran.srcStageRate
            srcLoading := false } } t)

/-- BANK_ABORT and SRC_ABORT of an open load, BANK_COMMIT of an empty one and SRC_COMMIT of fewer than two samples keep
what is played: they set LOAD_FAIL, close the load (the bank is ready again) and change nothing else (42_wavetable.md R523,
R524; 45_granular.md R662, R663). -/
def Obligations.DiscardedLoadsKeepWhatIsPlayed : Prop :=
  ∀ s : State,
    (s.wt.loading = true → ∀ i, i = .bankAbort ∨ i = .bankCommit ∧ s.wt.count = 0 →
      ∃ t, exec i s = .next t ∧ s.memoryKept t ∧
        s.becomes 1 [] { s.withEvent .loadFail with
          wt := { s.wt with ready := s.wt.ready.set s.wt.target true, loading := false } } t) ∧
    (s.gran.srcLoading = true → ∀ i, i = .srcAbort ∨ i = .srcCommit ∧ s.gran.srcCount < 2 →
      ∃ t, exec i s = .next t ∧ s.memoryKept t ∧
        s.becomes 1 [] { s.withEvent .loadFail with gran := { s.gran with srcLoading := false } } t)

/-- GRAN_SPAWN appends a HOST event to the spawn queue; with the queue full it sets GQ_OVF; nothing else changes (R654,
R664). -/
def Obligations.GranSpawnQueuesAnEvent : Prop :=
  ∀ s : State,
    (s.gran.queue.length < s.cfg.gqDepth → ∃ t, exec .granSpawn s = .next t ∧ s.memoryKept t ∧
      s.becomes 1 [] { s with gran := { s.gran with queue := s.gran.queue ++ [.host] } } t) ∧
    (s.gran.queue.length = s.cfg.gqDepth → ∃ t, exec .granSpawn s = .next t ∧ s.memoryKept t ∧
      s.becomes 1 [] (s.withEvent .queueOverflow) t)

/-! ## Reset (70_reset_and_hazards.md R950, R953; 20_memory.md R202) -/

/-- After power-on reset every register holds the value of the reset column of its table (10_state.md R101, R110, R115,
R120, R125, R130, R135, R140, R145; constants are the instance's own, R101), with SRC_LEN in [2, SRC_MAX] (00_scope.md R9;
log entry 5), and every hidden element the reset value of its rule (10_state.md R111, R116, R121, R126, R131, R136, R141,
R146). Nothing is pending: no event, no pulse, no active voice or grain, no open load, no STATUS bit, no edge level, and both
ports are empty at position 0 (R106; 70_reset_and_hazards.md R950, R953). What the host has still to send, and that a stream
is empty at reset, is the model's own (log entries 10 and 11). -/
def Obligations.ResetGivesEveryElementItsValue : Prop :=
  (∀ cfg : Config.Params,
    let r := State.resetOf cfg
    (∀ q : Reg, q.cls ≠ .C → q ≠ .gran .srcLen → q.value r = q.resetColumn cfg) ∧
      (cfg.legal = true → 2 ≤ r.gran.srcLen.toNat ∧ r.gran.srcLen.toNat ≤ cfg.srcMax) ∧
      r.hidden =
        { oscSyncPrev := false
          wtSlots := (List.range cfg.numBanks, cfg.numBanks)
          wtLoad := (false, 0, 0)
          wtReady := List.replicate cfg.numBanks true
          envGatePrev := false
          voices := List.replicate cfg.nVoices
            { active := false, gate := false, gatePrev := false, primed := false, freq := 0x00000000
              target := 0x00000000, phase := List.replicate cfg.nStack 0x00000000, envState := .idle
              envLevel := 0x00000000, wave := 0 }
          granClock := (false, 0, 0)
          granSched := 0x00000000
          granQueue := []
          granLoad := (false, 0, 0x00000000, 0)
          grains := List.replicate cfg.nGrains
            { active := false, elapsed := 0x00000000, dur := 0x00000000, phase := 0x00000000, rate := 0x00000000 }
          loopTimes := (0x00000000, 0x00000000)
          loopEdges := (false, false, 0, 0)
          dlyCursors := (List.replicate cfg.nComb 0, 0, 0)
          arpStep := (0x00000000, 0, false) } ∧
      ∀ p, (r.port p).pc = 0 ∧ (r.port p).pending = none ∧ (r.port p).words = [] ∧ (r.port p).resp = [] ∧
        (r.port p).ticksLeft = 0) ∧
    State.reset.global.sampleRate = 0x472C4400 ∧ State.reset.global.dt = 0x37BE37C6

/-- The contents of the memories at reset: every default bank with its generated mips, the spare slot 0.0, DEFAULT_SRC in
source buffer 0 and 0.0 everywhere else (20_memory.md R202). DEFAULT_BANK and DEFAULT_SRC are free values (log entries 4
and 5). -/
def Obligations.ResetContentsOfTheMemories : Prop :=
  ∀ cfg : Config.Params, cfg.legal = true →
    (∀ b f k i, b ≤ cfg.numBanks → f < cfg.numFrames → k < cfg.mipLevels → i < cfg.tableSize →
      (State.resetOf cfg).read .bankmem (((b * cfg.numFrames + f) * cfg.mipLevels + k) * cfg.tableSize + i) =
        if b < cfg.numBanks then
          boxFilter cfg.tableSize (fun j => defaultBankElem ((b * cfg.numFrames + f) * cfg.tableSize + j)) k i
        else 0x00000000) ∧
    (∀ i, i < cfg.srcMax → (State.resetOf cfg).read .gsrc i =
      if i < (State.resetOf cfg).gran.srcLen.toNat then defaultSrcElem i else 0x00000000) ∧
    (∀ i, i < cfg.srcMax → (State.resetOf cfg).read .gsrc (cfg.srcMax + i) = 0x00000000) ∧
    ∀ sp a, sp = .wtStage ∨ sp = .ring ∨ sp = .loopbuf ∨ sp = .comb ∨ sp = .echo → a < spaceSize cfg sp →
      (State.resetOf cfg).read sp a = 0x00000000

/-- The reset state of the default instance is legal and meets every invariant stated below. -/
def Obligations.ResetMeetsEveryInvariant : Prop :=
  State.reset.cfg.legal = true ∧ State.reset.statusOk = true ∧ State.reset.bankMapOk = true ∧
    State.reset.voicesOk = true ∧ State.reset.granOk = true ∧ State.reset.loopOk = true ∧
    State.reset.memoryOk = true ∧ State.reset.cursorsOk = true ∧ State.reset.registersOk ∧ State.reset.dtOk = true ∧
    State.reset.phasesOk = true ∧ State.reset.levelsOk = true ∧ State.reset.portsOk = true

/-! ## The datapath -/

/-- A phase advances by its frequency in one tick, clamped to half a period, and wraps (41_oscillator.md R450); whatever the
frequency, the updated phase is in [0, 1) (R451; a NaN frequency too). -/
def Obligations.PhaseStaysInRange : Prop :=
  ∀ dt p f : F32,
    (let q := fadd p (fclamp (fmul f dt) 0xBF000000 0x3F000000)
     phaseStep dt p f = if fle 0x3F800000 q = true then fsub q 0x3F800000
      else if flt q 0x00000000 = true then
        if fle 0x3F800000 (fadd q 0x3F800000) = true then 0x00000000 else fadd q 0x3F800000
      else q) ∧
    (isPhase p = true → isPhase (phaseStep dt p f) = true)

/-- What one tick of OSC does (41_oscillator.md R450, R452 to R454, R460; 00_scope.md R24). FREQ is the pitch of PITCH and
the connected VOCT_IN. The phase is set to 0.0 exactly at a rising edge of a connected SYNC input, and at every other tick
advances by FREQ in one tick, clamped to half a period, and wraps. OUT is the waveform at the new phase, cross-faded by
HARM_STR with the mean of its HARM_N harmonics, weighted 1/(h + 1) and summed in ascending order. -/
def Obligations.OscFollowsPitchSyncAndHarmonics : Prop :=
  ∀ (imm : BitVec 14) (s t : State), exec (.tick imm) s = .next t →
    let o := s.osc
    let f := fmul s.cfg.fC4
      (fexp2 (fadd (fdiv o.pitch 0x41400000) (if o.conn.getLsbD 0 = true then o.voctIn else 0x00000000)))
    let q := fadd o.phase (fclamp (fmul f s.global.dt) 0xBF000000 0x3F000000)
    t.osc.freq = f ∧ t.osc.syncPrev = (o.conn.getLsbD 1 && flt s.cfg.gateTh o.syncIn) ∧
      t.osc.phase = (if t.osc.syncPrev = true ∧ o.syncPrev = false then 0x00000000
        else if fle 0x3F800000 q = true then fsub q 0x3F800000
        else if flt q 0x00000000 = true then
          if fle 0x3F800000 (fadd q 0x3F800000) = true then 0x00000000 else fadd q 0x3F800000
        else q) ∧
      (o.wave.toNat ≤ 3 →
        let wave := waveform o.wave.toNat
        let y := wave t.osc.phase
        let sums : F32 × F32 := (List.range o.harmN.toNat).foldl (fun acc h =>
          let m := toF32 (h + 2)
          let x := fmul t.osc.phase m
          let w := fdiv 0x3F800000 m
          (fadd acc.1 (fmul w (wave (fsub x (toF32 (ffloor x))))), fadd acc.2 w)) (0x00000000, 0x00000000)
        t.osc.out = fmul (if o.harmN = 0 then y
          else fclamp (lerp y (fdiv sums.1 sums.2) o.harmStr) 0xBF800000 0x3F800000) s.cfg.outMul)

/-- Every waveform stays in [−1, 1] on every phase (41_oscillator.md R452; 00_scope.md R31 for the sine). -/
def Obligations.WaveformStaysInRange : Prop :=
  ∀ (k : BitVec 2) (p : F32), isPhase p = true → inRange 0xBF800000 0x3F800000 (waveAt k p) = true

/-- The transitions of the envelope (43_envelope.md R551 to R553): a gate-on edge restarts the attack, from 0.0 in PLUCK, from
the level it has in PAD and there from Idle and Release only; a gate-off edge releases from Attack, Decay and Sustain; then
the state after the edges takes one increment, and its end moves to the next state. A tick gives ENV the edges of its gate
level (R560); what it gives the voices, VoicesGlideSoundAndAgeOut says. -/
def Obligations.EnvelopeFollowsItsTransitions : Prop :=
  (∀ (dt : F32) (p : Adsr) (e : EnvState) (l : F32),
    (p.variant = 1 → envStep dt p e l true false = envStep dt p .attack 0x00000000 false false) ∧
    (p.variant = 0 → envStep dt p e l true false =
      envStep dt p (if e = .idle ∨ e = .release then .attack else e) l false false) ∧
    envStep dt p e l false true = envStep dt p (if e = .idle then .idle else .release) l false false ∧
    envStep dt p .idle l false false = (.idle, 0x00000000) ∧
    envStep dt p .sustain l false false = (.sustain, p.sustain) ∧
    (let up := fadd l (fdiv dt p.attack)
     envStep dt p .attack l false false = if fle 0x3F800000 up = true then (.decay, 0x3F800000) else (.attack, up)) ∧
    (let down := fsub l (fdiv dt p.decay)
     envStep dt p .decay l false false = if fle down p.sustain = true then (.sustain, p.sustain) else (.decay, down)) ∧
    (let down := fsub l (fdiv dt p.release)
     envStep dt p .release l false false =
       if fle down 0x00000000 = true then (.idle, 0x00000000) else (.release, down))) ∧
  ∀ (imm : BitVec 14) (s t : State), exec (.tick imm) s = .next t →
    let p : Adsr := ⟨s.env.attack, s.env.decay, s.env.sustain, s.env.release, s.env.variant⟩
    let high := flt s.cfg.gateTh s.env.gateIn
    (t.env.state, t.env.level) =
        envStep s.global.dt p s.env.state s.env.level (high && !s.env.gatePrev) (!high && s.env.gatePrev) ∧
      t.env.gatePrev = high ∧ t.env.out = fmul t.env.level 0x41200000

/-- The envelope laws: the level stays in [0, 1]; it is exactly 0.0 in Idle and exactly SUSTAIN in Sustain
(43_envelope.md R552, R554 (a), (b)). -/
def Obligations.EnvelopeLevelStaysInRange : Prop :=
  ∀ (dt : F32) (p : Adsr) (e : EnvState) (l : F32) (on off : Bool),
    isPositive dt = true → isPositive p.attack = true → isPositive p.decay = true → isPositive p.release = true →
    isLevel p.sustain = true → isLevel l = true →
    isLevel (envStep dt p e l on off).2 = true ∧
      ((envStep dt p e l on off).1 = .idle → (envStep dt p e l on off).2 = 0x00000000) ∧
      ((envStep dt p e l on off).1 = .sustain → (envStep dt p e l on off).2 = p.sustain)

/-- What one tick of VPOOL does, slot by slot (44_voice_pool.md R610 to R613, R630). An inactive slot stays as it is. An
active one takes its envelope step with the edges of its gate, glides toward its target and snaps to it inside the band,
and advances every phase at its frequency times the ratio of the detune; it is freed exactly when it is then not in Attack,
its level is below AGE_EPS and its frequency has reached its target. OUT is the mean of the samples of the voices that were
active when the tick began, the freed ones among them, summed in ascending order. -/
def Obligations.VoicesGlideSoundAndAgeOut : Prop :=
  ∀ (imm : BitVec 14) (s t : State), exec (.tick imm) s = .next t →
    let u := s.vpool
    let dt := s.global.dt
    let ratio : Nat → F32 := fun k =>
      if s.cfg.nStack = 1 ∨ feq u.detune 0x00000000 = true then 0x3F800000
      else fexp2 (fdiv (fmul u.detune
        (fsub (fdiv (toF32 (2 * k)) (toF32 ((s.cfg.nStack : Int) - 1))) 0x3F800000)) 0x44960000)
    let moved : Voice → Voice := fun v =>
      let e := envStep dt ⟨u.attack, u.decay, u.sustain, u.release, u.variant⟩ v.envState v.envLevel
        (v.gate && !v.gatePrev) (!v.gate && v.gatePrev)
      let near := fadd v.freq (fmul u.glide (fsub v.target v.freq))
      let freq := if fle (fabs (fsub v.target near)) (fmul s.cfg.glideSnap (fmax (fabs v.target) 0x3F800000)) = true
        then v.target else near
      { v with
        envState := e.1, envLevel := e.2, gatePrev := v.gate, freq := freq
        phase := v.phase.mapIdx fun k p => phaseStep dt p (fmul freq (ratio k)) }
    let sample : Voice → F32 := fun w =>
      fmul w.envLevel (fdiv (w.phase.foldl (fun acc p => fadd acc (waveform w.wave.toNat p)) 0x00000000)
        (toF32 s.cfg.nStack))
    let active := u.voices.filter Voice.active
    t.vpool.voices.length = u.voices.length ∧
      (∀ (k : Nat) (v : Voice), u.voices[k]? = some v →
        (v.active = false → t.vpool.voices[k]? = some v) ∧
        (v.active = true →
          let w := moved v
          t.vpool.voices[k]? = some
            (if w.envState ≠ .attack ∧ flt w.envLevel s.cfg.ageEps = true ∧ feq w.freq w.target = true then
              { w with active := false, gate := false, gatePrev := false, envState := .idle, envLevel := 0x00000000 }
            else w))) ∧
      t.vpool.out = (if active = [] then 0x00000000
        else fmul (fdiv (active.foldl (fun acc v => fadd acc (sample (moved v))) 0x00000000) (toF32 active.length))
          s.cfg.outMul)

/-- A wavetable bank that is being replaced is silent: while the bank WT reads is not ready, WT.OUT is 0.0 after every tick
and the phase keeps running, as it does at every tick (42_wavetable.md R510); BANK_BEGIN makes its bank so (R520), and every command but those that
end or replace the load or reset WT keeps the load open and the ready bits as they are, the BANK_DATA words of the load
among them (R521; 70_reset_and_hazards.md R973). A ready bank sounds: a tick reads its slot at the mip level of R505 and
R506, which MIP tells, interpolated linearly or by the cubic in the phase and linearly in the frame (R507, R508, R510). -/
def Obligations.WtPlaysReadyBanksOnly : Prop :=
  ∀ s : State,
    (s.wt.ready.getD s.wt.bank.toNat false = false → ∀ n,
      (s.ticks (n + 1)).wt.out = 0x00000000 ∧ (s.ticks (n + 1)).wt.ready = s.wt.ready ∧
        (s.ticks (n + 1)).wt.phase =
          phaseStep s.global.dt (s.ticks n).wt.phase
            (fmul s.cfg.fC4 (fexp2 (fadd (fdiv s.wt.pitch 0x41400000)
              (if s.wt.conn.getLsbD 0 = true then s.wt.voctIn else 0x00000000))))) ∧
    (∀ bank t, exec (.bankBegin bank) s = .next t → bank.toNat < s.cfg.numBanks →
      t.wt.loading = true ∧ t.wt.target = bank.toNat ∧ t.wt.ready.getD bank.toNat false = false) ∧
    (∀ i t, exec i s = .next t → s.wt.loading = true → (∀ b, i ≠ .bankBegin b) → i ≠ .bankCommit → i ≠ .bankAbort →
      i ≠ .sreset 0 → i ≠ .sreset 2 →
      t.wt.loading = true ∧ t.wt.target = s.wt.target ∧ t.wt.ready = s.wt.ready) ∧
    ∀ imm t, exec (.tick imm) s = .next t →
      let u := s.wt
      let N : Nat := s.cfg.tableSize
      let f := fmul s.cfg.fC4
        (fexp2 (fadd (fdiv u.pitch 0x41400000) (if u.conn.getLsbD 0 = true then u.voctIn else 0x00000000)))
      let r := fmul (fdiv (fabs f) s.global.sampleRate) (toF32 N)
      let below : Nat → Bool := fun k => flt r (fmul s.cfg.mipT0 (toF32 (2 ^ k)))
      let slot : Nat := u.slotOf.getD u.bank.toNat 0
      let x := fmul t.wt.phase (toF32 N)
      let d := fsub x (toF32 (ffloor x))
      let y : Int → Int → F32 := fun fr i => s.read .bankmem
        (((slot * s.cfg.numFrames + fr.toNat) * s.cfg.mipLevels + t.wt.mip.toNat) * N + (i % N).toNat)
      let frame : Int → F32 := fun fr =>
        let ym := y fr (ffloor x - 1)
        let y0 := y fr (ffloor x)
        let y1 := y fr (ffloor x + 1)
        let y2 := y fr (ffloor x + 2)
        let c1 := fmul 0x3F000000 (fsub y1 ym)
        let c2 := fsub (fadd (fsub ym (fmul 0x40200000 y0)) (fmul 0x40000000 y1)) (fmul 0x3F000000 y2)
        let c3 := fadd (fmul 0x3F000000 (fsub y2 ym)) (fmul 0x3FC00000 (fsub y0 y1))
        if u.quality.toNat ≤ 1 then lerp y0 y1 d
        else fadd (fmul (fadd (fmul (fadd (fmul c3 d) c2) d) c1) d) y0
      let cv := if u.conn.getLsbD 1 = true then fdiv u.frameIn 0x41200000 else 0x00000000
      let pos := fmul (fclamp (fadd u.framePos cv) 0x00000000 0x3F800000) (toF32 ((s.cfg.numFrames : Int) - 1))
      let fr := toIntSat pos 0 ((s.cfg.numFrames : Int) - 1)
      t.wt.phase = phaseStep s.global.dt u.phase f ∧ (s.cfg.legal = true →
        (∃ k, k < s.cfg.mipLevels ∧ (∀ j, j < k → below j = false) ∧ (below k = true ∨ k + 1 = s.cfg.mipLevels) ∧
          t.wt.mip.toNat = if u.quality = 0 then min (k + 1) (s.cfg.mipLevels - 1) else k) ∧
        (u.ready.getD u.bank.toNat false = true →
          t.wt.out = fmul (lerp (frame fr) (frame (min (fr + 1) ((s.cfg.numFrames : Int) - 1)))
            (fsub pos (toF32 fr))) s.cfg.outMul))

/-- What one tick of GRAN does (45_granular.md R651 to R655, R670 to R672). The generator is the xorshift of R653: it never
reaches 0 from another state, and a draw is in [0, 1). The clock is measured from rising edge to rising edge; a rising edge
restarts the timer and queues an event. The timer gains dt and fires once its interval has passed, with one draw, and queues
an event where that is below DENSITY. An event that finds the queue full sets GQ_OVF. Every queued event then starts a grain
in the lowest free slot, with one draw and SPAWN_COUNT + 1; one that finds no free slot sets GRAIN_DROP and draws nothing.
Every active grain, a new one too, ages and moves, and stops past its duration or its source. OUT is the sum of the grains
still active, by envelope and source read, in ascending order. The premise on the queue is an invariant that every step
keeps. -/
def Obligations.GranTickStartsAndPlaysGrains : Prop :=
  (∀ x : Word, (x ≠ 0 → xorshift x ≠ 0) ∧ isPhase (drawValue x) = true ∧
    drawValue x = fmul (toF32 (x.toNat / 2 ^ 8 : Nat)) 0x33800000 ∧
    (let a := x ^^^ (x <<< 13)
     let b := a ^^^ (a >>> 17)
     xorshift x = b ^^^ (b <<< 5))) ∧
  ∀ (imm : BitVec 14) (s t : State), exec (.tick imm) s = .next t → s.gran.queue.length ≤ s.cfg.gqDepth →
    let u := s.gran
    let dt := s.global.dt
    let last := toF32 ((u.srcLen.toNat : Int) - 1)
    let high := u.conn.getLsbD 0 && flt s.cfg.gateTh u.clockIn
    let rise := high && !u.clkPrev
    let count := min (u.clkCount + 1) (2 ^ 32 - 1)
    let beat := if u.conn.getLsbD 0 = true ∧ 0 < t.gran.clkPeriod.toNat then fmul (toF32 t.gran.clkPeriod.toNat) dt
      else fdiv 0x42700000 u.bpm
    let interval := fdiv beat (fadd 0x3F800000 (fmul u.density s.cfg.granK))
    let due := fadd (if rise = true then 0x00000000 else u.schedT) dt
    let fires := fle interval due
    let rng := if fires = true then xorshift u.rng else u.rng
    let timer := fires && flt (drawValue rng) u.density
    let q1 := u.queue.length + if rise = true ∧ u.queue.length < s.cfg.gqDepth then 1 else 0
    let q2 := q1 + if timer = true ∧ q1 < s.cfg.gqDepth then 1 else 0
    let free := (List.range u.grains.length).filter fun k => u.grains[k]?.map Grain.active == some false
    let n := min q2 free.length
    let start : Nat → Grain := fun j =>
      let jitter := fmul (fmul u.vitality s.cfg.granJspan)
        (fsub (fmul 0x40000000 (drawValue (xorshift^[j + 1] rng))) 0x3F800000)
      { active := true, elapsed := 0x00000000, dur := u.size, rate := u.rate
        phase := fmul (fclamp (fadd u.position jitter) 0x00000000 0x3F800000) last }
    let aged : Grain → Grain := fun g =>
      let h := { g with elapsed := fadd g.elapsed dt, phase := fadd g.phase (fmul (fmul dt g.rate) u.srcRate) }
      { h with active := !(flt h.dur h.elapsed || flt h.phase 0x00000000 || flt last h.phase) }
    let source : Int → F32 := fun i => s.read .gsrc (u.srcCur.val * s.cfg.srcMax + i.toNat)
    let sample : Grain → F32 := fun g =>
      let x := fdiv g.elapsed g.dur
      let env := if flt x 0x3DCCCCCD = true then fmul x 0x41200000
        else if flt 0x3F19999A x = true then fmul (fsub 0x3F800000 x) 0x40200000 else 0x3F800000
      let i := toIntSat g.phase 0 ((u.srcLen.toNat : Int) - 1)
      fmul env (lerp (source i) (source (min (i + 1) ((u.srcLen.toNat : Int) - 1))) (fsub g.phase (toF32 i)))
    (t.gran.clkPrev = high ∧ t.gran.clkCount = (if rise = true then 0 else count) ∧
      t.gran.clkEdges = (if rise = true then min (u.clkEdges + 1) 2 else u.clkEdges) ∧
      t.gran.clkPeriod = if rise = true ∧ 1 ≤ u.clkEdges then BitVec.ofNat 32 count else u.clkPeriod) ∧
    t.gran.schedT = (if fires = true then
        if fle interval (fsub due interval) = true then 0x00000000 else fsub due interval
      else due) ∧
    t.gran.queue = [] ∧ t.gran.rng = xorshift^[n] rng ∧
    t.gran.spawnCount = BitVec.ofNat 32 ((u.spawnCount.toNat + n) % 2 ^ 32) ∧
    t.global.status = s.global.status
      ||| (if rise = true ∧ u.queue.length = s.cfg.gqDepth ∨ timer = true ∧ q1 = s.cfg.gqDepth then 4 else 0)
      ||| (if free.length < q2 then 2 else 0) ∧
    t.gran.grains.length = u.grains.length ∧
    (∀ (k : Nat) (g : Grain), u.grains[k]? = some g →
      (∀ j, j < n → free[j]? = some k → t.gran.grains[k]? = some (aged (start j))) ∧
      (k ∉ free.take n → t.gran.grains[k]? = some (if g.active = true then aged g else g))) ∧
    t.gran.out = fmul ((t.gran.grains.filter Grain.active).foldl (fun acc g => fadd acc (sample g)) 0x00000000)
      s.cfg.outMul

/-- With DENSITY 0.0, no clock level and an empty queue, no grain ever starts and OUT is 0.0 after every tick
(45_granular.md R673; R670). -/
def Obligations.NoGrainWithoutAnEvent : Prop :=
  ∀ (s : State) (n : Nat), s.cfg.legal = true → (∀ g ∈ s.gran.grains, g.active = false) → s.gran.queue = [] →
    feq s.gran.density 0x00000000 = true → connectedHigh s.cfg s.gran.conn 0 s.gran.clockIn = false →
    (s.ticks (n + 1)).gran.spawnCount = s.gran.spawnCount ∧ (s.ticks (n + 1)).gran.grains = s.gran.grains ∧
      (s.ticks (n + 1)).gran.queue = [] ∧ (s.ticks (n + 1)).gran.out = 0x00000000

/-- A tick stores IN_L / IN_DIV and IN_R / IN_DIV at the write cursor of the looper's ring, changes no other element of the
ring, and moves the cursor one on, modulo RING_CAP (46_looper.md R702). Whatever commands follow, SRESET of LOOP or of the
CORE apart, only ticks move the cursor, and until RING_CAP ticks later the two samples are read back (R703): the inputs may
be written between the ticks, so that every tick stores another sample. -/
def Obligations.RingKeepsASampleUntilOverwritten : Prop :=
  ∀ (imm : BitVec 14) (s u : State), exec (.tick imm) s = .next u → s.memoryOk = true →
    s.loop.wcur.toNat < s.cfg.ringCap → s.cfg.ringCap < 2 ^ 32 →
    let w := s.loop.wcur.toNat
    let xL := fdiv s.loop.inL s.cfg.inDiv
    let xR := fdiv s.loop.inR s.cfg.inDiv
    (u.read .ring w = xL ∧ u.read .ring (s.cfg.ringCap + w) = xR ∧
      (∀ a, a ≠ w → a ≠ s.cfg.ringCap + w → u.read .ring a = s.read .ring a) ∧
      u.loop.wcur.toNat = (w + 1) % s.cfg.ringCap) ∧
    ∀ (is : List Instr) (t : State), execAll is u = .next t → (∀ i ∈ is, i ≠ .sreset 0 ∧ i ≠ .sreset 6) →
      let n := is.countP Instr.isTick
      t.loop.wcur.toNat = (w + 1 + n) % s.cfg.ringCap ∧
        (n < s.cfg.ringCap → t.read .ring w = xL ∧ t.read .ring (s.cfg.ringCap + w) = xR)

/-- What one tick of LOOP does but for its ring and its snapshot. The clock is measured from rising edge to rising edge
(45_granular.md R651). The build request follows the gate, or is flipped at its rising edge in toggle mode (46_looper.md
R701); the tick makes at most one transition (R710). In the state after it: in Idle the input passes through at speed 1.0,
and the position and the times stay. In Active and ExitFade SPEED is the smoothstep of the time in Active over RAMP_S up to
INTENSITY (R707); the loop is read at the position, its tail faded into its head in the window (R708), and boosted with
BOOST_EN (R709); in ExitFade that fades into the live input over EXIT_FADE; the position moves by SPEED and wraps by L − W,
and the times gain dt (R710). -/
def Obligations.LoopFollowsItsRequestAndPlays : Prop :=
  ∀ (imm : BitVec 14) (s t : State), exec (.tick imm) s = .next t →
    let u := s.loop
    let rise := t.loop.clkPrev && !u.clkPrev
    let count := min (u.clkCount + 1) (2 ^ 32 - 1)
    let high := flt s.cfg.gateTh u.buildIn
    let req := if u.mode = 0 then high else if high = true ∧ u.buildPrev = false then !u.req else u.req
    let begins : Prop := u.state = .idle ∧ t.loop.state = .active
    let pos := if begins then 0x00000000 else u.pos
    let tAct := if begins then 0x00000000 else u.tAct
    let tExit := if u.state = .active ∧ t.loop.state = .exitFade then 0x00000000 else u.tExit
    let L : Int := t.loop.loopLen.toNat
    let W : Int := t.loop.xfLen.toNat
    let x := fmin (fdiv tAct u.rampS) 0x3F800000
    let smooth := fmul (fmul x x) (fsub 0x40400000 (fmul 0x40000000 x))
    let speed := fadd 0x3F800000 (fmul (fsub u.intensity 0x3F800000) smooth)
    let element : Nat → Int → F32 := fun c i => t.read .loopbuf (c * s.cfg.loopMax + i.toNat)
    let sample : Nat → F32 → F32 := fun c q =>
      let i := toIntSat q 0 (L - 1)
      lerp (element c i) (element c (min (i + 1) (L - 1))) (fsub q (toF32 i))
    let seam := fsub pos (toF32 (L - W))
    let looped : Nat → F32 := fun c =>
      if 0 < W ∧ fle (toF32 (L - W)) pos = true then lerp (sample c pos) (sample c seam) (fdiv seam (toF32 W))
      else sample c pos
    let boosted : Nat → F32 := fun c =>
      if u.boostEn = 0 then looped c
      else fdiv (fmul 0x40000000 (looped c)) (fadd 0x3F800000 (fabs (looped c)))
    let out : Nat → F32 → F32 := fun c live =>
      fmul (if t.loop.state = .exitFade then
          lerp (fdiv live s.cfg.inDiv) (boosted c) (fsub 0x3F800000 (fdiv tExit s.cfg.exitFade))
        else boosted c) s.cfg.outMul
    let moved := fadd pos speed
    (t.loop.clkPrev = (u.conn.getLsbD 0 && flt s.cfg.gateTh u.clockIn) ∧
      t.loop.clkCount = (if rise = true then 0 else count) ∧
      t.loop.clkEdges = (if rise = true then min (u.clkEdges + 1) 2 else u.clkEdges) ∧
      t.loop.clkPeriod = if rise = true ∧ 1 ≤ u.clkEdges then BitVec.ofNat 32 count else u.clkPeriod) ∧
    t.loop.req = req ∧ t.loop.buildPrev = high ∧
    t.loop.state = (match u.state with
      | .idle => if req = true then .active else .idle
      | .active => if req = true then .active else .exitFade
      | .exitFade => if fle s.cfg.exitFade u.tExit = true then .idle else .exitFade) ∧
    (¬ begins → t.loop.loopLen = u.loopLen ∧ t.loop.xfLen = u.xfLen) ∧
    (t.loop.state = .idle →
      t.loop.outL = u.inL ∧ t.loop.outR = u.inR ∧ t.loop.speed = 0x3F800000 ∧ t.loop.pos = u.pos ∧
        t.loop.tAct = u.tAct ∧ t.loop.tExit = u.tExit) ∧
    (t.loop.state ≠ .idle →
      t.loop.speed = speed ∧ t.loop.outL = out 0 u.inL ∧ t.loop.outR = out 1 u.inR ∧
        t.loop.pos = (if fle (toF32 L) moved = true then fsub moved (toF32 (L - W)) else moved) ∧
        t.loop.tAct = fadd tAct s.global.dt ∧
        t.loop.tExit = if t.loop.state = .exitFade then fadd tExit s.global.dt else tExit)

/-- The tick that takes LOOP from Idle to Active copies the most recent L' samples of the ring, this tick's among them, the
oldest first, into the loop buffer. L' is BARS clock periods where a clock is connected and measured, else LEN_S in samples,
rounded, clamped to [L_MIN, LOOP_MAX]; the window W' is XFADE_S in samples, clamped to half of L' (46_looper.md R704, R705,
R710). -/
def Obligations.SnapshotCopiesTheRing : Prop :=
  ∀ (imm : BitVec 14) (s t : State), s.cfg.legal = true → s.loop.wcur.toNat < s.cfg.ringCap →
    exec (.tick imm) s = .next t → s.loop.state = .idle → t.loop.req = true →
    let raw : Int := if s.loop.conn.getLsbD 0 = true ∧ 0 < t.loop.clkPeriod.toNat then
        (s.loop.bars.toNat * t.loop.clkPeriod.toNat : Nat)
      else ffloor (fadd (fmul s.loop.lenS s.global.sampleRate) 0x3F000000)
    let L : Int := if raw < s.cfg.lMin then s.cfg.lMin else if s.cfg.loopMax < raw then s.cfg.loopMax else raw
    let fade : Int := ffloor (fmul s.loop.xfadeS s.global.sampleRate)
    let W : Int := if fade < 0 then 0 else if L / 2 < fade then L / 2 else fade
    t.loop.state = .active ∧ (t.loop.loopLen.toNat : Int) = L ∧ (t.loop.xfLen.toNat : Int) = W ∧
      ∀ c i, c < 2 → i < t.loop.loopLen.toNat →
        t.read .loopbuf (c * s.cfg.loopMax + i) =
          t.read .ring (c * s.cfg.ringCap +
            (t.loop.wcur.toNat + s.cfg.ringCap - t.loop.loopLen.toNat + i) % s.cfg.ringCap)

/-- The loop property (46_looper.md R708, R711): with INTENSITY 1.0, while Active with the request held (by the gate in
MODE 0, without a rising edge in MODE 1: R701), a position k < L runs on by one sample a tick to L − 1 and after that
through W .. L − 1 with period L − W; from W on every output sample comes again one period later; and with BOOST_EN 0 every
sample outside the seam window is the snapshot's sample at its position (equal as a value: a −0.0 may read as +0.0, R703).
The bound 2^126 on the samples keeps their differences finite; the ring's own are at most IN_MAX / IN_DIV. -/
def Obligations.LoopRepeatsItsPeriod : Prop :=
  ∀ (s : State) (L W k n : Nat), s.loop.state = .active →
    (s.loop.mode = 0 ∧ flt s.cfg.gateTh s.loop.buildIn = true ∨
      s.loop.mode = 1 ∧ s.loop.req = true ∧ (flt s.cfg.gateTh s.loop.buildIn = true → s.loop.buildPrev = true)) →
    s.loop.intensity = 0x3F800000 → isPositive s.loop.rampS = true → isPositive s.global.dt = true →
    isFinite s.loop.tAct = true → fle 0x00000000 s.loop.tAct = true →
    s.loop.loopLen.toNat = L → s.loop.xfLen.toNat = W → 2 * W ≤ L → L < 2 ^ 24 → k < L → s.loop.pos = toF32 k →
    let q : Nat → Nat := fun m => if m < L then m else W + (m - W) % (L - W)
    (s.ticks n).loop.pos = toF32 (q (k + n)) ∧
      (W ≤ k + n → (s.ticks (n + 1 + (L - W))).loop.outL = (s.ticks (n + 1)).loop.outL ∧
        (s.ticks (n + 1 + (L - W))).loop.outR = (s.ticks (n + 1)).loop.outR) ∧
      (s.loop.boostEn = 0 → W = 0 ∨ q (k + n) < L - W →
        (∀ c i, c < 2 → i < L → inRange 0xFE800000 0x7E800000 (s.read .loopbuf (c * s.cfg.loopMax + i)) = true) →
        ∃ yl yr, feq yl (s.read .loopbuf (q (k + n))) = true ∧
          feq yr (s.read .loopbuf (s.cfg.loopMax + q (k + n))) = true ∧
          (s.ticks (n + 1)).loop.outL = fmul yl s.cfg.outMul ∧ (s.ticks (n + 1)).loop.outR = fmul yr s.cfg.outMul)

/-- The stability law on the grid of binary32 values: with the working inputs in [−X, X] and a bound B such that X + f·B
rounds to at most B, comb elements in [−B, B] stay there for the feedback f = REV_FB, and echo elements of both channels for
f = ECHO_FB (47_delay.md R751, R752, R755). -/
def Obligations.DelayLinesStayBounded : Prop :=
  ∀ (imm : BitVec 14) (s t : State) (X B : F32), exec (.tick imm) s = .next t → s.cfg.legal = true →
    s.memoryOk = true → s.cursorsOk = true → isFinite X = true → isFinite B = true →
    (inRange (fneg X) X (fdiv s.dly.revIn s.cfg.inDiv) = true →
      isFinite s.dly.revFb = true → fle 0x00000000 s.dly.revFb = true → fle (fadd X (fmul s.dly.revFb B)) B = true →
      (∀ a, a < spaceSize s.cfg .comb → inRange (fneg B) B (s.read .comb a) = true) →
      ∀ a, a < spaceSize s.cfg .comb → inRange (fneg B) B (t.read .comb a) = true) ∧
    (inRange (fneg X) X (fdiv s.dly.echoInL s.cfg.inDiv) = true →
      inRange (fneg X) X (fdiv s.dly.echoInR s.cfg.inDiv) = true →
      isFinite s.dly.echoFb = true → fle 0x00000000 s.dly.echoFb = true → fle (fadd X (fmul s.dly.echoFb B)) B = true →
      (∀ a, a < spaceSize s.cfg .echo → inRange (fneg B) B (s.read .echo a) = true) →
      ∀ a, a < spaceSize s.cfg .echo → inRange (fneg B) B (t.read .echo a) = true)

/-- What one tick of DLY reads, stores and gives out (47_delay.md R750, R751, R755). Every comb line is read COMB_LEN steps
behind its cursor and stores input plus feedback there; REV_OUT mixes the input with the mean of the reads, summed in
ascending order. Each echo channel is read ECHO_OFF steps behind its cursor, ECHO_TIME in ticks, at least one and at most
DLY_CAP − 1, and stores input plus feedback. Every cursor moves one on. -/
def Obligations.DelayLinesStoreInputPlusFeedback : Prop :=
  ∀ (imm : BitVec 14) (s t : State), exec (.tick imm) s = .next t → s.cfg.legal = true → s.memoryOk = true →
    s.cursorsOk = true →
    let N := s.cfg.dlyCap
    let behind : Nat → Nat → Nat → Nat := fun line w o => line * N + (w + N - o) % N
    (let x := fdiv s.dly.revIn s.cfg.inDiv
     let y : Nat → F32 := fun i => s.read .comb (behind i (s.dly.combW.getD i 0) (s.cfg.combLen.getD i 0))
     let sum := (List.range s.cfg.nComb).foldl (fun acc i => fadd acc (y i)) 0x00000000
     (∀ i, i < s.cfg.nComb →
       t.read .comb (i * N + s.dly.combW.getD i 0) = fadd x (fmul s.dly.revFb (y i)) ∧
         t.dly.combW[i]? = some ((s.dly.combW.getD i 0 + 1) % N)) ∧
       t.dly.revOut = fmul (lerp x (fdiv sum (toF32 s.cfg.nComb)) s.dly.revMix) s.cfg.outMul) ∧
    (let k := ffloor (fmul s.dly.echoTime s.global.sampleRate)
     let o : Nat := if k < 1 then 1 else if (N : Int) - 1 < k then N - 1 else k.toNat
     let xl := fdiv s.dly.echoInL s.cfg.inDiv
     let xr := fdiv s.dly.echoInR s.cfg.inDiv
     let yl := s.read .echo (behind 0 s.dly.echoWL o)
     let yr := s.read .echo (behind 1 s.dly.echoWR o)
     t.dly.echoOff.toNat = o ∧
       t.read .echo s.dly.echoWL = fadd xl (fmul yl s.dly.echoFb) ∧
       t.read .echo (N + s.dly.echoWR) = fadd xr (fmul yr s.dly.echoFb) ∧
       t.dly.echoWL = (s.dly.echoWL + 1) % N ∧ t.dly.echoWR = (s.dly.echoWR + 1) % N ∧
       t.dly.echoOutL = fmul (lerp xl yl s.dly.echoMix) s.cfg.outMul ∧
       t.dly.echoOutR = fmul (lerp xr yr s.dly.echoMix) s.cfg.outMul)

/-- A push on a delay line is read back at offset 1 after it, and moves every other element one step further behind the
write cursor (47_delay.md R750). -/
def Obligations.DelayLineReturnsWhatWasPushed : Prop :=
  ∀ (cfg : Config.Params) (m : Memory) (sp : Space) (base w : Nat) (o : Int) (x : F32),
    m.wf cfg = true → w < cfg.dlyCap → 1 < cfg.dlyCap →
    lineRead cfg (linePush cfg m sp base w x) sp base (cursorStep cfg w) 1 = x ∧
      (1 ≤ o → o + 1 < cfg.dlyCap →
        lineRead cfg (linePush cfg m sp base w x) sp base (cursorStep cfg w) (o + 1) = lineRead cfg m sp base w o)

/-- What one tick of ARP does (48_arp.md R801 to R803, R810). A step comes at a rising edge of a connected clock, with the
timer held, or without a clock when the timer is at or below 0.0, which then gains one period; the timer counts down by one a
tick. A step takes the note at INDEX of the list of the chord on its root, clamped to 127, moves INDEX on round the list,
counts modulo 2^32 and restarts the trigger pulse. TRIG_OUT is high while the pulse lasts, and PITCH_OUT is the note's. -/
def Obligations.ArpStepsThroughItsNotes : Prop :=
  ∀ (imm : BitVec 14) (s t : State), exec (.tick imm) s = .next t → s.cfg.legal = true →
    s.arp.chord.toNat < s.cfg.nChord → s.arp.div.toNat ≤ 5 →
    let u := s.arp
    let notes := (s.cfg.chordTable.getD u.chord.toNat []).map fun iv => min (u.root.toNat + iv) 127
    let clocked := u.conn.getLsbD 0
    let high := clocked && flt s.cfg.gateTh u.clockIn
    let den := [1, 2, 4, 8, 16, 32].getD u.div.toNat 0
    let period := fmul (fmul (fdiv 0x42700000 u.bpm) (fdiv 0x40800000 (toF32 den))) s.global.sampleRate
    let due := fle u.acc 0x00000000
    let steps := if clocked = true then high && !u.clkPrev else due
    t.arp.clkPrev = high ∧
      t.arp.acc = (if clocked = true then u.acc else fsub (if due = true then fadd u.acc period else u.acc) 0x3F800000) ∧
      (steps = true →
        (∃ n, notes[u.index.toNat % notes.length]? = some n ∧ t.arp.note.toNat = n) ∧
        t.arp.index = BitVec.ofNat 32 ((u.index.toNat % notes.length + 1) % notes.length) ∧
        t.arp.stepCount.toNat = (u.stepCount.toNat + 1) % 2 ^ 32 ∧ t.arp.trigOut = s.cfg.trigV ∧
        (t.arp.pulse : Int) = max 1 (fceil (fmul s.cfg.pulseS s.global.sampleRate)) - 1) ∧
      (steps = false →
        t.arp.note = u.note ∧ t.arp.index = u.index ∧ t.arp.stepCount = u.stepCount ∧
        t.arp.trigOut = (if 0 < u.pulse then s.cfg.trigV else 0x00000000) ∧ t.arp.pulse = u.pulse - 1) ∧
      t.arp.pitchOut = fdiv (toF32 ((t.arp.note.toNat : Int) - 60)) 0x41400000

/-- Scenario 3 of the source: at SAMPLE_RATE 44100, BPM 120, DIV 2 and no clock, a step comes once in 22050 ticks, and
TRIG_OUT is high for exactly its first 45 ticks (48_arp.md R803, R810, R811). -/
def Obligations.ArpTriggersOncePerBeat : Prop :=
  ∀ (s : State) (m : Nat), s.cfg = Config.Params.default → s.global.sampleRate = 0x472C4400 → s.arp.bpm = 0x42F00000 →
    s.arp.div = 2 → s.arp.conn = 0 → s.arp.acc = 0 → 1 ≤ m → m ≤ 22050 →
    (s.ticks m).arp.stepCount = s.arp.stepCount + 1 ∧
      (s.ticks m).arp.trigOut = (if m ≤ 45 then s.cfg.trigV else 0x00000000) ∧
      (m = 22050 → (s.ticks m).arp.acc = 0)

/-- Every operator rounds to nearest, ties to even: a finite sum, difference, product or quotient of finite values is as
near to the exact one as any binary32 value is, and where another value is as near its pattern is even (00_scope.md R15);
it is finite where the exact one is at most the largest finite value. Comparisons compare the exact values, so −0.0 and
+0.0 are equal (R15). clamp sends NaN to the lower bound (R16), lerp is evaluated with three roundings (R17), floor and ceil
give the nearest integers below and above, toF32 rounds to nearest and is exact up to 2^24, and toIntSat, fabs, min and max
are those of R18. -/
def Obligations.ArithmeticFollowsBinary32 : Prop :=
  (∀ a b : F32, isFinite a = true → isFinite b = true →
    (isFinite (fadd a b) = true → nearestEven (fadd a b) (scaled a + scaled b) 1) ∧
    (isFinite (fsub a b) = true → nearestEven (fsub a b) (scaled a - scaled b) 1) ∧
    (isFinite (fmul a b) = true → nearestEven (fmul a b) (scaled a * scaled b) unitScale) ∧
    (scaled b ≠ 0 → isFinite (fdiv a b) = true →
      nearestEven (fdiv a b) (scaled a * unitScale * (scaled b).sign) (scaled b).natAbs) ∧
    (|scaled a + scaled b| ≤ scaled 0x7F7FFFFF → isFinite (fadd a b) = true) ∧
    (|scaled a - scaled b| ≤ scaled 0x7F7FFFFF → isFinite (fsub a b) = true) ∧
    (|scaled a * scaled b| ≤ scaled 0x7F7FFFFF * unitScale → isFinite (fmul a b) = true) ∧
    (scaled b ≠ 0 → |scaled a * unitScale| ≤ scaled 0x7F7FFFFF * |scaled b| → isFinite (fdiv a b) = true) ∧
    (flt a b = true ↔ scaled a < scaled b) ∧ (fle a b = true ↔ scaled a ≤ scaled b) ∧
    (feq a b = true ↔ scaled a = scaled b) ∧
    scaled (fmin a b) = min (scaled a) (scaled b) ∧ scaled (fmax a b) = max (scaled a) (scaled b)) ∧
  (∀ (a : F32) (k lo hi : Int), isFinite a = true →
    (k ≤ ffloor a ↔ k * unitScale ≤ scaled a) ∧ (fceil a ≤ k ↔ scaled a ≤ k * unitScale) ∧
    toIntSat a lo hi = (if ffloor a < lo then lo else if hi < ffloor a then hi else ffloor a) ∧
    scaled (fabs a) = |scaled a| ∧ (fabs a).getLsbD 31 = false) ∧
  (∀ n : Int, (isFinite (toF32 n) = true → nearestEven (toF32 n) (n * unitScale) 1) ∧
    (|n| ≤ 2 ^ 24 → isFinite (toF32 n) = true ∧ scaled (toF32 n) = n * unitScale)) ∧
  ∀ (a b c : F32) (lo hi : Int),
    fclamp a b c = (if isNaN a = true then b else if flt a b = true then b else if flt c a = true then c else a) ∧
    lerp a b c = fadd a (fmul c (fsub b a)) ∧ (isNaN a = true → toIntSat a lo hi = lo)

/-- fexp2 and fsin2pi have the properties of 00_scope.md R30 and R31, over the real numbers, and the free values behind them
are held back by nothing else: away from the exact points, a free value that keeps the bounds (b) and (c), or stands where
they ask nothing, is the value, and what is admitted is exactly what the bounds allow (log entries 2 and 3). -/
def Obligations.TranscendentalsKeepTheirBounds : Prop :=
  (∀ k : Int, -126 ≤ k → k ≤ 127 → (ratOf (fexp2 (toF32 k)) : ℝ) = 2 ^ k) ∧
    (∀ x : F32, isFinite x = true → |(ratOf x : ℝ)| ≤ 20 →
      (isFinite (fexp2 x) = true ∧ (0 : ℝ) < ratOf (fexp2 x) ∧
        |(ratOf (fexp2 x) : ℝ) - 2 ^ (ratOf x : ℝ)| ≤ 2 ^ (-16 : ℤ) * 2 ^ (ratOf x : ℝ)) ∧
      ∀ y : F32, exp2Admits x y = true ↔ isFinite y = true ∧ (0 : ℝ) < ratOf y ∧
        |(ratOf y : ℝ) - 2 ^ (ratOf x : ℝ)| ≤ 2 ^ (-16 : ℤ) * 2 ^ (ratOf x : ℝ)) ∧
    (∀ x : F32, (∀ k : Int, -126 ≤ k → k ≤ 127 → x ≠ toF32 k) →
      (isFinite x = true → |(ratOf x : ℝ)| ≤ 20 → exp2Admits x (Config.fexp2Free x) = true) →
      fexp2 x = Config.fexp2Free x) ∧
    (fsin2pi 0x00000000 = 0x00000000 ∧ fsin2pi 0x3E800000 = 0x3F800000 ∧ fsin2pi 0x3F000000 = 0x00000000 ∧
      fsin2pi 0x3F400000 = 0xBF800000) ∧
    (∀ p : F32, p ∉ [0x00000000, 0x3E800000, 0x3F000000, 0x3F400000] →
      (isFinite p = true → (0 : ℝ) ≤ ratOf p → (ratOf p : ℝ) < 1 → sinAdmits p (Config.fsinFree p) = true) →
      fsin2pi p = Config.fsinFree p) ∧
    ∀ p : F32, isFinite p = true → (0 : ℝ) ≤ ratOf p → (ratOf p : ℝ) < 1 →
      (isFinite (fsin2pi p) = true ∧ |(ratOf (fsin2pi p) : ℝ)| ≤ 1 ∧
        |(ratOf (fsin2pi p) : ℝ) - Real.sin (2 * Real.pi * ratOf p)| ≤ 2 ^ (-16 : ℤ)) ∧
      ∀ y : F32, sinAdmits p y = true ↔ isFinite y = true ∧ |(ratOf y : ℝ)| ≤ 1 ∧
        |(ratOf y : ℝ) - Real.sin (2 * Real.pi * ratOf p)| ≤ 2 ^ (-16 : ℤ)

/-! ## Invariants that every step keeps, from every state that has them -/

/-- Only the six event bits of STATUS are ever set (10_state.md R150); the bank map stays a permutation with one spare slot,
and a bank is not ready exactly while a load is open on it (10_state.md R116; 70_reset_and_hazards.md R973); an inactive
voice is silent and closed, and the pools, the spawn queue, the generator and the loop stay within their bounds
(44_voice_pool.md R600; 10_state.md R131; 46_looper.md R704). -/
def Obligations.StepKeepsStatusBankMapAndPools : Prop :=
  ∀ s t : State, step s = .next t →
    (s.statusOk = true → t.statusOk = true) ∧ (s.bankMapOk = true → t.bankMapOk = true) ∧
    (s.cfg.legal = true → (s.voicesOk = true → t.voicesOk = true) ∧ (s.granOk = true → t.granOk = true) ∧
      (s.loopOk = true → t.loopOk = true))

/-- Every memory keeps its canonical form inside its size, and every cursor and count that indexes a memory stays in range
(20_memory.md R201; the canonical form is the model's, log entry 17). -/
def Obligations.StepKeepsTheMemories : Prop :=
  ∀ s t : State, step s = .next t → s.cfg.legal = true → s.memoryOk = true → s.cursorsOk = true →
    t.memoryOk = true ∧ t.cursorsOk = true

/-- Every P and I register holds a value of its range, and DT is 1.0 / SAMPLE_RATE (10_state.md R102, R103; 00_scope.md
R25). The premise on reset values says that the instance's own reset values are in range. -/
def Obligations.StepKeepsRegistersInRange : Prop :=
  ∀ s t : State, step s = .next t → s.cfg.legal = true → (State.resetOf s.cfg).registersOk → s.registersOk →
    s.dtOk = true → t.registersOk ∧ t.dtOk = true

/-- Every phase stays in [0, 1) (41_oscillator.md R451), and every envelope level stays in [0, 1] while the registers are in
range (43_envelope.md R554). -/
def Obligations.StepKeepsPhasesAndLevels : Prop :=
  ∀ s t : State, step s = .next t → (s.phasesOk = true → t.phasesOk = true) ∧
    (s.cfg.legal = true → s.registersOk → s.dtOk = true → s.levelsOk = true → t.levelsOk = true)

/-- No response FIFO holds more than RESP_DEPTH words, a word is pending exactly while it is the first of a 2-word command
whose data word has not arrived, and ticks are left only on a TICK at the head of its port (10_state.md R106; 20_memory.md
R211 to R213). -/
def Obligations.StepKeepsThePorts : Prop :=
  ∀ s t : State, step s = .next t → s.portsOk = true → t.portsOk = true
end

