-- ==== Sys2Proof/Laws/Float.lean ====
section
/-! SUPPORT. Laws of the binary32 operations: rounding is monotone and keeps representable values, the order of patterns
is the order of values, and what follows for sums, products and quotients: each is at most (at least) any value the exact
result is at most (at least). -/

namespace Sys2Proof.Machine

/-! ## Rounding -/

/-- The rounded quotient of roundMag, before it is capped. -/
def roundHalfEven (num step : Nat) : Nat :=
  if step < 2 * (num % step) ∨ (step = 2 * (num % step) ∧ num / step % 2 = 1) then num / step + 1 else num / step

theorem roundHalfEven_mono {a b step : Nat} (h : a ≤ b) : roundHalfEven a step ≤ roundHalfEven b step := by
  unfold roundHalfEven
  have ha := Nat.div_add_mod a step
  have hb := Nat.div_add_mod b step
  have hab : a / step ≤ b / step := Nat.div_le_div_right h
  rcases Nat.eq_or_lt_of_le hab with e | l
  · rw [e] at ha ⊢
    have : a % step ≤ b % step := by omega
    split <;> split <;> omega
  · split <;> split <;> omega

theorem roundHalfEven_le {a step : Nat} : roundHalfEven a step ≤ a / step + 1 := by
  unfold roundHalfEven; split <;> omega

theorem le_roundHalfEven {a step : Nat} : a / step ≤ roundHalfEven a step := by
  unfold roundHalfEven; split <;> omega

/-- The exponent of the spacing at the magnitude num/den. -/
def roundShift (num den : Nat) : Nat := Nat.log2 (num / den) - 23

theorem roundMag_def (num den : Nat) :
    roundMag num den = min (roundShift num den * 2 ^ 23 + roundHalfEven num (den * 2 ^ roundShift num den)) 0x7F800000 := rfl

theorem log2_mono {a b : Nat} (h : a ≤ b) : Nat.log2 a ≤ Nat.log2 b := by
  rcases Nat.eq_zero_or_pos a with rfl | ha
  · simp
  · exact (Nat.le_log2 (by omega)).2 (Nat.le_trans (Nat.log2_self_le (by omega)) h)

theorem roundShift_mono {a b den : Nat} (h : a ≤ b) : roundShift a den ≤ roundShift b den := by
  unfold roundShift
  have := log2_mono (Nat.div_le_div_right (c := den) h)
  omega

theorem roundQuot_lt {num den : Nat} : num / (den * 2 ^ roundShift num den) < 2 ^ 24 := by
  rw [← Nat.div_div_eq_div_mul]
  apply Nat.div_lt_of_lt_mul
  have h1 : num / den < 2 ^ (Nat.log2 (num / den) + 1) := Nat.lt_log2_self
  refine lt_of_lt_of_le h1 ?_
  rw [← pow_add]
  exact Nat.pow_le_pow_right (by omega) (by unfold roundShift; omega)

theorem roundQuot_ge {num den : Nat} (h : 0 < roundShift num den) : 2 ^ 23 ≤ num / (den * 2 ^ roundShift num den) := by
  rw [← Nat.div_div_eq_div_mul]
  have hl : Nat.log2 (num / den) = roundShift num den + 23 := by unfold roundShift at *; omega
  have hne : num / den ≠ 0 := by intro e; rw [e] at hl; simp at hl
  rw [Nat.le_div_iff_mul_le (by positivity), ← pow_add]
  calc 2 ^ (23 + roundShift num den) = 2 ^ Nat.log2 (num / den) := by rw [hl, Nat.add_comm]
    _ ≤ num / den := Nat.log2_self_le hne

/-- Rounding never reverses an order. -/
theorem roundMag_mono {a b den : Nat} (h : a ≤ b) : roundMag a den ≤ roundMag b den := by
  rw [roundMag_def, roundMag_def]
  apply min_le_min_right
  rcases Nat.eq_or_lt_of_le (roundShift_mono (den := den) h) with e | l
  · rw [← e]
    exact Nat.add_le_add_left (roundHalfEven_mono h) _
  · have h1 := roundHalfEven_le (a := a) (step := den * 2 ^ roundShift a den)
    have h2 := roundQuot_lt (num := a) (den := den)
    have h3 := roundQuot_ge (num := b) (den := den) (by omega)
    have h4 := le_roundHalfEven (a := b) (step := den * 2 ^ roundShift b den)
    omega

theorem roundMag_le {a den : Nat} : roundMag a den ≤ 0x7F800000 := by rw [roundMag_def]; exact min_le_right _ _

/-! ## The magnitude a pattern stands for -/

/-- The magnitude, in units of 2^-149, that a magnitude pattern stands for. -/
def magOf (m : Nat) : Nat := if m / 2 ^ 23 = 0 then m % 2 ^ 23 else (2 ^ 23 + m % 2 ^ 23) * 2 ^ (m / 2 ^ 23 - 1)

theorem scaledMag_eq (x : F32) : scaledMag x = magOf (x.toNat % 2 ^ 31) := by
  unfold scaledMag magOf fExp fFrac
  have h1 : x.toNat % 2 ^ 31 / 2 ^ 23 = x.toNat / 2 ^ 23 % 2 ^ 8 := by omega
  have h2 : x.toNat % 2 ^ 31 % 2 ^ 23 = x.toNat % 2 ^ 23 := by omega
  rw [h1, h2]

theorem roundMag_magOf {m den : Nat} (hd : 0 < den) (hm : m < 0x7F800000) : roundMag (magOf m * den) den = m := by
  have hm31 : m / 2 ^ 23 < 255 := by omega
  have key : roundShift (magOf m * den) den = m / 2 ^ 23 - 1 := by
    unfold roundShift
    rw [Nat.mul_div_cancel _ hd]
    unfold magOf
    split
    · have : m % 2 ^ 23 < 2 ^ 23 := Nat.mod_lt _ (by norm_num)
      rcases Nat.eq_zero_or_pos (m % 2 ^ 23) with e | p
      · rw [e]; simp; omega
      · have := (Nat.log2_lt (by omega)).2 this
        omega
    · have hl : Nat.log2 ((2 ^ 23 + m % 2 ^ 23) * 2 ^ (m / 2 ^ 23 - 1)) = 23 + (m / 2 ^ 23 - 1) := by
        rw [Nat.log2_eq_iff (by positivity)]
        have : m % 2 ^ 23 < 2 ^ 23 := Nat.mod_lt _ (by norm_num)
        constructor
        · rw [pow_add]; exact Nat.mul_le_mul_right _ (by omega)
        · rw [show 23 + (m / 2 ^ 23 - 1) + 1 = 24 + (m / 2 ^ 23 - 1) by omega, pow_add]
          exact Nat.mul_lt_mul_of_pos_right (by omega) (by positivity)
      omega
  have hdvd : magOf m * den = (if m / 2 ^ 23 = 0 then m else 2 ^ 23 + m % 2 ^ 23) * (den * 2 ^ (m / 2 ^ 23 - 1)) := by
    unfold magOf; split
    · next h => rw [h]; simp; left; omega
    · ring
  rw [roundMag_def, key, hdvd]
  have hp : 0 < den * 2 ^ (m / 2 ^ 23 - 1) := by positivity
  unfold roundHalfEven
  rw [Nat.mul_div_cancel _ hp, Nat.mul_mod_left]
  rw [if_neg (by omega)]
  split <;> omega

theorem magOf_roundTrip {x : F32} {den : Nat} (hd : 0 < den) (hx : isFinite x = true) : roundMag (scaledMag x * den) den = x.toNat % 2 ^ 31 := by
  rw [scaledMag_eq]
  apply roundMag_magOf hd
  simp [isFinite, fExp] at hx
  have := x.isLt
  omega


/-! ## The order of patterns is the order of values -/

theorem mag_lt_of_finite {x : F32} (hx : isFinite x = true) : x.toNat % 2 ^ 31 < 0x7F800000 := by
  simp [isFinite, fExp] at hx
  have := x.isLt
  omega

theorem isFinite_of_mag_lt {x : F32} (h : x.toNat % 2 ^ 31 < 0x7F800000) : isFinite x = true := by
  simp [isFinite, fExp]; omega

theorem isNaN_of_finite {x : F32} (hx : isFinite x = true) : isNaN x = false := by
  simp [isFinite] at hx; simp [isNaN, hx]

theorem isInf_of_finite {x : F32} (hx : isFinite x = true) : isInf x = false := by
  simp [isFinite] at hx; simp [isInf, hx]

theorem isNaN_eq_false_iff {x : F32} : isNaN x = false ↔ x.toNat % 2 ^ 31 ≤ 0x7F800000 := by
  simp [isNaN, fExp, fFrac]; omega

theorem scaledMag_le_iff {x y : F32} (hx : isFinite x = true) (hy : isFinite y = true) :
    scaledMag x ≤ scaledMag y ↔ x.toNat % 2 ^ 31 ≤ y.toNat % 2 ^ 31 := by
  have hx' := mag_lt_of_finite hx
  have hy' := mag_lt_of_finite hy
  have mono : ∀ {m n : Nat}, m < 0x7F800000 → n < 0x7F800000 → magOf m ≤ magOf n → m ≤ n := by
    intro m n hm hn h
    have := roundMag_mono (den := 1) (Nat.mul_le_mul_right 1 h)
    rwa [roundMag_magOf (by omega) hm, roundMag_magOf (by omega) hn] at this
  rw [scaledMag_eq, scaledMag_eq]
  refine ⟨mono hx' hy', fun h => ?_⟩
  by_contra hc
  have := mono hy' hx' (by omega)
  have e : x.toNat % 2 ^ 31 = y.toNat % 2 ^ 31 := by omega
  rw [e] at hc; omega

theorem scaledMag_eq_zero_iff {x : F32} (hx : isFinite x = true) : scaledMag x = 0 ↔ x.toNat % 2 ^ 31 = 0 := by
  have := scaledMag_le_iff hx (y := 0) (by decide)
  have h0 : scaledMag (0 : F32) = 0 := by decide
  rw [h0] at this
  simpa using this

theorem orderKey_le_iff {x y : F32} (hx : isFinite x = true) (hy : isFinite y = true) :
    orderKey x ≤ orderKey y ↔ scaled x ≤ scaled y := by
  have h1 := scaledMag_le_iff hx hy
  have h2 := scaledMag_le_iff hy hx
  have h3 := scaledMag_eq_zero_iff hx
  have h4 := scaledMag_eq_zero_iff hy
  unfold orderKey scaled
  split <;> split <;> omega

theorem fle_eq (a b : F32) : fle a b = (!isNaN a && !isNaN b && decide (orderKey a ≤ orderKey b)) := rfl

theorem flt_eq (a b : F32) : flt a b = (!isNaN a && !isNaN b && decide (orderKey a < orderKey b)) := rfl

theorem fle_iff {x y : F32} (hx : isFinite x = true) (hy : isFinite y = true) :
    fle x y = true ↔ scaled x ≤ scaled y := by
  simp [fle, isNaN_of_finite hx, isNaN_of_finite hy, orderKey_le_iff hx hy]

theorem flt_iff {x y : F32} (hx : isFinite x = true) (hy : isFinite y = true) :
    flt x y = true ↔ scaled x < scaled y := by
  have := orderKey_le_iff hy hx
  simp [flt, isNaN_of_finite hx, isNaN_of_finite hy]
  omega

/-! ## Rounded results -/

theorem packSign_toNat {neg : Bool} {m : Nat} (hm : m ≤ 0x7F800000) :
    (packSign neg m).toNat = if neg then m + 2 ^ 31 else m := by
  unfold packSign
  rw [BitVec.toNat_ofNat]
  split <;> exact Nat.mod_eq_of_lt (by omega)

theorem packSign_mag {neg : Bool} {m : Nat} (hm : m ≤ 0x7F800000) : (packSign neg m).toNat % 2 ^ 31 = m := by
  rw [packSign_toNat hm]; split <;> omega

theorem packSign_sign {neg : Bool} {m : Nat} (hm : m ≤ 0x7F800000) : fSign (packSign neg m) = neg := by
  unfold fSign; rw [packSign_toNat hm]
  cases neg
  · rw [if_neg (by decide)]; exact decide_eq_false (by omega)
  · rw [if_pos rfl]; exact decide_eq_true (by omega)

theorem packSign_isNaN {neg : Bool} {m : Nat} (hm : m ≤ 0x7F800000) : isNaN (packSign neg m) = false := by
  rw [isNaN_eq_false_iff, packSign_mag hm]; exact hm

theorem packSign_key {neg : Bool} {m : Nat} (hm : m ≤ 0x7F800000) :
    orderKey (packSign neg m) = if neg then -(m : Int) else (m : Int) := by
  unfold orderKey; rw [packSign_sign hm, packSign_mag hm]

/-- Rounding of the fraction n / den, in units of 2^-149, n of either sign. -/
def rounded (n : Int) (den : Nat) : F32 := packSign (decide (n < 0)) (roundMag n.natAbs den)

theorem rounded_key (n : Int) (den : Nat) :
    orderKey (rounded n den) = if n < 0 then -(roundMag n.natAbs den : Int) else (roundMag n.natAbs den : Int) := by
  unfold rounded; rw [packSign_key roundMag_le]; simp

theorem rounded_isNaN (n : Int) (den : Nat) : isNaN (rounded n den) = false := packSign_isNaN roundMag_le

theorem key_of_finite {c : F32} (hc : isFinite c = true) {den : Nat} (hd : 0 < den) :
    orderKey c = if fSign c then -(roundMag (scaledMag c * den) den : Int) else (roundMag (scaledMag c * den) den : Int) := by
  rw [magOf_roundTrip hd hc]; rfl

theorem roundMag_zero {den : Nat} (hd : 0 < den) : roundMag 0 den = 0 := by
  have h := magOf_roundTrip (x := 0) hd (by decide)
  rw [show scaledMag (0 : F32) = 0 by decide, Nat.zero_mul] at h
  exact h

/-- A fraction at most a value rounds to at most that value. -/
theorem rounded_le {n : Int} {den : Nat} {c : F32} (hd : 0 < den) (hc : isFinite c = true)
    (h : n ≤ scaled c * den) : orderKey (rounded n den) ≤ orderKey c := by
  rw [rounded_key, key_of_finite hc hd]
  unfold scaled at h
  have hz := roundMag_zero hd
  by_cases hn : n < 0
  · by_cases hs : fSign c = true
    · rw [if_pos hs] at h
      rw [if_pos hn, if_pos hs]
      have : scaledMag c * den ≤ n.natAbs := by
        have : ((scaledMag c * den : Nat) : Int) ≤ -n := by push_cast; linarith
        omega
      have := roundMag_mono (den := den) this
      omega
    · rw [if_pos hn, if_neg hs]; omega
  · by_cases hs : fSign c = true
    · simp only [hs, if_true] at h
      have h0 : (0 : Int) ≤ (scaledMag c : Int) * den := by positivity
      have hn0 : n = 0 := by linarith [not_lt.1 hn, neg_mul (scaledMag c : Int) den]
      have hc0 : scaledMag c * den = 0 := by
        have : ((scaledMag c * den : Nat) : Int) = 0 := by push_cast; linarith [neg_mul (scaledMag c : Int) den]
        exact_mod_cast this
      simp [hn0, hc0, hz, hs]
    · simp only [hn, hs] at h ⊢
      have : n.natAbs ≤ scaledMag c * den := by
        have : n ≤ ((scaledMag c * den : Nat) : Int) := by push_cast; simpa using h
        omega
      have := roundMag_mono (den := den) this
      simp; omega

theorem rounded_neg_key (n : Int) {den : Nat} (hd : 0 < den) : orderKey (rounded (-n) den) = -orderKey (rounded n den) := by
  rw [rounded_key, rounded_key, Int.natAbs_neg]
  have hz := roundMag_zero hd
  rcases lt_trichotomy n 0 with h | h | h
  · rw [if_neg (by omega), if_pos h]; omega
  · subst h; simp [hz]
  · rw [if_pos (by omega), if_neg (by omega)]

theorem xor_signBit {n : Nat} (h : n < 2 ^ 31) : n ^^^ 2 ^ 31 = n + 2 ^ 31 := by
  apply Nat.eq_of_testBit_eq
  intro i
  rw [Nat.testBit_xor, Nat.testBit_two_pow, Nat.add_comm]
  rcases Nat.lt_trichotomy i 31 with hi | hi | hi
  · rw [Nat.testBit_two_pow_add_gt hi, decide_eq_false (by omega), Bool.xor_false]
  · subst hi; rw [Nat.testBit_two_pow_add_eq]; simp
  · have h1 : n < 2 ^ i := lt_of_lt_of_le h (Nat.pow_le_pow_right (by omega) (by omega))
    have h2 : 2 ^ 31 + n < 2 ^ i := lt_of_lt_of_le (show 2 ^ 31 + n < 2 ^ 32 by omega) (Nat.pow_le_pow_right (by omega) (by omega))
    rw [Nat.testBit_lt_two_pow h1, Nat.testBit_lt_two_pow h2]; simp; omega
theorem signBit_toNat : (0x80000000#32).toNat = 2 ^ 31 := by decide
theorem fneg_toNat (x : F32) : (fneg x).toNat = if fSign x then x.toNat - 2 ^ 31 else x.toNat + 2 ^ 31 := by
  unfold fneg fSign
  rw [BitVec.toNat_xor, signBit_toNat]
  have hx := x.isLt
  split
  · next h =>
    have h := of_decide_eq_true h
    obtain ⟨k, hk⟩ := Nat.exists_eq_add_of_le h
    rw [hk, Nat.add_comm, ← xor_signBit (by omega), Nat.xor_assoc, Nat.xor_self, Nat.xor_zero, xor_signBit (by omega)]
    omega
  · next h => 
    have h : ¬ 2 ^ 31 ≤ x.toNat := fun hc => h (decide_eq_true hc)
    exact xor_signBit (by omega)
theorem fneg_mag (x : F32) : (fneg x).toNat % 2 ^ 31 = x.toNat % 2 ^ 31 := by
  rw [fneg_toNat]; unfold fSign; have := x.isLt; split
  · next h => have h := of_decide_eq_true h; omega
  · omega
theorem fneg_sign (x : F32) : fSign (fneg x) = !fSign x := by
  have h : fSign (fneg x) = decide (2 ^ 31 ≤ (fneg x).toNat) := rfl
  rw [h, fneg_toNat]
  have := x.isLt
  by_cases hs : fSign x = true
  · rw [if_pos hs, hs]; simp; omega
  · rw [if_neg hs]; simp [hs]

theorem scaled_fneg (x : F32) : scaled (fneg x) = -scaled x := by
  unfold scaled; rw [fneg_sign, scaledMag_eq (fneg x), fneg_mag, ← scaledMag_eq]
  cases fSign x <;> simp

theorem isFinite_iff {x : F32} : isFinite x = true ↔ x.toNat % 2 ^ 31 < 0x7F800000 :=
  ⟨mag_lt_of_finite, isFinite_of_mag_lt⟩

theorem isFinite_fneg {x : F32} : isFinite (fneg x) = isFinite x := by
  rw [Bool.eq_iff_iff, isFinite_iff, isFinite_iff, fneg_mag]

theorem orderKey_fneg (x : F32) : orderKey (fneg x) = -orderKey x := by
  unfold orderKey; rw [fneg_sign, fneg_mag]; cases fSign x <;> simp

theorem isNaN_fneg (x : F32) : isNaN (fneg x) = isNaN x := by
  have h1 := isNaN_eq_false_iff (x := x)
  have h2 := isNaN_eq_false_iff (x := fneg x)
  rw [fneg_mag, ← h1] at h2
  cases h : isNaN x <;> cases h' : isNaN (fneg x) <;> simp_all

/-- A fraction at least a value rounds to at least that value. -/
theorem le_rounded {n : Int} {den : Nat} {c : F32} (hd : 0 < den) (hc : isFinite c = true)
    (h : scaled c * den ≤ n) : orderKey c ≤ orderKey (rounded n den) := by
  have := rounded_le (n := -n) (c := fneg c) hd (by rwa [isFinite_fneg]) (by rw [scaled_fneg]; linarith [neg_mul (scaled c) (den : Int)])
  rw [rounded_neg_key n hd, orderKey_fneg] at this
  omega

/-! ## Sums -/

/-- A finite sum is the rounded exact sum (up to the sign of a zero). -/
theorem fadd_key {a b : F32} (ha : isFinite a = true) (hb : isFinite b = true) :
    orderKey (fadd a b) = orderKey (rounded (scaled a + scaled b) 1) ∧ isNaN (fadd a b) = false := by
  unfold fadd
  simp only [isNaN_of_finite ha, isNaN_of_finite hb, isInf_of_finite ha, isInf_of_finite hb, Bool.or_self, Bool.false_eq_true, if_false]
  split
  · next h =>
    rw [h, rounded_key, packSign_key (by decide), packSign_isNaN (by decide)]
    rw [show (0 : Int).natAbs = 0 from rfl, roundMag_zero (by decide)]
    simp
  · exact ⟨rfl, rounded_isNaN _ _⟩

/-- A sum at most a value rounds to at most that value. -/
theorem fadd_le {a b c : F32} (ha : isFinite a = true) (hb : isFinite b = true) (hc : isFinite c = true)
    (h : scaled a + scaled b ≤ scaled c) : fle (fadd a b) c = true := by
  obtain ⟨hk, hn⟩ := fadd_key ha hb
  have := rounded_le (n := scaled a + scaled b) (den := 1) (by decide) hc (by simpa using h)
  simp [fle, hn, isNaN_of_finite hc, hk, this]

/-- A sum at least a value rounds to at least that value. -/
theorem le_fadd {a b c : F32} (ha : isFinite a = true) (hb : isFinite b = true) (hc : isFinite c = true)
    (h : scaled c ≤ scaled a + scaled b) : fle c (fadd a b) = true := by
  obtain ⟨hk, hn⟩ := fadd_key ha hb
  have := le_rounded (n := scaled a + scaled b) (den := 1) (by decide) hc (by simpa using h)
  simp [fle, hn, isNaN_of_finite hc, hk, this]

/-- The pattern of a value that is no zero. -/
theorem eq_of_key {x y : F32} (hk : orderKey x = orderKey y) (h0 : orderKey x ≠ 0) : x = y := by
  apply BitVec.eq_of_toNat_eq
  have hx := x.isLt
  have hy := y.isLt
  unfold orderKey fSign at *
  split at hk <;> split at hk <;> simp_all <;> omega

theorem orderKey_eq_zero_iff {x : F32} (hx : isFinite x = true) : orderKey x = 0 ↔ scaled x = 0 := by
  have := scaledMag_eq_zero_iff hx
  unfold orderKey scaled
  split <;> omega

/-- An exact sum that is no zero is that value. -/
theorem fadd_exact {a b c : F32} (ha : isFinite a = true) (hb : isFinite b = true) (hc : isFinite c = true)
    (h : scaled a + scaled b = scaled c) (h0 : scaled c ≠ 0) : fadd a b = c := by
  obtain ⟨hk, -⟩ := fadd_key ha hb
  have h1 := rounded_le (n := scaled a + scaled b) (den := 1) (by decide) hc (by simpa using h.le)
  have h2 := le_rounded (n := scaled a + scaled b) (den := 1) (by decide) hc (by simpa using h.ge)
  exact (eq_of_key (by omega) (by rwa [Ne, orderKey_eq_zero_iff hc])).symm

theorem fadd_zero_sum {a b : F32} (ha : isFinite a = true) (hb : isFinite b = true)
    (h : scaled a + scaled b = 0) : fadd a b = packSign (fSign a && fSign b) 0 := by
  unfold fadd
  simp [isNaN_of_finite ha, isNaN_of_finite hb, isInf_of_finite ha, isInf_of_finite hb, h]

/-! ## Products and quotients -/

theorem unitScale_pos : 0 < unitScale := by unfold unitScale; positivity

theorem fmul_key {a b : F32} (ha : isFinite a = true) (hb : isFinite b = true) :
    orderKey (fmul a b) = orderKey (rounded (scaled a * scaled b) unitScale) ∧ isNaN (fmul a b) = false := by
  unfold fmul
  simp only [isNaN_of_finite ha, isNaN_of_finite hb, isInf_of_finite ha, isInf_of_finite hb, Bool.or_self, Bool.false_eq_true, if_false]
  refine ⟨?_, packSign_isNaN roundMag_le⟩
  rw [packSign_key roundMag_le, rounded_key]
  have hn : (scaled a * scaled b).natAbs = scaledMag a * scaledMag b := by
    rw [Int.natAbs_mul]; unfold scaled; split <;> split <;> simp
  rw [hn]
  by_cases hz : scaledMag a * scaledMag b = 0
  · rw [hz, roundMag_zero unitScale_pos]; simp
  · have ha0 : 0 < scaledMag a := Nat.pos_of_ne_zero (fun e => hz (by simp [e]))
    have hb0 : 0 < scaledMag b := Nat.pos_of_ne_zero (fun e => hz (by simp [e]))
    have hpos : (0 : Int) < (scaledMag a : Int) * scaledMag b := by positivity
    unfold scaled
    cases fSign a <;> cases fSign b <;> simp <;> omega

theorem fmul_le {a b c : F32} (ha : isFinite a = true) (hb : isFinite b = true) (hc : isFinite c = true)
    (h : scaled a * scaled b ≤ scaled c * unitScale) : fle (fmul a b) c = true := by
  obtain ⟨hk, hn⟩ := fmul_key ha hb
  have := rounded_le (n := scaled a * scaled b) unitScale_pos hc h
  simp [fle, hn, isNaN_of_finite hc, hk, this]

theorem le_fmul {a b c : F32} (ha : isFinite a = true) (hb : isFinite b = true) (hc : isFinite c = true)
    (h : scaled c * unitScale ≤ scaled a * scaled b) : fle c (fmul a b) = true := by
  obtain ⟨hk, hn⟩ := fmul_key ha hb
  have := le_rounded (n := scaled a * scaled b) unitScale_pos hc h
  simp [fle, hn, isNaN_of_finite hc, hk, this]

theorem fmul_sign {a b : F32} (ha : isFinite a = true) (hb : isFinite b = true) :
    fSign (fmul a b) = (fSign a != fSign b) := by
  unfold fmul
  simp only [isNaN_of_finite ha, isNaN_of_finite hb, isInf_of_finite ha, isInf_of_finite hb, Bool.or_self, Bool.false_eq_true, if_false]
  exact packSign_sign roundMag_le

/-! ## Patterns of non-negative values -/

theorem toNat_of_nonneg {x : F32} (h : fSign x = false) : orderKey x = x.toNat := by
  unfold orderKey
  have hx : ¬ 2 ^ 31 ≤ x.toNat := by simpa [fSign] using h
  rw [h]; simp; omega

theorem fSign_eq_false_iff {x : F32} : fSign x = false ↔ x.toNat < 2 ^ 31 := by
  unfold fSign; rw [decide_eq_false_iff_not]; omega

theorem fSign_fadd {a b : F32} (ha : isFinite a = true) (hb : isFinite b = true)
    (h : 0 < scaled a + scaled b ∨ (scaled a + scaled b = 0 ∧ fSign a = false)) : fSign (fadd a b) = false := by
  rcases h with h | ⟨h, hs⟩
  · unfold fadd
    simp only [isNaN_of_finite ha, isNaN_of_finite hb, isInf_of_finite ha, isInf_of_finite hb, Bool.or_self, Bool.false_eq_true, if_false]
    rw [if_neg (by omega), packSign_sign roundMag_le]; exact decide_eq_false (by omega)
  · rw [fadd_zero_sum ha hb h, packSign_sign (by decide), hs]; rfl

/-- A sum that is positive, or +0.0, has a pattern at most that of any value it is at most. -/
theorem fadd_toNat_le {a b c : F32} (ha : isFinite a = true) (hb : isFinite b = true) (hc : isFinite c = true)
    (hs : fSign c = false) (h : 0 < scaled a + scaled b ∨ (scaled a + scaled b = 0 ∧ fSign a = false))
    (hle : scaled a + scaled b ≤ scaled c) : (fadd a b).toNat ≤ c.toNat := by
  have h1 := fadd_le ha hb hc hle
  rw [fle_eq] at h1
  simp only [Bool.and_eq_true, decide_eq_true_eq] at h1
  have := toNat_of_nonneg (fSign_fadd ha hb h)
  have := toNat_of_nonneg hs
  omega

theorem isFinite_of_between {x lo hi : F32} (hl : isFinite lo = true) (hh : isFinite hi = true)
    (h1 : fle lo x = true) (h2 : fle x hi = true) : isFinite x = true := by
  rw [isFinite_iff] at *
  rw [fle_eq] at h1 h2
  simp only [Bool.and_eq_true, decide_eq_true_eq] at h1 h2
  unfold orderKey at h1 h2
  split at h1 <;> split at h1 <;> split at h2 <;> first | omega | simp_all

theorem fle_of_not_flt {x y : F32} (hx : isNaN x = false) (hy : isNaN y = false) (h : flt y x = false) : fle x y = true := by
  simp [flt, fle, hx, hy] at *; omega
theorem flt_of_not_fle {x y : F32} (hx : isNaN x = false) (hy : isNaN y = false) (h : fle x y = false) : flt y x = true := by
  simp [flt, fle, hx, hy] at *; omega

/-- A clamp lies in its range. -/
theorem fclamp_mem {x lo hi : F32} (hl : isNaN lo = false) (hh : isNaN hi = false) (h : fle lo hi = true) :
    fle lo (fclamp x lo hi) = true ∧ fle (fclamp x lo hi) hi = true := by
  have hll : fle lo lo = true := by simp [fle, hl]
  have hhh : fle hi hi = true := by simp [fle, hh]
  unfold fclamp
  by_cases hx : isNaN x = true
  · rw [if_pos hx]; exact ⟨hll, h⟩
  · rw [if_neg hx]
    have hx : isNaN x = false := by simpa using hx
    by_cases h1 : flt x lo = true
    · rw [if_pos h1]; exact ⟨hll, h⟩
    · rw [if_neg h1]
      by_cases h2 : flt hi x = true
      · rw [if_pos h2]; exact ⟨h, hhh⟩
      · rw [if_neg h2]
        exact ⟨fle_of_not_flt hl hx (by simpa using h1), fle_of_not_flt hx hh (by simpa using h2)⟩

theorem scaled_f0 : scaled f0 = 0 := by decide
theorem scaled_f1 : scaled f1 = 2 ^ 149 := by decide
theorem orderKey_f0 : orderKey f0 = 0 := by decide
theorem orderKey_f1 : orderKey f1 = 0x3F800000 := by decide
theorem isNaN_f0 : isNaN f0 = false := by decide
theorem isNaN_f1 : isNaN f1 = false := by decide
theorem isFinite_f0 : isFinite f0 = true := by decide
theorem isFinite_f1 : isFinite f1 = true := by decide

theorem scaled_pos_of_flt {x : F32} (hx : isFinite x = true) (h : flt f0 x = true) : 0 < scaled x ∧ fSign x = false := by
  rw [flt_iff (by decide) hx, scaled_f0] at h
  refine ⟨h, ?_⟩
  by_contra hc
  have : scaled x ≤ 0 := by unfold scaled; rw [if_pos (by simpa using hc)]; omega
  omega

/-- A positive value (or +infinity) over a positive finite one is no NaN and not negative. -/
theorem fdiv_nonneg {a b : F32} (ha : flt f0 a = true) (hb : flt f0 b = true) (hfb : isFinite b = true) :
    isNaN (fdiv a b) = false ∧ fSign (fdiv a b) = false := by
  obtain ⟨hb0, hbs⟩ := scaled_pos_of_flt hfb hb
  have hbm : scaledMag b ≠ 0 := by
    unfold scaled at hb0; rw [hbs] at hb0; simp at hb0; omega
  rw [flt_eq] at ha
  simp only [Bool.and_eq_true, decide_eq_true_eq, orderKey_f0, Bool.not_eq_true'] at ha
  have has : fSign a = false := by
    by_contra hc
    have h2 := ha.2
    unfold orderKey at h2
    rw [if_pos (by simpa using hc)] at h2; omega
  unfold fdiv
  rw [ha.1.2, isNaN_of_finite hfb, isInf_of_finite hfb, has, hbs]
  simp only [Bool.or_self, Bool.false_eq_true, if_false, hbm, bne_self_eq_false]
  split
  · exact ⟨packSign_isNaN (by decide), packSign_sign (by decide)⟩
  · exact ⟨packSign_isNaN roundMag_le, packSign_sign roundMag_le⟩

theorem nonneg_cases {x : F32} (hn : isNaN x = false) (hs : fSign x = false) : isFinite x = true ∨ x = 0x7F800000 := by
  rw [isNaN_eq_false_iff] at hn
  rw [fSign_eq_false_iff] at hs
  rw [isFinite_iff]
  rcases Nat.lt_or_ge x.toNat 0x7F800000 with h | h
  · left; omega
  · right; apply BitVec.eq_of_toNat_eq; show _ = 0x7F800000; omega

theorem fadd_inf {a b : F32} (ha : isFinite a = true) (hb : isInf b = true) : fadd a b = b := by
  have : isNaN b = false := by simp [isInf, isNaN] at *; simp [hb]
  simp [fadd, isNaN_of_finite ha, isInf_of_finite ha, hb, this]

theorem scaled_nonneg_of {x : F32} (hs : fSign x = false) : 0 ≤ scaled x := by unfold scaled; rw [hs]; simp


/-! ## Integers -/

/-- A whole number below 2^24 has a pattern of its own. -/
theorem exists_mag_of_nat {n : Nat} (h0 : 0 < n) (h : n < 2 ^ 24) : ∃ m, m < 0x7F800000 ∧ magOf m = n * unitScale := by
  have he : Nat.log2 n ≤ 23 := by
    have := (Nat.log2_lt (by omega : n ≠ 0)).2 h
    omega
  generalize hk : Nat.log2 n = e at he
  have h1 : 2 ^ e ≤ n := hk ▸ Nat.log2_self_le (by omega)
  have h2 : n < 2 ^ (e + 1) := hk ▸ Nat.lt_log2_self
  have e1 : 2 ^ 23 ≤ n * 2 ^ (23 - e) := by
    calc 2 ^ 23 = 2 ^ e * 2 ^ (23 - e) := by rw [← pow_add]; congr 1; omega
      _ ≤ n * 2 ^ (23 - e) := Nat.mul_le_mul_right _ h1
  have e2 : n * 2 ^ (23 - e) < 2 ^ 24 := by
    calc n * 2 ^ (23 - e) < 2 ^ (e + 1) * 2 ^ (23 - e) := Nat.mul_lt_mul_of_pos_right h2 (by positivity)
      _ = 2 ^ 24 := by rw [← pow_add]; congr 1; omega
  generalize hq : n * 2 ^ (23 - e) = q at e1 e2
  refine ⟨(e + 127) * 2 ^ 23 + (q - 2 ^ 23), by omega, ?_⟩
  have d1 : ((e + 127) * 2 ^ 23 + (q - 2 ^ 23)) / 2 ^ 23 = e + 127 := by omega
  have d2 : ((e + 127) * 2 ^ 23 + (q - 2 ^ 23)) % 2 ^ 23 = q - 2 ^ 23 := by omega
  unfold magOf
  rw [d1, d2, if_neg (by omega), show 2 ^ 23 + (q - 2 ^ 23) = q by omega, ← hq, Nat.mul_assoc, ← pow_add,
    show 23 - e + (e + 127 - 1) = 149 by omega]
  rfl

/-- `toF32` is exact on the whole numbers below 2^24 (00_scope.md R18). -/
theorem toF32_nat {n : Nat} (h : n < 2 ^ 24) :
    isFinite (toF32 n) = true ∧ scaled (toF32 n) = n * (unitScale : Int) ∧ fSign (toF32 n) = false := by
  have hneg : decide ((n : Int) < 0) = false := by simp
  rcases Nat.eq_zero_or_pos n with rfl | h0
  · decide
  · obtain ⟨m, hm, hmag⟩ := exists_mag_of_nat h0 h
    have hr : roundMag ((n : Int).natAbs * unitScale) 1 = m := by
      have := roundMag_magOf (den := 1) (by omega) hm
      rw [hmag, Nat.mul_one] at this
      simpa using this
    have hle : m ≤ 0x7F800000 := by omega
    have hs : fSign (toF32 n) = false := by unfold toF32; rw [hr, hneg]; exact packSign_sign hle
    have hmg : (toF32 (n : Int)).toNat % 2 ^ 31 = m := by unfold toF32; rw [hr, hneg]; exact packSign_mag hle
    refine ⟨isFinite_of_mag_lt (by omega), ?_, hs⟩
    unfold scaled
    rw [hs, scaledMag_eq, hmg, hmag]
    simp

end Sys2Proof.Machine
end

