-- ==== Sys2Proof/Laws/Approx.lean ====
section
/-! SUPPORT. Lemmas about `fexp2` and `fsin2pi` over the reals: what their tests admit is the bound of 00_scope.md R30
(b), (c) and R31 (b), (c), no more and no less (`exp2Admits_iff`, `sinAdmits_iff`), and the values that stand where the
free value is not admitted are inside it (`exp2Fallback`, `sinFallback`). -/

namespace Sys2Proof.Machine

/-! ## The exact comparisons -/

/-- The value of an F32 as a real number. -/
theorem ratOf_cast (x : F32) : ((ratOf x : ℚ) : ℝ) = (scaled x : ℝ) / 2 ^ 149 := by
  unfold ratOf unitScale; rw [Rat.cast_div, Rat.cast_intCast, Rat.cast_natCast, Nat.cast_pow, Nat.cast_ofNat]

theorem two_rpow_pos (r : ℝ) : (0 : ℝ) < 2 ^ r := Real.rpow_pos_of_pos (by norm_num) r

/-- Halving the exponent is taking the root. -/
theorem two_rpow_half (j : Int) (m : Nat) :
    (2 : ℝ) ^ ((j : ℝ) / 2 ^ m) = 2 ^ ((j : ℝ) / 2 ^ (m + 1)) * 2 ^ ((j : ℝ) / 2 ^ (m + 1)) := by
  rw [← Real.rpow_add (by norm_num)]
  congr 1
  rw [pow_succ]; field_simp; norm_num

/-- `leExp2` decides z ≤ 2^(j / 2^m). -/
theorem leExp2_iff (m : Nat) : ∀ (z : Rat) (j : Int), 0 ≤ z →
    (leExp2 z j m = true ↔ (z : ℝ) ≤ 2 ^ ((j : ℝ) / 2 ^ m)) := by
  induction m with
  | zero =>
    intro z j _
    rw [leExp2, decide_eq_true_eq, pow_zero, div_one, Real.rpow_intCast, ← Rat.cast_le (K := ℝ)]
    push_cast; rfl
  | succ m ih =>
    intro z j hz
    rw [leExp2, ih _ _ (mul_self_nonneg z), two_rpow_half, Rat.cast_mul]
    exact (mul_self_le_mul_self_iff (by exact_mod_cast hz) (two_rpow_pos _).le).symm

/-- `exp2Le` decides 2^(j / 2^m) ≤ z. -/
theorem exp2Le_iff (m : Nat) : ∀ (z : Rat) (j : Int), 0 ≤ z →
    (exp2Le z j m = true ↔ 2 ^ ((j : ℝ) / 2 ^ m) ≤ (z : ℝ)) := by
  induction m with
  | zero =>
    intro z j _
    rw [exp2Le, decide_eq_true_eq, pow_zero, div_one, Real.rpow_intCast, ← Rat.cast_le (K := ℝ)]
    push_cast; rfl
  | succ m ih =>
    intro z j hz
    rw [exp2Le, ih _ _ (mul_self_nonneg z), two_rpow_half, Rat.cast_mul]
    exact (mul_self_le_mul_self_iff (two_rpow_pos _).le (by exact_mod_cast hz)).symm

/-- `leCos` decides z ≤ cos(π·j / 2^m). -/
theorem leCos_iff (m : Nat) : ∀ (z : Rat) (j : Nat), j ≤ 2 ^ m →
    (leCos z j m = true ↔ (z : ℝ) ≤ Real.cos (Real.pi * j / 2 ^ m)) := by
  induction m with
  | zero =>
    intro z j hj
    have : j = 0 ∨ j = 1 := by simp at hj; omega
    rcases this with rfl | rfl
    · rw [leCos, decide_eq_true_eq, if_pos rfl, ← Rat.cast_le (K := ℝ)]; simp
    · rw [leCos, decide_eq_true_eq, if_neg (by decide), ← Rat.cast_le (K := ℝ)]; simp
  | succ m ih =>
    intro z j hj
    have hpi := Real.pi_pos
    have hp : (0 : ℝ) < 2 ^ m := by positivity
    have hp1 : (2 : ℝ) ^ (m + 1) = 2 * 2 ^ m := by ring
    have hdbl : Real.cos (2 * (Real.pi * j / 2 ^ (m + 1))) = 2 * Real.cos (Real.pi * j / 2 ^ (m + 1)) ^ 2 - 1 := Real.cos_two_mul _
    have hang : 2 * (Real.pi * j / 2 ^ (m + 1)) = Real.pi * j / 2 ^ m := by rw [hp1]; field_simp
    set c := Real.cos (Real.pi * j / 2 ^ (m + 1)) with hc
    rw [leCos]
    split
    · next h =>
      have hjm : (j : ℝ) ≤ 2 ^ m := by exact_mod_cast h
      have hc0 : 0 ≤ c := by
        apply Real.cos_nonneg_of_neg_pi_div_two_le_of_le
        · have : 0 ≤ Real.pi * j / 2 ^ (m + 1) := by positivity
          linarith
        · rw [hp1, div_le_iff₀ (by positivity)]; nlinarith
      rw [Bool.or_eq_true, decide_eq_true_eq, ih _ _ h, ← hang, hdbl]
      push_cast
      constructor
      · rintro (h0 | h0)
        · have : (z : ℝ) ≤ 0 := by exact_mod_cast h0
          linarith
        · nlinarith
      · intro hz
        by_cases h0 : z ≤ 0
        · exact .inl h0
        · right
          have : (0 : ℝ) < z := by exact_mod_cast not_le.1 h0
          nlinarith
    · next h =>
      have hjm : (2 : ℝ) ^ m < j := by exact_mod_cast not_le.1 h
      have hj2 : (j : ℝ) ≤ 2 * 2 ^ m := by rw [← hp1]; exact_mod_cast hj
      have hc0 : c < 0 := by
        apply Real.cos_neg_of_pi_div_two_lt_of_lt
        · rw [hp1, lt_div_iff₀ (by positivity)]; nlinarith
        · rw [hp1]
          have : Real.pi * j / (2 * 2 ^ m) ≤ Real.pi := by rw [div_le_iff₀ (by positivity)]; nlinarith
          linarith
      have hle : j - 2 ^ m ≤ 2 ^ m := by have := hj; rw [pow_succ] at this; omega
      have hcast : ((j - 2 ^ m : Nat) : ℝ) = (j : ℝ) - 2 ^ m := by
        rw [Nat.cast_sub (by omega)]; push_cast; rfl
      have hang2 : Real.pi * ((j : ℝ) - 2 ^ m) / 2 ^ m = 2 * (Real.pi * j / 2 ^ (m + 1)) - Real.pi := by
        rw [hang]; field_simp
      rw [Bool.and_eq_true, decide_eq_true_eq, ih _ _ hle, hcast, hang2, Real.cos_sub_pi, hdbl]
      push_cast
      constructor
      · rintro ⟨h0, h1⟩
        have : (z : ℝ) < 0 := by exact_mod_cast h0
        nlinarith
      · intro hz
        have hz0 : (z : ℝ) < 0 := by linarith
        refine ⟨by exact_mod_cast hz0, by nlinarith⟩

/-- The exact comparison is the bound of R30 (b). -/
theorem exp2Within_iff {x y : F32} (hy : 0 ≤ ratOf y) :
    exp2Within x y = true ↔ |(ratOf y : ℝ) - 2 ^ (ratOf x : ℝ)| ≤ 2 ^ (-16 : ℤ) * 2 ^ (ratOf x : ℝ) := by
  unfold exp2Within
  have h1 : (0 : Rat) ≤ ratOf y / (1 + 1 / 2 ^ 16) := by positivity
  have h2 : (0 : Rat) ≤ ratOf y / (1 - 1 / 2 ^ 16) := div_nonneg hy (by norm_num)
  rw [Bool.and_eq_true, leExp2_iff _ _ _ h1, exp2Le_iff _ _ _ h2, ← ratOf_cast x, abs_le]
  have hp := two_rpow_pos (ratOf x : ℝ)
  generalize (2 : ℝ) ^ (ratOf x : ℝ) = T at *
  push_cast
  rw [div_le_iff₀ (by norm_num), le_div_iff₀ (by norm_num)]
  norm_num
  constructor <;> rintro ⟨h1, h2⟩ <;> constructor <;> linarith

/-- The angle from the crest. -/
theorem cos_crestAngle {p : F32} (h0 : 0 ≤ scaled p) (h1 : scaledMag p < unitScale) :
    crestAngle p ≤ 2 ^ 150 ∧ Real.cos (Real.pi * crestAngle p / 2 ^ 150) = Real.sin (2 * Real.pi * ratOf p) := by
  have hs : scaled p = (scaledMag p : Int) := by
    unfold scaled at *; split at h0 <;> split <;> first | rfl | omega | simp_all
  unfold unitScale at h1
  have hr : (ratOf p : ℝ) = (scaledMag p : ℝ) / 2 ^ 149 := by rw [ratOf_cast, hs, Int.cast_natCast]
  have hk : ∀ k : Int, Real.cos (Real.pi * ((k.natAbs : Nat) : ℝ) / 2 ^ 150) = Real.cos (Real.pi * (k : ℝ) / 2 ^ 150) := by
    intro k
    rcases Int.natAbs_eq k with h | h
    · rw [h]; simp
    · rw [h]; simp only [Int.natAbs_neg, Int.natAbs_natCast, Int.cast_neg, Int.cast_natCast]
      rw [show Real.pi * -(k.natAbs : ℝ) / 2 ^ 150 = -(Real.pi * k.natAbs / 2 ^ 150) by ring, Real.cos_neg]
  have key : Real.cos (Real.pi * ((((4 * scaledMag p : Nat) : Int) - (unitScale : Int) : Int) : ℝ) / 2 ^ 150) = Real.sin (2 * Real.pi * ratOf p) := by
    rw [← Real.cos_sub_pi_div_two, hr]
    congr 1
    unfold unitScale
    push_cast
    field_simp
    ring
  have e : crestAngle p = min ((4 * scaledMag p : Nat) - (unitScale : Int)).natAbs (2 ^ 151 - ((4 * scaledMag p : Nat) - (unitScale : Int)).natAbs) := rfl
  have hle : ((4 * scaledMag p : Nat) - (unitScale : Int)).natAbs ≤ 3 * 2 ^ 149 := by unfold unitScale; omega
  rcases le_or_gt ((4 * scaledMag p : Nat) - (unitScale : Int)).natAbs (2 ^ 150) with h | h
  · rw [e, min_eq_left (by omega)]
    exact ⟨h, (hk _).trans key⟩
  · rw [e, min_eq_right (by omega)]
    refine ⟨by omega, ?_⟩
    rw [Nat.cast_sub (by omega), ← key, ← hk]
    generalize ((4 * scaledMag p : Nat) - (unitScale : Int)).natAbs = k
    rw [Nat.cast_pow, Nat.cast_ofNat, show Real.pi * ((2 : ℝ) ^ 151 - (k : ℝ)) / 2 ^ 150 = 2 * Real.pi - Real.pi * k / 2 ^ 150 by
      rw [pow_succ]; field_simp, Real.cos_two_pi_sub]

/-- The exact comparison is the bound of R31 (b). -/
theorem sinWithin_iff {p : F32} (h0 : 0 ≤ scaled p) (h1 : scaledMag p < unitScale) (y : F32) :
    sinWithin p y = true ↔ |(ratOf y : ℝ) - Real.sin (2 * Real.pi * ratOf p)| ≤ 2 ^ (-16 : ℤ) := by
  obtain ⟨hj, hc⟩ := cos_crestAngle h0 h1
  unfold sinWithin
  rw [Bool.and_eq_true, leCos_iff _ _ _ hj, leCos_iff _ _ _ (by omega), hc, Nat.cast_sub hj]
  rw [show Real.pi * (((2 ^ 150 : Nat) : ℝ) - (crestAngle p : ℝ)) / 2 ^ 150 = Real.pi - Real.pi * crestAngle p / 2 ^ 150 by
    rw [Nat.cast_pow, Nat.cast_ofNat]; field_simp, Real.cos_pi_sub, hc, abs_le]
  push_cast
  norm_num
  constructor <;> rintro ⟨h1, h2⟩ <;> constructor <;> linarith

/-! ## The fixed-point exponential -/

theorem fix60_cast : ((fix60 : Nat) : ℝ) = 2 ^ 60 := by unfold fix60; rw [Nat.cast_pow, Nat.cast_ofNat]

/-- A quotient that is rounded down is less than one too small. -/
theorem natDiv_bounds (a b : Nat) (hb : 0 < b) : (a : ℝ) / b - 1 < ((a / b : Nat) : ℝ) ∧ ((a / b : Nat) : ℝ) ≤ (a : ℝ) / b := by
  have hb' : (0 : ℝ) < b := by exact_mod_cast hb
  refine ⟨?_, Nat.cast_div_le⟩
  have h : a < b * (a / b + 1) := Nat.lt_mul_div_succ a hb
  have : (a : ℝ) < b * ((a / b : Nat) + 1) := by exact_mod_cast h
  rw [sub_lt_iff_lt_add, div_lt_iff₀ hb']; linarith

/-- Each step of the Horner scheme loses less than one unit. -/
theorem expHorner_near {one t : Nat} (hF : (one : ℝ) = 2 ^ 60) (ht : t ≤ one) (k : Nat) : ∀ (acc : Nat) (A ε : ℝ), |(acc : ℝ) / 2 ^ 60 - A| ≤ ε →
    |(expHorner one t k acc : ℝ) / 2 ^ 60
      - (∑ i ∈ Finset.range k, ((t : ℝ) / 2 ^ 60) ^ i / i.factorial + ((t : ℝ) / 2 ^ 60) ^ k / k.factorial * A)|
      ≤ ε + k / 2 ^ 60 := by
  induction k with
  | zero => intro acc A ε h; simpa [expHorner] using h
  | succ k ih =>
    intro acc A ε h
    have hτ0 : (0 : ℝ) ≤ (t : ℝ) / 2 ^ 60 := by positivity
    have hτ1 : (t : ℝ) / 2 ^ 60 ≤ 1 := by
      rw [div_le_one (by positivity), ← hF]; exact_mod_cast ht
    have hε : 0 ≤ ε := le_trans (abs_nonneg _) h
    have hone : 0 < one := by
      have : (0 : ℝ) < one := by rw [hF]; positivity
      exact_mod_cast this
    have step : |((one + t * acc / ((k + 1) * one) : Nat) : ℝ) / 2 ^ 60 - (1 + (t : ℝ) / 2 ^ 60 / (k + 1) * A)| ≤ ε + 1 / 2 ^ 60 := by
      obtain ⟨q1, q2⟩ := natDiv_bounds (t * acc) ((k + 1) * one) (Nat.mul_pos (Nat.succ_pos k) hone)
      rw [Nat.cast_add, hF]
      generalize ((t * acc / ((k + 1) * one) : Nat) : ℝ) = q at *
      rw [Nat.cast_mul, Nat.cast_mul, hF] at q1 q2
      rw [Nat.cast_add, Nat.cast_one] at q1 q2
      have hk : (0 : ℝ) < (k : ℝ) + 1 := by positivity
      have e : (t : ℝ) * acc / (((k : ℝ) + 1) * 2 ^ 60) / 2 ^ 60 = (t : ℝ) / 2 ^ 60 / (k + 1) * (acc / 2 ^ 60) := by field_simp
      have hc1 : (t : ℝ) / 2 ^ 60 / (k + 1) ≤ 1 := by
        rw [div_le_one hk]; have : (0 : ℝ) ≤ k := by positivity
        linarith
      have hc0 : 0 ≤ (t : ℝ) / 2 ^ 60 / (k + 1) := by positivity
      have hd : |(t : ℝ) / 2 ^ 60 / (k + 1) * (acc / 2 ^ 60) - (t : ℝ) / 2 ^ 60 / (k + 1) * A| ≤ ε := by
        rw [← mul_sub, abs_mul, abs_of_nonneg hc0]
        calc _ ≤ 1 * ε := mul_le_mul hc1 h (abs_nonneg _) (by norm_num)
          _ = ε := one_mul ε
      rw [← e] at hd
      generalize (t : ℝ) * acc / (((k : ℝ) + 1) * 2 ^ 60) = g at *
      rw [abs_le] at hd ⊢
      have e2 : (2 ^ 60 + q) / (2 : ℝ) ^ 60 = 1 + q / 2 ^ 60 := by field_simp
      have e3 : g / 2 ^ 60 - 1 / 2 ^ 60 ≤ q / 2 ^ 60 := by rw [← sub_div]; gcongr
      have e4 : q / 2 ^ 60 ≤ g / (2 : ℝ) ^ 60 := by gcongr
      rw [e2]
      have : (0 : ℝ) ≤ 1 / 2 ^ 60 := by positivity
      constructor <;> linarith [hd.1, hd.2]
    have := ih _ _ _ step
    rw [expHorner]
    refine le_trans (le_of_eq ?_) (le_trans this (le_of_eq ?_))
    · congr 2
      rw [Finset.sum_range_succ, Nat.factorial_succ, pow_succ]
      push_cast
      field_simp
      ring
    · push_cast; ring

theorem ln2Fix_near : |(ln2Fix : ℝ) / 2 ^ 60 - Real.log 2| ≤ 3 / 10 ^ 10 := by
  have h1 := Real.log_two_gt_d9
  have h2 := Real.log_two_lt_d9
  unfold ln2Fix
  rw [abs_le]; constructor <;> norm_num <;> linarith

/-- The fixed-point 2^f is within 2^-30 of 2^φ for a φ that f is the 60-bit fixed-point value of. -/
theorem exp2Fix_near {f : Nat} {φ : ℝ} (h0 : 0 ≤ φ) (hf : f ≤ fix60) (hφ : |(f : ℝ) / 2 ^ 60 - φ| ≤ 1 / 2 ^ 60) :
    |(exp2Fix f : ℝ) / 2 ^ 60 - 2 ^ φ| ≤ 1 / 2 ^ 30 * 2 ^ φ := by
  have hF := fix60_cast
  have hF0 : 0 < fix60 := by unfold fix60; positivity
  set t := f * ln2Fix / fix60 with ht
  have htl : t ≤ ln2Fix := by
    rw [ht]; exact Nat.div_le_of_le_mul (by rw [Nat.mul_comm fix60]; rw [Nat.mul_comm]; exact Nat.mul_le_mul_left _ hf)
  have htF : t ≤ fix60 := htl.trans (by unfold ln2Fix fix60; norm_num)
  have hx1 : |(t : ℝ) / 2 ^ 60| ≤ 1 := by
    rw [abs_of_nonneg (by positivity), div_le_one (by positivity), ← hF]; exact_mod_cast htF
  have e1 : |(exp2Fix f : ℝ) / 2 ^ 60 - (∑ i ∈ Finset.range 21, ((t : ℝ) / 2 ^ 60) ^ i / i.factorial)| ≤ 20 / 2 ^ 60 := by
    have := expHorner_near hF htF 20 fix60 1 0 (by rw [hF]; norm_num)
    rw [Finset.sum_range_succ _ 20]
    unfold exp2Fix
    rw [mul_one, zero_add] at this
    exact_mod_cast this
  have e2 := Real.exp_bound hx1 (n := 21) (by norm_num)
  have e3 : |(t : ℝ) / 2 ^ 60| ^ 21 * (((21 : ℕ).succ : ℝ) / ((21 : ℕ).factorial * (21 : ℕ))) ≤ 1 / 2 ^ 60 := by
    calc _ ≤ 1 * (((21 : ℕ).succ : ℝ) / ((21 : ℕ).factorial * (21 : ℕ))) := by
          gcongr; exact pow_le_one₀ (abs_nonneg _) hx1
      _ ≤ _ := by norm_num [Nat.factorial]
  have hδ : |(t : ℝ) / 2 ^ 60 - φ * Real.log 2| ≤ 4 / 10 ^ 10 := by
    obtain ⟨q1, q2⟩ := natDiv_bounds (f * ln2Fix) fix60 hF0
    rw [← ht, Nat.cast_mul, hF] at q1 q2
    have hl := ln2Fix_near
    have hl2 : Real.log 2 ≤ 1 := by linarith [Real.log_two_lt_d9]
    have hl0 : 0 ≤ Real.log 2 := by linarith [Real.log_two_gt_d9]
    have hf1 : (f : ℝ) / 2 ^ 60 ≤ 1 := by rw [div_le_one (by positivity), ← hF]; exact_mod_cast hf
    have hf0 : (0 : ℝ) ≤ (f : ℝ) / 2 ^ 60 := by positivity
    have d1 : |(f : ℝ) / 2 ^ 60 * (ln2Fix / 2 ^ 60) - (f : ℝ) / 2 ^ 60 * Real.log 2| ≤ 3 / 10 ^ 10 := by
      rw [← mul_sub, abs_mul, abs_of_nonneg hf0]
      calc _ ≤ 1 * (3 / 10 ^ 10 : ℝ) := mul_le_mul hf1 hl (abs_nonneg _) (by norm_num)
        _ = _ := one_mul _
    have d2 : |(f : ℝ) / 2 ^ 60 * Real.log 2 - φ * Real.log 2| ≤ 1 / 2 ^ 60 := by
      rw [← sub_mul, abs_mul, abs_of_nonneg hl0]
      calc _ ≤ (1 / 2 ^ 60 : ℝ) * 1 := mul_le_mul hφ hl2 hl0 (by positivity)
        _ = _ := mul_one _
    have e : (f : ℝ) * ln2Fix / 2 ^ 60 / 2 ^ 60 = (f : ℝ) / 2 ^ 60 * (ln2Fix / 2 ^ 60) := by ring
    have q1' : (f : ℝ) * ln2Fix / 2 ^ 60 / 2 ^ 60 - 1 / 2 ^ 60 ≤ (t : ℝ) / 2 ^ 60 := by rw [← sub_div]; gcongr
    have q2' : (t : ℝ) / 2 ^ 60 ≤ (f : ℝ) * ln2Fix / 2 ^ 60 / 2 ^ 60 := by gcongr
    rw [e] at q1' q2'
    rw [abs_le] at d1 d2 ⊢
    constructor
    · have : (1 : ℝ) / 2 ^ 60 + 1 / 2 ^ 60 + 3 / 10 ^ 10 ≤ 4 / 10 ^ 10 := by norm_num
      linarith [d1.1, d2.1]
    · have : (1 : ℝ) / 2 ^ 60 + 1 / 2 ^ 60 + 3 / 10 ^ 10 ≤ 4 / 10 ^ 10 := by norm_num
      have : (0 : ℝ) ≤ 1 / 2 ^ 60 := by positivity
      linarith [d1.2, d2.2]
  have hpow : (2 : ℝ) ^ φ = Real.exp (φ * Real.log 2) := by rw [Real.rpow_def_of_pos (by norm_num), mul_comm]
  have hT : 1 ≤ (2 : ℝ) ^ φ := Real.one_le_rpow (by norm_num) h0
  have e4 : |Real.exp ((t : ℝ) / 2 ^ 60) - 2 ^ φ| ≤ 8 / 10 ^ 10 * 2 ^ φ := by
    rw [hpow, show Real.exp ((t : ℝ) / 2 ^ 60) - Real.exp (φ * Real.log 2)
      = (Real.exp ((t : ℝ) / 2 ^ 60 - φ * Real.log 2) - 1) * Real.exp (φ * Real.log 2) by
        rw [sub_mul, ← Real.exp_add]; ring_nf, abs_mul, abs_of_pos (Real.exp_pos _)]
    gcongr
    refine (Real.abs_exp_sub_one_le (hδ.trans (by norm_num))).trans ?_
    linarith
  have c : (20 : ℝ) / 2 ^ 60 + 1 / 2 ^ 60 + 8 / 10 ^ 10 * 2 ^ φ ≤ 1 / 2 ^ 30 * 2 ^ φ := by
    have : (21 : ℝ) / 2 ^ 60 ≤ (1 / 2 ^ 30 - 8 / 10 ^ 10) := by norm_num
    nlinarith
  have e2' := e2.trans e3
  rw [abs_le] at e1 e2' e4 ⊢
  constructor <;> linarith [e1.1, e1.2, e2'.1, e2'.2, e4.1, e4.2]

theorem ffloor_of_finite {x : F32} (hx : isFinite x = true) : ffloor x = scaled x / (unitScale : Int) := by
  unfold ffloor; rw [if_pos hx]

/-- The fixed-point 2^x is within 2^-30 of 2^x, as a ratio, on [−20, 20]. -/
theorem exp2Scaled_near {x : F32} (hx : isFinite x = true) (hr : |(ratOf x : ℝ)| ≤ 20) :
    |(exp2Scaled x : ℝ) / 2 ^ 149 - 2 ^ (ratOf x : ℝ)| ≤ 1 / 2 ^ 30 * 2 ^ (ratOf x : ℝ) := by
  have hU : ((unitScale : Nat) : ℝ) = 2 ^ 149 := by unfold unitScale; rw [Nat.cast_pow, Nat.cast_ofNat]
  have hU0 : 0 < unitScale := unitScale_pos
  unfold exp2Scaled
  rw [ffloor_of_finite hx]
  set n := scaled x / (unitScale : Int) with hn
  have hm : scaled x - n * unitScale = scaled x % (unitScale : Int) := by
    have := Int.emod_add_mul_ediv (scaled x) unitScale; rw [← hn] at this; linarith
  have hm0 : 0 ≤ scaled x % (unitScale : Int) := Int.emod_nonneg _ (by omega)
  have hm1 : scaled x % (unitScale : Int) < unitScale := Int.emod_lt_of_pos _ (by omega)
  obtain ⟨r, hrr⟩ := Int.eq_ofNat_of_zero_le hm0
  simp only []
  rw [hm, hrr]
  rw [hrr] at hm1 hm
  have hr1 : r < unitScale := by exact_mod_cast hm1
  have hxr : (ratOf x : ℝ) = n + r / 2 ^ 149 := by
    have : scaled x = n * unitScale + r := by linarith
    rw [ratOf_cast, this]; push_cast; rw [hU]; field_simp
  rw [ratOf_cast, abs_le, le_div_iff₀ (by positivity), div_le_iff₀ (by positivity)] at hr
  have hnge : -20 ≤ n := by
    rw [hn, Int.le_ediv_iff_mul_le (by omega)]
    have h := hr.1
    rw [← hU] at h
    exact_mod_cast h
  set φ : ℝ := (r : ℝ) / 2 ^ 149 with hφ
  have hφ1 : φ < 1 := by rw [hφ, div_lt_one (by positivity), ← hU]; exact_mod_cast hr1
  have hφ0 : 0 ≤ φ := by positivity
  obtain ⟨q1, q2⟩ := natDiv_bounds (r * fix60) unitScale hU0
  have hf : r * fix60 / unitScale ≤ fix60 :=
    Nat.div_le_of_le_mul (Nat.mul_le_mul_right _ hr1.le)
  rw [Nat.cast_mul, hU, fix60_cast] at q1 q2
  have key := exp2Fix_near hφ0 hf (by
    have e : (r : ℝ) * 2 ^ 60 / 2 ^ 149 / 2 ^ 60 = φ := by rw [hφ]; field_simp
    have a1 : (r : ℝ) * 2 ^ 60 / 2 ^ 149 / 2 ^ 60 - 1 / 2 ^ 60 ≤ ((r * fix60 / unitScale : Nat) : ℝ) / 2 ^ 60 := by
      rw [← sub_div]; gcongr
    have a2 : ((r * fix60 / unitScale : Nat) : ℝ) / 2 ^ 60 ≤ (r : ℝ) * 2 ^ 60 / 2 ^ 149 / 2 ^ 60 := by gcongr
    rw [e] at a1 a2
    have : (0 : ℝ) ≤ 1 / 2 ^ 60 := by positivity
    rw [abs_le]; constructor <;> linarith)
  rw [Int.toNat_natCast]
  generalize exp2Fix (r * fix60 / unitScale) = e at *
  have hpos : (0 : ℝ) < 2 ^ (n : ℝ) := two_rpow_pos _
  have hsplit : (2 : ℝ) ^ (ratOf x : ℝ) = 2 ^ (n : ℝ) * 2 ^ φ := by rw [hxr, Real.rpow_add (by norm_num)]
  have hsc : ((e * 2 ^ (n + 89).toNat : Nat) : ℝ) / 2 ^ 149 = 2 ^ (n : ℝ) * ((e : ℝ) / 2 ^ 60) := by
    have h89 : ((n + 89).toNat : Int) = n + 89 := Int.toNat_of_nonneg (by omega)
    have : ((2 : ℝ) ^ (n + 89).toNat) = 2 ^ (n : ℝ) * 2 ^ 89 := by
      rw [← Real.rpow_natCast, ← Real.rpow_natCast, ← Real.rpow_add (by norm_num)]
      congr 1
      have : (((n + 89).toNat : Int) : ℝ) = ((n + 89 : Int) : ℝ) := by rw [h89]
      push_cast at this ⊢
      exact this
    push_cast
    rw [this, show (2 : ℝ) ^ 149 = 2 ^ 89 * 2 ^ 60 by norm_num]
    field_simp
  rw [hsc, hsplit, ← mul_sub, abs_mul, abs_of_pos hpos]
  calc _ ≤ (2 : ℝ) ^ (n : ℝ) * (1 / 2 ^ 30 * 2 ^ φ) := by gcongr
    _ = _ := by ring

/-- The fixed-point comparison and the exact one together are the bound of R30 (b) and (c), no more and no less. -/
theorem exp2Admits_iff {x : F32} (hx : isFinite x = true) (hr : |(ratOf x : ℝ)| ≤ 20) (y : F32) :
    exp2Admits x y = true ↔ isFinite y = true ∧ (0 : ℝ) < ratOf y ∧
      |(ratOf y : ℝ) - 2 ^ (ratOf x : ℝ)| ≤ 2 ^ (-16 : ℤ) * 2 ^ (ratOf x : ℝ) := by
  have hT := two_rpow_pos (ratOf x : ℝ)
  have hnear := exp2Scaled_near hx hr
  have hw : 0 ≤ ratOf y → (exp2Within x y = true ↔ _) := exp2Within_iff (x := x)
  unfold exp2Admits
  simp only
  generalize (2 : ℝ) ^ (ratOf x : ℝ) = T at *
  generalize exp2Scaled x = a at *
  by_cases hfy : isFinite y = true
  swap
  · simp [hfy]
  by_cases hsy : fSign y = true
  · simp only [hsy, Bool.not_true, Bool.and_false, Bool.false_and, Bool.false_eq_true, false_iff, not_and]
    intro _ h0
    rw [ratOf_cast] at h0
    have : scaled y ≤ 0 := by unfold scaled; rw [if_pos hsy]; omega
    have : (scaled y : ℝ) ≤ 0 := by exact_mod_cast this
    have : (scaled y : ℝ) / 2 ^ 149 ≤ 0 := div_nonpos_of_nonpos_of_nonneg this (by positivity)
    linarith
  have hsy : fSign y = false := by simpa using hsy
  have hsc : scaled y = scaledMag y := by unfold scaled; rw [hsy]; simp
  have hy : (ratOf y : ℝ) = (scaledMag y : ℝ) / 2 ^ 149 := by rw [ratOf_cast, hsc, Int.cast_natCast]
  have hy0 : (0 : ℝ) ≤ ratOf y := by rw [hy]; positivity
  have hw' := hw (by exact_mod_cast hy0)
  simp only [hfy, hsy, Bool.not_false, Bool.and_true, Bool.true_and, true_and]
  have hb : |(ratOf y : ℝ) - T| ≤ 2 ^ (-16 : ℤ) * T → (0 : ℝ) < ratOf y := by
    intro h; rw [abs_le] at h; norm_num at h; linarith [h.1]
  rw [and_iff_right_of_imp hb]
  have herr : ((((scaledMag y : Int) - (a : Int)).natAbs : Nat) : ℝ) = |(ratOf y : ℝ) - a / 2 ^ 149| * 2 ^ 149 := by
    rw [Nat.cast_natAbs, hy, ← sub_div, abs_div, abs_of_pos (show (0 : ℝ) < 2 ^ 149 by positivity)]
    push_cast; field_simp
  have ha : (a : ℝ) = a / 2 ^ 149 * 2 ^ 149 := by field_simp
  split
  · next h =>
    simp only [true_iff]
    have h' : |(ratOf y : ℝ) - a / 2 ^ 149| * 2 ^ 149 * 2 ^ 28 ≤ ((a : ℝ) / 2 ^ 149 * 2 ^ 149) * (2 ^ 12 - 1) := by
      rw [← herr, ← ha]
      have := (Nat.cast_le (α := ℝ)).2 h
      push_cast at this
      linarith
    generalize (a : ℝ) / 2 ^ 149 = b at *
    have h2 : |(ratOf y : ℝ) - b| * 2 ^ 28 ≤ b * (2 ^ 12 - 1) := by nlinarith [show (0 : ℝ) < 2 ^ 149 by positivity]
    norm_num at h2 ⊢
    rw [abs_le] at hnear ⊢
    have h3 := abs_le.1 (le_refl |(ratOf y : ℝ) - b|)
    constructor <;> linarith [hnear.1, hnear.2, h3.1, h3.2]
  · split
    · next h =>
      simp only [Bool.false_eq_true, false_iff, not_le]
      have h' : ((a : ℝ) / 2 ^ 149 * 2 ^ 149) * (2 ^ 12 + 1) < |(ratOf y : ℝ) - a / 2 ^ 149| * 2 ^ 149 * 2 ^ 28 := by
        rw [← herr, ← ha]
        have := (Nat.cast_lt (α := ℝ)).2 h
        push_cast at this
        linarith
      generalize (a : ℝ) / 2 ^ 149 = b at *
      have h2 : b * (2 ^ 12 + 1) < |(ratOf y : ℝ) - b| * 2 ^ 28 := by nlinarith [show (0 : ℝ) < 2 ^ 149 by positivity]
      norm_num at h2 ⊢
      rw [abs_le] at hnear
      rcases le_total b (ratOf y : ℝ) with hc | hc
      · rw [abs_of_nonneg (by linarith)] at h2
        rw [lt_abs]; left; linarith [hnear.1, hnear.2]
      · rw [abs_of_nonpos (by linarith)] at h2
        rw [lt_abs]; right; linarith [hnear.1, hnear.2]
    · exact hw'

/-! ## The fixed-point sine -/

/-- The terms of the sine's Taylor series, without the first power. -/
theorem sinHorner_near {one t2 : Nat} {u : ℝ} (hF : (one : ℝ) = 2 ^ 60) (ht : t2 ≤ 6 * one) (hu0 : 0 ≤ u) (hu : u ≤ 6)
    (hd : |(t2 : ℝ) / 2 ^ 60 - u| ≤ 1 / 2 ^ 60) (k : Nat) : ∀ (acc : Nat) (A ε : ℝ), acc ≤ one →
    |(acc : ℝ) / 2 ^ 60 - A| ≤ ε →
    |(sinHorner one t2 k acc : ℝ) / 2 ^ 60
      - (∑ i ∈ Finset.range k, (-1) ^ i * u ^ i / (2 * i + 1).factorial + (-1) ^ k * u ^ k / (2 * k + 1).factorial * A)|
      ≤ ε + 2 * k / 2 ^ 60 := by
  induction k with
  | zero => intro acc A ε _ h; simpa [sinHorner] using h
  | succ k ih =>
    intro acc A ε hacc h
    have hε : 0 ≤ ε := le_trans (abs_nonneg _) h
    have hone : 0 < one := by
      have : (0 : ℝ) < one := by rw [hF]; positivity
      exact_mod_cast this
    obtain ⟨D, hD⟩ : ∃ D, D = (2 * k + 2) * (2 * k + 3) := ⟨_, rfl⟩
    have hD6 : 6 ≤ D := by rw [hD]; nlinarith
    have hDr : (6 : ℝ) ≤ D := by exact_mod_cast hD6
    have hq : t2 * acc / (D * one) ≤ one := by
      apply Nat.div_le_of_le_mul
      calc t2 * acc ≤ 6 * one * one := Nat.mul_le_mul ht hacc
        _ ≤ D * one * one := by gcongr
    have hacc1 : (acc : ℝ) / 2 ^ 60 ≤ 1 := by rw [div_le_one (by positivity), ← hF]; exact_mod_cast hacc
    have step : |((one - t2 * acc / (D * one) : Nat) : ℝ) / 2 ^ 60 - (1 - u / D * A)| ≤ ε + 2 / 2 ^ 60 := by
      obtain ⟨q1, q2⟩ := natDiv_bounds (t2 * acc) (D * one) (Nat.mul_pos (by omega) hone)
      rw [Nat.cast_sub hq, hF]
      generalize ((t2 * acc / (D * one) : Nat) : ℝ) = q at *
      rw [Nat.cast_mul, Nat.cast_mul, hF] at q1 q2
      have hDp : (0 : ℝ) < D := by linarith
      have e : (t2 : ℝ) * acc / ((D : ℝ) * 2 ^ 60) / 2 ^ 60 = (t2 : ℝ) / 2 ^ 60 / D * (acc / 2 ^ 60) := by field_simp
      have d1 : |(t2 : ℝ) / 2 ^ 60 / D * ((acc : ℝ) / 2 ^ 60) - u / D * ((acc : ℝ) / 2 ^ 60)| ≤ 1 / 2 ^ 60 := by
        rw [← sub_mul, ← sub_div, abs_mul, abs_div, abs_of_pos hDp, abs_of_nonneg (show (0 : ℝ) ≤ (acc : ℝ) / 2 ^ 60 by positivity)]
        calc _ ≤ |(t2 : ℝ) / 2 ^ 60 - u| / 1 * 1 := by gcongr; linarith
          _ ≤ _ := by simpa using hd
      have d2 : |u / D * ((acc : ℝ) / 2 ^ 60) - u / D * A| ≤ ε := by
        rw [← mul_sub, abs_mul, abs_of_nonneg (div_nonneg hu0 hDp.le)]
        calc _ ≤ 1 * ε := mul_le_mul (by rw [div_le_one hDp]; linarith) h (abs_nonneg _) (by norm_num)
          _ = ε := one_mul ε
      rw [← e] at d1
      generalize (t2 : ℝ) * acc / ((D : ℝ) * 2 ^ 60) = g at *
      have e2 : (2 ^ 60 - q) / (2 : ℝ) ^ 60 = 1 - q / 2 ^ 60 := by field_simp
      have e3 : g / 2 ^ 60 - 1 / 2 ^ 60 ≤ q / 2 ^ 60 := by rw [← sub_div]; gcongr
      have e4 : q / 2 ^ 60 ≤ g / (2 : ℝ) ^ 60 := by gcongr
      rw [e2, show (2 : ℝ) / 2 ^ 60 = 1 / 2 ^ 60 + 1 / 2 ^ 60 by ring]
      rw [abs_le] at d1 d2 ⊢
      have : (0 : ℝ) ≤ 1 / 2 ^ 60 := by positivity
      constructor <;> linarith [d1.1, d1.2, d2.1, d2.2]
    have hfac : ((2 * (k + 1) + 1).factorial : ℝ) = D * (2 * k + 1).factorial := by
      have : (2 * (k + 1) + 1).factorial = D * (2 * k + 1).factorial := by
        rw [hD, show 2 * (k + 1) + 1 = (2 * k + 1) + 1 + 1 by ring, Nat.factorial_succ, Nat.factorial_succ]; ring
      exact_mod_cast this
    have := ih _ _ _ (Nat.sub_le _ _) step
    rw [sinHorner, ← hD]
    refine le_trans (le_of_eq ?_) (le_trans this (le_of_eq ?_))
    · congr 2
      rw [Finset.sum_range_succ, hfac, pow_succ, pow_succ]
      have hf : ((2 * k + 1).factorial : ℝ) ≠ 0 := by positivity
      generalize ((2 * k + 1).factorial : ℝ) = w at *
      have : (D : ℝ) ≠ 0 := by positivity
      field_simp
      ring
    · push_cast; ring

/-- The Taylor polynomial of the sine. -/
theorem sin_taylor {τ : ℝ} (h0 : 0 ≤ τ) (h1 : τ ≤ 2) :
    |Real.sin τ - ∑ i ∈ Finset.range 13, (-1) ^ i * τ ^ (2 * i + 1) / (2 * i + 1).factorial| ≤ 1 / 2 ^ 60 := by
  have hs := (hasSum_nat_add_iff' 13).2 (Real.hasSum_sin τ)
  have hg : HasSum (fun n : ℕ => (2 : ℝ) ^ 27 / ((27 : ℕ).factorial : ℝ) * (1 / 2) ^ n) ((2 : ℝ) ^ 27 / ((27 : ℕ).factorial : ℝ) * 2) :=
    hasSum_geometric_two.mul_left _
  have := hs.norm_le_of_bounded hg fun n => by
    rw [Real.norm_eq_abs, abs_div, abs_mul, abs_pow, abs_neg, abs_one, one_pow, one_mul, abs_of_nonneg (pow_nonneg h0 _),
      abs_of_pos (by positivity)]
    have f1 : (27 : ℕ).factorial * 28 ^ (2 * n) ≤ (2 * (n + 13) + 1).factorial := by
      rw [show 2 * (n + 13) + 1 = 27 + 2 * n by ring]; exact Nat.factorial_mul_pow_le_factorial
    have f2 : ((27 : ℕ).factorial : ℝ) * 28 ^ (2 * n) ≤ (2 * (n + 13) + 1).factorial := by exact_mod_cast f1
    have hf : (0 : ℝ) < (27 : ℕ).factorial := by positivity
    refine (div_le_div₀ (by positivity) (pow_le_pow_left₀ h0 h1 _) (by positivity) f2).trans ?_
    generalize ((27 : ℕ).factorial : ℝ) = c at *
    rw [show 2 * (n + 13) + 1 = 2 * n + 27 by ring, pow_add, pow_mul, pow_mul, mul_comm ((2 ^ 2 : ℝ) ^ n), mul_div_mul_comm, ← div_pow]
    exact mul_le_mul_of_nonneg_left (pow_le_pow_left₀ (by norm_num) (by norm_num) n) (by positivity)
  rw [Real.norm_eq_abs] at this
  refine this.trans ?_
  norm_num [Nat.factorial]

theorem halfPiFix_near : |(halfPiFix : ℝ) / 2 ^ 60 - Real.pi / 2| ≤ 1 / 2 ^ 59 := by
  have h1 := Real.pi_gt_d20
  have h2 := Real.pi_lt_d20
  unfold halfPiFix
  rw [abs_le]; constructor <;> norm_num <;> linarith

/-- The fixed-point sine of a quarter period. -/
theorem quarterSine_near {r : Nat} {ρ : ℝ} (hr : r ≤ fix60) (hρ : |(r : ℝ) / 2 ^ 60 - ρ| ≤ 1 / 2 ^ 60) :
    |(quarterSine r : ℝ) / 2 ^ 60 - Real.sin (Real.pi / 2 * ρ)| ≤ 1 / 2 ^ 50 ∧ quarterSine r ≤ fix60 := by
  have hF := fix60_cast
  have hF0 : 0 < fix60 := by unfold fix60; positivity
  refine ⟨?_, min_le_left _ _⟩
  obtain ⟨q1, q2⟩ := natDiv_bounds (r * halfPiFix) fix60 hF0
  have hH : (halfPiFix : ℝ) / 2 ^ 60 ≤ 1.6 := by unfold halfPiFix; norm_num
  have hH0 : (0 : ℝ) ≤ (halfPiFix : ℝ) / 2 ^ 60 := by positivity
  have hr1 : (r : ℝ) / 2 ^ 60 ≤ 1 := by rw [div_le_one (by positivity), ← hF]; exact_mod_cast hr
  have hr0 : (0 : ℝ) ≤ (r : ℝ) / 2 ^ 60 := by positivity
  unfold quarterSine
  simp only
  generalize r * halfPiFix / fix60 = t at *
  rw [Nat.cast_mul, hF] at q1 q2
  have e : (r : ℝ) * halfPiFix / 2 ^ 60 / 2 ^ 60 = (r : ℝ) / 2 ^ 60 * (halfPiFix / 2 ^ 60) := by ring
  have a1 : (r : ℝ) * halfPiFix / 2 ^ 60 / 2 ^ 60 - 1 / 2 ^ 60 ≤ (t : ℝ) / 2 ^ 60 := by rw [← sub_div]; gcongr
  have a2 : (t : ℝ) / 2 ^ 60 ≤ (r : ℝ) * halfPiFix / 2 ^ 60 / 2 ^ 60 := by gcongr
  rw [e] at a1 a2
  set τ := (t : ℝ) / 2 ^ 60 with hτ
  have hτ0 : 0 ≤ τ := by positivity
  have hτ1 : τ ≤ 1.6 := a2.trans ((mul_le_mul hr1 hH hH0 (by norm_num)).trans (by norm_num))
  have hang : |τ - Real.pi / 2 * ρ| ≤ 8 / 2 ^ 60 := by
    have h := halfPiFix_near
    have d1 : |(r : ℝ) / 2 ^ 60 * (halfPiFix / 2 ^ 60) - (r : ℝ) / 2 ^ 60 * (Real.pi / 2)| ≤ 1 / 2 ^ 59 := by
      rw [← mul_sub, abs_mul, abs_of_nonneg hr0]
      calc _ ≤ 1 * (1 / 2 ^ 59 : ℝ) := mul_le_mul hr1 h (abs_nonneg _) (by norm_num)
        _ = _ := one_mul _
    have hpi2 : Real.pi / 2 ≤ 2 := by linarith [Real.pi_lt_d20]
    have hpi0 : 0 ≤ Real.pi / 2 := by linarith [Real.pi_pos]
    have d2 : |(r : ℝ) / 2 ^ 60 * (Real.pi / 2) - ρ * (Real.pi / 2)| ≤ 2 / 2 ^ 60 := by
      rw [← sub_mul, abs_mul, abs_of_nonneg hpi0]
      calc _ ≤ (1 / 2 ^ 60 : ℝ) * 2 := mul_le_mul hρ hpi2 hpi0 (by positivity)
        _ = _ := by ring
    rw [abs_le] at d1 d2 ⊢
    constructor <;> linarith [d1.1, d1.2, d2.1, d2.2]
  have hsinang : |Real.sin τ - Real.sin (Real.pi / 2 * ρ)| ≤ 8 / 2 ^ 60 := (Real.abs_sin_sub_sin_le _ _).trans hang
  have htt : (t : ℝ) = τ * 2 ^ 60 := by rw [hτ]; field_simp
  obtain ⟨s1, s2⟩ := natDiv_bounds (t * t) fix60 hF0
  rw [Nat.cast_mul, hF] at s1 s2
  have hsq : (t : ℝ) * t / 2 ^ 60 / 2 ^ 60 = τ ^ 2 := by rw [htt]; field_simp
  have b1 : (t : ℝ) * t / 2 ^ 60 / 2 ^ 60 - 1 / 2 ^ 60 ≤ ((t * t / fix60 : Nat) : ℝ) / 2 ^ 60 := by rw [← sub_div]; gcongr
  have b2 : ((t * t / fix60 : Nat) : ℝ) / 2 ^ 60 ≤ (t : ℝ) * t / 2 ^ 60 / 2 ^ 60 := by gcongr
  rw [hsq] at b1 b2
  have hτsq : τ ^ 2 ≤ 6 := by nlinarith
  have ht2 : t * t / fix60 ≤ 6 * fix60 := by
    have h : ((t * t / fix60 : Nat) : ℝ) / 2 ^ 60 ≤ 6 := b2.trans hτsq
    rw [div_le_iff₀ (by positivity), ← hF] at h
    exact_mod_cast h
  have hp := sinHorner_near hF ht2 (sq_nonneg τ) hτsq (by
    have : (0 : ℝ) ≤ 1 / 2 ^ 60 := by positivity
    rw [abs_le]; constructor <;> linarith) 12 fix60 1 0 le_rfl (by rw [hF]; norm_num)
  generalize sinHorner fix60 (t * t / fix60) 12 fix60 = S at *
  rw [mul_one, zero_add, ← Finset.sum_range_succ (fun i => (-1 : ℝ) ^ i * (τ ^ 2) ^ i / (2 * i + 1).factorial)] at hp
  have hpoly : τ * (∑ i ∈ Finset.range 13, (-1 : ℝ) ^ i * (τ ^ 2) ^ i / (2 * i + 1).factorial)
      = ∑ i ∈ Finset.range 13, (-1) ^ i * τ ^ (2 * i + 1) / (2 * i + 1).factorial := by
    rw [Finset.mul_sum]
    refine Finset.sum_congr rfl fun i _ => ?_
    rw [← pow_mul]; ring
  have hprod : |τ * ((S : ℝ) / 2 ^ 60) - ∑ i ∈ Finset.range 13, (-1) ^ i * τ ^ (2 * i + 1) / (2 * i + 1).factorial| ≤ 48 / 2 ^ 60 := by
    rw [← hpoly, ← mul_sub, abs_mul, abs_of_nonneg hτ0]
    calc _ ≤ (2 : ℝ) * (2 * (12 : ℕ) / 2 ^ 60) := mul_le_mul (by linarith) hp (abs_nonneg _) (by norm_num)
      _ = _ := by norm_num
  have htay := sin_taylor hτ0 (by linarith)
  obtain ⟨v1, v2⟩ := natDiv_bounds (t * S) fix60 hF0
  generalize t * S / fix60 = v at *
  rw [Nat.cast_mul, hF, htt] at v1 v2
  have ev : τ * 2 ^ 60 * (S : ℝ) / 2 ^ 60 / 2 ^ 60 = τ * (S / 2 ^ 60) := by field_simp
  have c1 : τ * 2 ^ 60 * (S : ℝ) / 2 ^ 60 / 2 ^ 60 - 1 / 2 ^ 60 ≤ (v : ℝ) / 2 ^ 60 := by rw [← sub_div]; gcongr
  have c2 : (v : ℝ) / 2 ^ 60 ≤ τ * 2 ^ 60 * (S : ℝ) / 2 ^ 60 / 2 ^ 60 := by gcongr
  rw [ev] at c1 c2
  have hv : |(v : ℝ) / 2 ^ 60 - Real.sin (Real.pi / 2 * ρ)| ≤ 1 / 2 ^ 50 := by
    have : (48 : ℝ) / 2 ^ 60 + 1 / 2 ^ 60 + 1 / 2 ^ 60 + 8 / 2 ^ 60 ≤ 1 / 2 ^ 50 := by norm_num
    rw [abs_le] at hprod htay hsinang ⊢
    have : (0 : ℝ) ≤ 1 / 2 ^ 60 := by positivity
    constructor <;> linarith [hprod.1, hprod.2, htay.1, htay.2, hsinang.1, hsinang.2]
  have hs1 := Real.sin_le_one (Real.pi / 2 * ρ)
  rcases le_total fix60 v with h | h
  · rw [min_eq_left h, hF, div_self (by positivity), abs_of_nonneg (by linarith)]
    have : (1 : ℝ) ≤ (v : ℝ) / 2 ^ 60 := by rw [le_div_iff₀ (by positivity), one_mul, ← hF]; exact_mod_cast h
    linarith [(abs_le.1 hv).2]
  · rw [min_eq_right h]; exact hv

/-- The fixed-point sine of a quarter period is at most 1. -/
theorem quarterSine_le (r : Nat) : quarterSine r ≤ fix60 := Nat.min_le_left _ _

/-- The fixed-point sine of any quarter period is in [−1, 1]. -/
theorem sinQuadrant_le (k r : Nat) : (sinQuadrant k r).natAbs ≤ fix60 := by
  have h1 := quarterSine_le r
  have h2 := quarterSine_le (fix60 - r)
  unfold sinQuadrant
  split
  · rw [Int.natAbs_natCast]; exact h1
  · rw [Int.natAbs_natCast]; exact h2
  · rw [Int.natAbs_neg, Int.natAbs_natCast]; exact h1
  · rw [Int.natAbs_neg, Int.natAbs_natCast]; exact h2

/-- The fixed-point sine is in [−1, 1]. -/
theorem sinFix_le (p : F32) : (sinFix p).natAbs ≤ fix60 := sinQuadrant_le _ _

/-- The fixed-point sin(2πp) is within 2^-50 of it. -/
theorem sinFix_near {p : F32} (h0 : 0 ≤ scaled p) (h1 : scaledMag p < unitScale) :
    |(sinFix p : ℝ) / 2 ^ 60 - Real.sin (2 * Real.pi * ratOf p)| ≤ 1 / 2 ^ 50 := by
  have hs : scaled p = (scaledMag p : Int) := by
    unfold scaled at *; split at h0 <;> split <;> first | rfl | omega | simp_all
  have hU : ((unitScale : Nat) : ℝ) = 2 ^ 149 := by unfold unitScale; rw [Nat.cast_pow, Nat.cast_ofNat]
  have hU0 := unitScale_pos
  have hF := fix60_cast
  obtain ⟨q, hq⟩ : ∃ q, q = 4 * scaledMag p := ⟨_, rfl⟩
  have hq4 : q / unitScale < 4 := by rw [Nat.div_lt_iff_lt_mul hU0]; omega
  have hdm := Nat.div_add_mod q unitScale
  have hml := Nat.mod_lt q hU0
  rw [sinFix, ← hq]
  generalize q / unitScale = k at *
  generalize q % unitScale = m at *
  obtain ⟨r1, r2⟩ := natDiv_bounds (m * fix60) unitScale hU0
  have hr : m * fix60 / unitScale ≤ fix60 := Nat.div_le_of_le_mul (Nat.mul_le_mul_right _ hml.le)
  generalize m * fix60 / unitScale = r at *
  rw [Nat.cast_mul, hU, hF] at r1 r2
  set ρ : ℝ := (m : ℝ) / 2 ^ 149 with hρ
  have hρr : |(r : ℝ) / 2 ^ 60 - ρ| ≤ 1 / 2 ^ 60 := by
    have e : (m : ℝ) * 2 ^ 60 / 2 ^ 149 / 2 ^ 60 = ρ := by rw [hρ]; field_simp
    have a1 : (m : ℝ) * 2 ^ 60 / 2 ^ 149 / 2 ^ 60 - 1 / 2 ^ 60 ≤ (r : ℝ) / 2 ^ 60 := by rw [← sub_div]; gcongr
    have a2 : (r : ℝ) / 2 ^ 60 ≤ (m : ℝ) * 2 ^ 60 / 2 ^ 149 / 2 ^ 60 := by gcongr
    rw [e] at a1 a2
    have : (0 : ℝ) ≤ 1 / 2 ^ 60 := by positivity
    rw [abs_le]; constructor <;> linarith
  have hρr' : |((fix60 - r : Nat) : ℝ) / 2 ^ 60 - (1 - ρ)| ≤ 1 / 2 ^ 60 := by
    rw [Nat.cast_sub hr, hF, show ((2 : ℝ) ^ 60 - r) / 2 ^ 60 - (1 - ρ) = -((r : ℝ) / 2 ^ 60 - ρ) by field_simp; ring, abs_neg]
    exact hρr
  have n1 := (quarterSine_near hr hρr).1
  have n2 := (quarterSine_near (Nat.sub_le fix60 r) hρr').1
  have hang : 2 * Real.pi * (ratOf p : ℝ) = Real.pi / 2 * (k : ℝ) + Real.pi / 2 * ρ := by
    have hqr : (q : ℝ) = 4 * scaledMag p := by rw [hq]; push_cast; rfl
    have hdm' : (2 : ℝ) ^ 149 * (k : ℝ) + m = q := by rw [← hU]; exact_mod_cast hdm
    rw [ratOf_cast, hs, Int.cast_natCast, hρ]
    rw [hqr] at hdm'
    have : (scaledMag p : ℝ) = (2 ^ 149 * (k : ℝ) + m) / 4 := by rw [hdm']; ring
    rw [this]; field_simp; ring
  have hcompl : Real.sin (Real.pi / 2 * (1 - ρ)) = Real.cos (Real.pi / 2 * ρ) := by
    rw [mul_sub, mul_one, Real.sin_pi_div_two_sub]
  rw [hcompl] at n2
  unfold sinQuadrant
  interval_cases k
  · rw [hang]; simpa using n1
  · rw [hang, Nat.cast_one, mul_one, add_comm, Real.sin_add_pi_div_two]; simpa using n2
  · rw [hang, Nat.cast_ofNat, show Real.pi / 2 * 2 + Real.pi / 2 * ρ = Real.pi / 2 * ρ + Real.pi by ring, Real.sin_add_pi]
    push_cast
    rw [neg_div, sub_neg_eq_add, neg_add_eq_sub, abs_sub_comm]; exact n1
  · rw [hang, Nat.cast_ofNat, show Real.pi / 2 * 3 + Real.pi / 2 * ρ = Real.pi / 2 * ρ + Real.pi / 2 + Real.pi by ring,
      Real.sin_add_pi, Real.sin_add_pi_div_two]
    push_cast
    rw [neg_div, sub_neg_eq_add, neg_add_eq_sub, abs_sub_comm]; exact n2

/-- The fixed-point comparison and the exact one together are the bound of R31 (b) and (c), no more and no less. -/
theorem sinAdmits_iff {p : F32} (h0 : 0 ≤ scaled p) (h1 : scaledMag p < unitScale) (y : F32) :
    sinAdmits p y = true ↔ isFinite y = true ∧ |(ratOf y : ℝ)| ≤ 1 ∧
      |(ratOf y : ℝ) - Real.sin (2 * Real.pi * ratOf p)| ≤ 2 ^ (-16 : ℤ) := by
  have hnear := sinFix_near h0 h1
  have hw := sinWithin_iff h0 h1 y
  have hU : ((unitScale : Nat) : ℝ) = 2 ^ 149 := by unfold unitScale; rw [Nat.cast_pow, Nat.cast_ofNat]
  have hmag : scaledMag y ≤ unitScale ↔ |(ratOf y : ℝ)| ≤ 1 := by
    rw [ratOf_cast, abs_div, abs_of_pos (show (0 : ℝ) < 2 ^ 149 by positivity), div_le_one (by positivity), ← hU]
    have : |(scaled y : ℝ)| = (scaledMag y : ℝ) := by unfold scaled; split <;> simp
    rw [this]; exact_mod_cast Iff.rfl
  unfold sinAdmits
  simp only
  generalize Real.sin (2 * Real.pi * ratOf p) = T at *
  generalize sinFix p = a at *
  rw [Bool.and_eq_true, Bool.and_eq_true, decide_eq_true_eq, and_assoc, hmag]
  refine and_congr_right fun _ => and_congr_right fun _ => ?_
  have herr : (((scaled y - a * 2 ^ 89).natAbs : Nat) : ℝ) = |(ratOf y : ℝ) - a / 2 ^ 60| * 2 ^ 149 := by
    rw [Nat.cast_natAbs, ratOf_cast, show (a : ℝ) / 2 ^ 60 = a * 2 ^ 89 / 2 ^ 149 by
      rw [show (2 : ℝ) ^ 149 = 2 ^ 89 * 2 ^ 60 by norm_num]; field_simp, ← sub_div, abs_div, abs_of_pos (show (0 : ℝ) < 2 ^ 149 by positivity)]
    rw [Int.cast_abs, Int.cast_sub, Int.cast_mul, Int.cast_pow, Int.cast_ofNat]; field_simp
  generalize (scaled y - a * 2 ^ 89).natAbs = err at *
  generalize (a : ℝ) / 2 ^ 60 = b at *
  rw [abs_le] at hnear
  have h3 := abs_le.1 (le_refl |(ratOf y : ℝ) - b|)
  split
  · next h =>
    simp only [true_iff]
    have h' : |(ratOf y : ℝ) - b| * 2 ^ 149 ≤ 2 ^ 133 - 2 ^ 121 := by
      rw [← herr]
      have := (Nat.cast_le (α := ℝ)).2 h
      norm_num at this ⊢
      linarith
    norm_num at h' hnear ⊢
    rw [abs_le]
    constructor <;> linarith [hnear.1, hnear.2, h3.1, h3.2]
  · split
    · next h =>
      simp only [Bool.false_eq_true, false_iff, not_le]
      have h' : 2 ^ 133 + 2 ^ 121 < |(ratOf y : ℝ) - b| * 2 ^ 149 := by
        rw [← herr]
        have := (Nat.cast_lt (α := ℝ)).2 h
        norm_num at this ⊢
        linarith
      norm_num at h' hnear ⊢
      rcases le_total b (ratOf y : ℝ) with hc | hc
      · rw [abs_of_nonneg (by linarith)] at h'
        rw [lt_abs]; left; linarith [hnear.1, hnear.2]
      · rw [abs_of_nonpos (by linarith)] at h'
        rw [lt_abs]; right; linarith [hnear.1, hnear.2]
    · exact hw

/-! ## The values where no free value is admitted -/

/-- Rounding moves a value by at most the 2^24th part of it. -/
theorem roundMag_near {n : Nat} (hn : n < 2 ^ 200) :
    roundMag n 1 < 0x7F800000 ∧ |(magOf (roundMag n 1) : ℝ) - n| * 2 ^ 24 ≤ n := by
  rcases Nat.lt_or_ge n (2 ^ 24) with hs | hs
  · have hm : magOf n = n := by unfold magOf; split <;> (try rw [show n / 2 ^ 23 - 1 = 0 by omega]) <;> omega
    have := roundMag_magOf (m := n) (den := 1) (by omega) (by omega)
    rw [hm, Nat.mul_one] at this
    rw [this, hm]; exact ⟨by omega, by simp⟩
  · have hl0 : 2 ^ Nat.log2 n ≤ n := Nat.log2_self_le (by omega)
    have hl : 24 ≤ Nat.log2 n := (Nat.le_log2 (by omega)).2 hs
    have hl1 : Nat.log2 n < 200 := (Nat.log2_lt (by omega)).2 hn
    have hsh : roundShift n 1 = Nat.log2 n - 23 := by unfold roundShift; rw [Nat.div_one]
    have hq1 := roundQuot_lt (num := n) (den := 1)
    have hq2 := roundQuot_ge (num := n) (den := 1) (by omega)
    have hge := le_roundHalfEven (a := n) (step := 1 * 2 ^ roundShift n 1)
    have hle := roundHalfEven_le (a := n) (step := 1 * 2 ^ roundShift n 1)
    rw [roundMag_def]
    have hstep : 2 ^ roundShift n 1 * 2 ^ 23 ≤ n := by
      rw [← pow_add, hsh, Nat.sub_add_cancel (by omega)]; exact hl0
    generalize roundShift n 1 = k at *
    rw [Nat.one_mul] at *
    have hhalf : |(roundHalfEven n (2 ^ k) : ℝ) * 2 ^ k - n| * 2 ≤ 2 ^ k := by
      have hd := Nat.div_add_mod n (2 ^ k)
      have hr := Nat.mod_lt n (show 0 < 2 ^ k by positivity)
      have e : (n : ℝ) = 2 ^ k * ((n / 2 ^ k : Nat) : ℝ) + ((n % 2 ^ k : Nat) : ℝ) := by exact_mod_cast hd.symm
      unfold roundHalfEven
      generalize n / 2 ^ k = q at *
      generalize n % 2 ^ k = r at *
      split
      · next h =>
        have h2 : (2 : ℝ) ^ k ≤ 2 * r := by exact_mod_cast (by omega : 2 ^ k ≤ 2 * r)
        have h3 : (r : ℝ) ≤ 2 ^ k := by exact_mod_cast hr.le
        rw [e, abs_of_nonneg (by push_cast; linarith)]; push_cast; linarith
      · next h =>
        have h2 : 2 * (r : ℝ) ≤ 2 ^ k := by exact_mod_cast (by omega : 2 * r ≤ 2 ^ k)
        rw [e, abs_of_nonpos (by nlinarith [show (0 : ℝ) ≤ r by positivity])]; linarith
    generalize roundHalfEven n (2 ^ k) = q at *
    have hqr : 2 ^ 23 ≤ q ∧ q ≤ 2 ^ 24 := by omega
    have hmag : magOf (k * 2 ^ 23 + q) = q * 2 ^ k := by
      unfold magOf
      rcases Nat.lt_or_ge q (2 ^ 24) with h | h
      · rw [show (k * 2 ^ 23 + q) / 2 ^ 23 = k + 1 by omega, show (k * 2 ^ 23 + q) % 2 ^ 23 = q - 2 ^ 23 by omega, if_neg (by omega)]
        rw [show 2 ^ 23 + (q - 2 ^ 23) = q by omega]; rfl
      · obtain rfl : q = 2 ^ 24 := by omega
        rw [show (k * 2 ^ 23 + 2 ^ 24) / 2 ^ 23 = k + 2 by omega, show (k * 2 ^ 23 + 2 ^ 24) % 2 ^ 23 = 0 by omega, if_neg (by omega)]
        rw [show k + 2 - 1 = k + 1 by omega, pow_succ]; ring
    have hlt : k * 2 ^ 23 + q < 0x7F800000 := by
      have hk : k ≤ 176 := by omega
      have hq := hqr.2
      clear * - hk hq
      omega
    rw [Nat.min_eq_left hlt.le]
    refine ⟨hlt, ?_⟩
    rw [hmag]
    push_cast
    have hs' : (2 : ℝ) ^ k * 2 ^ 23 ≤ n := by exact_mod_cast hstep
    nlinarith

/-- The value of a rounded magnitude. -/
theorem ratOf_packSign {neg : Bool} {n : Nat} (hn : n < 2 ^ 200) :
    isFinite (packSign neg (roundMag n 1)) = true ∧
      (ratOf (packSign neg (roundMag n 1)) : ℝ) = (if neg then -1 else 1) * (magOf (roundMag n 1) : ℝ) / 2 ^ 149 := by
  have hr := (roundMag_near hn).1
  refine ⟨isFinite_of_mag_lt (by rw [packSign_mag hr.le]; exact hr), ?_⟩
  rw [ratOf_cast]
  unfold scaled
  rw [packSign_sign hr.le, scaledMag_eq, packSign_mag hr.le]
  cases neg <;> simp

/-- The rounded fixed-point 2^x keeps R30 (b) and (c). -/
theorem exp2Fallback {x : F32} (hx : isFinite x = true) (hr : |(ratOf x : ℝ)| ≤ 20) :
    exp2Admits x (packSign false (roundMag (exp2Scaled x) 1)) = true := by
  rw [exp2Admits_iff hx hr]
  have hT := two_rpow_pos (ratOf x : ℝ)
  have hnear := exp2Scaled_near hx hr
  have hTle : (2 : ℝ) ^ (ratOf x : ℝ) ≤ 2 ^ 20 := by
    rw [← Real.rpow_natCast]; exact Real.rpow_le_rpow_of_exponent_le (by norm_num) (by have := (abs_le.1 hr).2; push_cast; exact this)
  generalize (2 : ℝ) ^ (ratOf x : ℝ) = T at *
  generalize exp2Scaled x = a at *
  have ha : (a : ℝ) / 2 ^ 149 ≤ 2 ^ 21 := by have := (abs_le.1 hnear).2; norm_num at *; linarith
  have ha' : a < 2 ^ 200 := by
    rw [div_le_iff₀ (by positivity)] at ha
    have : (a : ℝ) < 2 ^ 200 := lt_of_le_of_lt ha (by norm_num)
    exact_mod_cast this
  obtain ⟨hf, hv⟩ := ratOf_packSign (neg := false) ha'
  have hm := (roundMag_near ha').2
  simp only [Bool.false_eq_true, if_false, one_mul] at hv
  have hb : |(ratOf (packSign false (roundMag a 1)) : ℝ) - T| ≤ 2 ^ (-16 : ℤ) * T := by
    have hm' : |(magOf (roundMag a 1) : ℝ) / 2 ^ 149 - (a : ℝ) / 2 ^ 149| * 2 ^ 24 ≤ (a : ℝ) / 2 ^ 149 := by
      rw [← sub_div, abs_div, abs_of_pos (show (0 : ℝ) < 2 ^ 149 by positivity), div_mul_eq_mul_div]
      gcongr
    rw [hv]
    generalize (magOf (roundMag a 1) : ℝ) / 2 ^ 149 = v at *
    generalize (a : ℝ) / 2 ^ 149 = b at *
    have h3 := abs_le.1 (le_refl |v - b|)
    rw [abs_le] at hnear ⊢
    norm_num at hm' hnear ⊢
    constructor <;> linarith [hnear.1, hnear.2, h3.1, h3.2]
  refine ⟨hf, ?_, hb⟩
  rw [abs_le] at hb; norm_num at hb; linarith [hb.1]

/-- The rounded fixed-point sine keeps R31 (b) and (c). -/
theorem sinFallback {p : F32} (h0 : 0 ≤ scaled p) (h1 : scaledMag p < unitScale) :
    sinAdmits p (packSign (decide (sinFix p < 0)) (roundMag ((sinFix p).natAbs * 2 ^ 89) 1)) = true := by
  rw [sinAdmits_iff h0 h1]
  have hnear := sinFix_near h0 h1
  have hb := sinFix_le p
  generalize Real.sin (2 * Real.pi * ratOf p) = T at *
  generalize sinFix p = a at *
  have hF := fix60_cast
  have hn : a.natAbs * 2 ^ 89 ≤ 2 ^ 149 := by
    calc _ ≤ 2 ^ 60 * 2 ^ 89 := Nat.mul_le_mul_right _ hb
      _ = _ := by norm_num
  have hn' : a.natAbs * 2 ^ 89 < 2 ^ 200 := lt_of_le_of_lt hn (by norm_num)
  obtain ⟨hf, hv⟩ := ratOf_packSign (neg := decide (a < 0)) hn'
  have hm := (roundMag_near hn').2
  have ha : (a : ℝ) / 2 ^ 60 = (if decide (a < 0) = true then -1 else 1) * ((a.natAbs * 2 ^ 89 : Nat) : ℝ) / 2 ^ 149 := by
    rw [Nat.cast_mul, Nat.cast_pow, Nat.cast_ofNat, show (2 : ℝ) ^ 149 = 2 ^ 89 * 2 ^ 60 by norm_num]
    by_cases h : a < 0
    · have : (a : ℝ) = -(a.natAbs : ℝ) := by rw [Nat.cast_natAbs, abs_of_neg h]; push_cast; ring
      rw [if_pos (decide_eq_true h), this]; field_simp
    · have : (a : ℝ) = (a.natAbs : ℝ) := by rw [Nat.cast_natAbs, abs_of_nonneg (by omega)]
      rw [if_neg (by simpa using h), this]; field_simp
  have hmono : magOf (roundMag (a.natAbs * 2 ^ 89) 1) ≤ 2 ^ 149 := by
    have h2 := roundMag_mono (den := 1) hn
    have h3 : roundMag (2 ^ 149) 1 = 0x3F800000 := by decide +kernel
    have hx : scaledMag (BitVec.ofNat 32 (roundMag (a.natAbs * 2 ^ 89) 1)) ≤ scaledMag (0x3F800000 : F32) := by
      have hlt : roundMag (a.natAbs * 2 ^ 89) 1 < 2 ^ 32 := by omega
      rw [scaledMag_le_iff]
      · have h1 : (0x3F800000 : F32).toNat = 0x3F800000 := by decide
        rw [BitVec.toNat_ofNat, Nat.mod_eq_of_lt hlt, h1]; omega
      · apply isFinite_of_mag_lt; simp only [BitVec.toNat_ofNat, Nat.mod_eq_of_lt hlt]; omega
      · decide
    have h4 : scaledMag (0x3F800000 : F32) = 2 ^ 149 := by decide +kernel
    rw [h4, scaledMag_eq, BitVec.toNat_ofNat, Nat.mod_eq_of_lt (by omega), Nat.mod_eq_of_lt (by omega)] at hx
    exact hx
  have hmono' : (magOf (roundMag (a.natAbs * 2 ^ 89) 1) : ℝ) ≤ 2 ^ 149 := by exact_mod_cast hmono
  have hn2 : ((a.natAbs * 2 ^ 89 : Nat) : ℝ) ≤ 2 ^ 149 := by exact_mod_cast hn
  rw [ha] at hnear
  rw [hv]
  refine ⟨hf, ?_, ?_⟩
  · rw [abs_div, abs_mul, abs_of_pos (show (0 : ℝ) < 2 ^ 149 by positivity), div_le_one (by positivity), Nat.abs_cast]
    split
    · rw [abs_neg, abs_one, one_mul]; exact hmono'
    · rw [abs_one, one_mul]; exact hmono'
  · generalize (magOf (roundMag (a.natAbs * 2 ^ 89) 1) : ℝ) = v at *
    generalize ((a.natAbs * 2 ^ 89 : Nat) : ℝ) = b at *
    have h3 := abs_le.1 (le_refl |v - b|)
    have h4 : |v - b| ≤ 2 ^ 125 := by
      have : |v - b| * 2 ^ 24 ≤ 2 ^ 149 := hm.trans hn2
      norm_num at this ⊢; linarith
    rw [abs_le] at hnear ⊢
    split at hnear <;> split <;> simp_all <;> norm_num at * <;> constructor <;> linarith [hnear.1, hnear.2, h3.1, h3.2]

end Sys2Proof.Machine
end

