-- ==== Sys2Proof/Laws/Config.lean ====
section
/-! SUPPORT. The constraints on a legal parameter instance, one by one (00_scope.md R9). -/

namespace Sys2Proof.Config

open Machine

/-- What `Params.legal` says, as named facts. -/
structure Params.Legal (c : Params) : Prop where
  tableSize_pow : c.tableSize = 2 ^ Nat.log2 c.tableSize
  tableSize_ge : 4 ≤ c.tableSize
  tableSize_le : c.tableSize ≤ 2 ^ 16
  numFrames_pos : 1 ≤ c.numFrames
  numFrames_le : c.numFrames ≤ 256
  mipLevels_pos : 1 ≤ c.mipLevels
  mipLevels_pow : 2 ^ (c.mipLevels - 1) ≤ c.tableSize
  numBanks_pos : 1 ≤ c.numBanks
  numBanks_le : c.numBanks ≤ 16
  stageMax_ge : 2 ≤ c.stageMax
  stageMax_lt : c.stageMax < 2 ^ 32
  mipT0_pos : isPositive c.mipT0 = true
  harmMax_le : c.harmMax ≤ 64
  tEps_pos : isPositive c.tEps = true
  nVoices_pos : 1 ≤ c.nVoices
  nVoices_le : c.nVoices ≤ 32
  nStack_pos : 1 ≤ c.nStack
  nStack_le : c.nStack ≤ 4
  ageEps_pos : isPositive c.ageEps = true
  glideSnap_pos : isPositive c.glideSnap = true
  chords_nonempty : c.chordTable.all (fun l => !l.isEmpty) = true
  chords_major : c.chordTable.head? = some [0, 4, 7]
  chords_le : c.chordTable.length ≤ 256
  nGrains_pos : 1 ≤ c.nGrains
  nGrains_le : c.nGrains ≤ 32
  gqDepth_pos : 1 ≤ c.gqDepth
  gqDepth_le : c.gqDepth ≤ 64
  granK_finite : isFinite c.granK = true
  granK_nonneg : fle 0x00000000 c.granK = true
  granJspan_unit : inRange 0x00000000 0x3F800000 c.granJspan = true
  srcMax_ge : 2 ≤ c.srcMax
  srcMax_lt : c.srcMax < 2 ^ 32
  srcRate_range : inRange 0x3F800000 0x49742400 c.defaultSrcRate = true
  seed_ne : c.rngSeedReset ≠ 0
  lMin_lt : c.lMin + 1 ≤ c.ringCap
  ringCap_lt : c.ringCap < 2 ^ 32
  lMin_le : c.lMin ≤ c.loopMax
  loopMax_lt : c.loopMax < c.ringCap
  maxSpd_finite : isFinite c.maxSpdMax = true
  maxSpd_ge : fle 0x3F800000 c.maxSpdMax = true
  lMin_speed : fle (fmul 0x40000000 c.maxSpdMax) (toF32 c.lMin) = true
  exitFade_pos : isPositive c.exitFade = true
  dlyCap_ge : 2 ≤ c.dlyCap
  dlyCap_lt : c.dlyCap < 2 ^ 32
  nComb_pos : 1 ≤ c.nComb
  nComb_le : c.nComb ≤ 16
  combLen_range : c.combLen.all (fun l => decide (1 ≤ l) && decide (l + 1 ≤ c.dlyCap)) = true
  fbMax_finite : isFinite c.fbMax = true
  fbMax_nonneg : fle 0x00000000 c.fbMax = true
  fbMax_lt : flt c.fbMax 0x3F800000 = true
  pulseS_pos : isPositive c.pulseS = true
  fC4_pos : isPositive c.fC4 = true
  inDiv_pos : isPositive c.inDiv = true
  outMul_pos : isPositive c.outMul = true
  gateTh_finite : isFinite c.gateTh = true
  trigV_finite : isFinite c.trigV = true
  inMax_pos : isPositive c.inMax = true
  srMin_pos : isPositive c.srMin = true
  srMax_finite : isFinite c.srMax = true
  srMin_lt : flt c.srMin c.srMax = true
  srReset_range : inRange c.srMin c.srMax c.srReset = true
  respDepth_pos : 1 ≤ c.respDepth

theorem Params.legal_facts {c : Params} (h : c.legal = true) : c.Legal := by
  simp only [Params.legal, Bool.and_eq_true, decide_eq_true_eq] at h
  obtain ⟨⟨⟨⟨⟨⟨⟨⟨⟨⟨⟨⟨⟨⟨⟨⟨⟨⟨⟨⟨⟨⟨⟨⟨⟨⟨⟨⟨⟨⟨⟨⟨⟨⟨⟨⟨⟨⟨⟨⟨⟨⟨⟨⟨⟨⟨⟨⟨⟨⟨⟨⟨⟨⟨⟨⟨⟨⟨⟨⟨⟨tableSize_pow, tableSize_ge⟩, tableSize_le⟩,
    numFrames_pos⟩, numFrames_le⟩, mipLevels_pos⟩, mipLevels_pow⟩, numBanks_pos⟩, numBanks_le⟩, stageMax_ge⟩,
    stageMax_lt⟩, mipT0_pos⟩, harmMax_le⟩, tEps_pos⟩, nVoices_pos⟩, nVoices_le⟩, nStack_pos⟩, nStack_le⟩, ageEps_pos⟩,
    glideSnap_pos⟩, chords_nonempty⟩, chords_major⟩, chords_le⟩, nGrains_pos⟩, nGrains_le⟩, gqDepth_pos⟩, gqDepth_le⟩,
    granK_finite⟩, granK_nonneg⟩, granJspan_unit⟩, srcMax_ge⟩, srcMax_lt⟩, srcRate_range⟩, seed_ne⟩, lMin_lt⟩,
    ringCap_lt⟩, lMin_le⟩, loopMax_lt⟩, maxSpd_finite⟩, maxSpd_ge⟩, lMin_speed⟩, exitFade_pos⟩, dlyCap_ge⟩, dlyCap_lt⟩,
    nComb_pos⟩, nComb_le⟩, combLen_range⟩, fbMax_finite⟩, fbMax_nonneg⟩, fbMax_lt⟩, pulseS_pos⟩, fC4_pos⟩, inDiv_pos⟩,
    outMul_pos⟩, gateTh_finite⟩, trigV_finite⟩, inMax_pos⟩, srMin_pos⟩, srMax_finite⟩, srMin_lt⟩, srReset_range⟩,
    respDepth_pos⟩ := h
  constructor <;> assumption

end Sys2Proof.Config
end

