-- ==== Sys2Proof/Laws/Encoding.lean ====
section
/-! SUPPORT. Fields of a command word as numbers, and what the decoder answers (30_encoding.md R300 to R304). -/

namespace Sys2Proof

/-! ## A command word is its four fields -/

theorem append_toNat {m n : Nat} (a : BitVec m) (b : BitVec n) : (a ++ b).toNat = a.toNat * 2 ^ n + b.toNat := by
  rw [BitVec.toNat_append, ← Nat.shiftLeft_add_eq_or_of_lt b.isLt, Nat.shiftLeft_eq]

/-- `word = OP·2^26 + UNIT·2^22 + REG·2^14 + IMM` (30_encoding.md R300). -/
theorem commandWord_toNat (op : BitVec 6) (u : BitVec 4) (r : BitVec 8) (i : BitVec 14) :
    (commandWord op u r i).toNat = op.toNat * 2 ^ 26 + u.toNat * 2 ^ 22 + r.toNat * 2 ^ 14 + i.toNat := by
  unfold commandWord
  rw [append_toNat, append_toNat, append_toNat]
  omega

theorem opField_toNat (w : Word) : (opField w).toNat = w.toNat / 2 ^ 26 % 2 ^ 6 := by
  unfold opField; rw [BitVec.extractLsb'_toNat, Nat.shiftRight_eq_div_pow]
theorem unitField_toNat (w : Word) : (unitField w).toNat = w.toNat / 2 ^ 22 % 2 ^ 4 := by
  unfold unitField; rw [BitVec.extractLsb'_toNat, Nat.shiftRight_eq_div_pow]
theorem regField_toNat (w : Word) : (regField w).toNat = w.toNat / 2 ^ 14 % 2 ^ 8 := by
  unfold regField; rw [BitVec.extractLsb'_toNat, Nat.shiftRight_eq_div_pow]
theorem immField_toNat (w : Word) : (immField w).toNat = w.toNat % 2 ^ 14 := by
  unfold immField; rw [BitVec.extractLsb'_toNat, Nat.shiftRight_eq_div_pow]; simp
theorem noteField_toNat (w : Word) : (noteField w).toNat = w.toNat % 2 ^ 7 := by
  unfold noteField; rw [BitVec.extractLsb'_toNat, Nat.shiftRight_eq_div_pow]; simp
theorem noteHighField_toNat (w : Word) : (noteHighField w).toNat = w.toNat / 2 ^ 7 % 2 ^ 7 := by
  unfold noteHighField; rw [BitVec.extractLsb'_toNat, Nat.shiftRight_eq_div_pow]

@[simp] theorem opField_commandWord (op : BitVec 6) (u : BitVec 4) (r : BitVec 8) (i : BitVec 14) :
    opField (commandWord op u r i) = op := by
  apply BitVec.eq_of_toNat_eq
  rw [opField_toNat, commandWord_toNat]
  have := op.isLt; have := u.isLt; have := r.isLt; have := i.isLt
  omega
@[simp] theorem unitField_commandWord (op : BitVec 6) (u : BitVec 4) (r : BitVec 8) (i : BitVec 14) :
    unitField (commandWord op u r i) = u := by
  apply BitVec.eq_of_toNat_eq
  rw [unitField_toNat, commandWord_toNat]
  have := op.isLt; have := u.isLt; have := r.isLt; have := i.isLt
  omega
@[simp] theorem regField_commandWord (op : BitVec 6) (u : BitVec 4) (r : BitVec 8) (i : BitVec 14) :
    regField (commandWord op u r i) = r := by
  apply BitVec.eq_of_toNat_eq
  rw [regField_toNat, commandWord_toNat]
  have := op.isLt; have := u.isLt; have := r.isLt; have := i.isLt
  omega
@[simp] theorem immField_commandWord (op : BitVec 6) (u : BitVec 4) (r : BitVec 8) (i : BitVec 14) :
    immField (commandWord op u r i) = i := by
  apply BitVec.eq_of_toNat_eq
  rw [immField_toNat, commandWord_toNat]
  have := op.isLt; have := u.isLt; have := r.isLt; have := i.isLt
  omega
@[simp] theorem noteField_commandWord (op : BitVec 6) (u : BitVec 4) (r : BitVec 8) (n : BitVec 7) :
    noteField (commandWord op u r (n.setWidth 14)) = n := by
  apply BitVec.eq_of_toNat_eq
  rw [noteField_toNat, commandWord_toNat, BitVec.toNat_setWidth]
  have := n.isLt
  omega
@[simp] theorem noteHighField_commandWord (op : BitVec 6) (u : BitVec 4) (r : BitVec 8) (n : BitVec 7) :
    noteHighField (commandWord op u r (n.setWidth 14)) = 0 := by
  apply BitVec.eq_of_toNat_eq
  rw [noteHighField_toNat, commandWord_toNat, BitVec.toNat_setWidth]
  have := n.isLt
  show _ = 0
  omega

/-- Every word is the command word of its fields. -/
theorem commandWord_fields (w : Word) : commandWord (opField w) (unitField w) (regField w) (immField w) = w := by
  apply BitVec.eq_of_toNat_eq
  rw [commandWord_toNat, opField_toNat, unitField_toNat, regField_toNat, immField_toNat]
  have := w.isLt
  omega

/-- The note field with a zero high part is the immediate. -/
theorem immField_of_noteHigh {w : Word} (h : noteHighField w = 0) : immField w = (noteField w).setWidth 14 := by
  have h' : (noteHighField w).toNat = 0 := by rw [h]; rfl
  rw [noteHighField_toNat] at h'
  apply BitVec.eq_of_toNat_eq
  rw [immField_toNat, BitVec.toNat_setWidth, noteField_toNat]
  omega

/-- A mask applies field by field. -/
theorem and_commandWord (a a' : BitVec 6) (b b' : BitVec 4) (c c' : BitVec 8) (d d' : BitVec 14) :
    commandWord a b c d &&& commandWord a' b' c' d' = commandWord (a &&& a') (b &&& b') (c &&& c') (d &&& d') := by
  unfold commandWord
  simp only [← BitVec.and_append]

/-- A command word has one set of fields. -/
theorem commandWord_inj {a a' : BitVec 6} {b b' : BitVec 4} {c c' : BitVec 8} {d d' : BitVec 14} :
    commandWord a b c d = commandWord a' b' c' d' ↔ a = a' ∧ b = b' ∧ c = c' ∧ d = d' := by
  constructor
  · intro h
    have h1 := congrArg opField h
    have h2 := congrArg unitField h
    have h3 := congrArg regField h
    have h4 := congrArg immField h
    simp at h1 h2 h3 h4
    exact ⟨h1, h2, h3, h4⟩
  · rintro ⟨rfl, rfl, rfl, rfl⟩; rfl

/-- `(word AND mask) = match`, field by field (30_encoding.md R304). -/
theorem match_iff (w bits mask : Word) : (w &&& mask = bits) ↔
    (opField w &&& opField mask = opField bits ∧ unitField w &&& unitField mask = unitField bits ∧
      regField w &&& regField mask = regField bits ∧ immField w &&& immField mask = immField bits) := by
  rw [← commandWord_inj, ← and_commandWord, commandWord_fields, commandWord_fields, commandWord_fields]

/-- The mask of the high part of a MIDI-note immediate. -/
theorem noteHigh_iff (w : Word) : immField w &&& 0x3F80#14 = 0 ↔ noteHighField w = 0 := by
  constructor
  · intro h
    apply BitVec.eq_of_getLsbD_eq
    intro i hi
    have := congrArg (fun x => x.getLsbD (i + 7)) h
    simp [immField] at this
    have h2 : (16256#14).getLsbD (i+7) = true := by
      rcases (by omega : i = 0 ∨ i = 1 ∨ i = 2 ∨ i = 3 ∨ i = 4 ∨ i = 5 ∨ i = 6) with rfl|rfl|rfl|rfl|rfl|rfl|rfl <;> rfl
    simp [h2] at this
    simp [noteHighField, hi, Nat.add_comm 7 i]
    exact this (by omega)
  · intro h
    rw [immField_of_noteHigh h]
    apply BitVec.eq_of_getLsbD_eq
    intro i hi
    simp
    by_cases h7 : i < 7
    · rcases (by omega : i = 0 ∨ i = 1 ∨ i = 2 ∨ i = 3 ∨ i = 4 ∨ i = 5 ∨ i = 6) with rfl|rfl|rfl|rfl|rfl|rfl|rfl <;> intros <;> rfl
    · intro h1 h2; simp [BitVec.getLsbD_of_ge _ _ (Nat.le_of_not_lt h7)] at h2

/-! ## The decoder -/

theorem checkFixed_ok {b : Bool} {i j : Instr} (h : checkFixed b i = .ok j) : b = true ∧ j = i := by
  unfold checkFixed at h
  cases b
  · simp at h
  · simp at h; exact ⟨rfl, h.symm⟩

theorem decodeCommand_ok {cfg : Config.Params} {w d : Word} {i : Instr} (h : decodeCommand cfg w d = .ok i) :
    decodeRow w d = .ok i ∧ i.wellFormed cfg = true := by
  unfold decodeCommand at h
  split at h
  · cases h
  · split at h
    · next hr hw => cases h; exact ⟨hr, hw⟩
    · cases h

theorem decodeCommand_of_row {cfg : Config.Params} {w d : Word} {i : Instr} (h : decodeRow w d = .ok i)
    (hw : i.wellFormed cfg = true) : decodeCommand cfg w d = .ok i := by
  unfold decodeCommand; rw [h]; simp [hw]

theorem commandLength_eq (w : Word) : commandLength w = 1 ∨ commandLength w = 2 := by
  unfold commandLength; split <;> simp

theorem commandLength_pos (w : Word) : 0 < commandLength w := by rcases commandLength_eq w with h | h <;> omega

theorem bareFields_iff {w : Word} {u : BitVec 4} :
    bareFields w u = true ↔ unitField w = u ∧ regField w = 0 ∧ immField w = 0 := by
  simp [bareFields, and_assoc]

/-! ## Bytes of a word -/

theorem word_of_bytes (w : Word) :
    (w.extractLsb' 24 8 ++ w.extractLsb' 16 8 ++ w.extractLsb' 8 8 ++ w.extractLsb' 0 8 : BitVec 32) = w := by
  apply BitVec.eq_of_toNat_eq
  rw [append_toNat, append_toNat, append_toNat]
  simp only [BitVec.extractLsb'_toNat, Nat.shiftRight_eq_div_pow]
  have := w.isLt
  omega

/-- The bytes of words are those words again. -/
theorem wordsOfBytes_bytesOfWords (ws : List Word) : wordsOfBytes (ws.flatMap bytesOfWord) = ws := by
  induction ws with
  | nil => rfl
  | cons w ws ih =>
    rw [List.flatMap_cons]
    show (w.extractLsb' 24 8 ++ w.extractLsb' 16 8 ++ w.extractLsb' 8 8 ++ w.extractLsb' 0 8 : BitVec 32)
      :: wordsOfBytes (ws.flatMap bytesOfWord) = w :: ws
    rw [word_of_bytes, ih]

end Sys2Proof
end

