-- ==== Sys2Proof/Laws/State.lean ====
section
/-! SUPPORT. One lemma per field per update of the state, so that no later proof unfolds a record update. -/

namespace Sys2Proof.Machine

variable (s : State)

/-! ## Events -/

@[simp] theorem State.raise_cfg (e : Event) : (s.raise e).cfg = s.cfg := rfl
@[simp] theorem State.raise_osc (e : Event) : (s.raise e).osc = s.osc := rfl
@[simp] theorem State.raise_wt (e : Event) : (s.raise e).wt = s.wt := rfl
@[simp] theorem State.raise_env (e : Event) : (s.raise e).env = s.env := rfl
@[simp] theorem State.raise_vpool (e : Event) : (s.raise e).vpool = s.vpool := rfl
@[simp] theorem State.raise_gran (e : Event) : (s.raise e).gran = s.gran := rfl
@[simp] theorem State.raise_loop (e : Event) : (s.raise e).loop = s.loop := rfl
@[simp] theorem State.raise_dly (e : Event) : (s.raise e).dly = s.dly := rfl
@[simp] theorem State.raise_arp (e : Event) : (s.raise e).arp = s.arp := rfl
@[simp] theorem State.raise_mem (e : Event) : (s.raise e).mem = s.mem := rfl
@[simp] theorem State.raise_portA (e : Event) : (s.raise e).portA = s.portA := rfl
@[simp] theorem State.raise_portL (e : Event) : (s.raise e).portL = s.portL := rfl
@[simp] theorem State.raise_sched (e : Event) : (s.raise e).sched = s.sched := rfl
@[simp] theorem State.raise_serving (e : Event) : (s.raise e).serving = s.serving := rfl

@[simp] theorem State.raise_status (e : Event) : (s.raise e).global.status = raiseBit e s.global.status := rfl
@[simp] theorem State.raise_sampleRate (e : Event) : (s.raise e).global.sampleRate = s.global.sampleRate := rfl
@[simp] theorem State.raise_dt (e : Event) : (s.raise e).global.dt = s.global.dt := rfl
@[simp] theorem State.raise_tickCount (e : Event) : (s.raise e).global.tickCount = s.global.tickCount := rfl

/-! ## Ports -/

@[simp] theorem PortId.other_other (p : PortId) : p.other.other = p := by cases p <;> rfl
theorem PortId.other_ne (p : PortId) : p.other ≠ p := by cases p <;> decide
theorem PortId.ne_other (p : PortId) : p ≠ p.other := by cases p <;> decide

@[simp] theorem State.setPort_cfg (p : PortId) (q : Port) : (s.setPort p q).cfg = s.cfg := by cases p <;> rfl
@[simp] theorem State.setPort_global (p : PortId) (q : Port) : (s.setPort p q).global = s.global := by cases p <;> rfl
@[simp] theorem State.setPort_osc (p : PortId) (q : Port) : (s.setPort p q).osc = s.osc := by cases p <;> rfl
@[simp] theorem State.setPort_wt (p : PortId) (q : Port) : (s.setPort p q).wt = s.wt := by cases p <;> rfl
@[simp] theorem State.setPort_env (p : PortId) (q : Port) : (s.setPort p q).env = s.env := by cases p <;> rfl
@[simp] theorem State.setPort_vpool (p : PortId) (q : Port) : (s.setPort p q).vpool = s.vpool := by cases p <;> rfl
@[simp] theorem State.setPort_gran (p : PortId) (q : Port) : (s.setPort p q).gran = s.gran := by cases p <;> rfl
@[simp] theorem State.setPort_loop (p : PortId) (q : Port) : (s.setPort p q).loop = s.loop := by cases p <;> rfl
@[simp] theorem State.setPort_dly (p : PortId) (q : Port) : (s.setPort p q).dly = s.dly := by cases p <;> rfl
@[simp] theorem State.setPort_arp (p : PortId) (q : Port) : (s.setPort p q).arp = s.arp := by cases p <;> rfl
@[simp] theorem State.setPort_mem (p : PortId) (q : Port) : (s.setPort p q).mem = s.mem := by cases p <;> rfl
@[simp] theorem State.setPort_sched (p : PortId) (q : Port) : (s.setPort p q).sched = s.sched := by cases p <;> rfl
@[simp] theorem State.setPort_serving (p : PortId) (q : Port) : (s.setPort p q).serving = s.serving := by cases p <;> rfl

@[simp] theorem State.port_setPort (p : PortId) (q : Port) : (s.setPort p q).port p = q := by cases p <;> rfl
@[simp] theorem State.port_other_setPort (p : PortId) (q : Port) : (s.setPort p q).port p.other = s.port p.other := by
  cases p <;> rfl
theorem State.port_setPort_of_ne {p r : PortId} (q : Port) (h : r ≠ p) : (s.setPort p q).port r = s.port r := by
  cases p <;> cases r <;> first | rfl | exact absurd rfl h
/-- Setting a port changes the two port fields only. -/
theorem State.setPort_eq (p : PortId) (q : Port) :
    s.setPort p q = { s with portA := (s.setPort p q).portA, portL := (s.setPort p q).portL } := by cases p <;> rfl

@[simp] theorem State.retire_cfg (n : Nat) : (s.retire n).cfg = s.cfg := State.setPort_cfg _ _ _
@[simp] theorem State.retire_global (n : Nat) : (s.retire n).global = s.global := State.setPort_global _ _ _
@[simp] theorem State.retire_osc (n : Nat) : (s.retire n).osc = s.osc := State.setPort_osc _ _ _
@[simp] theorem State.retire_wt (n : Nat) : (s.retire n).wt = s.wt := State.setPort_wt _ _ _
@[simp] theorem State.retire_env (n : Nat) : (s.retire n).env = s.env := State.setPort_env _ _ _
@[simp] theorem State.retire_vpool (n : Nat) : (s.retire n).vpool = s.vpool := State.setPort_vpool _ _ _
@[simp] theorem State.retire_gran (n : Nat) : (s.retire n).gran = s.gran := State.setPort_gran _ _ _
@[simp] theorem State.retire_loop (n : Nat) : (s.retire n).loop = s.loop := State.setPort_loop _ _ _
@[simp] theorem State.retire_dly (n : Nat) : (s.retire n).dly = s.dly := State.setPort_dly _ _ _
@[simp] theorem State.retire_arp (n : Nat) : (s.retire n).arp = s.arp := State.setPort_arp _ _ _
@[simp] theorem State.retire_mem (n : Nat) : (s.retire n).mem = s.mem := State.setPort_mem _ _ _
@[simp] theorem State.retire_sched (n : Nat) : (s.retire n).sched = s.sched := State.setPort_sched _ _ _
@[simp] theorem State.retire_serving (n : Nat) : (s.retire n).serving = s.serving := State.setPort_serving _ _ _

@[simp] theorem State.respond_cfg (w : Word) : (s.respond w).cfg = s.cfg := State.setPort_cfg _ _ _
@[simp] theorem State.respond_global (w : Word) : (s.respond w).global = s.global := State.setPort_global _ _ _
@[simp] theorem State.respond_osc (w : Word) : (s.respond w).osc = s.osc := State.setPort_osc _ _ _
@[simp] theorem State.respond_wt (w : Word) : (s.respond w).wt = s.wt := State.setPort_wt _ _ _
@[simp] theorem State.respond_env (w : Word) : (s.respond w).env = s.env := State.setPort_env _ _ _
@[simp] theorem State.respond_vpool (w : Word) : (s.respond w).vpool = s.vpool := State.setPort_vpool _ _ _
@[simp] theorem State.respond_gran (w : Word) : (s.respond w).gran = s.gran := State.setPort_gran _ _ _
@[simp] theorem State.respond_loop (w : Word) : (s.respond w).loop = s.loop := State.setPort_loop _ _ _
@[simp] theorem State.respond_dly (w : Word) : (s.respond w).dly = s.dly := State.setPort_dly _ _ _
@[simp] theorem State.respond_arp (w : Word) : (s.respond w).arp = s.arp := State.setPort_arp _ _ _
@[simp] theorem State.respond_mem (w : Word) : (s.respond w).mem = s.mem := State.setPort_mem _ _ _
@[simp] theorem State.respond_sched (w : Word) : (s.respond w).sched = s.sched := State.setPort_sched _ _ _
@[simp] theorem State.respond_serving (w : Word) : (s.respond w).serving = s.serving := State.setPort_serving _ _ _

@[simp] theorem State.holdTick_cfg (k : Nat) : (s.holdTick k).cfg = s.cfg := State.setPort_cfg _ _ _
@[simp] theorem State.holdTick_global (k : Nat) : (s.holdTick k).global = s.global := State.setPort_global _ _ _
@[simp] theorem State.holdTick_osc (k : Nat) : (s.holdTick k).osc = s.osc := State.setPort_osc _ _ _
@[simp] theorem State.holdTick_wt (k : Nat) : (s.holdTick k).wt = s.wt := State.setPort_wt _ _ _
@[simp] theorem State.holdTick_env (k : Nat) : (s.holdTick k).env = s.env := State.setPort_env _ _ _
@[simp] theorem State.holdTick_vpool (k : Nat) : (s.holdTick k).vpool = s.vpool := State.setPort_vpool _ _ _
@[simp] theorem State.holdTick_gran (k : Nat) : (s.holdTick k).gran = s.gran := State.setPort_gran _ _ _
@[simp] theorem State.holdTick_loop (k : Nat) : (s.holdTick k).loop = s.loop := State.setPort_loop _ _ _
@[simp] theorem State.holdTick_dly (k : Nat) : (s.holdTick k).dly = s.dly := State.setPort_dly _ _ _
@[simp] theorem State.holdTick_arp (k : Nat) : (s.holdTick k).arp = s.arp := State.setPort_arp _ _ _
@[simp] theorem State.holdTick_mem (k : Nat) : (s.holdTick k).mem = s.mem := State.setPort_mem _ _ _
@[simp] theorem State.holdTick_sched (k : Nat) : (s.holdTick k).sched = s.sched := State.setPort_sched _ _ _
@[simp] theorem State.holdTick_serving (k : Nat) : (s.holdTick k).serving = s.serving := State.setPort_serving _ _ _

@[simp] theorem State.port_retire (n : Nat) : (s.retire n).port s.serving = (s.port s.serving).retire n := by
  simp [State.retire]
@[simp] theorem State.port_other_retire (n : Nat) : (s.retire n).port s.serving.other = s.port s.serving.other := by
  simp [State.retire]
@[simp] theorem State.port_respond (w : Word) :
    (s.respond w).port s.serving = { s.port s.serving with resp := (s.port s.serving).resp ++ [w] } := by
  simp [State.respond]
@[simp] theorem State.port_other_respond (w : Word) : (s.respond w).port s.serving.other = s.port s.serving.other := by
  simp [State.respond]
@[simp] theorem State.port_holdTick (k : Nat) :
    (s.holdTick k).port s.serving = { s.port s.serving with ticksLeft := k } := by simp [State.holdTick]
@[simp] theorem State.port_other_holdTick (k : Nat) : (s.holdTick k).port s.serving.other = s.port s.serving.other := by
  simp [State.holdTick]

/-! ## Memory and units -/

@[simp] theorem State.write_cfg (sp : Space) (a : Nat) (v : F32) : (s.write sp a v).cfg = s.cfg := rfl
@[simp] theorem State.write_global (sp : Space) (a : Nat) (v : F32) : (s.write sp a v).global = s.global := rfl
@[simp] theorem State.write_osc (sp : Space) (a : Nat) (v : F32) : (s.write sp a v).osc = s.osc := rfl
@[simp] theorem State.write_wt (sp : Space) (a : Nat) (v : F32) : (s.write sp a v).wt = s.wt := rfl
@[simp] theorem State.write_env (sp : Space) (a : Nat) (v : F32) : (s.write sp a v).env = s.env := rfl
@[simp] theorem State.write_vpool (sp : Space) (a : Nat) (v : F32) : (s.write sp a v).vpool = s.vpool := rfl
@[simp] theorem State.write_gran (sp : Space) (a : Nat) (v : F32) : (s.write sp a v).gran = s.gran := rfl
@[simp] theorem State.write_loop (sp : Space) (a : Nat) (v : F32) : (s.write sp a v).loop = s.loop := rfl
@[simp] theorem State.write_dly (sp : Space) (a : Nat) (v : F32) : (s.write sp a v).dly = s.dly := rfl
@[simp] theorem State.write_arp (sp : Space) (a : Nat) (v : F32) : (s.write sp a v).arp = s.arp := rfl
@[simp] theorem State.write_portA (sp : Space) (a : Nat) (v : F32) : (s.write sp a v).portA = s.portA := rfl
@[simp] theorem State.write_portL (sp : Space) (a : Nat) (v : F32) : (s.write sp a v).portL = s.portL := rfl
@[simp] theorem State.write_sched (sp : Space) (a : Nat) (v : F32) : (s.write sp a v).sched = s.sched := rfl
@[simp] theorem State.write_serving (sp : Space) (a : Nat) (v : F32) : (s.write sp a v).serving = s.serving := rfl

@[simp] theorem State.oscTick_cfg : (s.oscTick).cfg = s.cfg := rfl
@[simp] theorem State.oscTick_global : (s.oscTick).global = s.global := rfl
@[simp] theorem State.oscTick_wt : (s.oscTick).wt = s.wt := rfl
@[simp] theorem State.oscTick_env : (s.oscTick).env = s.env := rfl
@[simp] theorem State.oscTick_vpool : (s.oscTick).vpool = s.vpool := rfl
@[simp] theorem State.oscTick_gran : (s.oscTick).gran = s.gran := rfl
@[simp] theorem State.oscTick_loop : (s.oscTick).loop = s.loop := rfl
@[simp] theorem State.oscTick_dly : (s.oscTick).dly = s.dly := rfl
@[simp] theorem State.oscTick_arp : (s.oscTick).arp = s.arp := rfl
@[simp] theorem State.oscTick_mem : (s.oscTick).mem = s.mem := rfl
@[simp] theorem State.oscTick_portA : (s.oscTick).portA = s.portA := rfl
@[simp] theorem State.oscTick_portL : (s.oscTick).portL = s.portL := rfl
@[simp] theorem State.oscTick_sched : (s.oscTick).sched = s.sched := rfl
@[simp] theorem State.oscTick_serving : (s.oscTick).serving = s.serving := rfl

@[simp] theorem State.wtTick_cfg : (s.wtTick).cfg = s.cfg := rfl
@[simp] theorem State.wtTick_global : (s.wtTick).global = s.global := rfl
@[simp] theorem State.wtTick_osc : (s.wtTick).osc = s.osc := rfl
@[simp] theorem State.wtTick_env : (s.wtTick).env = s.env := rfl
@[simp] theorem State.wtTick_vpool : (s.wtTick).vpool = s.vpool := rfl
@[simp] theorem State.wtTick_gran : (s.wtTick).gran = s.gran := rfl
@[simp] theorem State.wtTick_loop : (s.wtTick).loop = s.loop := rfl
@[simp] theorem State.wtTick_dly : (s.wtTick).dly = s.dly := rfl
@[simp] theorem State.wtTick_arp : (s.wtTick).arp = s.arp := rfl
@[simp] theorem State.wtTick_mem : (s.wtTick).mem = s.mem := rfl
@[simp] theorem State.wtTick_portA : (s.wtTick).portA = s.portA := rfl
@[simp] theorem State.wtTick_portL : (s.wtTick).portL = s.portL := rfl
@[simp] theorem State.wtTick_sched : (s.wtTick).sched = s.sched := rfl
@[simp] theorem State.wtTick_serving : (s.wtTick).serving = s.serving := rfl

@[simp] theorem State.envTick_cfg : (s.envTick).cfg = s.cfg := rfl
@[simp] theorem State.envTick_global : (s.envTick).global = s.global := rfl
@[simp] theorem State.envTick_osc : (s.envTick).osc = s.osc := rfl
@[simp] theorem State.envTick_wt : (s.envTick).wt = s.wt := rfl
@[simp] theorem State.envTick_vpool : (s.envTick).vpool = s.vpool := rfl
@[simp] theorem State.envTick_gran : (s.envTick).gran = s.gran := rfl
@[simp] theorem State.envTick_loop : (s.envTick).loop = s.loop := rfl
@[simp] theorem State.envTick_dly : (s.envTick).dly = s.dly := rfl
@[simp] theorem State.envTick_arp : (s.envTick).arp = s.arp := rfl
@[simp] theorem State.envTick_mem : (s.envTick).mem = s.mem := rfl
@[simp] theorem State.envTick_portA : (s.envTick).portA = s.portA := rfl
@[simp] theorem State.envTick_portL : (s.envTick).portL = s.portL := rfl
@[simp] theorem State.envTick_sched : (s.envTick).sched = s.sched := rfl
@[simp] theorem State.envTick_serving : (s.envTick).serving = s.serving := rfl

@[simp] theorem State.vpoolTick_cfg : (s.vpoolTick).cfg = s.cfg := rfl
@[simp] theorem State.vpoolTick_global : (s.vpoolTick).global = s.global := rfl
@[simp] theorem State.vpoolTick_osc : (s.vpoolTick).osc = s.osc := rfl
@[simp] theorem State.vpoolTick_wt : (s.vpoolTick).wt = s.wt := rfl
@[simp] theorem State.vpoolTick_env : (s.vpoolTick).env = s.env := rfl
@[simp] theorem State.vpoolTick_gran : (s.vpoolTick).gran = s.gran := rfl
@[simp] theorem State.vpoolTick_loop : (s.vpoolTick).loop = s.loop := rfl
@[simp] theorem State.vpoolTick_dly : (s.vpoolTick).dly = s.dly := rfl
@[simp] theorem State.vpoolTick_arp : (s.vpoolTick).arp = s.arp := rfl
@[simp] theorem State.vpoolTick_mem : (s.vpoolTick).mem = s.mem := rfl
@[simp] theorem State.vpoolTick_portA : (s.vpoolTick).portA = s.portA := rfl
@[simp] theorem State.vpoolTick_portL : (s.vpoolTick).portL = s.portL := rfl
@[simp] theorem State.vpoolTick_sched : (s.vpoolTick).sched = s.sched := rfl
@[simp] theorem State.vpoolTick_serving : (s.vpoolTick).serving = s.serving := rfl

@[simp] theorem State.arpTick_cfg : (s.arpTick).cfg = s.cfg := rfl
@[simp] theorem State.arpTick_global : (s.arpTick).global = s.global := rfl
@[simp] theorem State.arpTick_osc : (s.arpTick).osc = s.osc := rfl
@[simp] theorem State.arpTick_wt : (s.arpTick).wt = s.wt := rfl
@[simp] theorem State.arpTick_env : (s.arpTick).env = s.env := rfl
@[simp] theorem State.arpTick_vpool : (s.arpTick).vpool = s.vpool := rfl
@[simp] theorem State.arpTick_gran : (s.arpTick).gran = s.gran := rfl
@[simp] theorem State.arpTick_loop : (s.arpTick).loop = s.loop := rfl
@[simp] theorem State.arpTick_dly : (s.arpTick).dly = s.dly := rfl
@[simp] theorem State.arpTick_mem : (s.arpTick).mem = s.mem := rfl
@[simp] theorem State.arpTick_portA : (s.arpTick).portA = s.portA := rfl
@[simp] theorem State.arpTick_portL : (s.arpTick).portL = s.portL := rfl
@[simp] theorem State.arpTick_sched : (s.arpTick).sched = s.sched := rfl
@[simp] theorem State.arpTick_serving : (s.arpTick).serving = s.serving := rfl

@[simp] theorem State.withGran_cfg (r : GranStep) : (s.withGran r).cfg = s.cfg := rfl
@[simp] theorem State.withGran_osc (r : GranStep) : (s.withGran r).osc = s.osc := rfl
@[simp] theorem State.withGran_wt (r : GranStep) : (s.withGran r).wt = s.wt := rfl
@[simp] theorem State.withGran_env (r : GranStep) : (s.withGran r).env = s.env := rfl
@[simp] theorem State.withGran_vpool (r : GranStep) : (s.withGran r).vpool = s.vpool := rfl
@[simp] theorem State.withGran_loop (r : GranStep) : (s.withGran r).loop = s.loop := rfl
@[simp] theorem State.withGran_dly (r : GranStep) : (s.withGran r).dly = s.dly := rfl
@[simp] theorem State.withGran_arp (r : GranStep) : (s.withGran r).arp = s.arp := rfl
@[simp] theorem State.withGran_mem (r : GranStep) : (s.withGran r).mem = s.mem := rfl
@[simp] theorem State.withGran_portA (r : GranStep) : (s.withGran r).portA = s.portA := rfl
@[simp] theorem State.withGran_portL (r : GranStep) : (s.withGran r).portL = s.portL := rfl
@[simp] theorem State.withGran_sched (r : GranStep) : (s.withGran r).sched = s.sched := rfl
@[simp] theorem State.withGran_serving (r : GranStep) : (s.withGran r).serving = s.serving := rfl

@[simp] theorem State.withGran_gran (r : GranStep) : (s.withGran r).gran = r.1 := rfl
@[simp] theorem State.withGran_status (r : GranStep) : (s.withGran r).global.status = r.2 := rfl
@[simp] theorem State.withGran_dt (r : GranStep) : (s.withGran r).global.dt = s.global.dt := rfl
@[simp] theorem State.withGran_sampleRate (r : GranStep) : (s.withGran r).global.sampleRate = s.global.sampleRate := rfl
@[simp] theorem State.withGran_tickCount (r : GranStep) : (s.withGran r).global.tickCount = s.global.tickCount := rfl

@[simp] theorem State.granTick_cfg : (s.granTick).cfg = s.cfg := rfl
@[simp] theorem State.granTick_osc : (s.granTick).osc = s.osc := rfl
@[simp] theorem State.granTick_wt : (s.granTick).wt = s.wt := rfl
@[simp] theorem State.granTick_env : (s.granTick).env = s.env := rfl
@[simp] theorem State.granTick_vpool : (s.granTick).vpool = s.vpool := rfl
@[simp] theorem State.granTick_loop : (s.granTick).loop = s.loop := rfl
@[simp] theorem State.granTick_dly : (s.granTick).dly = s.dly := rfl
@[simp] theorem State.granTick_arp : (s.granTick).arp = s.arp := rfl
@[simp] theorem State.granTick_mem : (s.granTick).mem = s.mem := rfl
@[simp] theorem State.granTick_portA : (s.granTick).portA = s.portA := rfl
@[simp] theorem State.granTick_portL : (s.granTick).portL = s.portL := rfl
@[simp] theorem State.granTick_sched : (s.granTick).sched = s.sched := rfl
@[simp] theorem State.granTick_serving : (s.granTick).serving = s.serving := rfl

@[simp] theorem State.loopTick_cfg : (s.loopTick).cfg = s.cfg := rfl
@[simp] theorem State.loopTick_global : (s.loopTick).global = s.global := rfl
@[simp] theorem State.loopTick_osc : (s.loopTick).osc = s.osc := rfl
@[simp] theorem State.loopTick_wt : (s.loopTick).wt = s.wt := rfl
@[simp] theorem State.loopTick_env : (s.loopTick).env = s.env := rfl
@[simp] theorem State.loopTick_vpool : (s.loopTick).vpool = s.vpool := rfl
@[simp] theorem State.loopTick_gran : (s.loopTick).gran = s.gran := rfl
@[simp] theorem State.loopTick_dly : (s.loopTick).dly = s.dly := rfl
@[simp] theorem State.loopTick_arp : (s.loopTick).arp = s.arp := rfl
@[simp] theorem State.loopTick_portA : (s.loopTick).portA = s.portA := rfl
@[simp] theorem State.loopTick_portL : (s.loopTick).portL = s.portL := rfl
@[simp] theorem State.loopTick_sched : (s.loopTick).sched = s.sched := rfl
@[simp] theorem State.loopTick_serving : (s.loopTick).serving = s.serving := rfl

@[simp] theorem State.dlyTick_cfg : (s.dlyTick).cfg = s.cfg := rfl
@[simp] theorem State.dlyTick_global : (s.dlyTick).global = s.global := rfl
@[simp] theorem State.dlyTick_osc : (s.dlyTick).osc = s.osc := rfl
@[simp] theorem State.dlyTick_wt : (s.dlyTick).wt = s.wt := rfl
@[simp] theorem State.dlyTick_env : (s.dlyTick).env = s.env := rfl
@[simp] theorem State.dlyTick_vpool : (s.dlyTick).vpool = s.vpool := rfl
@[simp] theorem State.dlyTick_gran : (s.dlyTick).gran = s.gran := rfl
@[simp] theorem State.dlyTick_loop : (s.dlyTick).loop = s.loop := rfl
@[simp] theorem State.dlyTick_arp : (s.dlyTick).arp = s.arp := rfl
@[simp] theorem State.dlyTick_portA : (s.dlyTick).portA = s.portA := rfl
@[simp] theorem State.dlyTick_portL : (s.dlyTick).portL = s.portL := rfl
@[simp] theorem State.dlyTick_sched : (s.dlyTick).sched = s.sched := rfl
@[simp] theorem State.dlyTick_serving : (s.dlyTick).serving = s.serving := rfl

@[simp] theorem State.countTick_cfg : (s.countTick).cfg = s.cfg := rfl
@[simp] theorem State.countTick_osc : (s.countTick).osc = s.osc := rfl
@[simp] theorem State.countTick_wt : (s.countTick).wt = s.wt := rfl
@[simp] theorem State.countTick_env : (s.countTick).env = s.env := rfl
@[simp] theorem State.countTick_vpool : (s.countTick).vpool = s.vpool := rfl
@[simp] theorem State.countTick_gran : (s.countTick).gran = s.gran := rfl
@[simp] theorem State.countTick_loop : (s.countTick).loop = s.loop := rfl
@[simp] theorem State.countTick_dly : (s.countTick).dly = s.dly := rfl
@[simp] theorem State.countTick_arp : (s.countTick).arp = s.arp := rfl
@[simp] theorem State.countTick_mem : (s.countTick).mem = s.mem := rfl
@[simp] theorem State.countTick_portA : (s.countTick).portA = s.portA := rfl
@[simp] theorem State.countTick_portL : (s.countTick).portL = s.portL := rfl
@[simp] theorem State.countTick_sched : (s.countTick).sched = s.sched := rfl
@[simp] theorem State.countTick_serving : (s.countTick).serving = s.serving := rfl

@[simp] theorem State.allocate_cfg (f : F32) : (s.allocate f).cfg = s.cfg := by unfold State.allocate; split <;> rfl
@[simp] theorem State.allocate_osc (f : F32) : (s.allocate f).osc = s.osc := by unfold State.allocate; split <;> rfl
@[simp] theorem State.allocate_wt (f : F32) : (s.allocate f).wt = s.wt := by unfold State.allocate; split <;> rfl
@[simp] theorem State.allocate_env (f : F32) : (s.allocate f).env = s.env := by unfold State.allocate; split <;> rfl
@[simp] theorem State.allocate_gran (f : F32) : (s.allocate f).gran = s.gran := by unfold State.allocate; split <;> rfl
@[simp] theorem State.allocate_loop (f : F32) : (s.allocate f).loop = s.loop := by unfold State.allocate; split <;> rfl
@[simp] theorem State.allocate_dly (f : F32) : (s.allocate f).dly = s.dly := by unfold State.allocate; split <;> rfl
@[simp] theorem State.allocate_arp (f : F32) : (s.allocate f).arp = s.arp := by unfold State.allocate; split <;> rfl
@[simp] theorem State.allocate_mem (f : F32) : (s.allocate f).mem = s.mem := by unfold State.allocate; split <;> rfl
@[simp] theorem State.allocate_portA (f : F32) : (s.allocate f).portA = s.portA := by unfold State.allocate; split <;> rfl
@[simp] theorem State.allocate_portL (f : F32) : (s.allocate f).portL = s.portL := by unfold State.allocate; split <;> rfl
@[simp] theorem State.allocate_sched (f : F32) : (s.allocate f).sched = s.sched := by unfold State.allocate; split <;> rfl
@[simp] theorem State.allocate_serving (f : F32) : (s.allocate f).serving = s.serving := by unfold State.allocate; split <;> rfl

/-! ## The choice of the next agent, and reset -/

@[simp] theorem State.reschedule_cfg : (s.reschedule).cfg = s.cfg := rfl
@[simp] theorem State.reschedule_global : (s.reschedule).global = s.global := rfl
@[simp] theorem State.reschedule_osc : (s.reschedule).osc = s.osc := rfl
@[simp] theorem State.reschedule_wt : (s.reschedule).wt = s.wt := rfl
@[simp] theorem State.reschedule_env : (s.reschedule).env = s.env := rfl
@[simp] theorem State.reschedule_vpool : (s.reschedule).vpool = s.vpool := rfl
@[simp] theorem State.reschedule_gran : (s.reschedule).gran = s.gran := rfl
@[simp] theorem State.reschedule_loop : (s.reschedule).loop = s.loop := rfl
@[simp] theorem State.reschedule_dly : (s.reschedule).dly = s.dly := rfl
@[simp] theorem State.reschedule_arp : (s.reschedule).arp = s.arp := rfl
@[simp] theorem State.reschedule_mem : (s.reschedule).mem = s.mem := rfl
@[simp] theorem State.reschedule_portA : (s.reschedule).portA = s.portA := rfl
@[simp] theorem State.reschedule_portL : (s.reschedule).portL = s.portL := rfl
@[simp] theorem State.reschedule_serving : (s.reschedule).serving = s.serving := rfl

@[simp] theorem State.resetCore_cfg : s.resetCore.cfg = s.cfg := rfl
@[simp] theorem State.resetCore_portA : s.resetCore.portA = s.portA := rfl
@[simp] theorem State.resetCore_portL : s.resetCore.portL = s.portL := rfl
@[simp] theorem State.resetCore_sched : s.resetCore.sched = s.sched := rfl
@[simp] theorem State.resetCore_serving : s.resetCore.serving = s.serving := rfl

@[simp] theorem State.resetUnit_cfg (u : Nat) : (s.resetUnit u).cfg = s.cfg := by unfold State.resetUnit; split <;> rfl
@[simp] theorem State.resetUnit_global (u : Nat) : (s.resetUnit u).global = s.global := by unfold State.resetUnit; split <;> rfl
@[simp] theorem State.resetUnit_portA (u : Nat) : (s.resetUnit u).portA = s.portA := by unfold State.resetUnit; split <;> rfl
@[simp] theorem State.resetUnit_portL (u : Nat) : (s.resetUnit u).portL = s.portL := by unfold State.resetUnit; split <;> rfl
@[simp] theorem State.resetUnit_sched (u : Nat) : (s.resetUnit u).sched = s.sched := by unfold State.resetUnit; split <;> rfl
@[simp] theorem State.resetUnit_serving (u : Nat) : (s.resetUnit u).serving = s.serving := by unfold State.resetUnit; split <;> rfl

end Sys2Proof.Machine
end

