-- ==== Sys2Proof/Laws/Memory.lean ====
section
/-! SUPPORT. What reading, writing and block-writing an internal memory do, said once: a read after a write, the frame
of a write, and the canonical form, which every memory operation keeps (20_memory.md R200, R201; log entry 17). -/

namespace Sys2Proof.Machine

/-! ## One list of cells -/

/-- The addresses of a list of cells rise strictly. -/
def CellsSorted (m : Cells) : Prop := m.Pairwise fun c d => c.1 < d.1

theorem cellsRead_of_lt {dflt : Nat → F32} {m : Cells} {a : Nat} (h : ∀ c ∈ m, a < c.1) : cellsRead dflt m a = dflt a := by
  induction m with
  | nil => rfl
  | cons c m ih =>
    have hc := h c (by simp)
    rw [cellsRead, if_neg (by omega)]
    exact ih fun d hd => h d (by simp [hd])

/-- A read of the written index gives the written element. -/
theorem cellsRead_cellsWrite_same {dflt : Nat → F32} {m : Cells} (hm : CellsSorted m) (a : Nat) (v : F32) :
    cellsRead dflt (cellsWrite dflt m a v) a = v := by
  induction m with
  | nil =>
    unfold cellsWrite; split
    · next h => simp [cellsRead, h]
    · simp [cellsRead]
  | cons c m ih =>
    obtain ⟨b, u⟩ := c
    obtain ⟨hb, hm'⟩ := List.pairwise_cons.1 hm
    unfold cellsWrite
    split
    · next hab =>
      split
      · next hv =>
        rw [cellsRead_of_lt (m := (b, u) :: m), hv]
        intro c hc
        rcases List.mem_cons.1 hc with rfl | hc
        · exact hab
        · exact lt_trans hab (hb c hc)
      · simp [cellsRead]
    · split
      · next hab =>
        split
        · next hv => rw [cellsRead_of_lt (fun c hc => by subst hab; exact hb c hc), hv]
        · simp [cellsRead]
      · next hab => rw [cellsRead, if_neg hab]; exact ih hm'

/-- A read of another index gives what it gave before. -/
theorem cellsRead_cellsWrite_ne (dflt : Nat → F32) (m : Cells) {a b : Nat} (v : F32) (h : b ≠ a) :
    cellsRead dflt (cellsWrite dflt m a v) b = cellsRead dflt m b := by
  induction m with
  | nil => unfold cellsWrite; split <;> simp [cellsRead, h]
  | cons c m ih =>
    obtain ⟨k, u⟩ := c
    unfold cellsWrite
    split
    · split <;> simp [cellsRead, h]
    · split
      · next hk => subst hk; split <;> simp [cellsRead, h]
      · simp only [cellsRead, ih]

theorem mem_cellsWrite {dflt : Nat → F32} {m : Cells} {a : Nat} {v : F32} {c : Nat × F32}
    (h : c ∈ cellsWrite dflt m a v) : c ∈ m ∨ (c = (a, v) ∧ v ≠ dflt a) := by
  induction m with
  | nil => unfold cellsWrite at h; split at h <;> simp_all
  | cons d m ih =>
    obtain ⟨k, u⟩ := d
    unfold cellsWrite at h
    split at h
    · split at h <;> simp_all; tauto
    · split at h
      · split at h <;> simp_all; tauto
      · rcases List.mem_cons.1 h with h | h
        · simp [h]
        · rcases ih h with h | h <;> simp [h]

theorem cellsSorted_cellsWrite {dflt : Nat → F32} {m : Cells} (hm : CellsSorted m) (a : Nat) (v : F32) :
    CellsSorted (cellsWrite dflt m a v) := by
  unfold CellsSorted at *
  induction m with
  | nil => unfold cellsWrite; split <;> simp
  | cons c m ih =>
    obtain ⟨k, u⟩ := c
    have hm' := List.pairwise_cons.1 hm
    unfold cellsWrite
    split
    · next hak =>
      split
      · exact hm
      · refine List.pairwise_cons.2 ⟨fun c hc => ?_, hm⟩
        rcases List.mem_cons.1 hc with rfl | hc
        · exact hak
        · exact lt_trans hak (hm'.1 c hc)
    · split
      · next hak =>
        subst hak
        split
        · exact hm'.2
        · exact List.pairwise_cons.2 ⟨hm'.1, hm'.2⟩
      · next h1 h2 =>
        refine List.pairwise_cons.2 ⟨fun c hc => ?_, ih hm'.2⟩
        rcases mem_cellsWrite hc with hc | ⟨rfl, -⟩
        · exact hm'.1 c hc
        · show k < a; omega

theorem cellsWf_iff {size : Nat} {dflt : Nat → F32} {m : Cells} :
    cellsWf size dflt m = true ↔ CellsSorted m ∧ ∀ c ∈ m, c.1 < size ∧ c.2 ≠ dflt c.1 := by
  simp [cellsWf, CellsSorted]

/-- A write inside the memory keeps the canonical form. -/
theorem cellsWf_cellsWrite {size : Nat} {dflt : Nat → F32} {m : Cells} {a : Nat} {v : F32}
    (h : cellsWf size dflt m = true) (ha : a < size) : cellsWf size dflt (cellsWrite dflt m a v) = true := by
  rw [cellsWf_iff] at *
  refine ⟨cellsSorted_cellsWrite h.1 a v, fun c hc => ?_⟩
  rcases mem_cellsWrite hc with hc | ⟨rfl, hv⟩
  · exact h.2 c hc
  · exact ⟨ha, hv⟩

/-! ## Blocks -/

theorem blockCells_cons (dflt : Nat → F32) (base : Nat) (v : F32) (vs : List F32) :
    blockCells dflt base (v :: vs) =
      if v = dflt base then blockCells dflt (base + 1) vs else (base, v) :: blockCells dflt (base + 1) vs := by
  unfold blockCells
  rw [List.zipIdx_cons, List.map_cons, List.filter_cons]
  by_cases h : v = dflt base <;> simp [h]

theorem mem_blockCells {dflt : Nat → F32} {base : Nat} {vs : List F32} {c : Nat × F32} (h : c ∈ blockCells dflt base vs) :
    base ≤ c.1 ∧ c.1 < base + vs.length ∧ c.2 ≠ dflt c.1 := by
  induction vs generalizing base with
  | nil => simp [blockCells] at h
  | cons v vs ih =>
    rw [blockCells_cons] at h
    have key : c ∈ blockCells dflt (base + 1) vs → base ≤ c.1 ∧ c.1 < base + (v :: vs).length ∧ c.2 ≠ dflt c.1 := fun h => by
      obtain ⟨h1, h2, h3⟩ := ih h
      simp only [List.length_cons]; exact ⟨by omega, by omega, h3⟩
    split at h
    · exact key h
    · next hv =>
      rcases List.mem_cons.1 h with rfl | h
      · exact ⟨le_refl _, by simp, hv⟩
      · exact key h

theorem cellsSorted_blockCells (dflt : Nat → F32) (base : Nat) (vs : List F32) : CellsSorted (blockCells dflt base vs) := by
  unfold CellsSorted
  induction vs generalizing base with
  | nil => simp [blockCells]
  | cons v vs ih =>
    rw [blockCells_cons]
    split
    · exact ih _
    · refine List.pairwise_cons.2 ⟨fun c hc => ?_, ih _⟩
      have := (mem_blockCells hc).1
      show base < c.1; omega

theorem cellsRead_append_of_ne {dflt : Nat → F32} {m n : Cells} {a : Nat} (h : ∀ c ∈ m, c.1 ≠ a) :
    cellsRead dflt (m ++ n) a = cellsRead dflt n a := by
  induction m with
  | nil => rfl
  | cons c m ih =>
    rw [List.cons_append, cellsRead, if_neg (fun e => h c (by simp) e.symm)]
    exact ih fun d hd => h d (by simp [hd])

theorem cellsRead_append_left {dflt : Nat → F32} {m n : Cells} {a : Nat} (h : ∀ c ∈ n, c.1 ≠ a) :
    cellsRead dflt (m ++ n) a = cellsRead dflt m a := by
  induction m with
  | nil =>
    have := cellsRead_append_of_ne (dflt := dflt) (n := []) h
    simpa using this
  | cons c m ih => simp only [List.cons_append, cellsRead, ih]

theorem cellsRead_filter {dflt : Nat → F32} {m : Cells} {p : Nat → Bool} {a : Nat} (h : p a = true) :
    cellsRead dflt (m.filter fun c => p c.1) a = cellsRead dflt m a := by
  induction m with
  | nil => rfl
  | cons c m ih =>
    rw [List.filter_cons]
    split
    · simp only [cellsRead, ih]
    · next hc =>
      rw [ih, cellsRead, if_neg]
      rintro rfl; exact hc h

theorem cellsRead_blockCells {dflt : Nat → F32} {base : Nat} {vs : List F32} {i : Nat} (h : i < vs.length) :
    cellsRead dflt (blockCells dflt base vs) (base + i) = vs[i] := by
  induction vs generalizing base i with
  | nil => simp at h
  | cons v vs ih =>
    rw [blockCells_cons]
    rcases i with - | i
    · split
      · next hv =>
        rw [cellsRead_of_lt fun c hc => by have := (mem_blockCells hc).1; omega]
        simp [hv]
      · simp [cellsRead]
    · have e : base + (i + 1) = (base + 1) + i := by omega
      have h' : i < vs.length := by simpa using h
      split
      · rw [e, ih h']; rfl
      · rw [cellsRead, if_neg (by simp), e, ih h']; rfl

/-- A read inside the block gives the element stored there. -/
theorem cellsRead_cellsWriteBlock {dflt : Nat → F32} {m : Cells} {base : Nat} {vs : List F32} {i : Nat}
    (h : i < vs.length) : cellsRead dflt (cellsWriteBlock dflt m base vs) (base + i) = vs[i] := by
  unfold cellsWriteBlock
  rw [cellsRead_append_left, cellsRead_append_of_ne, cellsRead_blockCells h]
  · intro c hc; have := (List.mem_filter.1 hc).2; simp at this; omega
  · intro c hc; have := (List.mem_filter.1 hc).2; simp at this; omega

/-- A read outside the block gives what it gave before. -/
theorem cellsRead_cellsWriteBlock_out {dflt : Nat → F32} {m : Cells} {base : Nat} {vs : List F32} {a : Nat}
    (h : a < base ∨ base + vs.length ≤ a) : cellsRead dflt (cellsWriteBlock dflt m base vs) a = cellsRead dflt m a := by
  unfold cellsWriteBlock
  have hblock : ∀ c ∈ blockCells dflt base vs, c.1 ≠ a := fun c hc => by
    obtain ⟨h1, h2, -⟩ := mem_blockCells hc; omega
  rcases h with h | h
  · rw [cellsRead_append_left, cellsRead_append_left hblock]
    · exact cellsRead_filter (p := fun k => decide (k < base)) (by simpa using h)
    · intro c hc; have := (List.mem_filter.1 hc).2; simp at this; omega
  · rw [List.append_assoc, cellsRead_append_of_ne, cellsRead_append_of_ne hblock]
    · exact cellsRead_filter (p := fun k => decide (base + vs.length ≤ k)) (by simpa using h)
    · intro c hc; have := (List.mem_filter.1 hc).2; simp at this; omega

/-- A block inside the memory keeps the canonical form. -/
theorem cellsWf_cellsWriteBlock {size : Nat} {dflt : Nat → F32} {m : Cells} {base : Nat} {vs : List F32}
    (h : cellsWf size dflt m = true) (hb : base + vs.length ≤ size) :
    cellsWf size dflt (cellsWriteBlock dflt m base vs) = true := by
  rw [cellsWf_iff] at *
  obtain ⟨hs, hc⟩ := h
  unfold cellsWriteBlock
  constructor
  · unfold CellsSorted at *
    rw [List.pairwise_append, List.pairwise_append]
    refine ⟨⟨hs.filter _, cellsSorted_blockCells _ _ _, fun c h1 d h2 => ?_⟩, hs.filter _, fun c h1 d h2 => ?_⟩
    · have h1 := (List.mem_filter.1 h1).2
      have h2 := (mem_blockCells h2).1
      simp at h1; omega
    · have h2 := (List.mem_filter.1 h2).2
      simp at h2
      rcases List.mem_append.1 h1 with h1 | h1
      · have h1 := (List.mem_filter.1 h1).2
        simp at h1; omega
      · have h1 := (mem_blockCells h1).2.1
        omega
  · intro c hcm
    rcases List.mem_append.1 hcm with hcm | hcm
    · rcases List.mem_append.1 hcm with hcm | hcm
      · exact hc c (List.mem_filter.1 hcm).1
      · obtain ⟨-, h2, h3⟩ := mem_blockCells hcm
        exact ⟨by omega, h3⟩
    · exact hc c (List.mem_filter.1 hcm).1

/-! ## The memories -/

@[simp] theorem Memory.cells_setCells (m : Memory) (sp : Space) (c : Cells) : (m.setCells sp c).cells sp = c := by
  cases sp <;> rfl

theorem Memory.cells_setCells_ne (m : Memory) {sp sq : Space} (c : Cells) (h : sq ≠ sp) :
    (m.setCells sp c).cells sq = m.cells sq := by cases sp <;> cases sq <;> first | rfl | exact absurd rfl h

/-- The canonical form of every memory, space by space. -/
theorem Memory.wf_iff {cfg : Config.Params} {m : Memory} :
    m.wf cfg = true ↔ ∀ sp, cellsWf (spaceSize cfg sp) (resetElem cfg sp) (m.cells sp) = true := by
  unfold Memory.wf
  simp only [Bool.and_eq_true]
  constructor
  · rintro ⟨⟨⟨⟨⟨⟨h1, h2⟩, h3⟩, h4⟩, h5⟩, h6⟩, h7⟩ sp
    cases sp <;> assumption
  · intro h
    exact ⟨⟨⟨⟨⟨⟨h .bankmem, h .wtStage⟩, h .gsrc⟩, h .ring⟩, h .loopbuf⟩, h .comb⟩, h .echo⟩

theorem Memory.read_write_same {cfg : Config.Params} {m : Memory} (hm : m.wf cfg = true) (sp : Space) (a : Nat) (v : F32) :
    (m.write cfg sp a v).read cfg sp a = v := by
  unfold Memory.read Memory.write
  rw [Memory.cells_setCells]
  exact cellsRead_cellsWrite_same (cellsWf_iff.1 (Memory.wf_iff.1 hm sp)).1 a v

theorem Memory.read_write_ne (cfg : Config.Params) (m : Memory) (sp : Space) (a : Nat) (v : F32) {sq : Space} {b : Nat}
    (h : ¬(sq = sp ∧ b = a)) : (m.write cfg sp a v).read cfg sq b = m.read cfg sq b := by
  unfold Memory.read Memory.write
  by_cases hs : sq = sp
  · subst hs
    rw [Memory.cells_setCells]
    exact cellsRead_cellsWrite_ne _ _ _ fun e => h ⟨rfl, e⟩
  · rw [Memory.cells_setCells_ne _ _ hs]

theorem Memory.read_writeBlock {cfg : Config.Params} {m : Memory} {sp : Space} {base : Nat} {vs : List F32} {i : Nat}
    (h : i < vs.length) : (m.writeBlock cfg sp base vs).read cfg sp (base + i) = vs[i] := by
  unfold Memory.read Memory.writeBlock
  rw [Memory.cells_setCells]
  exact cellsRead_cellsWriteBlock h

theorem Memory.read_writeBlock_out {cfg : Config.Params} {m : Memory} {sp : Space} {base : Nat} {vs : List F32} {sq : Space}
    {a : Nat} (h : sq ≠ sp ∨ a < base ∨ base + vs.length ≤ a) :
    (m.writeBlock cfg sp base vs).read cfg sq a = m.read cfg sq a := by
  unfold Memory.read Memory.writeBlock
  by_cases hs : sq = sp
  · subst hs
    rw [Memory.cells_setCells]
    exact cellsRead_cellsWriteBlock_out (by tauto)
  · rw [Memory.cells_setCells_ne _ _ hs]

theorem Memory.wf_setCells {cfg : Config.Params} {m : Memory} {sp : Space} {c : Cells} (hm : m.wf cfg = true)
    (hc : cellsWf (spaceSize cfg sp) (resetElem cfg sp) c = true) : (m.setCells sp c).wf cfg = true := by
  rw [Memory.wf_iff] at *
  intro sq
  by_cases hs : sq = sp
  · subst hs; rwa [Memory.cells_setCells]
  · rw [Memory.cells_setCells_ne _ _ hs]; exact hm sq

/-- A write inside a memory keeps every memory's canonical form. -/
theorem Memory.wf_write {cfg : Config.Params} {m : Memory} {sp : Space} {a : Nat} (v : F32) (hm : m.wf cfg = true)
    (ha : a < spaceSize cfg sp) : (m.write cfg sp a v).wf cfg = true :=
  Memory.wf_setCells hm (cellsWf_cellsWrite (Memory.wf_iff.1 hm sp) ha)

/-- A block write inside a memory keeps every memory's canonical form. -/
theorem Memory.wf_writeBlock {cfg : Config.Params} {m : Memory} {sp : Space} {base : Nat} {vs : List F32}
    (hm : m.wf cfg = true) (hb : base + vs.length ≤ spaceSize cfg sp) : (m.writeBlock cfg sp base vs).wf cfg = true :=
  Memory.wf_setCells hm (cellsWf_cellsWriteBlock (Memory.wf_iff.1 hm sp) hb)

/-- The reset contents are in canonical form, for every instance. -/
theorem Memory.wf_reset (cfg : Config.Params) : memoryReset.wf cfg = true := by
  rw [Memory.wf_iff]; intro sp; cases sp <;> rfl

theorem State.reset_memory_wf : State.reset.mem.wf State.reset.cfg = true := Memory.wf_reset _

/-- Emptying the memories of one unit keeps the canonical form. -/
theorem Memory.wf_clear {cfg : Config.Params} {m : Memory} (hm : m.wf cfg = true) (sp : Space) :
    (m.setCells sp []).wf cfg = true := Memory.wf_setCells hm rfl

end Sys2Proof.Machine
end

