-- ==== Sys2Proof/Laws/Mip.lean ====
section
/-! SUPPORT. Where the elements of a built bank lie (42_wavetable.md R500, R522). -/

namespace Sys2Proof.Machine

theorem flatMap_range_length {α : Type} {g : Nat → List α} {l : Nat} (hl : ∀ f, (g f).length = l) (n : Nat) :
    ((List.range n).flatMap g).length = n * l := by
  induction n with
  | zero => simp
  | succ n ih => rw [List.range_succ, List.flatMap_append, List.length_append, ih]; simp [hl, Nat.add_mul]

theorem flatMap_range_get {α : Type} {g : Nat → List α} {l : Nat} (hl : ∀ f, (g f).length = l) {n f j : Nat} (hf : f < n)
    (hj : j < l) : ((List.range n).flatMap g)[f * l + j]? = (g f)[j]? := by
  induction n with
  | zero => omega
  | succ n ih =>
    have hlen := flatMap_range_length hl n
    rw [List.range_succ, List.flatMap_append]
    rcases Nat.lt_or_eq_of_le (Nat.le_of_lt_succ hf) with h | rfl
    · have : (f + 1) * l ≤ n * l := Nat.mul_le_mul_right _ h
      rw [Nat.add_mul] at this
      rw [List.getElem?_append_left (by omega)]
      exact ih h
    · rw [List.getElem?_append_right (by omega), hlen]
      simp

theorem slotImage_length (cfg : Config.Params) (v : Array F32) : (slotImage cfg v).length = slotSize cfg := by
  unfold slotImage slotSize
  rw [flatMap_range_length (l := cfg.mipLevels * cfg.tableSize), Nat.mul_assoc]
  intro f
  exact flatMap_range_length (by simp) _

/-- Element (f, k, i) of a slot (42_wavetable.md R500). -/
theorem slotImage_get (cfg : Config.Params) (v : Array F32) {f k i : Nat} (hf : f < cfg.numFrames) (hk : k < cfg.mipLevels)
    (hi : i < cfg.tableSize) :
    (slotImage cfg v)[(f * cfg.mipLevels + k) * cfg.tableSize + i]?
      = some (mipElem (fun j => v.getD (f * cfg.tableSize + j) 0) cfg.tableSize k i) := by
  have hin : (k + 1) * cfg.tableSize ≤ cfg.mipLevels * cfg.tableSize := Nat.mul_le_mul_right _ hk
  rw [Nat.add_mul] at hin
  have e : (f * cfg.mipLevels + k) * cfg.tableSize + i
      = f * (cfg.mipLevels * cfg.tableSize) + (k * cfg.tableSize + i) := by ring
  rw [e]
  unfold slotImage
  rw [flatMap_range_get (l := cfg.mipLevels * cfg.tableSize) (fun f => flatMap_range_length (by simp) _) hf (by omega),
    flatMap_range_get (l := cfg.tableSize) (by simp) hk hi]
  simp [hi]

/-- Element (f, k, i) of slot s in BANKMEM. -/
theorem bankIndex_eq (cfg : Config.Params) (s f k i : Nat) :
    bankIndex cfg s f k i = s * slotSize cfg + ((f * cfg.mipLevels + k) * cfg.tableSize + i) := by
  unfold bankIndex slotSize; ring

end Sys2Proof.Machine
end

