-- ==== Sys2Proof/Laws/PerInstr.lean ====
section
/-! SUPPORT. The per-instruction family EncodeLength: how many words a command has, told from its first word alone
(30_encoding.md R302), and the byte count of its encoding. -/

namespace Sys2Proof.Laws.EncodeLength

/-- The number of words of a command is the one its OP gives, and its first word carries that OP (30_encoding.md R302). -/
def Statement (i : Instr) : Prop :=
  commandLength ((encode i).headD 0) = (encode i).length ∧ (encodeBytes i).length = 4 * (encode i).length

theorem nop : Statement .nop := by simp [Statement, encode, encodeBytes, bytesOfWord, commandLength]

theorem tick (imm : BitVec 14) : Statement (.tick imm) := by
  simp [Statement, encode, encodeBytes, bytesOfWord, commandLength]

theorem wrreg (unit : BitVec 4) (reg : BitVec 8) (data : Word) : Statement (.wrreg unit reg data) := by
  simp [Statement, encode, encodeBytes, bytesOfWord, commandLength]

theorem rdreg (unit : BitVec 4) (reg : BitVec 8) : Statement (.rdreg unit reg) := by
  simp [Statement, encode, encodeBytes, bytesOfWord, commandLength]

theorem sreset (unit : BitVec 4) : Statement (.sreset unit) := by
  simp [Statement, encode, encodeBytes, bytesOfWord, commandLength]

theorem clrstat (mask : BitVec 14) : Statement (.clrstat mask) := by
  simp [Statement, encode, encodeBytes, bytesOfWord, commandLength]

theorem noteOn (freq : F32) : Statement (.noteOn freq) := by
  simp [Statement, encode, encodeBytes, bytesOfWord, commandLength]

theorem noteOnMidi (note : BitVec 7) : Statement (.noteOnMidi note) := by
  simp [Statement, encode, encodeBytes, bytesOfWord, commandLength]

theorem noteOff (slot : BitVec 8) : Statement (.noteOff slot) := by
  simp [Statement, encode, encodeBytes, bytesOfWord, commandLength]

theorem allOff : Statement .allOff := by simp [Statement, encode, encodeBytes, bytesOfWord, commandLength]

theorem chordOn (chord : BitVec 8) (root : BitVec 7) : Statement (.chordOn chord root) := by
  simp [Statement, encode, encodeBytes, bytesOfWord, commandLength]

theorem bankBegin (bank : BitVec 8) : Statement (.bankBegin bank) := by
  simp [Statement, encode, encodeBytes, bytesOfWord, commandLength]

theorem bankData (sample : F32) : Statement (.bankData sample) := by
  simp [Statement, encode, encodeBytes, bytesOfWord, commandLength]

theorem bankCommit : Statement .bankCommit := by simp [Statement, encode, encodeBytes, bytesOfWord, commandLength]

theorem bankAbort : Statement .bankAbort := by simp [Statement, encode, encodeBytes, bytesOfWord, commandLength]

theorem srcBegin (rate : F32) : Statement (.srcBegin rate) := by
  simp [Statement, encode, encodeBytes, bytesOfWord, commandLength]

theorem srcData (sample : F32) : Statement (.srcData sample) := by
  simp [Statement, encode, encodeBytes, bytesOfWord, commandLength]

theorem srcCommit : Statement .srcCommit := by simp [Statement, encode, encodeBytes, bytesOfWord, commandLength]

theorem srcAbort : Statement .srcAbort := by simp [Statement, encode, encodeBytes, bytesOfWord, commandLength]

theorem granSpawn : Statement .granSpawn := by simp [Statement, encode, encodeBytes, bytesOfWord, commandLength]

end Sys2Proof.Laws.EncodeLength
end

