-- ==== Sys2Proof/Laws/Tick.lean ====
section
/-! SUPPORT. What one tick can do: every unit from the state the tick began with, and the memories it touches
(40_host_commands.md R402, R403). -/

namespace Sys2Proof.Machine

/-! ## The memories of LOOP and DLY -/

/-- The memories with the looper's two replaced. -/
def Memory.withLoop (m : Memory) (r l : Cells) : Memory := { m with ring := r, loopbuf := l }

theorem Memory.withLoop_read (cfg : Config.Params) (m : Memory) (r l : Cells) {sp : Space} (a : Nat) (h1 : sp ≠ .ring)
    (h2 : sp ≠ .loopbuf) : (m.withLoop r l).read cfg sp a = m.read cfg sp a := by
  cases sp <;> first | rfl | exact absurd rfl h1 | exact absurd rfl h2

theorem Memory.withLoop_write (cfg : Config.Params) (m : Memory) (r l : Cells) {sp : Space} (a : Nat) (v : F32)
    (h1 : sp ≠ .ring) (h2 : sp ≠ .loopbuf) : (m.withLoop r l).write cfg sp a v = (m.write cfg sp a v).withLoop r l := by
  cases sp <;> first | rfl | exact absurd rfl h1 | exact absurd rfl h2

theorem snapshot_mem (cfg : Config.Params) (fs : F32) (s : LoopStep) :
    (snapshot cfg fs s).2 = s.2.withLoop s.2.ring (snapshot cfg fs s).2.loopbuf := rfl

theorem loopTransition_mem (cfg : Config.Params) (fs : F32) (s : LoopStep) :
    (loopTransition cfg fs s).2 = s.2.withLoop s.2.ring (loopTransition cfg fs s).2.loopbuf := by
  unfold loopTransition
  split
  · split <;> rfl
  · split <;> rfl
  · split <;> rfl

/-- LOOP's tick changes the cells of RING and LOOPBUF only. -/
theorem loopTick_mem (cfg : Config.Params) (g : GlobalRegs) (u : LoopUnit) (m : Memory) :
    ∃ r l, (loopTick cfg g (u, m)).2 = m.withLoop r l := by
  refine ⟨_, _, Eq.trans (b := Memory.withLoop
    (ringWrite cfg (fdiv u.inL cfg.inDiv) (fdiv u.inR cfg.inDiv) (u, m)).2 _ _) (loopTransition_mem _ _ _) rfl⟩

/-- LOOP's transition leaves the ring as the write left it. -/
theorem loopTick_ring (cfg : Config.Params) (g : GlobalRegs) (u : LoopUnit) (m : Memory) :
    (loopTick cfg g (u, m)).2.ring
      = (ringWrite cfg (fdiv u.inL cfg.inDiv) (fdiv u.inR cfg.inDiv) (u, m)).2.ring := by
  show (loopTransition _ _ _).2.ring = _
  rw [loopTransition_mem]
  rfl

theorem combsTick_withLoop (cfg : Config.Params) (fb x : F32) (r l : Cells) (lines : List (Nat × Nat)) :
    ∀ (i : Nat) (m : Memory) (sum : F32), combsTick cfg fb x i lines (m.withLoop r l) sum
      = ((combsTick cfg fb x i lines m sum).1, (combsTick cfg fb x i lines m sum).2.1.withLoop r l,
          (combsTick cfg fb x i lines m sum).2.2) := by
  induction lines with
  | nil => intros; rfl
  | cons c lines ih =>
    intro i m sum
    obtain ⟨len, w⟩ := c
    simp only [combsTick, lineRead, linePush]
    rw [Memory.withLoop_read _ _ _ _ _ (by decide) (by decide), Memory.withLoop_write _ _ _ _ _ _ (by decide) (by decide), ih]

/-- DLY's tick neither reads nor writes the looper's memories. -/
theorem dlyTick_withLoop (cfg : Config.Params) (g : GlobalRegs) (u : DlyUnit) (m : Memory) (r l : Cells) :
    dlyTick cfg g u (m.withLoop r l) = ((dlyTick cfg g u m).1, (dlyTick cfg g u m).2.withLoop r l) := by
  simp only [dlyTick, reverbTick, combsTick_withLoop, echoTick, echoChannel, lineRead, linePush]
  simp only [Memory.withLoop_write _ _ _ _ _ _ (show Space.echo ≠ .ring by decide) (show Space.echo ≠ .loopbuf by decide),
    Memory.withLoop_read _ _ _ _ _ (show Space.echo ≠ .ring by decide) (show Space.echo ≠ .loopbuf by decide)]

/-- The cells of every memory but COMB and ECHO. -/
theorem combsTick_cells (cfg : Config.Params) (fb x : F32) (lines : List (Nat × Nat)) {sp : Space} (h : sp ≠ .comb) :
    ∀ (i : Nat) (m : Memory) (sum : F32), (combsTick cfg fb x i lines m sum).2.1.cells sp = m.cells sp := by
  induction lines with
  | nil => intros; rfl
  | cons c lines ih =>
    intro i m sum
    obtain ⟨len, w⟩ := c
    simp only [combsTick, linePush]
    rw [ih]
    exact Memory.cells_setCells_ne _ _ h

theorem dlyTick_cells (cfg : Config.Params) (g : GlobalRegs) (u : DlyUnit) (m : Memory) {sp : Space} (h1 : sp ≠ .comb)
    (h2 : sp ≠ .echo) : (dlyTick cfg g u m).2.cells sp = m.cells sp := by
  simp only [dlyTick, echoTick, echoChannel, linePush, Memory.write]
  rw [Memory.cells_setCells_ne _ _ h2, Memory.cells_setCells_ne _ _ h2]
  simp only [reverbTick]
  exact combsTick_cells _ _ _ _ h1 _ _ _

/-! ## The tick of the CORE -/

theorem loopTick_rates {g g' : GlobalRegs} (h1 : g.sampleRate = g'.sampleRate) (h2 : g.dt = g'.dt) (cfg : Config.Params)
    (x : LoopStep) : loopTick cfg g x = loopTick cfg g' x := by unfold loopTick; rw [h1, h2]
theorem dlyTick_rates {g g' : GlobalRegs} (h1 : g.sampleRate = g'.sampleRate) (cfg : Config.Params) (u : DlyUnit)
    (m : Memory) : dlyTick cfg g u m = dlyTick cfg g' u m := by unfold dlyTick; rw [h1]
theorem arpTick_rates {g g' : GlobalRegs} (h1 : g.sampleRate = g'.sampleRate) (cfg : Config.Params) (u : ArpUnit) :
    arpTick cfg g u = arpTick cfg g' u := by unfold arpTick; rw [h1]

variable (s : State)

@[simp] theorem State.oscTick_osc : s.oscTick.osc = Machine.oscTick s.cfg s.global s.osc := rfl
@[simp] theorem State.wtTick_wt : s.wtTick.wt = Machine.wtTick s.cfg s.global s.mem s.wt := rfl
@[simp] theorem State.envTick_env : s.envTick.env = Machine.envTick s.cfg s.global s.env := rfl
@[simp] theorem State.vpoolTick_vpool : s.vpoolTick.vpool = Machine.vpoolTick s.cfg s.global s.vpool := rfl
@[simp] theorem State.granTick_gran :
    s.granTick.gran = (Machine.granTick s.cfg s.global.dt s.mem (s.gran, s.global.status)).1 := rfl
@[simp] theorem State.granTick_status :
    s.granTick.global.status = (Machine.granTick s.cfg s.global.dt s.mem (s.gran, s.global.status)).2 := rfl
@[simp] theorem State.granTick_sampleRate : s.granTick.global.sampleRate = s.global.sampleRate := rfl
@[simp] theorem State.granTick_dt : s.granTick.global.dt = s.global.dt := rfl
@[simp] theorem State.granTick_tickCount : s.granTick.global.tickCount = s.global.tickCount := rfl
@[simp] theorem State.loopTick_loop : s.loopTick.loop = (Machine.loopTick s.cfg s.global (s.loop, s.mem)).1 := rfl
@[simp] theorem State.loopTick_mem : s.loopTick.mem = (Machine.loopTick s.cfg s.global (s.loop, s.mem)).2 := rfl
@[simp] theorem State.dlyTick_dly : s.dlyTick.dly = (Machine.dlyTick s.cfg s.global s.dly s.mem).1 := rfl
@[simp] theorem State.dlyTick_mem : s.dlyTick.mem = (Machine.dlyTick s.cfg s.global s.dly s.mem).2 := rfl
@[simp] theorem State.arpTick_arp : s.arpTick.arp = Machine.arpTick s.cfg s.global s.arp := rfl
@[simp] theorem State.countTick_tickCount : s.countTick.global.tickCount = s.global.tickCount + 1 := rfl
@[simp] theorem State.countTick_status : s.countTick.global.status = s.global.status := rfl
@[simp] theorem State.countTick_sampleRate : s.countTick.global.sampleRate = s.global.sampleRate := rfl
@[simp] theorem State.countTick_dt : s.countTick.global.dt = s.global.dt := rfl

@[simp] theorem State.tick_cfg : s.tick.cfg = s.cfg := by simp [State.tick]
@[simp] theorem State.tick_osc : s.tick.osc = Machine.oscTick s.cfg s.global s.osc := by simp [State.tick]
@[simp] theorem State.tick_wt : s.tick.wt = Machine.wtTick s.cfg s.global s.mem s.wt := by simp [State.tick]
@[simp] theorem State.tick_env : s.tick.env = Machine.envTick s.cfg s.global s.env := by simp [State.tick]
@[simp] theorem State.tick_vpool : s.tick.vpool = Machine.vpoolTick s.cfg s.global s.vpool := by simp [State.tick]
@[simp] theorem State.tick_gran :
    s.tick.gran = (Machine.granTick s.cfg s.global.dt s.mem (s.gran, s.global.status)).1 := by simp [State.tick]
@[simp] theorem State.tick_status :
    s.tick.global.status = (Machine.granTick s.cfg s.global.dt s.mem (s.gran, s.global.status)).2 := by simp [State.tick]
@[simp] theorem State.tick_loop : s.tick.loop = (Machine.loopTick s.cfg s.global (s.loop, s.mem)).1 := by
  simp only [State.tick, countTick_loop, arpTick_loop, dlyTick_loop, loopTick_loop, granTick_cfg, granTick_loop,
    granTick_mem, vpoolTick_cfg, vpoolTick_loop, vpoolTick_mem, envTick_cfg, envTick_loop, envTick_mem, wtTick_cfg,
    wtTick_loop, wtTick_mem, oscTick_cfg, oscTick_loop, oscTick_mem]
  rw [loopTick_rates]
  · simp
  · simp
@[simp] theorem State.tick_arp : s.tick.arp = Machine.arpTick s.cfg s.global s.arp := by
  simp only [State.tick, countTick_arp, arpTick_arp]
  rw [arpTick_rates (g' := s.global)]
  · simp
  · simp
@[simp] theorem State.tick_sampleRate : s.tick.global.sampleRate = s.global.sampleRate := by simp [State.tick]
@[simp] theorem State.tick_dt : s.tick.global.dt = s.global.dt := by simp [State.tick]
@[simp] theorem State.tick_tickCount : s.tick.global.tickCount = s.global.tickCount + 1 := by simp [State.tick]
@[simp] theorem State.tick_portA : s.tick.portA = s.portA := by simp [State.tick]
@[simp] theorem State.tick_portL : s.tick.portL = s.portL := by simp [State.tick]
@[simp] theorem State.tick_sched : s.tick.sched = s.sched := by simp [State.tick]
@[simp] theorem State.tick_serving : s.tick.serving = s.serving := by simp [State.tick]
@[simp] theorem State.tick_port (p : PortId) : s.tick.port p = s.port p := by
  cases p
  · exact s.tick_portA
  · exact s.tick_portL

/-- DLY's tick on the memories LOOP's tick leaves. -/
theorem State.tick_dly_mem :
    s.tick.dly = (Machine.dlyTick s.cfg s.global s.dly (Machine.loopTick s.cfg s.global (s.loop, s.mem)).2).1
      ∧ s.tick.mem = (Machine.dlyTick s.cfg s.global s.dly (Machine.loopTick s.cfg s.global (s.loop, s.mem)).2).2 := by
  simp only [State.tick, countTick_dly, countTick_mem, arpTick_dly, arpTick_mem, dlyTick_dly, dlyTick_mem, loopTick_mem,
    loopTick_cfg, loopTick_dly, loopTick_global]
  have h1 : s.oscTick.wtTick.envTick.vpoolTick.granTick.global.sampleRate = s.global.sampleRate := by simp
  have h2 : s.oscTick.wtTick.envTick.vpoolTick.granTick.global.dt = s.global.dt := by simp
  rw [dlyTick_rates h1, loopTick_rates h1 h2]
  simp

@[simp] theorem State.tick_dly : s.tick.dly = (Machine.dlyTick s.cfg s.global s.dly s.mem).1 := by
  obtain ⟨r, l, h⟩ := Machine.loopTick_mem s.cfg s.global s.loop s.mem
  rw [s.tick_dly_mem.1, h, dlyTick_withLoop]

/-- The memories after a tick: LOOP's two as LOOP's tick leaves them, the others as DLY's tick leaves them. -/
theorem State.tick_mem : s.tick.mem =
    (Machine.dlyTick s.cfg s.global s.dly s.mem).2.withLoop (Machine.loopTick s.cfg s.global (s.loop, s.mem)).2.ring
      (Machine.loopTick s.cfg s.global (s.loop, s.mem)).2.loopbuf := by
  obtain ⟨r, l, h⟩ := Machine.loopTick_mem s.cfg s.global s.loop s.mem
  rw [s.tick_dly_mem.2, h, dlyTick_withLoop]
  rfl

/-- The ticks of a run, the last one first. -/
theorem State.ticks_succ (n : Nat) : ∀ s : State, s.ticks (n + 1) = (s.ticks n).tick := by
  induction n with
  | zero => intro s; rfl
  | succ n ih => intro s; exact ih s.tick

/-- Every other memory keeps its cells. -/
theorem Memory.withLoop_cells (m : Memory) (r l : Cells) {sp : Space} (h1 : sp ≠ .ring) (h2 : sp ≠ .loopbuf) : (m.withLoop r l).cells sp = m.cells sp := by
  cases sp <;> first | rfl | exact absurd rfl h1 | exact absurd rfl h2

/-- What an execution of TICK does: one tick, and then the port moves past the command or holds it. -/
theorem exec_tick_cases {imm : BitVec 14} {s t : State} (h : exec (.tick imm) s = .next t) :
   (t = s.tick.retire 1) ∨ ∃ k, t = s.tick.holdTick k := by
  simp only [exec, execTick, Host.Outcome.next.injEq] at h
  rw [← h]
  generalize (if (s.port s.serving).ticksLeft = 0 then imm.toNat + 1 else (s.port s.serving).ticksLeft) = n
  by_cases hn : n = 1
  · left; rw [if_pos hn]
  · right; rw [if_neg hn]; exact ⟨_, rfl⟩

/-- The memories after an execution of TICK. -/
theorem exec_tick_mem {imm : BitVec 14} {s t : State} (h : exec (.tick imm) s = .next t) : t.cfg = s.cfg ∧ t.mem = s.tick.mem := by
  rcases exec_tick_cases h with rfl | ⟨k, rfl⟩ <;> constructor <;> simp

/-- Equal cells read the same. -/
theorem read_of_cells {cfg : Config.Params} {m m' : Memory} {sp : Space} (h : m.cells sp = m'.cells sp) (a : Nat) : m.read cfg sp a = m'.read cfg sp a := by
  unfold Memory.read; rw [h]

/-- The elements after a tick, memory by memory. -/
theorem tick_reads {s t : State} (hc : t.cfg = s.cfg) (hm : t.mem = s.tick.mem) (a : Nat) : t.read .bankmem a = s.read .bankmem a ∧ t.read .wtStage a = s.read .wtStage a ∧
      t.read .gsrc a = s.read .gsrc a ∧
      t.read .ring a = (loopTick s.cfg s.global (s.loop, s.mem)).2.read s.cfg .ring a ∧
      t.read .loopbuf a = (loopTick s.cfg s.global (s.loop, s.mem)).2.read s.cfg .loopbuf a ∧
      t.read .comb a = (dlyTick s.cfg s.global s.dly s.mem).2.read s.cfg .comb a ∧
      t.read .echo a = (dlyTick s.cfg s.global s.dly s.mem).2.read s.cfg .echo a := by
  unfold State.read
  rw [hc, hm, State.tick_mem]
  refine ⟨read_of_cells ?_ a, read_of_cells ?_ a, read_of_cells ?_ a, read_of_cells ?_ a, read_of_cells ?_ a, read_of_cells ?_ a, read_of_cells ?_ a⟩
  · rw [Memory.withLoop_cells _ _ _ (by decide) (by decide)]; exact dlyTick_cells _ _ _ _ (by decide) (by decide)
  · rw [Memory.withLoop_cells _ _ _ (by decide) (by decide)]; exact dlyTick_cells _ _ _ _ (by decide) (by decide)
  · rw [Memory.withLoop_cells _ _ _ (by decide) (by decide)]; exact dlyTick_cells _ _ _ _ (by decide) (by decide)
  · rfl
  · rfl
  · exact Memory.withLoop_cells _ _ _ (by decide) (by decide)
  · exact Memory.withLoop_cells _ _ _ (by decide) (by decide)

end Sys2Proof.Machine
end

