-- ==== Sys2Proof/Laws/Units.lean ====
section
/-! SUPPORT. What the parts of GRAN's and LOOP's ticks leave alone, and what they do to the pools and queues
(45_granular.md R654, R655, R670; 46_looper.md R702 to R710). -/

namespace Sys2Proof.Machine

/-! ## The registers a unit's tick reads only (40_host_commands.md R404) -/

/-- The P and I registers of GRAN but RNG. -/
def GranUnit.inputs (u : GranUnit) : List Word :=
  [u.bpm, u.density, u.vitality, u.position, u.size, u.rate, u.conn, u.clockIn]

/-- The P and I registers of LOOP. -/
def LoopUnit.inputs (u : LoopUnit) : List Word :=
  [u.lenS, u.bars, u.intensity, u.rampS, u.xfadeS, u.mode, u.boostEn, u.conn, u.inL, u.inR, u.buildIn, u.clockIn]

theorem enqueue_inputs (cfg : Config.Params) (t : SpawnTag) (s : GranStep) : (enqueue cfg t s).1.inputs = s.1.inputs := by
  unfold enqueue; split <;> rfl

theorem spawn_inputs (cfg : Config.Params) (s : GranStep) : (spawn cfg s).1.inputs = s.1.inputs := by
  unfold spawn; split <;> rfl

theorem spawns_inputs (cfg : Config.Params) (q : List SpawnTag) :
    ∀ s : GranStep, (q.foldl (fun s _ => spawn cfg s) s).1.inputs = s.1.inputs := by
  induction q with
  | nil => intro s; rfl
  | cons t q ih => intro s; exact (ih _).trans (spawn_inputs cfg s)

theorem granTimer_inputs (cfg : Config.Params) (dt : F32) (s : GranStep) : (granTimer cfg dt s).1.inputs = s.1.inputs := by
  unfold granTimer enqueue; dsimp only; split_ifs <;> rfl

theorem granClock_inputs (cfg : Config.Params) (s : GranStep) : (granClock cfg s).1.inputs = s.1.inputs := by
  unfold granClock enqueue; dsimp only; split_ifs <;> rfl

theorem granTick_inputs (cfg : Config.Params) (dt : F32) (m : Memory) (s : GranStep) :
    (granTick cfg dt m s).1.inputs = s.1.inputs :=
  (spawns_inputs cfg _ _).trans ((granTimer_inputs cfg dt _).trans (granClock_inputs cfg s))

theorem loopControls_inputs (cfg : Config.Params) (u : LoopUnit) : (loopControls cfg u).inputs = u.inputs := rfl

theorem loopTransition_inputs (cfg : Config.Params) (fs : F32) (s : LoopStep) :
    (loopTransition cfg fs s).1.inputs = s.1.inputs := by
  unfold loopTransition
  split <;> split <;> rfl

theorem loopOutput_inputs (cfg : Config.Params) (dt xL xR : F32) (m : Memory) (u : LoopUnit) :
    (loopOutput cfg dt xL xR m u).inputs = u.inputs := by
  unfold loopOutput; dsimp only; split <;> rfl

theorem loopTick_inputs (cfg : Config.Params) (g : GlobalRegs) (s : LoopStep) : (loopTick cfg g s).1.inputs = s.1.inputs :=
  (loopOutput_inputs cfg _ _ _ _ _).trans (loopTransition_inputs cfg _ _)

theorem dlyTick_inputs (cfg : Config.Params) (g : GlobalRegs) (u : DlyUnit) (m : Memory) :
    ((dlyTick cfg g u m).1.revFb, (dlyTick cfg g u m).1.revMix, (dlyTick cfg g u m).1.echoTime,
      (dlyTick cfg g u m).1.echoFb, (dlyTick cfg g u m).1.echoMix, (dlyTick cfg g u m).1.revIn,
      (dlyTick cfg g u m).1.echoInL, (dlyTick cfg g u m).1.echoInR)
    = (u.revFb, u.revMix, u.echoTime, u.echoFb, u.echoMix, u.revIn, u.echoInL, u.echoInR) := rfl

theorem arpTick_inputs (cfg : Config.Params) (g : GlobalRegs) (u : ArpUnit) :
    ((arpTick cfg g u).root, (arpTick cfg g u).chord, (arpTick cfg g u).bpm, (arpTick cfg g u).div,
      (arpTick cfg g u).conn, (arpTick cfg g u).clockIn) = (u.root, u.chord, u.bpm, u.div, u.conn, u.clockIn) := by
  unfold arpTick arpOutput; dsimp only; split <;> rfl

/-! ## The ring (46_looper.md R702) -/

theorem loopOutput_wcur (cfg : Config.Params) (dt xL xR : F32) (m : Memory) (u : LoopUnit) :
    (loopOutput cfg dt xL xR m u).wcur = u.wcur := by
  unfold loopOutput; dsimp only; split <;> rfl

theorem loopTransition_wcur (cfg : Config.Params) (fs : F32) (s : LoopStep) :
    (loopTransition cfg fs s).1.wcur = s.1.wcur := by
  unfold loopTransition; split <;> split <;> rfl

/-- The write cursor after a tick. -/
theorem State.tick_wcur (s : State) :
    s.tick.loop.wcur = BitVec.ofNat 32 ((s.loop.wcur.toNat + 1) % s.cfg.ringCap) := by
  rw [State.tick_loop]
  exact (loopOutput_wcur _ _ _ _ _ _).trans (loopTransition_wcur _ _ _)

/-- The ring after a tick is the ring with both inputs written at the cursor. -/
theorem State.tick_read_ring (s : State) (a : Nat) : s.tick.read .ring a =
    (ringWrite s.cfg (fdiv s.loop.inL s.cfg.inDiv) (fdiv s.loop.inR s.cfg.inDiv) (s.loop, s.mem)).2.read s.cfg .ring a := by
  rw [(tick_reads s.tick_cfg (Eq.refl s.tick.mem) a).2.2.2.1]
  exact read_of_cells (sp := .ring) (loopTick_ring s.cfg s.global s.loop s.mem) a

theorem State.tick_read_ring_out (s : State) {a : Nat} (h1 : a ≠ s.loop.wcur.toNat)
    (h2 : a ≠ s.cfg.ringCap + s.loop.wcur.toNat) : s.tick.read .ring a = s.read .ring a := by
  rw [State.tick_read_ring]
  unfold ringWrite
  simp only
  rw [Memory.read_write_ne _ _ _ _ _ (by omega), Memory.read_write_ne _ _ _ _ _ (by omega)]
  rfl

end Sys2Proof.Machine
end

