-- ==== Sys2Proof/Laws/Pools.lean ====
section
/-! SUPPORT. What allocation, spawning and the ticks of the pools do, slot by slot (44_voice_pool.md R601, R630;
45_granular.md R654, R655, R670), and the comb lines (47_delay.md R751). -/

namespace Sys2Proof.Machine

/-! ## Voices -/

theorem freeVoice_none {vs : List Voice} : freeVoice vs = none ↔ ∀ v ∈ vs, v.active = true := by
  simp [freeVoice, List.findIdx?_eq_none_iff]

/-- The lowest free slot: free, and every slot below it is active. -/
theorem freeVoice_some {vs : List Voice} {k : Nat} : freeVoice vs = some k ↔
    ∃ v, vs[k]? = some v ∧ v.active = false ∧ ∀ j w, j < k → vs[j]? = some w → w.active = true := by
  unfold freeVoice
  rw [List.findIdx?_eq_some_iff_getElem]
  constructor
  · rintro ⟨hk, hv, hj⟩
    refine ⟨vs[k], List.getElem?_eq_getElem hk, by simpa using hv, fun j w hjk hw => ?_⟩
    have := hj j hjk
    obtain ⟨hl, rfl⟩ := List.getElem?_eq_some_iff.1 hw
    simpa using this
  · rintro ⟨v, hv, ha, hj⟩
    obtain ⟨hk, rfl⟩ := List.getElem?_eq_some_iff.1 hv
    refine ⟨hk, by simpa using ha, fun j hjk => ?_⟩
    have := hj j _ hjk (List.getElem?_eq_getElem (by omega))
    simpa using this

/-- A slot as `allocate` starts it. -/
theorem Voice.start_eq (u : VoicePool) (f : F32) (v : Voice) : v.start u f = v.startedAt u f := rfl

/-- Everything `allocate` can do. -/
theorem State.allocate_cases (s : State) (f : F32) :
    (∃ k v, s.vpool.voices[k]? = some v ∧ v.active = false
        ∧ (∀ j w, j < k → s.vpool.voices[j]? = some w → w.active = true)
        ∧ s.allocate f = { s with vpool :=
            { s.vpool with voices := s.vpool.voices.set k (v.startedAt s.vpool f), lastSlot := BitVec.ofNat 32 k } })
      ∨ ((∀ v ∈ s.vpool.voices, v.active = true)
        ∧ s.allocate f = { s.withEvent .voiceDrop with vpool := { s.vpool with lastSlot := 0xFFFFFFFF } }) := by
  unfold State.allocate
  split
  · next h => exact .inr ⟨freeVoice_none.1 h, rfl⟩
  · next k h =>
    obtain ⟨v, hv, ha, hj⟩ := freeVoice_some.1 h
    refine .inl ⟨k, v, hv, ha, hj, ?_⟩
    have : s.vpool.voices.modify k (Voice.start s.vpool f) = s.vpool.voices.set k (v.startedAt s.vpool f) := by
      apply List.ext_getElem?
      intro i
      rw [List.getElem?_modify, List.getElem?_set]
      by_cases hi : k = i
      · subst hi
        obtain ⟨hk, rfl⟩ := List.getElem?_eq_some_iff.1 hv
        simp [hk, Voice.start_eq]
      · simp [hi]
    unfold VoicePool.startSlot
    rw [this]

/-- A voice's slot after a tick. -/
def Voice.ticked (cfg : Config.Params) (dt : F32) (u : VoicePool) (v : Voice) : Voice :=
  if v.active then (v.advance cfg dt u).ageOut cfg else v

/-- A tick of the pool acts slot by slot. -/
theorem voicesTick_voices (cfg : Config.Params) (dt : F32) (u : VoicePool) (vs : List Voice) :
    ∀ sum, (voicesTick cfg dt u vs sum).1 = vs.map (Voice.ticked cfg dt u) := by
  induction vs with
  | nil => intro sum; rfl
  | cons v vs ih =>
    intro sum
    unfold voicesTick
    by_cases h : v.active <;> simp [h, ih, Voice.ticked]

theorem vpoolTick_voices (cfg : Config.Params) (g : GlobalRegs) (u : VoicePool) :
    (vpoolTick cfg g u).voices = u.voices.map (Voice.ticked cfg g.dt u) := voicesTick_voices cfg g.dt u u.voices _

/-! ## Grains -/

theorem freeGrain_none {gs : List Grain} : freeGrain gs = none ↔ ∀ g ∈ gs, g.active = true := by
  simp [freeGrain, List.findIdx?_eq_none_iff]

/-- A grain's slot after a tick. -/
def Grain.ticked (dt : F32) (u : GranUnit) (g : Grain) : Grain :=
  if g.active then
    (if (g.advance dt u.srcRate).ended u then { g.advance dt u.srcRate with active := false } else g.advance dt u.srcRate)
  else g

/-- A tick of the pool acts slot by slot. -/
theorem grainsTick_grains (cfg : Config.Params) (dt : F32) (m : Memory) (u : GranUnit) (gs : List Grain) :
    ∀ sum, (grainsTick cfg dt m u gs sum).1 = gs.map (Grain.ticked dt u) := by
  induction gs with
  | nil => intro sum; rfl
  | cons g gs ih =>
    intro sum
    unfold grainsTick
    by_cases h : g.active
    · by_cases he : (g.advance dt u.srcRate).ended u <;> simp [h, he, ih, Grain.ticked]
    · simp [h, ih, Grain.ticked]

/-- With no active grain the sum is 0.0 and no slot changes. -/
theorem grainsTick_idle (cfg : Config.Params) (dt : F32) (m : Memory) (u : GranUnit) (gs : List Grain)
    (h : ∀ g ∈ gs, g.active = false) : ∀ sum, grainsTick cfg dt m u gs sum = (gs, sum) := by
  induction gs with
  | nil => intro sum; rfl
  | cons g gs ih =>
    intro sum
    unfold grainsTick
    simp [h g (by simp), ih fun x hx => h x (by simp [hx])]

/-- A spawn keeps the number of slots, the queue, the source and the clock. -/
theorem spawn_frame (cfg : Config.Params) (s : GranStep) :
    (spawn cfg s).1 = { s.1 with
      rng := (spawn cfg s).1.rng, grains := (spawn cfg s).1.grains, spawnCount := (spawn cfg s).1.spawnCount } := by
  unfold spawn; split <;> rfl

theorem spawn_grains_length (cfg : Config.Params) (s : GranStep) : (spawn cfg s).1.grains.length = s.1.grains.length := by
  unfold spawn; split <;> simp

theorem spawn_rng (cfg : Config.Params) (s : GranStep) :
    (spawn cfg s).1.rng = s.1.rng ∨ (spawn cfg s).1.rng = xorshift s.1.rng := by unfold spawn; split <;> simp

/-! ## STATUS bits of a unit's tick -/

/-- Raising an event sets one bit and keeps the others. -/
theorem raiseBit_getLsbD (e : Event) (w : Word) (k : Nat) :
    (raiseBit e w).getLsbD k = (w.getLsbD k || decide (k = e.code)) := by
  unfold raiseBit
  rw [BitVec.getLsbD_or]
  congr 1
  by_cases hk : k < 32
  · have : ∀ c < 6, ∀ k < 32, (1#32 <<< c).getLsbD k = decide (k = c) := by decide
    exact this e.code (by cases e <;> decide) k hk
  · rw [BitVec.getLsbD_of_ge _ _ (by omega)]
    symm
    rw [decide_eq_false_iff_not]
    intro h; subst h; apply hk; cases e <;> decide

/-! ## Comb lines -/

/-- A comb line's cursor after a tick. -/
theorem combsTick_cursors (cfg : Config.Params) (fb x : F32) (lines : List (Nat × Nat)) :
    ∀ (i : Nat) (m : Memory) (sum : F32), (combsTick cfg fb x i lines m sum).1 = lines.map fun l => cursorStep cfg l.2 := by
  induction lines with
  | nil => intros; rfl
  | cons l lines ih => intro i m sum; obtain ⟨len, w⟩ := l; simp [combsTick, ih]

/-- The comb lines store at their own cursors only. -/
theorem combsTick_read_out (cfg : Config.Params) (fb x : F32) (a : Nat) (lines : List (Nat × Nat)) :
    ∀ (i : Nat) (m : Memory) (sum : F32), (∀ k l, lines[k]? = some l → a ≠ (i + k) * cfg.dlyCap + l.2) →
      (combsTick cfg fb x i lines m sum).2.1.read cfg .comb a = m.read cfg .comb a := by
  induction lines with
  | nil => intros; rfl
  | cons l lines ih =>
    intro i m sum h
    obtain ⟨len, w⟩ := l
    simp only [combsTick]
    rw [ih]
    · exact Memory.read_write_ne _ _ _ _ _ fun e => h 0 _ rfl e.2
    · intro k l hk
      have := h (k + 1) l (by simpa using hk)
      rwa [show i + (k + 1) = i + 1 + k by omega] at this

/-- The comb lines keep the canonical form, with their cursors in range. -/
theorem combsTick_wf (cfg : Config.Params) (fb x : F32) (lines : List (Nat × Nat)) :
    ∀ (i : Nat) (m : Memory) (sum : F32), m.wf cfg = true → i + lines.length ≤ cfg.nComb →
      (∀ l ∈ lines, l.2 < cfg.dlyCap) → (combsTick cfg fb x i lines m sum).2.1.wf cfg = true := by
  induction lines with
  | nil => intro i m sum h _ _; exact h
  | cons l lines ih =>
    intro i m sum h hi hw
    obtain ⟨len, w⟩ := l
    simp only [combsTick]
    simp only [List.length_cons] at hi
    refine ih _ _ _ (Memory.wf_write _ h ?_) (by omega) fun l hl => hw l (by simp [hl])
    have h1 : w < cfg.dlyCap := hw (len, w) (by simp)
    have h2 : (i + 1) * cfg.dlyCap ≤ cfg.nComb * cfg.dlyCap := Nat.mul_le_mul_right _ (by omega)
    simp only [spaceSize]
    rw [Nat.add_mul] at h2
    omega

end Sys2Proof.Machine
end

