-- ==== Sys2Proof/Laws/Ports.lean ====
section
/-! SUPPORT. What the operations of a command port do, and everything one step can do (40_host_commands.md R400;
20_memory.md R210 to R213). -/

namespace Sys2Proof.Machine

/-! ## One port -/

/-- A port holds the words it is given. -/
@[simp] theorem Port.withWords_words (p : Port) (ws : List Word) : (p.withWords ws).words = ws := by
  unfold Port.withWords Port.words
  split
  · split <;> rfl
  · rfl

@[simp] theorem Port.withWords_pc (p : Port) (ws : List Word) : (p.withWords ws).pc = p.pc := by
  unfold Port.withWords; split <;> (try split) <;> rfl
@[simp] theorem Port.withWords_ticksLeft (p : Port) (ws : List Word) : (p.withWords ws).ticksLeft = p.ticksLeft := by
  unfold Port.withWords; split <;> (try split) <;> rfl
@[simp] theorem Port.withWords_resp (p : Port) (ws : List Word) : (p.withWords ws).resp = p.resp := by
  unfold Port.withWords; split <;> (try split) <;> rfl
@[simp] theorem Port.withWords_unsent (p : Port) (ws : List Word) : (p.withWords ws).unsent = p.unsent := by
  unfold Port.withWords; split <;> (try split) <;> rfl
@[simp] theorem Port.withWords_taken (p : Port) (ws : List Word) : (p.withWords ws).taken = p.taken := by
  unfold Port.withWords; split <;> (try split) <;> rfl

/-- A word is pending exactly while it is alone and the first of a 2-word command. -/
theorem Port.withWords_pending (p : Port) (ws : List Word) :
    (p.withWords ws).pending = match ws with
      | [w] => if commandLength w = 2 then some w else none
      | _ => none := by
  match ws with
  | [] => rfl
  | [w] => unfold Port.withWords; dsimp only; split <;> rfl
  | _ :: _ :: _ => rfl

@[simp] theorem Port.retire_pc (p : Port) (n : Nat) : (p.retire n).pc = p.pc + n := by simp [Port.retire]
@[simp] theorem Port.retire_ticksLeft (p : Port) (n : Nat) : (p.retire n).ticksLeft = 0 := by simp [Port.retire]
@[simp] theorem Port.retire_resp (p : Port) (n : Nat) : (p.retire n).resp = p.resp := by simp [Port.retire]
@[simp] theorem Port.retire_unsent (p : Port) (n : Nat) : (p.retire n).unsent = p.unsent := by simp [Port.retire]
@[simp] theorem Port.retire_taken (p : Port) (n : Nat) : (p.retire n).taken = p.taken := by simp [Port.retire]

/-- Moving past a command drops its words. -/
@[simp] theorem Port.retire_words (p : Port) (n : Nat) : (p.retire n).words = p.words.drop n := by simp [Port.retire]

/-- A word that arrives stands after those that have. -/
theorem Port.hostSend_words (p : Port) : p.hostSend.words ++ p.hostSend.unsent = p.words ++ p.unsent := by
  unfold Port.hostSend
  split
  · rfl
  · next h => simp [h]

/-- The head command is the first words that have arrived. -/
theorem Port.head_eq_some {p : Port} {w d : Word} :
    p.head = some (w, d) ↔
      (commandLength w = 1 ∧ d = 0 ∧ ∃ rest, p.words = w :: rest) ∨ (commandLength w ≠ 1 ∧ ∃ rest, p.words = w :: d :: rest) := by
  unfold Port.head
  split
  · next h => simp [h]
  · next v rest h =>
    rw [h]
    split
    · next hl =>
      constructor
      · intro e; cases e; exact .inl ⟨hl, rfl, rest, rfl⟩
      · rintro (⟨-, rfl, r, e⟩ | ⟨hn, r, e⟩)
        · cases e; rfl
        · cases e; exact absurd hl hn
    · next hl =>
      split
      · next x r =>
        constructor
        · intro e; cases e; exact .inr ⟨hl, r, rfl⟩
        · rintro (⟨h1, -, r', e⟩ | ⟨-, r', e⟩)
          · cases e; exact absurd h1 hl
          · cases e; rfl
      · constructor
        · intro e; cases e
        · rintro (⟨h1, -, r', e⟩ | ⟨-, r', e⟩)
          · cases e; exact absurd h1 hl
          · cases e

theorem Port.words_of_head {p : Port} {w d : Word} (h : p.head = some (w, d)) :
    (commandLength w = 1 ∧ ∃ rest, p.words = w :: rest) ∨ ∃ rest, p.words = w :: d :: rest := by
  rcases Port.head_eq_some.1 h with ⟨h1, -, hr⟩ | ⟨-, hr⟩
  · exact .inl ⟨h1, hr⟩
  · exact .inr hr

/-- Words that arrive behind a head command that has arrived leave it as it is. -/
theorem Port.head_hostSend {p : Port} {c : Word × Word} (h : p.head = some c) : p.hostSend.head = some c := by
  obtain ⟨w, d⟩ := c
  unfold Port.hostSend
  split
  · exact h
  · rw [Port.head_eq_some] at h ⊢
    simp only [Port.withWords_words]
    rcases h with ⟨h1, h2, r, e⟩ | ⟨h1, r, e⟩ <;> rw [e]
    · exact .inl ⟨h1, h2, _, rfl⟩
    · exact .inr ⟨h1, _, rfl⟩

theorem Port.ready_iff {cfg : Config.Params} {p : Port} :
    p.ready cfg = true ↔ ∃ w d, p.head = some (w, d) ∧ (opField w = 0x03 → p.resp.length < cfg.respDepth) := by
  unfold Port.ready
  split
  · next h => simp [h]
  · next w d h =>
    constructor
    · intro hr
      refine ⟨w, d, h, fun ho => ?_⟩
      simp [ho, Port.respFull] at hr; omega
    · rintro ⟨w', d', h', hr⟩
      rw [h] at h'; cases h'
      by_cases ho : opField w = 0x03
      · have := hr ho
        simp only [Port.respFull, Bool.not_eq_true', Bool.and_eq_false_iff, decide_eq_false_iff_not]; right; omega
      · simp only [Bool.not_eq_true', Bool.and_eq_false_iff, beq_eq_false_iff_ne]; exact .inl ho

theorem State.grant_ready {s : State} {p q : PortId} (h : s.grant p = some q) : (s.port q).ready s.cfg = true := by
  unfold State.grant at h
  split at h
  · next hr => cases h; exact hr
  · split at h
    · next hr => cases h; exact hr
    · cases h

@[simp] theorem State.port_reschedule (s : State) (p : PortId) : s.reschedule.port p = s.port p := by cases p <;> rfl

/-! ## The serving port moves past its command -/

theorem State.movedPast_retire (s : State) (n : Nat) : s.movedPast n [] (s.retire n) := by
  refine ⟨?_, ?_, ?_, ?_, ?_, ?_, ?_, ?_, ?_⟩ <;> simp

theorem State.movedPast_respond_retire (s : State) (w : Word) (n : Nat) :
    s.movedPast n [w] ((s.respond w).retire n) := by
  have hs : (s.respond w).serving = s.serving := s.respond_serving w
  have h1 := (s.respond w).port_retire n
  have h2 := (s.respond w).port_other_retire n
  rw [hs] at h1 h2
  refine ⟨?_, ?_, ?_, ?_, ?_, ?_, ?_, ?_, ?_⟩
  · simp [h1]
  · rw [h1, Port.retire_words]; simp [Port.words]
  all_goals simp [h1, h2]

/-- What holds of the ports of a state holds of every state with the same ports. -/
theorem State.movedPast_congr {s s' t : State} {n : Nat} {rs : List Word} (hA : s'.portA = s.portA) (hL : s'.portL = s.portL)
    (hs : s'.serving = s.serving) (hc : s'.sched = s.sched) (h : s'.movedPast n rs t) :
    s.movedPast n rs t := by
  have hp : ∀ p, s'.port p = s.port p := fun p => by cases p <;> assumption
  unfold State.movedPast at *
  simpa only [hp, hs, hc] using h

theorem State.memoryKept_of_mem {s t : State} (hc : t.cfg = s.cfg) (hm : t.mem = s.mem) : s.memoryKept t := by
  intro sp a; unfold State.read; rw [hc, hm]

/-! ## A command that ends by moving past its words -/

/-- u has the ports of s, and the same choice of agents. -/
def State.sharesPorts (s u : State) : Prop :=
  u.portA = s.portA ∧ u.portL = s.portL ∧ u.serving = s.serving ∧ u.sched = s.sched

theorem State.sharesPorts_self (s : State) : s.sharesPorts s := ⟨rfl, rfl, rfl, rfl⟩

theorem State.withPortsOf_setPort (s u : State) (p : PortId) (q : Port) : (u.setPort p q).withPortsOf s = u.withPortsOf s := by
  cases p <;> rfl

theorem State.withPortsOf_shared {s u : State} (h : s.sharesPorts u) : u.withPortsOf s = u := by
  obtain ⟨h1, h2, -⟩ := h
  unfold State.withPortsOf; rw [← h1, ← h2]

/-- What every command without a response does to its port: t is u, moved past n words. -/
theorem State.becomes_retire {s u : State} (n : Nat) (h : s.sharesPorts u) : s.becomes n [] u (u.retire n) := by
  refine ⟨?_, ?_⟩
  · rw [State.retire, State.withPortsOf_setPort, State.withPortsOf_shared h]
  · obtain ⟨h1, h2, h3, h4⟩ := h
    exact State.movedPast_congr h1 h2 h3 h4 (State.movedPast_retire u n)

/-- What a command with the response w does to its port. -/
theorem State.becomes_respond_retire {s u : State} (n : Nat) (w : Word) (h : s.sharesPorts u) :
    s.becomes n [w] u ((u.respond w).retire n) := by
  refine ⟨?_, ?_⟩
  · rw [State.retire, State.withPortsOf_setPort, State.respond, State.withPortsOf_setPort, State.withPortsOf_shared h]
  · obtain ⟨h1, h2, h3, h4⟩ := h
    exact State.movedPast_congr h1 h2 h3 h4 (State.movedPast_respond_retire u w n)

/-- Raising an event sets its bit, 2 to the code. -/
theorem State.raise_eq_withEvent (s : State) (e : Event) : s.raise e = s.withEvent e := by cases e <;> rfl

theorem State.becomes_badCommand (s : State) (n : Nat) :
    s.becomes n [] (s.withEvent .badCommand) (s.badCommand n) := by
  unfold State.badCommand
  rw [State.raise_eq_withEvent]
  exact State.becomes_retire n ⟨rfl, rfl, rfl, rfl⟩

theorem State.memoryKept_retire {s u : State} (n : Nat) (hc : u.cfg = s.cfg) (hm : u.mem = s.mem) :
    s.memoryKept (u.retire n) := State.memoryKept_of_mem (by simp [hc]) (by simp [hm])

theorem State.memoryKept_respond_retire {s u : State} (n : Nat) (w : Word) (hc : u.cfg = s.cfg) (hm : u.mem = s.mem) :
    s.memoryKept ((u.respond w).retire n) := State.memoryKept_of_mem (by simp [hc]) (by simp [hm])

/-! ## Every command -/

theorem encode_length_pos (i : Instr) : 0 < (encode i).length := by cases i <;> exact Nat.succ_pos _

/-- A run of note-ons changes no port. -/
theorem State.sharesPorts_allocates {α : Type} (hz : State → α → F32) (notes : List α) : ∀ {s u : State}, s.sharesPorts u →
    s.sharesPorts (notes.foldl (fun x n => x.allocate (hz x n)) u) := by
  induction notes with
  | nil => intro s u h; exact h
  | cons f fs ih =>
    intro s u h
    refine ih ?_
    obtain ⟨h1, h2, h3, h4⟩ := h
    exact ⟨by simp [h1], by simp [h2], by simp [h3], by simp [h4]⟩

/-- What a command can do to the ports and to the choice of agents: it moves its port past its words with at most one
response, or it is an RDREG that waits, or a TICK that has ticks left. -/
theorem exec_ports {i : Instr} {s t : State} (h : exec i s = .next t) :
    s.movedPast (encode i).length [] t
      ∨ (∃ unit reg w, i = .rdreg unit reg ∧ s.movedPast (encode i).length [w] t ∧ (s.port s.serving).respFull s.cfg = false)
      ∨ (∃ unit reg, i = .rdreg unit reg ∧ (s.port s.serving).respFull s.cfg = true ∧ t = s)
      ∨ ∃ imm k, i = .tick imm ∧ t = s.tick.holdTick k ∧ k ≠ 0
          ∧ (k = imm.toNat ∧ (s.port s.serving).ticksLeft = 0 ∨ k + 1 = (s.port s.serving).ticksLeft) := by
  have bad : ∀ n, s.movedPast n [] (s.badCommand n) := fun n => (State.becomes_badCommand s n).2
  have ret : ∀ (u : State) n, s.sharesPorts u → s.movedPast n [] (u.retire n) :=
    fun u n hu => (State.becomes_retire n hu).2
  have self := s.sharesPorts_self
  cases i with
  | nop => cases h; exact .inl (ret _ _ self)
  | tick imm =>
    have hs : s.sharesPorts s.tick := ⟨by simp, by simp, by simp, by simp⟩
    simp only [exec, execTick, Host.Outcome.next.injEq] at h
    by_cases h0 : (s.port s.serving).ticksLeft = 0
    · simp only [h0, if_true] at h
      split at h <;> subst h
      · exact .inl (ret s.tick 1 hs)
      · exact .inr (.inr (.inr ⟨imm, _, rfl, rfl, by omega, .inl ⟨by omega, h0⟩⟩))
    · simp only [h0, if_false] at h
      split at h <;> subst h
      · exact .inl (ret s.tick 1 hs)
      · exact .inr (.inr (.inr ⟨imm, _, rfl, rfl, by omega, .inr (by omega)⟩))
  | wrreg unit reg data =>
    simp only [exec, execWrreg] at h
    split at h
    · cases h; exact .inl (bad _)
    · next r hr =>
      split at h
      · cases h; exact .inl (bad _)
      · cases h
        refine .inl (ret _ _ ?_)
        cases r <;> exact ⟨rfl, rfl, rfl, rfl⟩
  | rdreg unit reg =>
    simp only [exec, execRdreg] at h
    split at h
    · next hf => cases h; exact .inr (.inr (.inl ⟨unit, reg, rfl, hf, rfl⟩))
    · next hf =>
      have hf' : (s.port s.serving).respFull s.cfg = false := by simpa using hf
      split at h <;> cases h
      · refine .inr (.inl ⟨unit, reg, 0, rfl, ?_, hf'⟩)
        exact (State.becomes_respond_retire (s := s) (u := s.raise .badCommand) 1 0 ⟨rfl, rfl, rfl, rfl⟩).2
      · next r hr =>
        exact .inr (.inl ⟨unit, reg, r.value s, rfl, (State.becomes_respond_retire _ _ self).2, hf'⟩)
  | sreset unit =>
    simp only [exec, execSreset] at h
    split at h
    · cases h; exact .inl (bad _)
    · split at h
      · cases h; exact .inl (ret _ _ ⟨rfl, rfl, rfl, rfl⟩)
      · cases h
        refine .inl (ret _ _ ?_)
        unfold State.resetUnit
        split <;> exact ⟨rfl, rfl, rfl, rfl⟩
  | clrstat mask => cases h; exact .inl (ret _ _ ⟨rfl, rfl, rfl, rfl⟩)
  | noteOn freq => cases h; exact .inl (ret _ _ (State.sharesPorts_allocates (fun _ f => f) [freq] self))
  | noteOnMidi note => cases h; exact .inl (ret _ _ (State.sharesPorts_allocates (fun _ f => f) [_] self))
  | noteOff slot =>
    simp only [exec, execNoteOff] at h
    split at h <;> cases h
    · exact .inl (ret _ _ ⟨rfl, rfl, rfl, rfl⟩)
    · exact .inl (bad _)
  | allOff => cases h; exact .inl (ret _ _ ⟨rfl, rfl, rfl, rfl⟩)
  | chordOn chord root =>
    simp only [exec, execChordOn] at h
    split at h <;> cases h
    · refine .inl (ret _ _ ?_)
      exact State.sharesPorts_allocates (fun x n => noteHz x.cfg n) _ self
    · exact .inl (bad _)
  | bankBegin bank =>
    simp only [exec, execBankBegin] at h
    split at h <;> cases h
    · refine .inl (ret _ _ ?_)
      split <;> exact ⟨rfl, rfl, rfl, rfl⟩
    · exact .inl (bad _)
  | bankData sample =>
    simp only [exec, execBankData] at h
    split at h
    · split at h <;> cases h
      · exact .inl (ret _ _ ⟨rfl, rfl, rfl, rfl⟩)
      · exact .inl (ret _ _ ⟨rfl, rfl, rfl, rfl⟩)
    · cases h; exact .inl (bad _)
  | bankCommit =>
    simp only [exec, execBankCommit] at h
    split at h
    · split at h <;> cases h <;> exact .inl (ret _ _ ⟨rfl, rfl, rfl, rfl⟩)
    · cases h; exact .inl (bad _)
  | bankAbort =>
    simp only [exec, execBankAbort] at h
    split at h <;> cases h
    · exact .inl (ret _ _ ⟨rfl, rfl, rfl, rfl⟩)
    · exact .inl (bad _)
  | srcBegin rate =>
    simp only [exec, execSrcBegin] at h
    cases h
    refine .inl (ret _ _ ?_)
    split <;> exact ⟨rfl, rfl, rfl, rfl⟩
  | srcData sample =>
    simp only [exec, execSrcData] at h
    split at h
    · split at h <;> cases h <;> exact .inl (ret _ _ ⟨rfl, rfl, rfl, rfl⟩)
    · cases h; exact .inl (bad _)
  | srcCommit =>
    simp only [exec, execSrcCommit] at h
    split at h
    · split at h <;> cases h <;> exact .inl (ret _ _ ⟨rfl, rfl, rfl, rfl⟩)
    · cases h; exact .inl (bad _)
  | srcAbort =>
    simp only [exec, execSrcAbort] at h
    split at h <;> cases h
    · exact .inl (ret _ _ ⟨rfl, rfl, rfl, rfl⟩)
    · exact .inl (bad _)
  | granSpawn => cases h; exact .inl (ret _ _ ⟨rfl, rfl, rfl, rfl⟩)

/-! ## The head command decoded -/

/-- A 1-word command does not read a data word. -/
theorem decodeRow_short {w d d' : Word} (h : commandLength w = 1) : decodeRow w d = decodeRow w d' := by
  unfold commandLength at h
  split at h
  · omega
  · next ho =>
    unfold decodeRow
    simp only
    have hop : opField w = BitVec.ofNat 6 (opField w).toNat := by simp
    split <;> first | rfl | (rename_i e; rw [e] at hop; exact absurd hop (by intro hh; rw [hh] at ho; simp at ho))

/-- The words from a port's position on decode as its head command does. -/
theorem decodeWords_of_head {cfg : Config.Params} {p : Port} {w d : Word} (h : p.head = some (w, d)) :
    ∃ rest, decodeWords cfg p.words = (decodeCommand cfg w d).map fun i => (i, rest) := by
  rcases commandLength_eq w with h1 | h2
  · rcases Port.words_of_head h with ⟨-, rest, e⟩ | ⟨rest, e⟩ <;> rw [e]
    · exact ⟨rest, by simp [decodeWords, h1, decodeCommand, decodeRow_short (d := d) (d' := 0) h1]⟩
    · exact ⟨d :: rest, by simp [decodeWords, h1, decodeCommand, decodeRow_short (d := d) (d' := 0) h1]⟩
  · rcases Port.words_of_head h with ⟨h1, rest, e⟩ | ⟨rest, e⟩
    · omega
    · rw [e]; exact ⟨rest, by simp [decodeWords, h2]⟩

theorem encode_length_le (i : Instr) : (encode i).length ≤ 2 := by cases i <;> simp [encode]

/-- The words of the head command have arrived. -/
theorem Port.head_length {p : Port} {w d : Word} (h : p.head = some (w, d)) : commandLength w ≤ p.words.length := by
  rcases Port.words_of_head h with ⟨h1, r, e⟩ | ⟨r, e⟩ <;> rw [e]
  · simp [h1]
  · rcases commandLength_eq w with h | h <;> simp [h]

/-- A command is as long as its OP says (30_encoding.md R302). -/
theorem decode_length {cfg : Config.Params} {w d : Word} {i : Instr} (h : decodeCommand cfg w d = .ok i) :
    (encode i).length = commandLength w := by
  obtain ⟨h, hwf⟩ := decodeCommand_ok h
  unfold decodeRow at h
  have hop : opField w = BitVec.ofNat 6 (opField w).toNat := by simp
  simp only [] at h
  split at h <;> first
    | (rename_i hop'
       rw [hop'] at hop
       obtain ⟨hb, rfl⟩ := checkFixed_ok h
       simp [encode, commandLength, hop])
    | cases h

/-! ## One step -/

/-- Everything one step can do: the arrival of a word, the removal of a response, a hold, the execution of the head
command of a ready port, or of an illegal word there. -/
theorem step_cases {s t : State} (h : step s = .next t) :
    (∃ p, s.sched.turn = .hostSend p ∧ t = s.reschedule.setPort p (s.port p).hostSend)
      ∨ (∃ p, s.sched.turn = .hostTake p ∧ t = s.reschedule.setPort p (s.port p).hostTake)
      ∨ (∃ p, s.sched.turn = .port p ∧ s.grant p = none ∧ t = s.reschedule)
      ∨ ∃ p q w d, s.sched.turn = .port p ∧ s.grant p = some q ∧ (s.port q).head = some (w, d)
          ∧ (opField w = 0x03 → (s.port q).resp.length < s.cfg.respDepth)
          ∧ ((∃ i, decodeCommand s.cfg w d = .ok i ∧ exec i { s.reschedule with serving := q } = .next t)
            ∨ ((∀ i, decodeCommand s.cfg w d ≠ .ok i) ∧ t = State.illegal w { s.reschedule with serving := q })) := by
  unfold step at h
  split at h
  · next p hp =>
    split at h
    · next hg => right; right; left; cases h; exact ⟨p, hp, hg, rfl⟩
    · next q hg =>
      right; right; right
      obtain ⟨w, d, hh, hr⟩ := Port.ready_iff.1 (State.grant_ready hg)
      refine ⟨p, q, w, d, hp, hg, hh, hr, ?_⟩
      unfold State.execute at h
      have hport : State.port { s.reschedule with serving := q } q = s.port q := by cases q <;> rfl
      simp only [hport, hh] at h
      split at h
      · next i hd => exact .inl ⟨i, hd, h⟩
      · next e hd =>
        refine .inr ⟨fun i hi => ?_, ?_⟩
        · have : decodeCommand s.cfg w d = .error e := hd
          rw [this] at hi; cases hi
        · cases h; rfl
  · next p hp => left; cases h; exact ⟨p, hp, by simp⟩
  · next p hp => right; left; cases h; exact ⟨p, hp, by simp⟩

/-! ## The arbiter (20_memory.md R211, R218; log entry 9) -/

/-- A port that is not given the turn has one choice less to wait for; a port that may not be passed over is given it, but
for port L where port A may not be passed over either. -/
theorem Arbiter.next_wait (c : Arbiter) (p : PortId) :
    c.next.turn = .port p ∨ (0 < c.wait p ∧ c.next.wait p = c.wait p - 1)
      ∨ (p = .L ∧ c.wait p = 0 ∧ c.next.turn = .port .A ∧ c.next.wait p = 0 ∧ 0 < c.next.waitA) := by
  cases p <;> simp only [Arbiter.next, Arbiter.wait] <;> split_ifs <;> simp_all <;> omega

end Sys2Proof.Machine
end

