-- ==== Sys2Proof/Tests/Slice0.lean ====
section
/-! SUPPORT. Tests of the model: words of spec/95_test_vectors.md and the tables of 30_encoding.md, an ill-formed term for
every check of WellFormed.lean, one step per command against values of the spec, and, for every statement of
Certificates/Slice0/Obligations.lean that has hypotheses, a concrete state and operands that meet them. -/

namespace Sys2Proof.Tests

open Machine

/-! ## A small legal instance and its states -/

/-- A legal instance with few and short memories (00_scope.md R9). -/
def small : Config.Params :=
  { Config.Params.default with
    tableSize := 4, numFrames := 2, mipLevels := 3, stageMax := 8, nVoices := 2, nGrains := 2, gqDepth := 2, srcMax := 4
    ringCap := 20, loopMax := 18, dlyCap := 8, combLen := [1, 7], respDepth := 2 }

/-- The small instance after reset, at port A's turn. -/
def start : State := { State.resetOf small with sched := { arbiterReset with turn := .port .A } }

/-- The same with words at the head of port A. -/
def fed (ws : List Word) : State := { start with portA := { portReset with stream := ws } }

/-- The same at a sample rate of 1024 Hz, where dt is exact (95_test_vectors.md). -/
def at1024 : State := { start with global := { start.global with sampleRate := 0x44800000, dt := 0x3A800000 } }

/-- The state a command leaves. -/
def after (i : Instr) (s : State) : Option State :=
  match exec i s with
  | .next t => some t
  | .fault _ => none
  | .refused _ => none

/-- A voice slot that sounds. -/
def sounding : Voice := { voiceReset small with active := true, gate := true, gatePrev := true, primed := true }

/-- Both slots sound. -/
def fullPool : State := { start with vpool := { start.vpool with voices := [sounding, sounding] } }

/-- The load of table W1 of 95_test_vectors.md, ready to be committed into bank 0. -/
def staged : State :=
  { start with
    wt := { start.wt with loading := true, target := 0, count := 8, ready := [false, true, true, true] }
    mem := { start.mem with wtStage :=
      [(1, 0x3F800000), (2, 0x40000000), (3, 0x3F800000), (5, 0xBF800000), (6, 0xC0000000), (7, 0xBF800000)] } }

/-- An open source load with n samples. -/
def sourceOpen (n : Nat) : State := { start with gran := { start.gran with srcLoading := true, srcCount := n } }

/-- A TICK at the head of port A, and a source of two samples. -/
def withSource : State := { fed [0x04000003] with gran := { start.gran with srcLen := 2 } }

/-! ## WellFormed: a term each check refuses, and the last one it takes (30_encoding.md R304) -/

theorem test_wrreg_unit_9_refused : (Instr.wrreg 9 0 0).wellFormed .default = false ∧
    (Instr.wrreg 8 0 0).wellFormed .default = true := by decide

theorem test_rdreg_unit_9_refused : (Instr.rdreg 9 0).wellFormed .default = false ∧
    (Instr.rdreg 8 0).wellFormed .default = true := by decide

theorem test_sreset_unit_9_refused : (Instr.sreset 9).wellFormed .default = false ∧
    (Instr.sreset 8).wellFormed .default = true := by decide

theorem test_note_off_slot_8_refused : (Instr.noteOff 8).wellFormed .default = false ∧
    (Instr.noteOff 7).wellFormed .default = true := by decide

theorem test_chord_code_8_refused : (Instr.chordOn 8 60).wellFormed .default = false ∧
    (Instr.chordOn 7 60).wellFormed .default = true := by decide

theorem test_bank_4_refused : (Instr.bankBegin 4).wellFormed .default = false ∧
    (Instr.bankBegin 3).wellFormed .default = true := by decide

/-! ## Decoding: words of tables EN1 and EN2 of 95_test_vectors.md -/

theorem test_decode_nop : decodeWords .default [0x00000000] = .ok (.nop, []) := by decide

theorem test_decode_tick : decodeWords .default [0x04000003] = .ok (.tick 3, []) ∧
    decodeWords .default [0x04003FFF] = .ok (.tick 0x3FFF, []) := by decide

theorem test_decode_wrreg : decodeWords .default [0x08004000, 0x44800000] = .ok (.wrreg 0 1 0x44800000, []) ∧
    decodeWords .default [0x09840000, 0x3EA00000] = .ok (.wrreg 6 0x10 0x3EA00000, []) := by decide

theorem test_decode_rdreg : decodeWords .default [0x0D270000] = .ok (.rdreg 4 0x9C, []) ∧
    decodeWords .default [0x0E090000] = .ok (.rdreg 8 0x24, []) := by decide

theorem test_decode_sreset : decodeWords .default [0x10000000] = .ok (.sreset 0, []) ∧
    decodeWords .default [0x11000000] = .ok (.sreset 4, []) := by decide

theorem test_decode_clrstat : decodeWords .default [0x1400003F] = .ok (.clrstat 0x3F, []) := by decide

theorem test_decode_note_on : decodeWords .default [0x21000000, 0x42800000] = .ok (.noteOn 0x42800000, []) := by decide

theorem test_decode_note_on_midi : decodeWords .default [0x2500003C] = .ok (.noteOnMidi 60, []) := by decide

theorem test_decode_note_off : decodeWords .default [0x2901C000] = .ok (.noteOff 7, []) := by decide

theorem test_decode_all_off : decodeWords .default [0x2D000000] = .ok (.allOff, []) := by decide

theorem test_decode_chord_on : decodeWords .default [0x3100803C] = .ok (.chordOn 2 60, []) := by decide

theorem test_decode_bank_begin : decodeWords .default [0x40804000] = .ok (.bankBegin 1, []) := by decide

theorem test_decode_bank_data :
    decodeWords .default [0x44800000, 0x3F000000] = .ok (.bankData 0x3F000000, []) := by decide

theorem test_decode_bank_commit : decodeWords .default [0x48800000] = .ok (.bankCommit, []) := by decide

theorem test_decode_bank_abort : decodeWords .default [0x4C800000] = .ok (.bankAbort, []) := by decide

theorem test_decode_src_begin :
    decodeWords .default [0x51400000, 0x44800000] = .ok (.srcBegin 0x44800000, []) := by decide

theorem test_decode_src_data :
    decodeWords .default [0x55400000, 0x3F000000] = .ok (.srcData 0x3F000000, []) := by decide

theorem test_decode_src_commit : decodeWords .default [0x59400000] = .ok (.srcCommit, []) := by decide

theorem test_decode_src_abort : decodeWords .default [0x5D400000] = .ok (.srcAbort, []) := by decide

theorem test_decode_gran_spawn : decodeWords .default [0x61400000] = .ok (.granSpawn, []) := by decide

theorem test_undefined_ops_refused :
    decodeWords .default [0x18000000] = .error .undefinedOp ∧ decodeWords .default [0x1C000000] = .error .undefinedOp ∧
      decodeWords .default [0x34000000] = .error .undefinedOp ∧ decodeWords .default [0x64000000] = .error .undefinedOp ∧
      decodeWords .default [0xFFFFFFFF] = .error .undefinedOp := by decide

theorem test_fixed_fields_refused :
    decodeWords .default [0x00000001] = .error .fixedField ∧ decodeWords .default [0x04400000] = .error .fixedField ∧
      decodeWords .default [0x08000001, 0x44800000] = .error .fixedField ∧
      decodeWords .default [0x20000000, 0x42800000] = .error .fixedField ∧
      decodeWords .default [0x25000080] = .error .fixedField ∧ decodeWords .default [0x3100603C] = .error .fixedField ∧
      decodeWords .default [0x61400001] = .error .fixedField := by decide

theorem test_operand_ranges_refused :
    decodeWords .default [0x0E400000] = .error .operandRange ∧ decodeWords .default [0x12400000] = .error .operandRange ∧
      decodeWords .default [0x29020000] = .error .operandRange ∧ decodeWords .default [0x3102003C] = .error .operandRange ∧
      decodeWords .default [0x40810000] = .error .operandRange ∧
      decodeWords .default [0x08004000] = .error .incomplete := by decide

/-- The least significant byte of a word goes first (20_memory.md R205). -/
theorem test_decode_bytes : decodeBytes .default [0x00, 0x40, 0x00, 0x08, 0x01, 0x02, 0x03, 0x44] =
    .ok (.wrreg 0 1 0x44030201, []) := by decide

/-- The numbering of spec/opcode_table.json: the data word is bits 63 to 32. -/
theorem test_decode_table_word : decodeTableWord 64 0x4480000008004000 = some (.wrreg 0 1 0x44800000) ∧
    decodeTableWord 32 0x2500003C = some (.noteOnMidi 60) ∧ decodeTableWord 32 0x18000000 = none := by decide

/-! ## One step per command (95_test_vectors.md, sections 2.2 to 2.9) -/

/-- Table C1: the port moves from 0 to 1. -/
theorem test_nop : (after .nop (fed [0, 0x04000003])).map (fun t => (t.portA.pc, t.portA.stream)) =
    some (1, [0x04000003]) := by decide

/-- Table C1: TICK_COUNT counts modulo 2^32. -/
theorem test_tick_count_wraps :
    (after (.tick 0) { start with global := { start.global with tickCount := 0xFFFFFFFF } }).map (·.global.tickCount) =
      some 0 := by decide

/-- 40_host_commands.md R407: tick 4 leaves three ticks after its first. -/
theorem test_tick_holds_its_port : (after (.tick 3) (fed [0x04000003])).map
    (fun t => (t.portA.ticksLeft, t.portA.pc)) = some (3, 0) := by decide

/-- Table G2: SAMPLE_RATE 1024.0 sets DT to 2^-10. -/
theorem test_wrreg_sample_rate : (after (.wrreg 0 1 0x44800000) start).map
    (fun t => (t.global.sampleRate, t.global.dt)) = some (0x44800000, 0x3A800000) := by decide

/-- Table EN2: a write of GLOBAL.DT, an O register, is BadCommand and stores nothing. -/
theorem test_wrreg_read_only : (after (.wrreg 0 2 0x3F800000) at1024).map (fun t => (t.global.status, t.global.dt)) =
    some (0x20, 0x3A800000) := by decide

/-- Table G1: GLOBAL.ID. -/
theorem test_rdreg_id : (after (.rdreg 0 0) start).map (·.portA.resp) = some [0x4F4D4E37] := by decide

/-- Table EN2: a slot at N_VOICES is unmapped: the response is 0 and STATUS is 0x20. -/
theorem test_rdreg_unmapped : (after (.rdreg 4 0x88) start).map (fun t => (t.portA.resp, t.global.status)) =
    some ([0], 0x20) := by decide

/-- Table C1: `sreset 4` frees every voice and keeps STATUS. -/
theorem test_sreset_vpool : (after (.sreset 4) { fullPool with global := { start.global with status := 1 } }).map
    (fun t => (t.vpool.voices.map Voice.active, t.global.status)) = some ([false, false], 1) := by decide

/-- Table C1: `sreset all` restores SAMPLE_RATE and keeps the port's position. -/
theorem test_sreset_all : (after (.sreset 0) { at1024 with portA := { portReset with pc := 6 } }).map
    (fun t => (t.global.sampleRate, t.portA.pc)) = some (0x472C4400, 7) := by decide

/-- Table C1: STATUS 0x28, mask 0x20. -/
theorem test_clrstat : (after (.clrstat 0x20) { start with global := { start.global with status := 0x28 } }).map
    (·.global.status) = some 0x08 := by decide

/-- Table V2: 30000 Hz is clamped to 20000 Hz. -/
theorem test_note_on_clamps : (after (.noteOn 0x46EA6000) start).map
    (fun t => (t.vpool.voices.map Voice.target, t.vpool.lastSlot)) = some ([0x469C4000, 0], 0) := by decide

/-- Table V3: a full pool drops the note. -/
theorem test_note_on_full : (after (.noteOn 0x4479C000) fullPool).map
    (fun t => (t.vpool.voices, t.vpool.lastSlot, t.global.status)) =
      some ([sounding, sounding], 0xFFFFFFFF, 1) := by decide

/-- Table V2: note 60 is F_C4 exactly, note 72 an octave above. -/
theorem test_note_on_midi : (after (.noteOnMidi 72) start).map (fun t => t.vpool.voices.map Voice.freq) =
    some [0x4402D014, 0] := by decide

/-- 44_voice_pool.md R622: only the named slot's gate closes. -/
theorem test_note_off : (after (.noteOff 1) fullPool).map (fun t => t.vpool.voices.map Voice.gate) =
    some [true, false] := by decide

/-- 44_voice_pool.md R623. -/
theorem test_all_off : (after .allOff fullPool).map (fun t => t.vpool.voices.map Voice.gate) =
    some [false, false] := by decide

/-- Table V3: with one slot free the root sounds and the other notes are dropped. -/
theorem test_chord_on : (after (.chordOn 0 60) { start with vpool := { start.vpool with
      voices := [sounding, voiceReset small] } }).map
    (fun t => (t.vpool.voices.map Voice.freq, t.vpool.lastSlot, t.global.status)) =
      some ([0, 0x4382D014], 0xFFFFFFFF, 1) := by decide

/-- Table W6: a second BANK_BEGIN discards the load of bank 0, which is ready again. -/
theorem test_bank_begin : (after (.bankBegin 1) staged).map
    (fun t => (t.wt.ready, t.wt.target, t.wt.count, t.global.status)) =
      some ([true, false, true, true], 1, 0, 0x08) := by decide

/-- Table W5: an infinite sample is staged as 0.0; a full staging memory drops the word. -/
theorem test_bank_data :
    (after (.bankData 0x7F800000) { staged with wt := { staged.wt with count := 3 } }).map
      (fun t => (t.read .wtStage 3, t.wt.count)) = some (0, 4) ∧
    (after (.bankData 0x3F800000) staged).map (fun t => (t.wt.count, t.global.status)) = some (8, 0x10) := by
  decide

/-- Table W1: the map after the commit is [4, 1, 2, 3] with spare slot 0; frame 0 level 1 is [0.25, 0.25, 0.75, 0.75]. -/
theorem test_bank_commit : (after .bankCommit staged).map (fun t => (t.wt.slotOf, t.wt.spare)) =
      some ([4, 1, 2, 3], 0) ∧
    (after .bankCommit staged).map (fun t => (t.read .bankmem (bankIndex small 4 0 1 0),
      t.read .bankmem (bankIndex small 4 0 1 2))) = some (0x3E800000, 0x3F400000) := by decide

/-- Table W6: an abort keeps the map and sets LOAD_FAIL. -/
theorem test_bank_abort : (after .bankAbort staged).map
    (fun t => (t.wt.slotOf, t.wt.ready, t.wt.loading, t.global.status)) =
      some ([0, 1, 2, 3], [true, true, true, true], false, 0x08) := by decide

/-- 45_granular.md R660: the rate is clamped to at least 1.0. -/
theorem test_src_begin : (after (.srcBegin 0x3F000000) start).map
    (fun t => (t.gran.srcStageRate, t.gran.srcLoading)) = some (0x3F800000, true) := by decide

/-- 45_granular.md R661: sample 3 goes into buffer 1 while the grains read buffer 0. -/
theorem test_src_data : (after (.srcData 0x3F000000) (sourceOpen 3)).map
    (fun t => (t.mem.gsrc, t.gran.srcCount)) = some ([(7, 0x3F000000)], 4) := by decide

/-- 45_granular.md R662. -/
theorem test_src_commit : (after .srcCommit (sourceOpen 2)).map
    (fun t => (t.gran.srcCur, t.gran.srcLen, t.gran.srcLoading)) = some (1, 2, false) := by decide

/-- 45_granular.md R662 and R663: one sample is too few, and an abort discards. -/
theorem test_src_discarded :
    (after .srcCommit (sourceOpen 1)).map (fun t => (t.gran.srcCur, t.global.status)) = some (0, 0x08) ∧
      (after .srcAbort (sourceOpen 4)).map (fun t => (t.gran.srcCur, t.global.status)) = some (0, 0x08) := by decide

/-- 45_granular.md R664: with GQ_DEPTH 2 the third event overflows. -/
theorem test_gran_spawn : (after .granSpawn { start with gran := { start.gran with queue := [.clock, .host] } }).map
    (fun t => (t.gran.queue, t.global.status)) = some ([.clock, .host], 0x04) := by decide

/-! ## Ports and the arbiter (20_memory.md R211, R212, R218) -/

/-- R212: the first word of a WRREG is pending until its data word arrives. -/
theorem test_pending_until_data :
    let p := ({ portReset with unsent := [0x08004000, 0x44800000] } : Port).hostSend
    p.pending = some 0x08004000 ∧ p.stream = [] ∧ p.hostSend.pending = none ∧
      p.hostSend.stream = [0x08004000, 0x44800000] := by decide

/-- R218: a port that may not be passed over again comes next. -/
theorem test_starved_port_comes_next : (Arbiter.next ⟨.port .A, 5, 3, 0⟩).turn = .port .L := rfl

/-! ## Unit ticks (95_test_vectors.md, sections 2.4 to 2.10) -/

/-- Table O4, WAVE 2, PITCH 0, tick 1. -/
theorem test_osc_tick : (after (.tick 0) { at1024 with osc := { oscReset with wave := 2 } }).map
    (fun t => (t.osc.freq, t.osc.phase, t.osc.out)) = some (0x4382D014, 0x3E82D014, 0xC01C7BE7) := by decide

/-- Table O1, four of its corners. -/
theorem test_phase_step : phaseStep 0x3A800000 0x3F400000 0x44000000 = 0x3E800000 ∧
    phaseStep 0x3A800000 0x3F700000 0x42800000 = 0 ∧ phaseStep 0x3A800000 0x3E800000 0xC4000000 = 0x3F400000 ∧
    phaseStep 0x3A800000 0 0xB5800000 = 0 := by decide

/-- Table W3: the cubic and the linear read at 0.375. -/
theorem test_table_read : tableRead 4 ([0, 0x3F000000, 0x3F800000, 0x3F000000].getD · 0) 0x3EC00000 2 = 0x3F500000 ∧
    tableRead 4 ([0, 0x3F000000, 0x3F800000, 0x3F000000].getD · 0) 0x3EC00000 1 = 0x3F400000 := by decide +kernel

/-- Table E1: tick 1 of the attack. -/
theorem test_env_tick : (after (.tick 0) { at1024 with env :=
      { envReset with attack := 0x3D800000, gateIn := 0x40A00000 } }).map (fun t => (t.env.state, t.env.level)) = some (.attack, 0x3C800000) := by decide

/-- Table GR1: the first two draws from the reset seed. -/
theorem test_draws : xorshift 0x9E3779B9 = 0x510C4619 ∧ drawValue 0x510C4619 = 0x3EA2188C ∧
    xorshift 0x510C4619 = 0xE02E553E := by decide

/-- Table V1: one voice, tick 1. -/
theorem test_vpool_tick : (after (.tick 0) { at1024 with vpool := { start.vpool with
      attack := 0x3D800000, wave := 2, variant := 1
      voices := [{ sounding with freq := 0x42800000, target := 0x42800000, envState := .attack, wave := 2 },
        voiceReset small] } }).map (·.vpool.out) = some 0xBD8C0000 := by decide +kernel

set_option maxRecDepth 20000 in
/-- 42_wavetable.md R510: with level 0 of frame 0 [0, 0.5, 1, 0.5] and the phase 0.125 after the advance, QUALITY 2 gives
0.9375 V; PITCH -12 keeps the mip level 0. -/
theorem test_wt_tick : (after (.tick 0) { at1024 with
      wt := { start.wt with pitch := 0xC1400000, phase := 0x3F7F4BFB }
      mem := { start.mem with bankmem := [(0, 0), (1, 0x3F000000), (2, 0x3F800000), (3, 0x3F000000),
        (12, 0), (13, 0x3F000000), (14, 0x3F800000), (15, 0x3F000000)] } }).map
    (fun t => (t.wt.phase, t.wt.mip, t.wt.out)) = some (0x3E000000, 0, 0x3F700000) := by decide

/-- Two events, and one free slot beside a grain that sounds at 0.0. -/
def spawning : State :=
  { at1024 with
    gran := { start.gran with
      queue := [.host, .host], density := 0, size := 0x3D800000, srcLen := 4, srcRate := 0x44800000
      grains := [⟨true, 0, 0x3D800000, 0, 0⟩, grainReset] }
    mem := { start.mem with gsrc := [(0, 0), (1, 0x3F000000), (2, 0x3F800000), (3, 0x3F000000)] } }

set_option maxRecDepth 20000 in
/-- 45_granular.md R670: the first event starts a grain that gives 0.390625 V at its phase 1.0; the second finds the pool
full and sets GRAIN_DROP. -/
theorem test_gran_tick : (after (.tick 0) spawning).map
    (fun t => (t.gran.out, t.gran.spawnCount, t.gran.grains.map Grain.phase, t.gran.queue, t.global.status)) =
      some (0x3EC80000, 1, [0, 0x3F800000], [], 0x02) := by decide

/-- 46_looper.md R702: the inputs in working range go to the write cursor of both channels. -/
theorem test_ring_write : (after (.tick 0) { at1024 with loop := { loopReset with inL := 0x40A00000, wcur := 19 } }).map
    (fun t => (t.mem.ring, t.loop.wcur)) = some ([(19, 0x3F800000)], 0) := by decide

/-- The loop of tables LP1 to LP5, 0.0625 to 1.0 in 16 samples, read at a position. -/
def playing (pos : F32) : State :=
  { at1024 with
    loop := { loopReset with state := .active, loopLen := 16, intensity := 0x3F800000, boostEn := 0, pos := pos }
    mem := { start.mem with loopbuf := (List.range 16).map fun i => (i, fdiv (toF32 (i + 1)) 0x41800000) } }

set_option maxRecDepth 20000 in
/-- Table LP3, tick 29: with a window of 4 the seam gives lerp(0.875, 0.125, 0.25) · 5; table LP5, ticks 28 and 17: a speed
of 1.84375 takes the position round the loop, and the ramp begins with 1.0112305. -/
theorem test_loop_play :
    (after (.tick 0) { playing 0x41500000 with
        loop := { (playing 0x41500000).loop with buildIn := 0x41200000, xfLen := 4 } }).map
      (fun t => (t.loop.outL, t.loop.pos)) = some (0x405C0000, 0x41600000) ∧
    playSpeed { loopReset with rampS := 0x3C800000, tAct := 0x3C400000 } = 0x3FEC0000 ∧
    playSpeed { loopReset with rampS := 0x3C800000, tAct := 0x3A800000 } = 0x3F817000 ∧
    boost 0x3F000000 = 0x3F2AAAAB := by decide

set_option maxRecDepth 20000 in
/-- Table LP4, tick 18: the second tick of the exit fade, at the position 2. -/
theorem test_loop_exit : (after (.tick 0) { playing 0x40000000 with
      loop := { (playing 0x40000000).loop with state := .exitFade, tExit := 0x3A800000 } }).map
    (fun t => (t.loop.outL, t.loop.tExit)) = some (0x3F644800, 0x3B000000) := by decide

/-- 47_delay.md R751: an impulse is pushed on every comb line and the dry part passes. -/
theorem test_reverb : (after (.tick 0) { at1024 with dly := { start.dly with revIn := 0x40A00000 } }).map
    (fun t => (t.mem.comb, t.dly.combW, t.dly.revOut)) =
      some ([(0, 0x3F800000), (8, 0x3F800000)], [1, 1], 0x40700000) := by decide

/-- 48_arp.md R810: the first tick steps, on note 60. -/
theorem test_arp_tick : (after (.tick 0) at1024).map (fun t => (t.arp.stepCount, t.arp.note, t.arp.trigOut, t.arp.index)) =
    some (1, 60, 0x41200000, 1) := by decide

/-! ## Witnesses: states and operands that meet the hypotheses of the statements, at the ends of their ranges -/

/-- The registers of the small instance hold legal values at reset. -/
theorem start_registersOk : start.registersOk := by
  intro r
  rcases r with r | r | r | r | r | r | r | r | r <;> cases r <;> rfl

/-- DecodeReadsBackEncode: the largest operand of each check. -/
theorem witness_wellFormed : (Instr.noteOff 7).wellFormed .default = true ∧
    (Instr.wrreg 8 0xFF 0xFFFFFFFF).wellFormed .default = true ∧ (Instr.chordOn 7 127).wellFormed .default = true ∧
    (Instr.bankBegin 3).wellFormed .default = true := by decide

/-- EncodeReadsBackDecode. -/
theorem witness_decodeCommand : decodeCommand .default 0x2901C000 0 = .ok (.noteOff 7) ∧
    decodeCommand .default 0x08004000 0x44800000 = .ok (.wrreg 0 1 0x44800000) := by decide

/-- WellFormedWordsMatchTheTable, both halves. -/
theorem witness_accepts : decodeCommand .default 0x2901C000 0 = .ok (.noteOff 7) ∧
    ∃ r ∈ encodingTable, r.accepts .default 0x2901C000 = true :=
  ⟨by decide, ⟨0x29000000, 0xFFC03FFF, .slot⟩, by decide, by decide⟩

/-- StepRunsTheDecodedCommand: port A is granted its own turn, and port L's turn. -/
theorem witness_stepRuns : ∀ p, { fed [0x04000003] with sched := { arbiterReset with turn := .port p } }.grant p = some .A ∧
    decodeWords small ((fed [0x04000003]).port .A).words = .ok (.tick 3, []) := by
  intro p; cases p <;> decide

/-- StepTakesAnIllegalWord: a NOP with an IMM, and an RDREG of unit 9. -/
theorem witness_illegal :
    ((fed [0x00000001]).sched.turn = .port .A ∧ (fed [0x00000001]).grant .A = some .A ∧
      ((fed [0x00000001]).port .A).words = [0x00000001] ∧ decodeWords small [0x00000001] = .error .fixedField) ∧
    ((fed [0x0E400000]).grant .A = some .A ∧ decodeWords small [0x0E400000] = .error .operandRange) := by decide

/-- PortIsReadyWhenItsCommandHasArrived: a ready port, and a state in which neither port is ready. -/
theorem witness_notReady : ({ portReset with stream := [0x04000003] } : Port).ready small = true ∧
    start.sched.turn = .port .A ∧ ∀ q, (start.port q).ready start.cfg = false :=
  ⟨by decide, rfl, fun q => by cases q <;> decide⟩

/-- ReadyPortsAreServed: a ready port at its own turn, and at the other's. -/
theorem witness_ready : ∀ p, (({ fed [0x04000003] with sched := { arbiterReset with turn := .port p } } : State).port .A).ready
    small = true := by intro p; cases p <;> decide

/-- WordsArriveAndResponsesLeave. -/
theorem witness_host :
    ({ start with sched := { arbiterReset with turn := .hostSend .L }, portL := { portReset with unsent := [0, 1] } } : State).portL.unsent = 0 :: [1] ∧
      ({ start with sched := { arbiterReset with turn := .hostTake .A }, portA := { portReset with resp := [5] } } : State).portA.resp = 5 :: [] :=
  ⟨rfl, rfl⟩

/-- StepsKeepTheOrderOfWordsAndResponses, and the invariants of the end of the file: a step with a next state, from a state
that meets every invariant. -/
theorem witness_invariants : (∃ t, step withSource = .next t) ∧ small.legal = true ∧
    withSource.statusOk = true ∧ withSource.bankMapOk = true ∧ withSource.voicesOk = true ∧ withSource.granOk = true ∧
    withSource.loopOk = true ∧ withSource.memoryOk = true ∧ withSource.cursorsOk = true ∧ withSource.dtOk = true ∧
    withSource.phasesOk = true ∧ withSource.levelsOk = true ∧ withSource.portsOk = true :=
  ⟨⟨_, rfl⟩, by decide⟩

/-- StepKeepsRegistersInRange and StepKeepsPhasesAndLevels: their premises on registers. -/
theorem witness_registersOk : start.registersOk ∧ (State.resetOf start.cfg).registersOk :=
  ⟨start_registersOk, start_registersOk⟩

/-- TickWritesNoParameterOrInput: a parameter and an input. -/
theorem witness_tickKeeps : (∃ t, exec (.tick 0) start = .next t) ∧ (Reg.osc .pitch).cls = .P ∧
    (Reg.osc .voctIn).cls = .I ∧ Reg.osc .pitch ≠ .gran .rng := ⟨⟨_, rfl⟩, rfl, rfl, by decide⟩

/-- TickStoresOnlyAtItsCursors: elements next to every cursor, in a tick that stores in no loop buffer. -/
theorem witness_tickStores : (∃ t, exec (.tick 0) start = .next t) ∧ 1 ≠ start.loop.wcur.toNat ∧
    1 ≠ small.ringCap + start.loop.wcur.toNat ∧ (loopControls small start.loop).req = false ∧
    start.dly.combW = [0, 0] ∧ (∀ k, k < 2 → 1 ≠ k * small.dlyCap + 0) ∧ 1 ≠ start.dly.echoWL ∧
    1 ≠ small.dlyCap + start.dly.echoWR := by
  refine ⟨⟨_, rfl⟩, ?_⟩; decide

/-- TickCommandRunsAllItsTicks: the shortest and the longest TICK, not begun. -/
theorem witness_ticks : (start.port start.serving).ticksLeft = 0 ∧ (0 : BitVec 14).toNat + 1 = 1 ∧
    (0x3FFF : BitVec 14).toNat + 1 = 16384 := by decide

/-- WrregStoresTheLegalValue, first half: one register of each kind of range, written outside it. -/
theorem witness_wrreg :
    Reg.ofAddr small 0 0x01 = some (.global .sampleRate) ∧
      ((Reg.global .sampleRate).range small).legal small 0x7FC00000 = some 0x3F800000 ∧
    Reg.ofAddr small 1 0x00 = some (.osc .wave) ∧ ((Reg.osc .wave).range small).legal small 7 = some 3 ∧
    Reg.ofAddr small 1 0x04 = some (.osc .conn) ∧ ((Reg.osc .conn).range small).legal small 0xFF = some 3 ∧
    Reg.ofAddr small 5 0x06 = some (.gran .rng) ∧ ((Reg.gran .rng).range small).legal small 0 = some 0x9E3779B9 ∧
    Reg.ofAddr small 3 0x10 = some (.env .gateIn) ∧
      ((Reg.env .gateIn).range small).legal small 0x42C80000 = some 0x41400000 := by decide

/-- WrregStoresTheLegalValue, second half: an unmapped register, one of class O and one of class C. -/
theorem witness_wrregElsewhere : ∀ reg ∈ [0xFF#8, 0x02#8, 0x00#8], ∀ r, Reg.ofAddr small 0 reg = some r →
    (r.range small).legal small 0 = none := by
  intro reg h
  simp only [List.mem_cons, List.not_mem_nil, or_false] at h
  rcases h with rfl | rfl | rfl <;> intro r hr
  · cases hr
  · obtain rfl : Reg.global .dt = r := Option.some.inj hr
    rfl
  · obtain rfl : Reg.global .id = r := Option.some.inj hr
    rfl

/-- RegisterMapIsTheTable: an instance with its largest readback address, and the first and the last unmapped unit. -/
theorem witness_registerTable : small.legal = true ∧ (5, 0x80 + 4 * 1 + 3, Reg.gran (.gPhase 1)) ∈ small.registerTable ∧
    Reg.ofAddr small 5 0x87 = some (.gran (.gPhase 1)) ∧ 9 ≤ (9 : BitVec 4).toNat ∧ 9 ≤ (15 : BitVec 4).toNat := by
  decide

/-- ConstantAndDerivedRegistersTellTheirState: a state with an open load, a voice that sounds and one that does not. -/
theorem witness_derived : let s : State := { staged with
      vpool := { start.vpool with voices := [sounding, voiceReset small] }
      gran := { start.gran with srcLen := 2, queue := [.host] } }
    s.cfg.legal = true ∧ s.bankMapOk = true ∧ s.voicesOk = true ∧ s.granOk = true ∧ s.cursorsOk = true ∧
      s.wt.loading = true ∧ s.vpool.voices[1]? = some (voiceReset small) ∧ s.cfg.combLen[1]? = some 7 := by
  decide

/-- RdregAnswersTheRegister: the last slot's readback and the one after it; a full FIFO. -/
theorem witness_rdreg : Reg.ofAddr small 4 0x84 = some (.vpool (.vFreq 1)) ∧ Reg.ofAddr small 4 0x88 = none ∧
    Reg.ofAddr small 5 0x84 = some (.gran (.gFlags 1)) ∧ (start.port start.serving).resp.length < small.respDepth ∧
    small.respDepth ≤ ({ portReset with resp := [1, 2] } : Port).resp.length := by decide

/-- SresetOfAUnitResetsThatUnitOnly: the first and the last unit. -/
theorem witness_sreset : (1 : BitVec 4).toNat ≠ 0 ∧ (8 : BitVec 4).toNat ≤ 8 := by decide

/-- RefusedCommandsRaiseBadCommand: a slot, and an RDREG with room. -/
theorem witness_illFormed : (Instr.noteOff 2).wellFormed start.cfg = false ∧
    (Instr.rdreg 9 0).wellFormed start.cfg = false ∧ (start.port start.serving).resp.length < start.cfg.respDepth := by
  decide

/-- NoteOnStartsTheLowestFreeSlot: slot 1 is free and slot 0 is not. -/
theorem witness_noteOn : [sounding, voiceReset small][1]? = some (voiceReset small) ∧
    (voiceReset small).active = false ∧
    ∀ (j : Nat) (w : Voice), j < 1 → [sounding, voiceReset small][j]? = some w → w.active = true := by
  refine ⟨rfl, rfl, fun j w hj h => ?_⟩
  obtain rfl : j = 0 := by omega
  obtain rfl : sounding = w := by simpa using h
  rfl

/-- NoteOnWithAFullPoolIsDropped. -/
theorem witness_full : ∀ v ∈ fullPool.vpool.voices, v.active = true := by decide

/-- NoteOffAndAllOffCloseGates and ChordOnStartsItsNotesInFreeSlots: the last slot, the last chord code. -/
theorem witness_slot : (1 : BitVec 8).toNat < start.cfg.nVoices ∧ (7 : BitVec 8).toNat < start.cfg.nChord := by decide

/-- BeginCommandsOpenALoad: the last bank. -/
theorem witness_bankBegin : (3 : BitVec 8).toNat < start.cfg.numBanks := by decide

/-- DataCommandsAppendASample: the last element of the staging memory, and the full one. -/
theorem witness_bankData : staged.memoryOk = true ∧ staged.wt.loading = true ∧ 7 < staged.cfg.stageMax ∧
    staged.cfg.stageMax ≤ staged.wt.count := by decide

/-- CommitCommandsPublishTheLoad for a bank, and the two ways of DiscardedLoadsKeepWhatIsPlayed for a bank. -/
theorem witness_bankCommit : staged.wt.loading = true ∧ 0 < staged.wt.count ∧
    ({ staged with wt := { staged.wt with count := 0 } } : State).wt.count = 0 := by decide

/-- DataCommandsAppendASample: the last element of the source buffer, and the full one. -/
theorem witness_srcData : (sourceOpen 3).memoryOk = true ∧ (sourceOpen 3).gran.srcLoading = true ∧
    (sourceOpen 3).gran.srcCount < small.srcMax ∧ small.srcMax ≤ (sourceOpen 4).gran.srcCount := by decide

/-- CommitCommandsPublishTheLoad for a source: the shortest one; DiscardedLoadsKeepWhatIsPlayed: one sample less. -/
theorem witness_srcCommit : (sourceOpen 2).gran.srcLoading = true ∧ 2 ≤ (sourceOpen 2).gran.srcCount ∧
    (sourceOpen 1).gran.srcCount < 2 := by decide

/-- RefusedCommandsRaiseBadCommand: no open load. -/
theorem witness_noLoad : start.wt.loading = false ∧ start.gran.srcLoading = false := by decide

/-- GranSpawnQueuesAnEvent: room for one more, and a full queue. -/
theorem witness_granSpawn : [SpawnTag.host].length < small.gqDepth ∧
    [SpawnTag.host, SpawnTag.clock].length = small.gqDepth := by decide

/-- ResetContentsOfTheMemories: the default instance, at the ends of the ranges. -/
theorem witness_reset : Config.Params.default.legal = true ∧ 4 ≤ Config.Params.default.numBanks ∧
    15 < Config.Params.default.numFrames ∧ 7 < Config.Params.default.mipLevels := by decide

/-- PhaseStaysInRange and WaveformStaysInRange: the smallest and the largest phase. -/
theorem witness_phase : isPhase 0 = true ∧ isPhase 0x3F7FFFFF = true ∧ isPhase 0x3F800000 = false := by decide

/-- ResetGivesEveryElementItsValue: a register of each readable class, in a legal instance. -/
theorem witness_resetColumn : small.legal = true ∧ (Reg.env .attack).cls ≠ .C ∧ Reg.env .attack ≠ .gran .srcLen ∧
    (Reg.vpool .lastSlot).cls ≠ .C ∧ Reg.vpool .lastSlot ≠ .gran .srcLen := by decide

/-- OscFollowsPitchSyncAndHarmonics: a tick with a rising edge of SYNC, the last waveform and the longest stack. -/
theorem witness_sync : let s : State := { at1024 with osc := { oscReset with
      conn := 2, syncIn := 0x40A00000, wave := 3, harmN := 8 } }
    (∃ t, exec (.tick 0) s = .next t) ∧ flt small.gateTh s.osc.syncIn = true ∧ s.osc.wave.toNat ≤ 3 ∧ s.osc.harmN ≠ 0 :=
  ⟨⟨_, rfl⟩, by decide⟩

/-- EnvelopeFollowsItsTransitions: both variants, and a tick. -/
theorem witness_transitions : (⟨0, 0, 0, 0, 1⟩ : Adsr).variant = 1 ∧ (⟨0, 0, 0, 0, 0⟩ : Adsr).variant = 0 ∧
    ∃ t, exec (.tick 0) start = .next t := ⟨rfl, rfl, ⟨_, rfl⟩⟩

/-- EnvelopeLevelStaysInRange: table E1's parameters, at both ends of the level. -/
theorem witness_envelope : isPositive 0x3A800000 = true ∧ isPositive 0x3D800000 = true ∧ isPositive 0x3E000000 = true ∧
    isPositive 0x3E800000 = true ∧ isLevel 0x3F000000 = true ∧ isLevel 0 = true ∧ isLevel 0x3F800000 = true := by decide

/-- VoicesGlideSoundAndAgeOut: an active and an inactive slot. -/
theorem witness_voices : (∃ t, exec (.tick 0) { start with vpool := { start.vpool with voices :=
      [sounding, voiceReset small] } } = .next t) ∧ [sounding, voiceReset small][0]? = some sounding ∧
    sounding.active = true ∧ [sounding, voiceReset small][1]? = some (voiceReset small) ∧
    (voiceReset small).active = false := ⟨⟨_, rfl⟩, rfl, rfl, rfl, rfl⟩

/-- WtPlaysReadyBanksOnly: the bank that WT reads is being replaced; a BANK_BEGIN of it; a BANK_DATA into the open load; a
tick with that bank ready. -/
theorem witness_bankPlayed : staged.wt.ready.getD staged.wt.bank.toNat false = false ∧ staged.wt.loading = true ∧
    (∃ t, exec (.bankBegin 0) start = .next t) ∧ (0 : BitVec 8).toNat < start.cfg.numBanks ∧
    (∃ t, exec (.bankData 0) staged = .next t) ∧ (∀ b, Instr.bankData 0 ≠ .bankBegin b) ∧
    Instr.bankData 0 ≠ .bankCommit ∧ Instr.bankData 0 ≠ .bankAbort ∧ Instr.bankData 0 ≠ .sreset 0 ∧
    Instr.bankData 0 ≠ .sreset 2 ∧
    (∃ t, exec (.tick 0) start = .next t) ∧ start.cfg.legal = true ∧ start.wt.ready.getD start.wt.bank.toNat false = true := by
  refine ⟨by decide, by decide, ⟨_, rfl⟩, by decide, ⟨_, rfl⟩, fun b => ?_, ?_, ?_, ?_, ?_, ⟨_, rfl⟩, by decide, by decide⟩ <;>
    exact fun h => nomatch h

/-- GranTickStartsAndPlaysGrains: the smallest and the largest state of the generator; a tick with a full queue, an active
grain and a free slot. -/
theorem witness_spawn : (1 : Word) ≠ 0 ∧ (0xFFFFFFFF : Word) ≠ 0 ∧ (∃ t, exec (.tick 0) spawning = .next t) ∧
    spawning.gran.queue.length ≤ spawning.cfg.gqDepth ∧ spawning.gran.queue.length = 2 ∧
    spawning.gran.grains.map Grain.active = [true, false] := ⟨by decide, by decide, ⟨_, rfl⟩, by decide⟩

/-- NoGrainWithoutAnEvent: the reset state with DENSITY 0.0. -/
theorem witness_noGrain : start.cfg.legal = true ∧ (∀ g ∈ start.gran.grains, g.active = false) ∧ start.gran.queue = [] ∧
    feq 0x00000000 0x00000000 = true ∧ connectedHigh start.cfg start.gran.conn 0 start.gran.clockIn = false := by
  decide

/-- The last tick before the cursor of the ring comes round, with the input changed before the first. -/
def untilOverwritten : List Instr := .wrreg 6 0x10 0x40A00000 :: List.replicate 19 (.tick 0)

/-- RingKeepsASampleUntilOverwritten: a tick, and the commands up to the last tick that keeps its sample. -/
theorem witness_ring : (∃ u, exec (.tick 0) start = .next u ∧ ∃ t, execAll untilOverwritten u = .next t) ∧
    start.memoryOk = true ∧ start.loop.wcur.toNat < start.cfg.ringCap ∧ start.cfg.ringCap < 2 ^ 32 ∧
    (∀ i ∈ untilOverwritten, i ≠ .sreset 0 ∧ i ≠ .sreset 6) ∧ untilOverwritten.countP Instr.isTick < start.cfg.ringCap :=
  ⟨⟨_, rfl, _, rfl⟩, by decide⟩

/-- SnapshotCopiesTheRing: a build request from Idle, with the first and the last element of the shortest loop. -/
theorem witness_snapshot : small.legal = true ∧ loopReset.wcur.toNat < small.ringCap ∧ loopReset.state = .idle ∧
    (∃ t, exec (.tick 0) { start with loop := { loopReset with buildIn := 0x40A00000, lenS := 0 } } = .next t ∧
      t.loop.req = true) ∧
    small.lMin = 16 := ⟨by decide, by decide, rfl, ⟨_, rfl, by decide⟩, rfl⟩

/-- LoopFollowsItsRequestAndPlays: a tick that stays in Idle, and one that ends in ExitFade. -/
theorem witness_loop : (∃ t, exec (.tick 0) start = .next t ∧ t.loop.state = .idle) ∧
    ∃ t, exec (.tick 0) (playing 0) = .next t ∧ t.loop.state ≠ .idle :=
  ⟨⟨_, rfl, by decide⟩, ⟨_, rfl, by decide⟩⟩

/-- An active loop of 16 samples with a window of 6 at speed 1.0, its position outside the window and the seam. -/
def looping : State :=
  { at1024 with loop := { loopReset with
      state := .active, buildIn := 0x40A00000, intensity := 0x3F800000, loopLen := 16, xfLen := 6, pos := toF32 8
      boostEn := 0 } }

/-- LoopRepeatsItsPeriod: a loop with boost off and finite samples, its position one that the snapshot clause is about, with
its request held by the gate of MODE 0; witness_loopToggle: held by MODE 1, with the gate low and with it staying high. -/
theorem witness_loopLaw : looping.loop.state = .active ∧ looping.loop.mode = 0 ∧
    flt looping.cfg.gateTh looping.loop.buildIn = true ∧ looping.loop.intensity = 0x3F800000 ∧
    isPositive looping.loop.rampS = true ∧ isPositive looping.global.dt = true ∧ isFinite looping.loop.tAct = true ∧
    fle 0x00000000 looping.loop.tAct = true ∧ looping.loop.loopLen.toNat = 16 ∧ looping.loop.xfLen.toNat = 6 ∧
    2 * 6 ≤ 16 ∧ 16 < 2 ^ 24 ∧ 0 < 16 ∧ 15 < 16 ∧ looping.loop.pos = toF32 8 ∧ looping.loop.boostEn = 0 ∧ 6 ≤ 8 + 0 ∧
    8 + 0 < 16 - 6 ∧ ∀ c < 2, ∀ i < 16,
      inRange 0xFE800000 0x7E800000 (looping.read .loopbuf (c * looping.cfg.loopMax + i)) = true := by decide

/-- The second way to hold the request, see witness_loopLaw: the gate may be low, or stay high. -/
theorem witness_loopToggle : ∀ gate : F32,
    let u : LoopUnit := { looping.loop with mode := 1, req := true, buildPrev := flt small.gateTh gate, buildIn := gate }
    u.mode = 1 ∧ u.req = true ∧ (flt small.gateTh u.buildIn = true → u.buildPrev = true) := fun _ => ⟨rfl, rfl, id⟩

/-- DelayLinesStayBounded and DelayLinesStoreInputPlusFeedback: the reset state, with X = 2.4, B = 10.0 for the reverb's
feedback 0.75, and B = 10.0 for the echo's. -/
theorem witness_reverb : (∃ t, exec (.tick 0) start = .next t) ∧ start.cfg.legal = true ∧ start.memoryOk = true ∧
    start.cursorsOk = true ∧ isFinite 0x4019999A = true ∧ isFinite 0x41200000 = true ∧
    inRange (fneg 0x4019999A) 0x4019999A (fdiv start.dly.revIn start.cfg.inDiv) = true ∧
    isFinite start.dly.revFb = true ∧ fle 0x00000000 start.dly.revFb = true ∧
    fle (fadd 0x4019999A (fmul start.dly.revFb 0x41200000)) 0x41200000 = true ∧
    (∀ a, a < spaceSize start.cfg .comb → inRange (fneg 0x41200000) 0x41200000 (start.read .comb a) = true) ∧
    inRange (fneg 0x4019999A) 0x4019999A (fdiv start.dly.echoInL start.cfg.inDiv) = true ∧
    inRange (fneg 0x4019999A) 0x4019999A (fdiv start.dly.echoInR start.cfg.inDiv) = true ∧
    isFinite start.dly.echoFb = true ∧ fle 0x00000000 start.dly.echoFb = true ∧
    fle (fadd 0x4019999A (fmul start.dly.echoFb 0x41200000)) 0x41200000 = true ∧
    ∀ a, a < spaceSize start.cfg .echo → inRange (fneg 0x41200000) 0x41200000 (start.read .echo a) = true :=
  ⟨⟨_, rfl⟩, by decide⟩

/-- DelayLineReturnsWhatWasPushed: the last cursor, and both ends of the offset. -/
theorem witness_delay : memoryReset.wf small = true ∧ 7 < small.dlyCap ∧ 1 < small.dlyCap ∧ (1 : Int) ≤ 1 ∧
    (6 : Int) + 1 < small.dlyCap := by decide

/-- ArpTriggersOncePerBeat: the reset state of the default instance, at the ends of the pulse and of the beat. -/
theorem witness_arp : State.reset.cfg = Config.Params.default ∧ State.reset.global.sampleRate = 0x472C4400 ∧
    State.reset.arp.bpm = 0x42F00000 ∧ State.reset.arp.div = 2 ∧ State.reset.arp.conn = 0 ∧ State.reset.arp.acc = 0 ∧
    ∀ m ∈ [1, 45, 46, 22050], 1 ≤ m ∧ m ≤ 22050 := ⟨rfl, rfl, rfl, rfl, rfl, rfl, by decide⟩

/-- ArpStepsThroughItsNotes: the last chord and the last division, in a tick that steps. -/
theorem witness_arpStep : let s : State := { at1024 with arp := { start.arp with chord := 7, div := 5 } }
    (∃ t, exec (.tick 0) s = .next t) ∧ s.cfg.legal = true ∧ s.arp.chord.toNat < s.cfg.nChord ∧ s.arp.div.toNat ≤ 5 ∧
      fle s.arp.acc 0x00000000 = true := ⟨⟨_, rfl⟩, by decide⟩

/-- ArithmeticFollowsBinary32: the smallest and the largest finite value. -/
theorem witness_finite : isFinite 0x00000001 = true ∧ isFinite 0x7F7FFFFF = true ∧
    isFinite (fadd 0x00000001 0x7F7FFFFF) = true ∧ isFinite (fsub 0x00000001 0x7F7FFFFF) = true ∧
    isFinite (fmul 0x00000001 0x7F7FFFFF) = true ∧ scaled 0x7F7FFFFF ≠ 0 ∧
    isFinite (fdiv 0x00000001 0x7F7FFFFF) = true ∧ isFinite (toF32 (2 ^ 127)) = true ∧ isNaN 0x7FC00000 = true ∧
    |scaled 0x00000000 + scaled 0x7F7FFFFF| ≤ scaled 0x7F7FFFFF ∧ |scaled 0x00000000 - scaled 0x7F7FFFFF| ≤ scaled 0x7F7FFFFF ∧
    |scaled 0x3F800000 * scaled 0x7F7FFFFF| ≤ scaled 0x7F7FFFFF * unitScale ∧ scaled 0x3F800000 ≠ 0 ∧
    |scaled 0x7F7FFFFF * unitScale| ≤ scaled 0x7F7FFFFF * |scaled 0x3F800000| ∧ |(2 ^ 24 : Int)| ≤ 2 ^ 24 := by decide

/-- TranscendentalsKeepTheirBounds: both ends of the exponents, and phases at and next to the ends of the period; an exponent
and a phase where the rules ask nothing of the free values (where they ask, that a free value is admitted is a free fact). -/
theorem witness_transcend : ((-126 : Int) ≤ -126 ∧ (127 : Int) ≤ 127) ∧
    (isFinite 0x41A00000 = true ∧ ratOf 0x41A00000 = 20 ∧ isFinite 0xC1A00000 = true ∧ ratOf 0xC1A00000 = -20) ∧
    isFinite 0x00000000 = true ∧ 0 ≤ ratOf 0x00000000 ∧ isFinite 0x3F7FFFFF = true ∧ ratOf 0x3F7FFFFF < 1 ∧
    exactInt 0x41A40000 = none ∧ ratOf 0x41A40000 = 41 / 2 ∧
    0x3FC00000 ∉ [0x00000000#32, 0x3E800000, 0x3F000000, 0x3F400000] ∧ ratOf 0x3FC00000 = 3 / 2 := by
  decide +kernel

end Sys2Proof.Tests
end

section
/-! Binary32 arithmetic against exact values (00_scope.md R15 to R18). A rounded magnitude is a 24-digit multiple of the
spacing at its size, nearest on that grid by the rounding of the quotient, and every value off the grid lies below the
grid's first point. -/

namespace Sys2Proof.Machine

/-! ## Rounding is to the nearest value, ties to even (00_scope.md R15) -/

/-- Among the multiples of `step`, the rounded quotient is nearest; where another one is as near, it is even. -/
theorem roundHalfEven_nearest {num step : Nat} (hs : 0 < step) (j : Nat) :
    (((roundHalfEven num step * step : Nat) : Int) - num).natAbs ≤ (((j * step : Nat) : Int) - num).natAbs ∧
      ((((j * step : Nat) : Int) - num).natAbs = (((roundHalfEven num step * step : Nat) : Int) - num).natAbs →
        j ≠ roundHalfEven num step → roundHalfEven num step % 2 = 0) := by
  have hdiv := Nat.div_add_mod num step
  have hmod := Nat.mod_lt num hs
  unfold roundHalfEven
  generalize num / step = q at *
  generalize num % step = r at *
  have hup : (q + 1) * step = step * q + step := by ring
  have heq : q * step = step * q := Nat.mul_comm _ _
  rcases Nat.lt_trichotomy j q with hj | rfl | hj
  · have hjs : j * step + step ≤ step * q := by
      calc j * step + step = step * (j + 1) := by ring
        _ ≤ step * q := Nat.mul_le_mul_left _ hj
    split <;> omega
  · split <;> omega
  · have hjs : step * q + step + (j - (q + 1)) * step = j * step := by
      obtain ⟨d, rfl⟩ := Nat.exists_eq_add_of_lt hj
      rw [show q + d + 1 - (q + 1) = d by omega]; ring
    rcases Nat.eq_or_lt_of_le hj with rfl | hlt
    · split <;> omega
    · have : step ≤ (j - (q + 1)) * step := Nat.le_mul_of_pos_left _ (by omega)
      split <;> omega

/-- The pattern k·2^23 + q stands for q·2^k where q has 24 digits, or k is 0. -/
theorem magOf_grid {k q : Nat} (hq : q ≤ 2 ^ 24) (hk : k = 0 ∨ 2 ^ 23 ≤ q) : magOf (k * 2 ^ 23 + q) = q * 2 ^ k := by
  unfold magOf
  rcases Nat.lt_or_ge q (2 ^ 23) with hlt | hge
  · obtain rfl : k = 0 := by omega
    rw [if_pos (by omega)]; omega
  · rcases Nat.lt_or_ge q (2 ^ 24) with h | h
    · rw [show (k * 2 ^ 23 + q) / 2 ^ 23 = k + 1 by omega, show (k * 2 ^ 23 + q) % 2 ^ 23 = q - 2 ^ 23 by omega,
        if_neg (by omega), show 2 ^ 23 + (q - 2 ^ 23) = q by omega, Nat.add_sub_cancel]
    · obtain rfl : q = 2 ^ 24 := by omega
      rw [show (k * 2 ^ 23 + 2 ^ 24) / 2 ^ 23 = k + 2 by omega, show (k * 2 ^ 23 + 2 ^ 24) % 2 ^ 23 = 0 by omega,
        if_neg (by omega), show k + 2 - 1 = k + 1 by omega, pow_succ]
      ring

/-- A value off the grid of spacing 2^k is below its first point of 24 digits. -/
theorem magOf_dvd_or_lt (m k : Nat) : (∃ j, magOf m = j * 2 ^ k) ∨ (0 < k ∧ magOf m < 2 ^ 23 * 2 ^ k) := by
  unfold magOf
  have hfrac : m % 2 ^ 23 < 2 ^ 23 := Nat.mod_lt _ (by norm_num)
  rcases Nat.eq_zero_or_pos k with rfl | hk
  · exact .inl ⟨_, (Nat.mul_one _).symm⟩
  rcases Nat.lt_or_ge k (m / 2 ^ 23) with he | he
  · left
    rw [if_neg (by omega), show m / 2 ^ 23 - 1 = (m / 2 ^ 23 - 1 - k) + k by omega, pow_add, ← Nat.mul_assoc]
    exact ⟨_, rfl⟩
  · refine .inr ⟨hk, ?_⟩
    have hpow : 1 ≤ 2 ^ k := Nat.one_le_two_pow
    split
    · nlinarith
    · calc (2 ^ 23 + m % 2 ^ 23) * 2 ^ (m / 2 ^ 23 - 1) < 2 ^ 24 * 2 ^ (m / 2 ^ 23 - 1) :=
            Nat.mul_lt_mul_of_pos_right (by omega) (by positivity)
        _ ≤ 2 ^ 24 * 2 ^ (k - 1) := Nat.mul_le_mul_left _ (Nat.pow_le_pow_right (by norm_num) (by omega))
        _ = 2 ^ 23 * 2 ^ k := by rw [← pow_add, ← pow_add]; congr 1; omega

/-- A rounded magnitude that is finite is nearest to num/den; where another value is as near, its pattern is even. -/
theorem roundMag_nearest {num den : Nat} (hd : 0 < den) (hfin : roundMag num den < 0x7F800000) (m : Nat) :
    (((magOf (roundMag num den) * den : Nat) : Int) - num).natAbs ≤ (((magOf m * den : Nat) : Int) - num).natAbs ∧
      ((((magOf m * den : Nat) : Int) - num).natAbs = (((magOf (roundMag num den) * den : Nat) : Int) - num).natAbs →
        magOf m ≠ magOf (roundMag num den) → roundMag num den % 2 = 0) := by
  have hlt := roundQuot_lt (num := num) (den := den)
  have hge := roundQuot_ge (num := num) (den := den)
  have hlo := le_roundHalfEven (a := num) (step := den * 2 ^ roundShift num den)
  have hhi := roundHalfEven_le (a := num) (step := den * 2 ^ roundShift num den)
  have hnear := roundHalfEven_nearest (num := num) (show 0 < den * 2 ^ roundShift num den by positivity)
  rw [roundMag_def] at *
  generalize roundShift num den = k at *
  have hstart : 0 < k → 2 ^ 23 * (den * 2 ^ k) ≤ num := fun hk => (Nat.le_div_iff_mul_le (by positivity)).1 (hge hk)
  generalize hq : roundHalfEven num (den * 2 ^ k) = q at *
  have hq24 : q ≤ 2 ^ 24 := by omega
  have hk23 : k = 0 ∨ 2 ^ 23 ≤ q := by
    rcases Nat.eq_zero_or_pos k with h | h
    · exact .inl h
    · have := hge h; omega
  have hmin : min (k * 2 ^ 23 + q) 0x7F800000 = k * 2 ^ 23 + q := by omega
  have heven : (k * 2 ^ 23 + q) % 2 = q % 2 := by omega
  have hval : magOf (k * 2 ^ 23 + q) * den = q * (den * 2 ^ k) := by rw [magOf_grid hq24 hk23]; ring
  rw [hmin, heven, hval]
  rcases magOf_dvd_or_lt m k with ⟨j, hj⟩ | ⟨hk, hoff⟩
  · obtain ⟨hle, htie⟩ := hnear j
    rw [show magOf m * den = j * (den * 2 ^ k) by rw [hj]; ring]
    refine ⟨hle, fun he hne => htie he fun hjq => hne ?_⟩
    rw [magOf_grid hq24 hk23, hj, hjq]
  · have hfirst := (hnear (2 ^ 23)).1
    have hbelow : magOf m * den < 2 ^ 23 * (den * 2 ^ k) := by
      calc magOf m * den < 2 ^ 23 * 2 ^ k * den := Nat.mul_lt_mul_of_pos_right hoff hd
        _ = 2 ^ 23 * (den * 2 ^ k) := by ring
    have hnum := hstart hk
    generalize magOf m * den = x at *
    generalize 2 ^ 23 * (den * 2 ^ k) = z at *
    generalize q * (den * 2 ^ k) = y at *
    omega

/-! ## Rounded fractions -/

theorem natAbs_scaled (x : F32) : (scaled x).natAbs = magOf (x.toNat % 2 ^ 31) := by
  rw [← scaledMag_eq]; unfold scaled; split <;> simp

theorem natAbs_ite_neg (p : Prop) [Decidable p] (m : Nat) : (if p then -(m : Int) else (m : Int)).natAbs = m := by
  split
  · rw [Int.natAbs_neg, Int.natAbs_natCast]
  · rw [Int.natAbs_natCast]

theorem natAbs_orderKey (x : F32) : (orderKey x).natAbs = x.toNat % 2 ^ 31 := natAbs_ite_neg _ _

theorem natAbs_rounded_key (n : Int) (den : Nat) : (orderKey (rounded n den)).natAbs = roundMag n.natAbs den := by
  rw [rounded_key, natAbs_ite_neg]

/-- A value has the sign of its order key. -/
theorem scaled_eq_of_key {x : F32} (hx : isFinite x = true) :
    scaled x = if orderKey x < 0 then -(magOf (x.toNat % 2 ^ 31) : Int) else (magOf (x.toNat % 2 ^ 31) : Int) := by
  have hz := scaledMag_eq_zero_iff hx
  rw [← scaledMag_eq]
  unfold orderKey scaled
  split <;> split <;> omega

theorem getLsbD_zero_eq_false {x : F32} (h : x.toNat % 2 ^ 31 % 2 = 0) : x.getLsbD 0 = false := by
  rw [BitVec.getLsbD, Nat.testBit_zero]; exact decide_eq_false (by omega)

/-- A finite value that orders like the rounded fraction n / den is nearest to it, ties to even. -/
theorem nearestEven_of_key {n : Int} {den : Nat} (hd : 0 < den) {r : F32} (hr : isFinite r = true)
    (hk : orderKey r = orderKey (rounded n den)) : nearestEven r n den := by
  have hmag : r.toNat % 2 ^ 31 = roundMag n.natAbs den := by rw [← natAbs_orderKey, hk, natAbs_rounded_key]
  have hnear := roundMag_nearest hd (hmag ▸ mag_lt_of_finite hr)
  have hzero : n = 0 → roundMag n.natAbs den = 0 := fun h => by rw [h, Int.natAbs_zero, roundMag_zero hd]
  rw [rounded_key] at hk
  generalize roundMag n.natAbs den = m at *
  have hrs : scaled r = if n < 0 then -(magOf m : Int) else (magOf m : Int) := by
    rw [scaled_eq_of_key hr, hmag, hk]
    rcases Nat.eq_zero_or_pos m with rfl | h
    · simp [magOf]
    · split <;> split <;> omega
  have hdist : (scaled r * den - n).natAbs = (((magOf m * den : Nat) : Int) - n.natAbs).natAbs := by
    rw [hrs, Nat.cast_mul]
    split
    · rw [neg_mul]; omega
    · omega
  intro c hc
  obtain ⟨hle, htie⟩ := hnear (c.toNat % 2 ^ 31)
  have hout : (((magOf (c.toNat % 2 ^ 31) * den : Nat) : Int) - n.natAbs).natAbs ≤ (scaled c * den - n).natAbs := by
    rw [← natAbs_scaled, show (scaled c).natAbs * den = (scaled c * den).natAbs by rw [Int.natAbs_mul, Int.natAbs_natCast]]
    omega
  simp only [Int.abs_eq_natAbs, Nat.cast_le, Nat.cast_inj]
  refine ⟨hdist ▸ hle.trans hout, fun he hne => getLsbD_zero_eq_false ?_⟩
  rw [hmag]
  refine htie (by omega) fun hsame => hne ?_
  have habs : (scaled c).natAbs = (scaled r).natAbs := by rw [natAbs_scaled, natAbs_scaled, hsame, hmag]
  rcases Int.natAbs_eq_natAbs_iff.1 habs with heq | hneg
  · exact heq
  · have hr0 : scaled r = 0 := by
      rw [hneg, neg_mul] at he
      rcases (show scaled r * den = 0 ∨ n = 0 by omega) with h | h
      · exact (mul_eq_zero.1 h).resolve_right (by positivity)
      · rw [hrs, hzero h]; simp [magOf]
    rw [hneg, hr0, neg_zero]

/-- What orders like a fraction n / den of at most the largest finite magnitude is finite. -/
theorem isFinite_of_key {n : Int} {den : Nat} (hd : 0 < den) {r : F32} (hk : orderKey r = orderKey (rounded n den))
    (hn : |n| ≤ scaled 0x7F7FFFFF * den) : isFinite r = true := by
  have hmag : r.toNat % 2 ^ 31 = roundMag n.natAbs den := by rw [← natAbs_orderKey, hk, natAbs_rounded_key]
  have hmax : scaled 0x7F7FFFFF = ((scaledMag 0x7F7FFFFF : Nat) : Int) := by decide
  have hle : n.natAbs ≤ scaledMag 0x7F7FFFFF * den := by
    rw [hmax, Int.abs_eq_natAbs] at hn; exact_mod_cast hn
  have hround := roundMag_mono (den := den) hle
  rw [magOf_roundTrip hd (by decide), show (0x7F7FFFFF : F32).toNat % 2 ^ 31 = 0x7F7FFFFF by decide] at hround
  exact isFinite_of_mag_lt (by omega)

theorem scaled_neg_iff {x : F32} (h0 : scaled x ≠ 0) : scaled x < 0 ↔ fSign x = true := by
  unfold scaled at *; split <;> simp_all; omega

theorem unitScale_cast_pos : (0 : Int) < unitScale := by exact_mod_cast unitScale_pos

theorem mul_unitScale_neg_iff (n : Int) : n * unitScale < 0 ↔ n < 0 := by
  have := unitScale_cast_pos
  rw [mul_neg_iff]; omega

/-- A rounded magnitude with the sign of n orders like the rounded n. -/
theorem packSign_key_eq_rounded {neg : Bool} {n : Int} {den : Nat} (hd : 0 < den)
    (hneg : n ≠ 0 → (n < 0 ↔ neg = true)) : orderKey (packSign neg (roundMag n.natAbs den)) = orderKey (rounded n den) := by
  rw [packSign_key roundMag_le, rounded_key]
  by_cases h0 : n = 0
  · rw [h0, Int.natAbs_zero, roundMag_zero hd, Int.natCast_zero, neg_zero, ite_self, ite_self]
  · exact if_congr (hneg h0).symm rfl rfl

/-- A finite quotient is the rounded exact quotient (up to the sign of a zero). -/
theorem fdiv_key {a b : F32} (ha : isFinite a = true) (hb : isFinite b = true) (h0 : scaled b ≠ 0) :
    orderKey (fdiv a b) = orderKey (rounded (scaled a * unitScale * (scaled b).sign) (scaled b).natAbs) := by
  have hmag : ∀ x : F32, (scaled x).natAbs = scaledMag x := fun x => (natAbs_scaled x).trans (scaledMag_eq x).symm
  have hb0 : scaledMag b ≠ 0 := hmag b ▸ Int.natAbs_ne_zero.2 h0
  have hnum : scaledMag a * unitScale = (scaled a * unitScale * (scaled b).sign).natAbs := by
    rw [Int.natAbs_mul, Int.natAbs_mul, Int.natAbs_sign_of_ne_zero h0, hmag, Int.natAbs_natCast, Nat.mul_one]
  unfold fdiv
  simp only [isNaN_of_finite ha, isNaN_of_finite hb, isInf_of_finite ha, isInf_of_finite hb, hb0, Bool.or_self,
    Bool.false_eq_true, if_false]
  rw [hnum, ← hmag b]
  refine packSign_key_eq_rounded (Int.natAbs_pos.2 h0) fun hn => ?_
  have ha0 : scaled a ≠ 0 := fun h => hn (by rw [h, Int.zero_mul, Int.zero_mul])
  have hsa := scaled_neg_iff ha0
  have hsb := scaled_neg_iff h0
  rw [mul_right_comm, mul_unitScale_neg_iff, mul_neg_iff, Int.sign_pos_iff, Int.sign_neg_iff, bne_iff_ne, Ne,
    Bool.eq_iff_iff, ← hsa, ← hsb]
  omega

theorem feq_iff {x y : F32} (hx : isFinite x = true) (hy : isFinite y = true) :
    feq x y = true ↔ scaled x = scaled y := by
  have h1 := orderKey_le_iff hx hy
  have h2 := orderKey_le_iff hy hx
  simp only [feq, isNaN_of_finite hx, isNaN_of_finite hy, Bool.not_false, Bool.true_and, decide_eq_true_eq]
  omega

theorem scaled_fmin {a b : F32} (ha : isFinite a = true) (hb : isFinite b = true) :
    scaled (fmin a b) = min (scaled a) (scaled b) := by
  have h := flt_iff hb ha
  simp only [h, fmin, isNaN_of_finite ha, isNaN_of_finite hb, Bool.or_self, Bool.false_eq_true, if_false]
  split <;> omega

theorem scaled_fmax {a b : F32} (ha : isFinite a = true) (hb : isFinite b = true) :
    scaled (fmax a b) = max (scaled a) (scaled b) := by
  have h := flt_iff ha hb
  simp only [h, fmax, isNaN_of_finite ha, isNaN_of_finite hb, Bool.or_self, Bool.false_eq_true, if_false]
  split <;> omega

/-! ## Conversions (00_scope.md R18) -/

theorem le_ffloor_iff {a : F32} (ha : isFinite a = true) (k : Int) : k ≤ ffloor a ↔ k * unitScale ≤ scaled a := by
  rw [ffloor_of_finite ha]; exact Int.le_ediv_iff_mul_le unitScale_cast_pos

theorem fceil_le_iff {a : F32} (ha : isFinite a = true) (k : Int) : fceil a ≤ k ↔ scaled a ≤ k * unitScale := by
  have hceil : fceil a = -(-scaled a / unitScale) := if_pos ha
  rw [hceil, neg_le, Int.le_ediv_iff_mul_le unitScale_cast_pos, neg_mul, neg_le_neg_iff]

theorem fabs_toNat (x : F32) : (fabs x).toNat = x.toNat % 2 ^ 31 := by
  rw [fabs, BitVec.toNat_and, show (0x7FFFFFFF#32).toNat = 2 ^ 31 - 1 from rfl, Nat.and_two_pow_sub_one_eq_mod]

theorem fSign_fabs (x : F32) : fSign (fabs x) = false := by
  rw [fSign_eq_false_iff, fabs_toNat]; omega

theorem scaled_fabs (x : F32) : scaled (fabs x) = |scaled x| := by
  rw [Int.abs_eq_natAbs, natAbs_scaled, scaled, fSign_fabs, scaledMag_eq, fabs_toNat, Nat.mod_mod]; rfl

theorem fabs_getLsbD_sign (x : F32) : (fabs x).getLsbD 31 = false :=
  Nat.testBit_lt_two_pow (fabs_toNat x ▸ Nat.mod_lt _ (by norm_num))

theorem toF32_eq_rounded (n : Int) : toF32 n = rounded (n * unitScale) 1 := by
  simp only [toF32, rounded, mul_unitScale_neg_iff, Int.natAbs_mul, Int.natAbs_natCast]

/-- Every whole number of at most 2^24 is an F32 value. -/
theorem exists_scaled_eq {n : Int} (hn : |n| ≤ 2 ^ 24) : ∃ c : F32, isFinite c = true ∧ scaled c = n * unitScale := by
  obtain ⟨m, hm⟩ : ∃ c : F32, isFinite c = true ∧ scaled c = n.natAbs * unitScale := by
    rcases Nat.lt_or_ge n.natAbs (2 ^ 24) with h | h
    · exact ⟨_, (toF32_nat h).1, (toF32_nat h).2.1⟩
    · rw [show n.natAbs = 2 ^ 24 by rw [Int.abs_eq_natAbs] at hn; omega]
      exact ⟨0x4B800000, by decide⟩
  rcases Int.natAbs_eq n with h | h
  · exact ⟨m, h ▸ hm⟩
  · exact ⟨fneg m, by rw [isFinite_fneg]; exact hm.1, by rw [scaled_fneg, hm.2, h]; simp⟩

theorem toF32_nearestEven {n : Int} (hf : isFinite (toF32 n) = true) : nearestEven (toF32 n) (n * unitScale) 1 :=
  nearestEven_of_key Nat.one_pos hf (by rw [toF32_eq_rounded])

theorem toF32_exact {n : Int} (hn : |n| ≤ 2 ^ 24) : isFinite (toF32 n) = true ∧ scaled (toF32 n) = n * unitScale := by
  have hmax : scaled 0x4B800000 = 2 ^ 24 * unitScale ∧ scaled 0x4B800000 ≤ scaled 0x7F7FFFFF := by decide
  have hf : isFinite (toF32 n) = true := by
    refine isFinite_of_key Nat.one_pos (congrArg orderKey (toF32_eq_rounded n)) ?_
    have := unitScale_cast_pos
    rw [abs_mul, Nat.abs_cast, Nat.cast_one, mul_one]
    nlinarith [hmax.1, hmax.2]
  obtain ⟨c, hc, hcv⟩ := exists_scaled_eq hn
  have hnear := (toF32_nearestEven hf c hc).1
  rw [hcv, Nat.cast_one, mul_one, mul_one, sub_self, abs_zero] at hnear
  exact ⟨hf, sub_eq_zero.1 (abs_eq_zero.1 (le_antisymm hnear (abs_nonneg _)))⟩

/-! ## The obligation -/

/-- A difference is the sum with the operand negated. -/
theorem fsub_key {a b : F32} (ha : isFinite a = true) (hb : isFinite b = true) :
    orderKey (fsub a b) = orderKey (rounded (scaled a - scaled b) 1) := by
  have h := (fadd_key ha (isFinite_fneg.trans hb)).1
  rwa [scaled_fneg, ← sub_eq_add_neg] at h

/-- Settles O54: each operator orders like the rounded exact result, which is nearest to it. -/
theorem arithmeticFollowsBinary32 : Obligations.ArithmeticFollowsBinary32 := by
  refine ⟨fun a b ha hb => ?_, fun a k lo hi ha => ?_, fun n => ⟨toF32_nearestEven, toF32_exact⟩,
    fun a b c lo hi => ⟨rfl, rfl, fun h => if_pos h⟩⟩
  · have hadd := (fadd_key ha hb).1
    have hsub := fsub_key ha hb
    have hmul := (fmul_key ha hb).1
    have hdiv := fdiv_key ha hb
    have hone : (0 : Nat) < 1 := Nat.one_pos
    refine ⟨fun hf => nearestEven_of_key hone hf hadd, fun hf => nearestEven_of_key hone hf hsub,
      fun hf => nearestEven_of_key unitScale_pos hf hmul,
      fun h0 hf => nearestEven_of_key (Int.natAbs_pos.2 h0) hf (hdiv h0),
      fun h => isFinite_of_key hone hadd (by simpa using h), fun h => isFinite_of_key hone hsub (by simpa using h),
      isFinite_of_key unitScale_pos hmul, fun h0 h => isFinite_of_key (Int.natAbs_pos.2 h0) (hdiv h0) ?_,
      flt_iff ha hb, fle_iff ha hb, feq_iff ha hb, scaled_fmin ha hb, scaled_fmax ha hb⟩
    rw [abs_mul, Int.abs_sign_of_ne_zero h0, mul_one, ← Int.abs_eq_natAbs]
    exact h
  · exact ⟨le_ffloor_iff ha k, fceil_le_iff ha k, by rw [toIntSat, isNaN_of_finite ha]; rfl, scaled_fabs a,
      fabs_getLsbD_sign a⟩

end Sys2Proof.Machine
end

section
/-! `fexp2` and `fsin2pi` over the real numbers (00_scope.md R30, R31). -/

namespace Sys2Proof.Machine

/-! ## Values of finite patterns as real numbers -/

/-- Finite patterns of one value that is no zero are one pattern. -/
theorem eq_of_scaled {x y : F32} (hx : isFinite x = true) (hy : isFinite y = true) (h : scaled x = scaled y)
    (h0 : scaled x ≠ 0) : x = y := by
  have h1 := orderKey_le_iff hx hy
  have h2 := orderKey_le_iff hy hx
  exact eq_of_key (by omega) (mt (orderKey_eq_zero_iff hx).1 h0)

theorem abs_scaled (x : F32) : |scaled x| = scaledMag x := by
  rw [Int.abs_eq_natAbs, natAbs_scaled, scaledMag_eq]

theorem abs_ratOf_le_iff (x : F32) (n : Nat) : |(ratOf x : ℝ)| ≤ n ↔ scaledMag x ≤ n * unitScale := by
  have habs : |(scaled x : ℝ)| = scaledMag x := by rw [← Int.cast_abs, abs_scaled, Int.cast_natCast]
  rw [ratOf_cast, abs_div, abs_of_pos (show (0 : ℝ) < 2 ^ 149 by positivity), div_le_iff₀ (by positivity), habs, unitScale]
  exact_mod_cast Iff.rfl

theorem ratOf_nonneg_iff (x : F32) : (0 : ℝ) ≤ ratOf x ↔ 0 ≤ scaled x := by
  rw [ratOf_cast, le_div_iff₀ (by positivity), zero_mul]; exact Int.cast_nonneg_iff

theorem ratOf_lt_one_iff (x : F32) : (ratOf x : ℝ) < 1 ↔ scaled x < unitScale := by
  rw [ratOf_cast, div_lt_one (by positivity), unitScale]
  exact_mod_cast Iff.rfl

theorem ratOf_of_scaled {x : F32} {k : Int} (h : scaled x = k * unitScale) : (ratOf x : ℝ) = k := by
  rw [ratOf_cast, h, unitScale, Int.cast_mul, Int.cast_natCast, Nat.cast_pow, Nat.cast_ofNat]
  exact mul_div_cancel_right₀ _ (pow_ne_zero 149 two_ne_zero)

/-! ## fexp2 -/

theorem exactInt_eq_some_iff {x : F32} {k : Int} :
    exactInt x = some k ↔ isFinite x = true ∧ scaled x = k * unitScale ∧ x ≠ 0x80000000 := by
  have hu : (unitScale : Int) ≠ 0 := unitScale_cast_pos.ne'
  unfold exactInt
  simp only [Option.ite_none_right_eq_some, Bool.and_eq_true, decide_eq_true_eq, bne_iff_ne, Option.some.injEq]
  constructor
  · rintro ⟨⟨⟨hf, hs⟩, h0⟩, rfl⟩
    exact ⟨hf, hs, h0⟩
  · rintro ⟨hf, hs, h0⟩
    have hk : ffloor x = k := by rw [ffloor_of_finite hf, hs, Int.mul_ediv_cancel _ hu]
    exact ⟨⟨⟨hf, by rw [hk, hs]⟩, h0⟩, hk⟩

/-- A whole number's pattern is that of toF32, as −0.0 is left out. -/
theorem exactInt_eq_some_iff_toF32 {x : F32} {k : Int} (hk : |k| ≤ 2 ^ 24) : exactInt x = some k ↔ x = toF32 k := by
  obtain ⟨hf, hs⟩ := toF32_exact hk
  rw [exactInt_eq_some_iff]
  rcases eq_or_ne k 0 with rfl | h0
  · have hz : toF32 0 = 0 := by decide
    rw [hz, Int.zero_mul]
    constructor
    · rintro ⟨hx, hs0, hne⟩
      have hmag : x.toNat % 2 ^ 31 = 0 := by rw [← natAbs_orderKey, (orderKey_eq_zero_iff hx).2 hs0]; rfl
      have hne' : x.toNat ≠ 2 ^ 31 := fun h => hne (BitVec.eq_of_toNat_eq h)
      refine BitVec.eq_of_toNat_eq ?_
      show x.toNat = 0
      omega
    · rintro rfl; decide
  · have hu : (unitScale : Int) ≠ 0 := unitScale_cast_pos.ne'
    have hne : k * unitScale ≠ 0 := mul_ne_zero h0 hu
    constructor
    · rintro ⟨hx, hs', -⟩
      exact eq_of_scaled hx hf (hs'.trans hs.symm) (hs' ▸ hne)
    · rintro rfl
      exact ⟨hf, hs, fun h => hne (by rw [← hs, h]; decide)⟩

/-- The value of the pattern that fexp2 gives at a whole number. -/
theorem ratOf_exp2Pattern {k : Int} (h1 : -126 ≤ k) (h2 : k ≤ 127) :
    isFinite (BitVec.ofNat 32 ((k + 127).toNat * 2 ^ 23)) = true ∧
      (ratOf (BitVec.ofNat 32 ((k + 127).toNat * 2 ^ 23)) : ℝ) = 2 ^ k := by
  obtain ⟨e, rfl⟩ : ∃ e : Nat, k = e - 126 := ⟨(k + 126).toNat, by omega⟩
  have hnat : (BitVec.ofNat 32 (((e : Int) - 126 + 127).toNat * 2 ^ 23)).toNat = e * 2 ^ 23 + 2 ^ 23 := by
    rw [BitVec.toNat_ofNat]; omega
  generalize BitVec.ofNat 32 (((e : Int) - 126 + 127).toNat * 2 ^ 23) = y at *
  have hmag : y.toNat % 2 ^ 31 = e * 2 ^ 23 + 2 ^ 23 := by omega
  have hs : scaled y = 2 ^ 23 * 2 ^ e := by
    rw [scaled, fSign_eq_false_iff.2 (by omega), scaledMag_eq, hmag, magOf_grid (by norm_num) (.inr le_rfl)]
    push_cast; rfl
  refine ⟨isFinite_of_mag_lt (by omega), ?_⟩
  rw [ratOf_cast, hs, zpow_sub₀ two_ne_zero, zpow_natCast]
  push_cast
  rw [div_eq_div_iff (by positivity) (by positivity)]
  norm_num
  ring

theorem fexp2_of_exactInt {x : F32} {k : Int} (hx : exactInt x = some k) (h1 : -126 ≤ k) (h2 : k ≤ 127) :
    fexp2 x = BitVec.ofNat 32 ((k + 127).toNat * 2 ^ 23) := by
  rw [fexp2, hx]; exact if_pos ⟨h1, h2⟩

/-- R30 (a). -/
theorem fexp2_toF32 {k : Int} (h1 : -126 ≤ k) (h2 : k ≤ 127) : (ratOf (fexp2 (toF32 k)) : ℝ) = 2 ^ k := by
  have hk : |k| ≤ 2 ^ 24 := abs_le.2 ⟨by omega, by omega⟩
  rw [fexp2_of_exactInt ((exactInt_eq_some_iff_toF32 hk).2 rfl) h1 h2]
  exact (ratOf_exp2Pattern h1 h2).2

/-- The value of fexp2 on [−20, 20] is one that R30 admits. -/
theorem exp2Admits_fexp2 {x : F32} (hx : isFinite x = true) (hr : |(ratOf x : ℝ)| ≤ 20) : exp2Admits x (fexp2 x) = true := by
  cases he : exactInt x with
  | some k =>
    have hval := ratOf_of_scaled (exactInt_eq_some_iff.1 he).2.1
    have hk : |k| ≤ 20 := by rw [hval] at hr; exact_mod_cast hr
    obtain ⟨h1, h2⟩ := abs_le.1 hk
    rw [fexp2_of_exactInt he (by omega) (by omega), exp2Admits_iff hx hr]
    obtain ⟨hf, hv⟩ := ratOf_exp2Pattern (k := k) (by omega) (by omega)
    rw [hv, hval, Real.rpow_intCast, sub_self, abs_zero]
    exact ⟨hf, by positivity, by positivity⟩
  | none =>
    have hmag : scaledMag x ≤ 20 * unitScale := (abs_ratOf_le_iff x 20).1 (by exact_mod_cast hr)
    simp only [fexp2, he, hx, hmag, decide_true, Bool.and_self, if_true]
    split
    · assumption
    · exact exp2Fallback hx hr

/-- Away from the exact points, an admitted free value is the value. -/
theorem fexp2_eq_free {x : F32} (hne : ∀ k : Int, -126 ≤ k → k ≤ 127 → x ≠ toF32 k)
    (had : isFinite x = true → |(ratOf x : ℝ)| ≤ 20 → exp2Admits x (Config.fexp2Free x) = true) :
    fexp2 x = Config.fexp2Free x := by
  cases he : exactInt x with
  | some k =>
    have hk : ¬ (-126 ≤ k ∧ k ≤ 127) := fun ⟨h1, h2⟩ =>
      hne k h1 h2 ((exactInt_eq_some_iff_toF32 (abs_le.2 ⟨by omega, by omega⟩)).1 he)
    rw [fexp2, he]; exact if_neg hk
  | none =>
    simp only [fexp2, he, Bool.and_eq_true, decide_eq_true_eq]
    split
    · next h => exact if_pos (had h.1 (by exact_mod_cast (abs_ratOf_le_iff x 20).2 h.2))
    · rfl

/-! ## fsin2pi -/

/-- The phases at which fsin2pi is exact (00_scope.md R31 (a)). -/
def quarterPhases : List F32 := [0x00000000, 0x3E800000, 0x3F000000, 0x3F400000]

theorem isPeriod_iff {p : F32} : (isFinite p && decide (0 ≤ scaled p) && decide (scaledMag p < unitScale)) = true ↔
    isFinite p = true ∧ (0 : ℝ) ≤ ratOf p ∧ (ratOf p : ℝ) < 1 := by
  have habs := abs_scaled p
  rw [ratOf_nonneg_iff, ratOf_lt_one_iff]
  simp only [Bool.and_eq_true, decide_eq_true_eq, and_assoc]
  refine and_congr_right fun _ => and_congr_right fun h0 => ?_
  rw [abs_of_nonneg h0] at habs
  omega

/-- Away from the quarter points of the period, fsin2pi is the free value where R31 admits it, else the rounded sine. -/
theorem fsin2pi_of_inexact {p : F32} (hp : isFinite p = true) (h0 : (0 : ℝ) ≤ ratOf p) (h1 : (ratOf p : ℝ) < 1)
    (hq : p ∉ quarterPhases) : fsin2pi p = if sinAdmits p (Config.fsinFree p) = true then Config.fsinFree p
      else packSign (decide (sinFix p < 0)) (roundMag ((sinFix p).natAbs * 2 ^ 89) 1) := by
  have hs := (ratOf_nonneg_iff p).1 h0
  have hmag : ((scaledMag p : Nat) : Int) = scaled p := by rw [← abs_scaled, abs_of_nonneg hs]
  have hne : ∀ c ∈ quarterPhases, isFinite c = true → scaled p = scaled c → scaled p = 0 := fun c hc hcf he => by
    by_contra hz
    exact hq (eq_of_scaled hp hcf he hz ▸ hc)
  have quarter : 4 * scaled 0x3E800000 = unitScale := by decide
  have half : 2 * scaled 0x3F000000 = unitScale := by decide
  have threeQuarters : 4 * scaled 0x3F400000 = 3 * unitScale := by decide
  have hpos := unitScale_cast_pos
  have atQuarter := hne 0x3E800000 (by decide) (by decide)
  have atHalf := hne 0x3F000000 (by decide) (by decide)
  have atThreeQuarters := hne 0x3F400000 (by decide) (by decide)
  rw [fsin2pi, if_pos (isPeriod_iff.2 ⟨hp, h0, h1⟩), if_neg, if_neg (by omega), if_neg (by omega)]
  rintro (rfl | h)
  · exact hq (by decide)
  · omega

/-- R31 (a). -/
theorem fsin2pi_quarters : fsin2pi 0x00000000 = 0x00000000 ∧ fsin2pi 0x3E800000 = 0x3F800000 ∧
    fsin2pi 0x3F000000 = 0x00000000 ∧ fsin2pi 0x3F400000 = 0xBF800000 := by
  decide +kernel

/-- The exact values at the quarter points keep the bounds of R31 (b) and (c). -/
theorem sinAdmits_quarters : sinAdmits 0x00000000 0x00000000 = true ∧ sinAdmits 0x3E800000 0x3F800000 = true ∧
    sinAdmits 0x3F000000 0x00000000 = true ∧ sinAdmits 0x3F400000 0xBF800000 = true := by
  decide +kernel

/-- The value of fsin2pi on [0, 1) is one that R31 admits. -/
theorem sinAdmits_fsin2pi {p : F32} (hp : isFinite p = true) (h0 : (0 : ℝ) ≤ ratOf p) (h1 : (ratOf p : ℝ) < 1) :
    sinAdmits p (fsin2pi p) = true := by
  by_cases hq : p ∈ quarterPhases
  · obtain ⟨v0, v1, v2, v3⟩ := fsin2pi_quarters
    obtain ⟨a0, a1, a2, a3⟩ := sinAdmits_quarters
    simp only [quarterPhases, List.mem_cons, List.not_mem_nil, or_false] at hq
    rcases hq with rfl | rfl | rfl | rfl
    · rwa [v0]
    · rwa [v1]
    · rwa [v2]
    · rwa [v3]
  · have hper := isPeriod_iff.2 ⟨hp, h0, h1⟩
    simp only [Bool.and_eq_true, decide_eq_true_eq] at hper
    rw [fsin2pi_of_inexact hp h0 h1 hq]
    split
    · assumption
    · exact sinFallback hper.1.2 hper.2

theorem fsin2pi_eq_free {p : F32} (hq : p ∉ quarterPhases)
    (had : isFinite p = true → (0 : ℝ) ≤ ratOf p → (ratOf p : ℝ) < 1 → sinAdmits p (Config.fsinFree p) = true) :
    fsin2pi p = Config.fsinFree p := by
  by_cases hper : isFinite p = true ∧ (0 : ℝ) ≤ ratOf p ∧ (ratOf p : ℝ) < 1
  · obtain ⟨hp, h0, h1⟩ := hper
    rw [fsin2pi_of_inexact hp h0 h1 hq, if_pos (had hp h0 h1)]
  · rw [fsin2pi, if_neg (mt isPeriod_iff.1 hper)]

/-- Settles O55: on their domains both functions give a value that their test admits, and the tests are the bounds. -/
theorem transcendentalsKeepTheirBounds : Obligations.TranscendentalsKeepTheirBounds := by
  refine ⟨fun k => fexp2_toF32, fun x hx hr => ?_, fun x => fexp2_eq_free, fsin2pi_quarters, fun p => fsin2pi_eq_free,
    fun p hp h0 h1 => ?_⟩
  · exact ⟨(exp2Admits_iff hx hr _).1 (exp2Admits_fexp2 hx hr), exp2Admits_iff hx hr⟩
  · have hper := isPeriod_iff.2 ⟨hp, h0, h1⟩
    simp only [Bool.and_eq_true, decide_eq_true_eq] at hper
    have hiff := sinAdmits_iff hper.1.2 hper.2
    exact ⟨(hiff _).1 (sinAdmits_fsin2pi hp h0 h1), hiff⟩

end Sys2Proof.Machine
end

section
/-! WT's tick, and which commands touch an open load (42_wavetable.md R500 to R524). -/

namespace Sys2Proof.Machine

/-! ## The registers and the bank map that a tick keeps -/

/-- WT but for what a tick writes: its output, phase and mip level. -/
def WtUnit.frame (u : WtUnit) : WtUnit := { u with out := 0, phase := 0, mip := 0 }

theorem wtTick_frame (cfg : Config.Params) (g : GlobalRegs) (m : Memory) (u : WtUnit) :
    (wtTick cfg g m u).frame = u.frame := rfl

/-- Ticks keep the parameters, DT, and WT but for its output, phase and mip level. -/
theorem State.ticks_kept (s : State) (n : Nat) :
    (s.ticks n).cfg = s.cfg ∧ (s.ticks n).global.dt = s.global.dt ∧ (s.ticks n).wt.frame = s.wt.frame := by
  induction n with
  | zero => exact ⟨rfl, rfl, rfl⟩
  | succ n ih =>
    rw [State.ticks_succ, State.tick_cfg, State.tick_dt, State.tick_wt, wtTick_frame]
    exact ih

/-- The phase runs at every tick (42_wavetable.md R510). -/
theorem wtTick_phase (cfg : Config.Params) (g : GlobalRegs) (m : Memory) (u : WtUnit) :
    (wtTick cfg g m u).phase = phaseStep g.dt u.phase (pitchHz cfg u.pitch (connected u.conn 0 u.voctIn)) := rfl

/-- A bank that is not ready is silent (42_wavetable.md R510). -/
theorem wtTick_out_silent {cfg : Config.Params} {g : GlobalRegs} {m : Memory} {u : WtUnit}
    (h : u.ready.getD u.bank.toNat false = false) : (wtTick cfg g m u).out = f0 :=
  if_neg (by rw [h]; exact Bool.false_ne_true)

/-- After any number of ticks and one more, a bank that is not ready is silent and WT's phase has moved on. -/
theorem State.ticks_wt_silent (s : State) (h : s.wt.ready.getD s.wt.bank.toNat false = false) (n : Nat) :
    (s.ticks (n + 1)).wt.out = f0 ∧ (s.ticks (n + 1)).wt.ready = s.wt.ready ∧
      (s.ticks (n + 1)).wt.phase = phaseStep s.global.dt (s.ticks n).wt.phase
        (pitchHz s.cfg s.wt.pitch (connected s.wt.conn 0 s.wt.voctIn)) := by
  obtain ⟨hcfg, hdt, hwt⟩ := s.ticks_kept n
  have hready : (s.ticks n).wt.ready = s.wt.ready := (congrArg WtUnit.ready hwt :)
  have hbank : (s.ticks n).wt.bank = s.wt.bank := (congrArg WtUnit.bank hwt :)
  have hpitch : (s.ticks n).wt.pitch = s.wt.pitch := (congrArg WtUnit.pitch hwt :)
  have hconn : (s.ticks n).wt.conn = s.wt.conn := (congrArg WtUnit.conn hwt :)
  have hvoct : (s.ticks n).wt.voctIn = s.wt.voctIn := (congrArg WtUnit.voctIn hwt :)
  rw [State.ticks_succ, State.tick_wt]
  refine ⟨wtTick_out_silent (by rw [hready, hbank, h]), hready, ?_⟩
  rw [wtTick_phase, hcfg, hdt, hpitch, hconn, hvoct]

/-! ## The commands of a load -/

/-- The part of WT that says whether a load is open, on which bank, and which banks are ready. -/
def WtUnit.load (u : WtUnit) : Bool × Nat × List Bool := (u.loading, u.target, u.ready)

theorem WtReg.store_load (cfg : Config.Params) (d : Word) (u : WtUnit) (r : WtReg) : (r.store cfg d u).load = u.load := by
  cases r <;> rfl

theorem Reg.store_load (d : Word) (s : State) (r : Reg) : (r.store d s).wt.load = s.wt.load := by
  cases r with
  | wt r => exact WtReg.store_load _ _ _ r
  | _ => rfl

theorem State.resetUnit_wt {s : State} {u : Nat} (h : u ≠ 2) : (s.resetUnit u).wt = s.wt := by
  unfold State.resetUnit; split <;> first | rfl | contradiction

/-- BANK_BEGIN opens the load of its bank, which is not ready from then on (42_wavetable.md R520). -/
theorem execBankBegin_wt {bank : BitVec 8} {s t : State} (h : execBankBegin bank s = .next t)
    (hb : bank.toNat < s.cfg.numBanks) : ∃ u : WtUnit, t.wt = u.openLoad bank.toNat := by
  rw [execBankBegin, if_pos hb] at h
  cases h
  exact ⟨_, State.retire_wt _ _⟩

theorem WtUnit.openLoad_notReady (u : WtUnit) (b : Nat) : (u.openLoad b).ready.getD b false = false := by
  simp only [WtUnit.openLoad, List.getD_eq_getElem?_getD, List.getElem?_set]
  split
  · split <;> rfl
  · contradiction

/-- Chord notes are all started without touching WT. -/
theorem State.foldl_allocate_wt (hz : State → Nat → F32) (notes : List Nat) (s : State) :
    (notes.foldl (fun s n => s.allocate (hz s n)) s).wt = s.wt := by
  induction notes generalizing s with
  | nil => rfl
  | cons n ns ih => rw [List.foldl_cons, ih, State.allocate_wt]

theorem State.badCommand_wt (s : State) (n : Nat) : (s.badCommand n).wt = s.wt := by
  rw [State.badCommand, State.retire_wt, State.raise_wt]

theorem exec_tick_wt {imm : BitVec 14} {s t : State} (h : exec (.tick imm) s = .next t) :
    t.wt = wtTick s.cfg s.global s.mem s.wt := by
  rcases exec_tick_cases h with rfl | ⟨k, rfl⟩
  · rw [State.retire_wt, State.tick_wt]
  · rw [State.holdTick_wt, State.tick_wt]

/-- Every command keeps the load but those that begin, end or reset it (42_wavetable.md R521; 70_reset_and_hazards.md
R973). -/
theorem exec_load {i : Instr} {s t : State} (h : exec i s = .next t) (hbegin : ∀ b, i ≠ .bankBegin b)
    (hcommit : i ≠ .bankCommit) (habort : i ≠ .bankAbort) (hreset : i ≠ .sreset 0) (hresetWt : i ≠ .sreset 2) :
    t.wt.load = s.wt.load := by
  have bad : ∀ n, (s.badCommand n).wt.load = s.wt.load := fun n => congrArg WtUnit.load (s.badCommand_wt n)
  have moved : ∀ (u : State) n, u.wt.load = s.wt.load → (u.retire n).wt.load = s.wt.load :=
    fun u n hu => (congrArg WtUnit.load (u.retire_wt n)).trans hu
  have started : ∀ (f : F32) n, ((s.allocate f).retire n).wt.load = s.wt.load :=
    fun f n => moved _ n (congrArg WtUnit.load (s.allocate_wt f))
  cases i with
  | tick imm => rw [exec_tick_wt h]; rfl
  | wrreg unit reg data =>
    simp only [exec, execWrreg] at h
    split at h
    · cases h; exact bad 2
    · next r _ =>
      split at h <;> cases h
      · exact bad 2
      · exact moved _ 2 (r.store_load data s)
  | rdreg unit reg =>
    simp only [exec, execRdreg] at h
    split at h
    · cases h; rfl
    · split at h <;> cases h <;> exact moved _ 1 (congrArg WtUnit.load (State.respond_wt _ _))
  | sreset unit =>
    simp only [exec, execSreset] at h
    split at h
    · cases h; exact bad 1
    · split at h <;> cases h
      · next h0 => exact absurd (congrArg Instr.sreset (BitVec.eq_of_toNat_eq h0)) hreset
      · exact moved _ 1 (congrArg WtUnit.load (State.resetUnit_wt fun h2 =>
          hresetWt (congrArg Instr.sreset (BitVec.eq_of_toNat_eq h2))))
  | noteOn freq => cases h; exact started _ 2
  | noteOnMidi note => cases h; exact started _ 1
  | chordOn chord root =>
    simp only [exec, execChordOn] at h
    split at h <;> cases h
    · exact moved _ 1 (congrArg WtUnit.load (State.foldl_allocate_wt (fun s n => noteHz s.cfg n) _ s))
    · exact bad 1
  | noteOff slot =>
    simp only [exec, execNoteOff] at h
    split at h <;> cases h
    · exact moved _ 1 rfl
    · exact bad 1
  | bankBegin bank => exact absurd rfl (hbegin bank)
  | bankData sample =>
    simp only [exec, execBankData] at h
    split at h
    · split at h <;> cases h <;> exact moved _ 2 rfl
    · cases h; exact bad 2
  | bankCommit => exact absurd rfl hcommit
  | bankAbort => exact absurd rfl habort
  | srcBegin rate =>
    cases h
    refine moved _ 2 ?_
    split <;> rfl
  | srcData sample =>
    simp only [exec, execSrcData] at h
    split at h
    · split at h <;> cases h <;> exact moved _ 2 rfl
    · cases h; exact bad 2
  | srcCommit =>
    simp only [exec, execSrcCommit] at h
    split at h
    · split at h <;> cases h <;> exact moved _ 1 rfl
    · cases h; exact bad 1
  | srcAbort =>
    simp only [exec, execSrcAbort] at h
    split at h <;> cases h
    · exact moved _ 1 rfl
    · exact bad 1
  | nop => cases h; exact moved _ 1 rfl
  | clrstat mask => cases h; exact moved _ 1 rfl
  | allOff => cases h; exact moved _ 1 rfl
  | granSpawn => cases h; exact moved _ 1 rfl

/-! ## What a ready bank sounds like -/

/-- The level of R505: the first whose threshold is above r, else the top one. -/
theorem mipLevelFor_spec {cfg : Config.Params} (hl : 1 ≤ cfg.mipLevels) (r : F32) :
    mipLevelFor cfg r < cfg.mipLevels ∧
      (∀ j, j < mipLevelFor cfg r → flt r (fmul cfg.mipT0 (toF32 (2 ^ j))) = false) ∧
      (flt r (fmul cfg.mipT0 (toF32 (2 ^ mipLevelFor cfg r))) = true ∨ mipLevelFor cfg r + 1 = cfg.mipLevels) := by
  unfold mipLevelFor
  simp only [Nat.cast_pow, Nat.cast_ofNat]
  cases hfind : (List.range cfg.mipLevels).find? fun k => flt r (fmul cfg.mipT0 (toF32 (2 ^ k))) with
  | some k =>
    obtain ⟨habove, hk, hbelow⟩ := List.find?_range_eq_some.1 hfind
    exact ⟨List.mem_range.1 hk, fun j hj => by simpa using hbelow j hj, .inl habove⟩
  | none =>
    have hnone := List.find?_range_eq_none.1 hfind
    rw [Option.getD_none]
    exact ⟨by omega, fun j hj => by simpa using hnone j (by omega), .inr (by omega)⟩

/-- WT.MIP holds the level of R505 and R506 whole, as legal parameters give few levels. -/
theorem wtTick_mip {cfg : Config.Params} (hc : cfg.Legal) (g : GlobalRegs) (m : Memory) (u : WtUnit) :
    (wtTick cfg g m u).mip.toNat =
      mipSelect cfg g.sampleRate (pitchHz cfg u.pitch (connected u.conn 0 u.voctIn)) u.quality.toNat := by
  have hlevels : cfg.mipLevels - 1 < 2 ^ 16 + 1 :=
    (Nat.lt_two_pow_self.trans_le (hc.mipLevels_pow.trans hc.tableSize_le)).trans (Nat.lt_succ_self _)
  refine (BitVec.toNat_ofNat _ _).trans (Nat.mod_eq_of_lt ?_)
  have hk := (mipLevelFor_spec hc.mipLevels_pos (fmul (fdiv (fabs (pitchHz cfg u.pitch (connected u.conn 0 u.voctIn)))
    g.sampleRate) (toF32 cfg.tableSize))).1
  unfold mipSelect
  dsimp only
  split <;> omega

/-- A ready bank sounds at the level that MIP tells (42_wavetable.md R508, R510). -/
theorem wtTick_out_ready {cfg : Config.Params} (hc : cfg.Legal) (g : GlobalRegs) (m : Memory) {u : WtUnit}
    (h : u.ready.getD u.bank.toNat false = true) :
    (wtTick cfg g m u).out = fmul (wtRead cfg m (u.slotOf.getD u.bank.toNat 0)
      (fclamp (fadd u.framePos (if u.conn.getLsbD 1 = true then fdiv u.frameIn f10 else f0)) f0 f1)
      (wtTick cfg g m u).mip.toNat (wtTick cfg g m u).phase u.quality.toNat) cfg.outMul := by
  rw [wtTick_mip hc]
  exact if_pos h

/-- Settles O42: WT's own tick for the two ends of the readiness, and the frame of the load for the other commands. -/
theorem wtPlaysReadyBanksOnly : Obligations.WtPlaysReadyBanksOnly := by
  intro s
  refine ⟨fun h n => s.ticks_wt_silent h n, fun bank t h hb => ?_, fun i t h hopen hbegin hcommit habort hreset hresetWt => ?_,
    fun imm t h => ?_⟩
  · obtain ⟨u, hu⟩ := execBankBegin_wt h hb
    rw [hu]
    exact ⟨rfl, rfl, u.openLoad_notReady _⟩
  · have hload := exec_load h hbegin hcommit habort hreset hresetWt
    simp only [WtUnit.load, Prod.mk.injEq] at hload
    obtain ⟨hloading, htarget, hready⟩ := hload
    exact ⟨hloading.trans hopen, htarget, hready⟩
  · rw [exec_tick_wt h]
    refine ⟨wtTick_phase _ _ _ _, fun hlegal => ?_⟩
    have hc := Config.Params.legal_facts hlegal
    obtain ⟨hlt, hbelow, htop⟩ := mipLevelFor_spec hc.mipLevels_pos
      (fmul (fdiv (fabs (pitchHz s.cfg s.wt.pitch (connected s.wt.conn 0 s.wt.voctIn))) s.global.sampleRate)
        (toF32 s.cfg.tableSize))
    have hq : s.wt.quality.toNat = 0 ↔ s.wt.quality = 0 := (BitVec.toNat_eq (y := 0)).symm
    exact ⟨⟨_, hlt, hbelow, htop, (wtTick_mip hc _ _ _).trans (if_congr hq rfl rfl)⟩, wtTick_out_ready hc _ _⟩

end Sys2Proof.Machine
end

section
/-! What a step can do to the units, said once: every command is a run of elementary changes to the units that touch no
port, after which its port moves past the command, answers, waits or holds a TICK (40_host_commands.md R400 to R410). An
invariant of the units then needs one proof per elementary change. -/

namespace Sys2Proof.Machine

open Relation (ReflTransGen)

/-! ## Elementary changes of the units -/

/-- t is s but for the ports, the arbiter and the serving port. -/
def State.sameUnits (s t : State) : Prop :=
  t = { s with portA := t.portA, portL := t.portL, sched := t.sched, serving := t.serving }

theorem State.sameUnits.cfg {s t : State} (h : s.sameUnits t) : t.cfg = s.cfg := by rw [h]

theorem State.sameUnits_self (s : State) : s.sameUnits s := rfl

theorem State.sameUnits_trans {s t u : State} (h : s.sameUnits t) (h' : t.sameUnits u) : s.sameUnits u := by
  unfold State.sameUnits at *
  rw [h', h]

theorem State.sameUnits_setPort (s : State) (p : PortId) (q : Port) : s.sameUnits (s.setPort p q) := by cases p <;> rfl

theorem State.sameUnits_serve (s : State) (q : PortId) : s.sameUnits { s.reschedule with serving := q } := rfl

theorem State.sameUnits_retire (s : State) (n : Nat) : s.sameUnits (s.retire n) := s.sameUnits_setPort _ _

theorem State.sameUnits_respond (s : State) (w : Word) : s.sameUnits (s.respond w) := s.sameUnits_setPort _ _

theorem State.sameUnits_holdTick (s : State) (k : Nat) : s.sameUnits (s.holdTick k) := s.sameUnits_setPort _ _

/-- One elementary change that a command makes to the units and memories. -/
inductive Effect (s : State) : State → Prop
  /-- an event sets its STATUS bit (60_exceptions.md R902) -/
  | raise (e : Event) : Effect s (s.raise e)
  /-- CLRSTAT (40_host_commands.md R405) -/
  | clear (mask : BitVec 14) :
      Effect s { s with global := { s.global with status := clearBits mask s.global.status } }
  /-- one tick (40_host_commands.md R402) -/
  | tick : Effect s s.tick
  /-- WRREG (40_host_commands.md R408) -/
  | store (r : Reg) (d : Word) : Effect s (r.store d s)
  /-- SRESET of the CORE (40_host_commands.md R410) -/
  | resetCore : Effect s s.resetCore
  /-- SRESET of one unit (40_host_commands.md R410) -/
  | resetUnit (u : Nat) : Effect s (s.resetUnit u)
  /-- a note-on (44_voice_pool.md R601) -/
  | allocate (f : F32) : Effect s (s.allocate f)
  /-- NOTE_OFF (44_voice_pool.md R622) -/
  | gateOff (slot : Nat) :
      Effect s { s with vpool := { s.vpool with voices := s.vpool.voices.modify slot Voice.gateOff } }
  /-- ALL_OFF (44_voice_pool.md R623) -/
  | gatesOff : Effect s { s with vpool := { s.vpool with voices := s.vpool.voices.map Voice.gateOff } }
  /-- an open bank load ends (42_wavetable.md R520, R523, R524) -/
  | closeLoad (hopen : s.wt.loading = true) : Effect s { s with wt := s.wt.closeLoad }
  /-- BANK_BEGIN with no load open (42_wavetable.md R520) -/
  | openLoad (b : Nat) (hb : b < s.cfg.numBanks) (hclosed : s.wt.loading = false) :
      Effect s { s with wt := s.wt.openLoad b }
  /-- BANK_DATA with room (42_wavetable.md R521) -/
  | stageBank (x : F32) (hopen : s.wt.loading = true) (hroom : s.wt.count < s.cfg.stageMax) :
      Effect s { s.write .wtStage s.wt.count (finiteOrZero x) with wt := { s.wt with count := s.wt.count + 1 } }
  /-- BANK_COMMIT of a load with samples (42_wavetable.md R523) -/
  | publishBank (hopen : s.wt.loading = true) (hcount : s.wt.count ≠ 0) :
      Effect s { s with mem := buildSpare s.cfg s.wt s.mem, wt := s.wt.publish.closeLoad }
  /-- SRC_BEGIN (45_granular.md R660) -/
  | openSource (rate : F32) : Effect s { s with gran :=
      { s.gran with srcLoading := true, srcCount := 0, srcStageRate := fclamp rate f1 0x49742400 } }
  /-- SRC_DATA with room (45_granular.md R661) -/
  | stageSource (x : F32) (hroom : s.gran.srcCount < s.cfg.srcMax) :
      Effect s { s.write .gsrc (srcIndex s.cfg s.gran.staging s.gran.srcCount) (finiteOrZero x) with
        gran := { s.gran with srcCount := s.gran.srcCount + 1 } }
  /-- SRC_COMMIT of a load with 2 samples or more (45_granular.md R662) -/
  | publishSource (hcount : 2 ≤ s.gran.srcCount) :
      Effect s { s with gran := { s.gran.publish with srcLoading := false } }
  /-- an open source load is discarded (45_granular.md R662, R663) -/
  | closeSource : Effect s { s with gran := { s.gran with srcLoading := false } }
  /-- GRAN_SPAWN (45_granular.md R664) -/
  | requestGrain : Effect s (s.withGran (enqueue s.cfg .host (s.gran, s.global.status)))

/-- An elementary change leaves the ports and the choice of agents alone. -/
theorem Effect.sharesPorts {s u : State} (h : Effect s u) : s.sharesPorts u := by
  cases h with
  | tick => exact ⟨s.tick_portA, s.tick_portL, s.tick_serving, s.tick_sched⟩
  | store r d => cases r <;> exact s.sharesPorts_self
  | resetUnit u => exact ⟨s.resetUnit_portA u, s.resetUnit_portL u, s.resetUnit_serving u, s.resetUnit_sched u⟩
  | allocate f => exact ⟨s.allocate_portA f, s.allocate_portL f, s.allocate_serving f, s.allocate_sched f⟩
  | _ => exact s.sharesPorts_self

/-- No command changes the parameters. -/
theorem Effect.cfg {s u : State} (h : Effect s u) : u.cfg = s.cfg := by
  cases h with
  | tick => exact s.tick_cfg
  | store r d => cases r <;> rfl
  | resetUnit u => exact s.resetUnit_cfg u
  | allocate f => exact s.allocate_cfg f
  | _ => rfl

theorem State.sharesPorts_trans {s u v : State} (h : s.sharesPorts u) (h' : u.sharesPorts v) : s.sharesPorts v := by
  obtain ⟨hA, hL, hserving, hsched⟩ := h
  obtain ⟨hA', hL', hserving', hsched'⟩ := h'
  exact ⟨hA'.trans hA, hL'.trans hL, hserving'.trans hserving, hsched'.trans hsched⟩

theorem effects_sharesPorts {s u : State} (h : ReflTransGen Effect s u) : s.sharesPorts u := by
  induction h with
  | refl => exact s.sharesPorts_self
  | tail _ he ih => exact State.sharesPorts_trans ih he.sharesPorts

theorem effects_cfg {s u : State} (h : ReflTransGen Effect s u) : u.cfg = s.cfg := by
  induction h with
  | refl => rfl
  | tail _ he ih => exact he.cfg.trans ih

/-- A run of note-ons. -/
theorem effects_allocates (hz : State → Nat → F32) (notes : List Nat) (s : State) :
    ReflTransGen Effect s (notes.foldl (fun x n => x.allocate (hz x n)) s) := by
  induction notes generalizing s with
  | nil => exact .refl
  | cons n ns ih => exact .head (.allocate _) (ih _)

/-! ## Every command -/

/-- How a command that has changed the units from s to u ends at its port. -/
inductive Ending (i : Instr) (s u : State) : State → Prop
  /-- the port moves past the command -/
  | retires : Ending i s u (u.retire (encode i).length)
  /-- RDREG with room answers, and the port moves past it (40_host_commands.md R409) -/
  | responds (w : Word) (hroom : (s.port s.serving).respFull s.cfg = false) :
      Ending i s u ((u.respond w).retire (encode i).length)
  /-- RDREG waits for room (20_memory.md R213) -/
  | waits : Ending i s u u
  /-- TICK has k ticks left (40_host_commands.md R407) -/
  | holds (imm : BitVec 14) (k : Nat) (hi : i = .tick imm)
      (hk : k = imm.toNat ∨ k + 1 = (s.port s.serving).ticksLeft) : Ending i s u (u.holdTick k)

/-- Everything a command can do: a run of elementary changes, and then one of the endings. -/
theorem exec_cases {i : Instr} {s t : State} (h : exec i s = .next t) :
    ∃ u, ReflTransGen Effect s u ∧ Ending i s u t := by
  have bad : ReflTransGen Effect s (s.raise .badCommand) := .single (.raise _)
  cases i with
  | nop => cases h; exact ⟨_, .refl, .retires⟩
  | tick imm =>
    refine ⟨s.tick, .single .tick, ?_⟩
    simp only [exec, execTick, Host.Outcome.next.injEq] at h
    rw [← h]
    generalize hn : (if (s.port s.serving).ticksLeft = 0 then imm.toNat + 1 else (s.port s.serving).ticksLeft) = n
    by_cases hlast : n = 1
    · rw [if_pos hlast]; exact .retires
    · rw [if_neg hlast]; exact .holds imm (n - 1) rfl (by split at hn <;> omega)
  | wrreg unit reg data =>
    simp only [exec, execWrreg] at h
    split at h
    · cases h; exact ⟨_, bad, .retires⟩
    · next r _ =>
      split at h <;> cases h
      · exact ⟨_, bad, .retires⟩
      · exact ⟨_, .single (.store r data), .retires⟩
  | rdreg unit reg =>
    simp only [exec, execRdreg] at h
    split at h
    · cases h; exact ⟨_, .refl, .waits⟩
    · next hfull =>
      have hroom := Bool.eq_false_of_not_eq_true hfull
      split at h <;> cases h
      · exact ⟨_, bad, .responds 0 hroom⟩
      · exact ⟨_, .refl, .responds _ hroom⟩
  | sreset unit =>
    simp only [exec, execSreset] at h
    split at h
    · cases h; exact ⟨_, bad, .retires⟩
    · split at h <;> cases h
      · exact ⟨_, .single .resetCore, .retires⟩
      · exact ⟨_, .single (.resetUnit _), .retires⟩
  | clrstat mask => cases h; exact ⟨_, .single (.clear mask), .retires⟩
  | noteOn freq => cases h; exact ⟨_, .single (.allocate _), .retires⟩
  | noteOnMidi note => cases h; exact ⟨_, .single (.allocate _), .retires⟩
  | noteOff slot =>
    simp only [exec, execNoteOff] at h
    split at h <;> cases h
    · exact ⟨_, .single (.gateOff _), .retires⟩
    · exact ⟨_, bad, .retires⟩
  | allOff => cases h; exact ⟨_, .single .gatesOff, .retires⟩
  | chordOn chord root =>
    simp only [exec, execChordOn] at h
    split at h <;> cases h
    · exact ⟨_, effects_allocates (fun x n => noteHz x.cfg n) _ s, .retires⟩
    · exact ⟨_, bad, .retires⟩
  | bankBegin bank =>
    simp only [exec, execBankBegin] at h
    split at h <;> cases h
    · next hb =>
      split
      · next hopen =>
        exact ⟨_, .tail (.tail (.single (.closeLoad hopen)) (.raise .loadFail)) (.openLoad bank.toNat hb rfl), .retires⟩
      · next hclosed => exact ⟨_, .single (.openLoad _ hb (Bool.eq_false_of_not_eq_true hclosed)), .retires⟩
    · exact ⟨_, bad, .retires⟩
  | bankData sample =>
    simp only [exec, execBankData] at h
    split at h
    · next hopen =>
      split at h <;> cases h
      · exact ⟨_, .single (.raise _), .retires⟩
      · next hroom => exact ⟨_, .single (.stageBank sample hopen (by omega)), .retires⟩
    · cases h; exact ⟨_, bad, .retires⟩
  | bankCommit =>
    simp only [exec, execBankCommit] at h
    split at h
    · next hopen =>
      split at h <;> cases h
      · exact ⟨_, .tail (.single (.closeLoad hopen)) (.raise .loadFail), .retires⟩
      · next hcount => exact ⟨_, .single (.publishBank hopen hcount), .retires⟩
    · cases h; exact ⟨_, bad, .retires⟩
  | bankAbort =>
    simp only [exec, execBankAbort] at h
    split at h <;> cases h
    · next hopen => exact ⟨_, .tail (.single (.closeLoad hopen)) (.raise .loadFail), .retires⟩
    · exact ⟨_, bad, .retires⟩
  | srcBegin rate =>
    cases h
    split
    · exact ⟨_, .tail (.single (.raise .loadFail)) (.openSource rate), .retires⟩
    · exact ⟨_, .single (.openSource rate), .retires⟩
  | srcData sample =>
    simp only [exec, execSrcData] at h
    split at h
    · split at h <;> cases h
      · exact ⟨_, .single (.raise _), .retires⟩
      · next hroom => exact ⟨_, .single (.stageSource sample (by omega)), .retires⟩
    · cases h; exact ⟨_, bad, .retires⟩
  | srcCommit =>
    simp only [exec, execSrcCommit] at h
    split at h
    · split at h <;> cases h
      · exact ⟨_, .tail (.single .closeSource) (.raise .loadFail), .retires⟩
      · next hcount => exact ⟨_, .single (.publishSource (by omega)), .retires⟩
    · cases h; exact ⟨_, bad, .retires⟩
  | srcAbort =>
    simp only [exec, execSrcAbort] at h
    split at h <;> cases h
    · exact ⟨_, .tail (.single .closeSource) (.raise .loadFail), .retires⟩
    · exact ⟨_, bad, .retires⟩
  | granSpawn => cases h; exact ⟨_, .single .requestGrain, .retires⟩

/-! ## Every step -/

/-- An ending changes nothing but the ports. -/
theorem Ending.sameUnits {i : Instr} {s u t : State} (h : Ending i s u t) : u.sameUnits t := by
  cases h with
  | retires => exact u.sameUnits_retire _
  | responds w _ => exact State.sameUnits_trans (u.sameUnits_respond w) (State.sameUnits_retire _ _)
  | waits => exact u.sameUnits_self
  | holds imm k _ _ => exact u.sameUnits_holdTick k

/-- An illegal word raises BadCommand and then changes nothing but the ports. -/
theorem State.illegal_sameUnits (w : Word) (s : State) : (s.raise .badCommand).sameUnits (s.illegal w) := by
  unfold State.illegal State.badCommand
  split
  · exact State.sameUnits_trans (State.sameUnits_respond _ 0) (State.sameUnits_retire _ _)
  · exact State.sameUnits_retire _ _

/-- Everything a step can do to the units: a run of elementary changes. -/
theorem step_effects {s t : State} (h : step s = .next t) :
    ∃ r u, s.sameUnits r ∧ ReflTransGen Effect r u ∧ u.sameUnits t := by
  rcases step_cases h with ⟨p, -, rfl⟩ | ⟨p, -, rfl⟩ | ⟨p, -, -, rfl⟩ | ⟨p, q, w, d, -, -, -, -, ⟨i, -, he⟩ | ⟨-, rfl⟩⟩
  · exact ⟨s.reschedule, _, rfl, .refl, State.sameUnits_setPort _ _ _⟩
  · exact ⟨s.reschedule, _, rfl, .refl, State.sameUnits_setPort _ _ _⟩
  · exact ⟨s.reschedule, _, rfl, .refl, rfl⟩
  · obtain ⟨u, hu, hend⟩ := exec_cases he
    exact ⟨_, u, s.sameUnits_serve q, hu, hend.sameUnits⟩
  · exact ⟨_, _, s.sameUnits_serve q, .single (.raise .badCommand), State.illegal_sameUnits _ _⟩

/-- An invariant of the units holds after a step if every elementary change keeps it. -/
theorem step_keeps {P : State → Prop} (hports : ∀ {s t}, s.sameUnits t → P s → P t)
    (heffect : ∀ {s u}, Effect s u → P s → P u) {s t : State} (h : step s = .next t) (hs : P s) : P t := by
  obtain ⟨r, u, hr, hu, ht⟩ := step_effects h
  refine hports ht ?_
  clear ht
  induction hu with
  | refl => exact hports hr hs
  | tail _ he ih => exact heffect he ih

end Sys2Proof.Machine
end

section
/-! The command ports (10_state.md R106; 20_memory.md R210 to R213): the order of words and responses, and the invariant
that every step keeps. -/

namespace Sys2Proof.Machine

/-! ## The order of words and responses -/

/-- A port has consumed n words from the front of its stream and given the responses `rs`. -/
structure Port.Advances (n : Nat) (rs : List Word) (p q : Port) : Prop where
  pc : q.pc = p.pc + n
  words : q.words ++ q.unsent = (p.words ++ p.unsent).drop n
  resp : q.taken ++ q.resp = p.taken ++ p.resp ++ rs

/-- What a step may do to a port: consume no word or exactly the head command, with at most one response. -/
def Port.inOrder (p q : Port) : Prop :=
  ∃ n rs, (n = 0 ∨ ∃ w rest, p.words = w :: rest ∧ n = commandLength w ∧ n ≤ p.words.length) ∧ rs.length ≤ 1 ∧
    p.Advances n rs q

theorem Port.inOrder_self (p : Port) : p.inOrder p :=
  ⟨0, [], .inl rfl, Nat.zero_le 1, rfl, rfl, (List.append_nil _).symm⟩

theorem Port.inOrder_hostSend (p : Port) : p.inOrder p.hostSend := by
  refine ⟨0, [], .inl rfl, Nat.zero_le 1, ?_, p.hostSend_words, ?_⟩ <;> unfold Port.hostSend <;> split <;> simp

theorem Port.inOrder_hostTake (p : Port) : p.inOrder p.hostTake := by
  refine ⟨0, [], .inl rfl, Nat.zero_le 1, ?_⟩
  unfold Port.hostTake
  split
  · exact ⟨rfl, rfl, (List.append_nil _).symm⟩
  · next h => exact ⟨rfl, rfl, by simp [h]⟩

theorem Port.inOrder_holdTick (p : Port) (k : Nat) : p.inOrder { p with ticksLeft := k } :=
  ⟨0, [], .inl rfl, Nat.zero_le 1, rfl, rfl, (List.append_nil _).symm⟩

/-- A step that moves a port past its head command consumes exactly that. -/
theorem State.inOrder_of_movedPast {s t : State} {w d : Word} {rs : List Word}
    (hhead : (s.port s.serving).head = some (w, d)) (hrs : rs.length ≤ 1) (h : s.movedPast (commandLength w) rs t)
    (p : PortId) : (s.port p).inOrder (t.port p) := by
  obtain ⟨hpc, hwords, -, hresp, hunsent, htaken, hother, -, -⟩ := h
  have hlen := Port.head_length hhead
  by_cases hp : p = s.serving
  · subst hp
    refine ⟨commandLength w, rs, .inr ?_, hrs, hpc, ?_, ?_⟩
    · rcases Port.words_of_head hhead with ⟨-, rest, hw⟩ | ⟨rest, hw⟩
      · exact ⟨w, rest, hw, rfl, hlen⟩
      · exact ⟨w, d :: rest, hw, rfl, hlen⟩
    · rw [hwords, hunsent, List.drop_append_of_le_length hlen]
    · rw [htaken, hresp, List.append_assoc]
  · have hp' : p = s.serving.other := by
      revert hp
      cases p <;> cases s.serving <;> decide
    rw [hp', hother]
    exact Port.inOrder_self _

/-- What holds between a port of s and the port that replaces it, and between every port and itself, holds between s and
the state with that port replaced. -/
theorem State.forall_port_setPort {R : Port → Port → Prop} (hself : ∀ q, R q q) (s : State) {r : PortId} {q : Port}
    (h : R (s.port r) q) (p : PortId) : R (s.port p) ((s.setPort r q).port p) := by
  by_cases hp : p = r
  · subst hp; rwa [State.port_setPort]
  · rw [State.port_setPort_of_ne s q hp]; exact hself _

theorem State.raise_port (s : State) (e : Event) (p : PortId) : (s.raise e).port p = s.port p := by cases p <;> rfl

theorem State.port_serve (s : State) (q p : PortId) : State.port { s.reschedule with serving := q } p = s.port p := by
  cases p <;> rfl

/-- A command executed for its port moves on in order. -/
theorem exec_inOrder {s t : State} {i : Instr} {w d : Word} (hhead : (s.port s.serving).head = some (w, d))
    (hdecode : decodeCommand s.cfg w d = .ok i) (h : exec i s = .next t) (p : PortId) :
    (s.port p).inOrder (t.port p) := by
  have hlen := decode_length hdecode
  rcases exec_ports h with hm | ⟨-, -, v, -, hm, -⟩ | ⟨-, -, -, -, rfl⟩ | ⟨imm, k, -, rfl, -⟩
  · exact State.inOrder_of_movedPast (rs := []) hhead (Nat.zero_le 1) (hlen ▸ hm) p
  · exact State.inOrder_of_movedPast (rs := [v]) hhead (Nat.le_refl 1) (hlen ▸ hm) p
  · exact Port.inOrder_self _
  · rw [← s.tick_port p]
    exact State.forall_port_setPort Port.inOrder_self s.tick (Port.inOrder_holdTick _ k) p

theorem State.movedPast_illegal (s : State) (w : Word) :
    ∃ rs : List Word, rs.length ≤ 1 ∧ s.movedPast (commandLength w) rs (s.illegal w) := by
  unfold State.illegal
  split
  · exact ⟨[0], Nat.le_refl 1,
      (State.becomes_respond_retire (s := s) (u := s.raise .badCommand) _ 0 ⟨rfl, rfl, rfl, rfl⟩).2⟩
  · exact ⟨[], Nat.zero_le 1, (State.becomes_badCommand s _).2⟩

/-- Settles O9: each way a step can go moves every port on in order. -/
theorem stepsKeepTheOrderOfWordsAndResponses : Obligations.StepsKeepTheOrderOfWordsAndResponses := by
  intro s t p h
  have horder : (s.port p).inOrder (t.port p) := by
    rcases step_cases h with ⟨q, -, rfl⟩ | ⟨q, -, rfl⟩ | ⟨-, -, -, rfl⟩ | ⟨-, q, w, d, -, -, hhead, -, hexec⟩
    · rw [← s.port_reschedule p]
      exact State.forall_port_setPort Port.inOrder_self _ (by simpa using Port.inOrder_hostSend _) p
    · rw [← s.port_reschedule p]
      exact State.forall_port_setPort Port.inOrder_self _ (by simpa using Port.inOrder_hostTake _) p
    · rw [s.port_reschedule p]; exact Port.inOrder_self _
    · rw [← s.port_serve q] at hhead
      rw [← s.port_serve q]
      rcases hexec with ⟨i, hdecode, he⟩ | ⟨-, rfl⟩
      · exact exec_inOrder hhead hdecode he p
      · obtain ⟨rs, hrs, hm⟩ := State.movedPast_illegal { s.reschedule with serving := q } w
        exact State.inOrder_of_movedPast hhead hrs hm p
  obtain ⟨n, rs, hn, hrs, hpc, hwords, hresp⟩ := horder
  exact ⟨n, rs, hn, hrs, hpc, hwords, hresp⟩

/-! ## The invariant of a port -/

/-- What `Port.ok` says, as named facts. -/
structure Port.Ok (cfg : Config.Params) (p : Port) : Prop where
  resp : p.resp.length ≤ cfg.respDepth
  pending : p.pending = match p.words with
    | [w] => if commandLength w = 2 then some w else none
    | _ => none
  ticks : p.ticksLeft = 0 ∨ ∃ w rest, p.words = w :: rest ∧ opField w = 0x01 ∧ p.ticksLeft ≤ (immField w).toNat

theorem Port.ok_iff {cfg : Config.Params} {p : Port} : p.ok cfg = true ↔ p.Ok cfg := by
  have hticks : (match p.words with
      | w :: _ => opField w == 0x01 && decide (p.ticksLeft ≤ (immField w).toNat)
      | [] => false) = true ↔
      ∃ w rest, p.words = w :: rest ∧ opField w = 0x01 ∧ p.ticksLeft ≤ (immField w).toNat := by
    cases p.words <;> simp
  constructor
  · intro h
    simp only [Port.ok, Bool.and_eq_true, Bool.or_eq_true, decide_eq_true_eq] at h
    obtain ⟨⟨hresp, hpending⟩, ht⟩ := h
    exact ⟨hresp, hpending, ht.imp_right hticks.1⟩
  · rintro ⟨hresp, hpending, ht⟩
    simp only [Port.ok, Bool.and_eq_true, Bool.or_eq_true, decide_eq_true_eq]
    exact ⟨⟨hresp, hpending⟩, ht.imp_right hticks.2⟩

theorem State.portsOk_iff {s : State} : s.portsOk = true ↔ ∀ p, (s.port p).Ok s.cfg := by
  simp only [State.portsOk, Bool.and_eq_true, Port.ok_iff]
  exact ⟨fun ⟨hA, hL⟩ p => by cases p <;> assumption, fun h => ⟨h .A, h .L⟩⟩

variable {cfg : Config.Params} {p : Port}

/-- A port given new words has the right word pending. -/
theorem Port.Ok.withWords {ws : List Word} (hresp : p.resp.length ≤ cfg.respDepth)
    (hticks : p.ticksLeft = 0 ∨ ∃ w rest, ws = w :: rest ∧ opField w = 0x01 ∧ p.ticksLeft ≤ (immField w).toNat) :
    (p.withWords ws).Ok cfg where
  resp := by rwa [Port.withWords_resp]
  pending := by rw [Port.withWords_words]; exact p.withWords_pending ws
  ticks := by rwa [Port.withWords_words, Port.withWords_ticksLeft]

theorem Port.Ok.retire (h : p.resp.length ≤ cfg.respDepth) (n : Nat) : (p.retire n).Ok cfg :=
  Port.Ok.withWords h (.inl rfl)

/-- A word arrives behind the head command. -/
theorem Port.Ok.hostSend (h : p.Ok cfg) : p.hostSend.Ok cfg := by
  unfold Port.hostSend
  split
  · exact h
  · next v vs _ =>
    refine Port.Ok.withWords h.resp (h.ticks.imp_right ?_)
    rintro ⟨w, rest, hw, hop, hk⟩
    exact ⟨w, rest ++ [v], by rw [hw]; rfl, hop, hk⟩

/-- A response leaves. -/
theorem Port.Ok.hostTake (h : p.Ok cfg) : p.hostTake.Ok cfg := by
  unfold Port.hostTake
  split
  · exact h
  · next v vs hv => exact ⟨by have := h.resp; rw [hv] at this; exact Nat.le_of_succ_le this, h.pending, h.ticks⟩

/-- A TICK at the head holds the port. -/
theorem Port.Ok.holdTick (h : p.Ok cfg) {w : Word} {rest : List Word} {k : Nat} (hw : p.words = w :: rest)
    (hop : opField w = 0x01) (hk : k ≤ (immField w).toNat) : ({ p with ticksLeft := k } : Port).Ok cfg :=
  ⟨h.resp, h.pending, .inr ⟨w, rest, hw, hop, hk⟩⟩

/-- A TICK is the word of its OP with its count in IMM (30_encoding.md R304). -/
theorem decodeCommand_tick {w d : Word} {imm : BitVec 14} (h : decodeCommand cfg w d = .ok (.tick imm)) :
    opField w = 0x01 ∧ immField w = imm := by
  obtain ⟨hrow, -⟩ := decodeCommand_ok h
  unfold decodeRow at hrow
  simp only [] at hrow
  split at hrow
  case h_2 hop =>
    obtain ⟨-, hi⟩ := checkFixed_ok hrow
    cases hi
    exact ⟨BitVec.eq_of_toNat_eq hop, rfl⟩
  case h_21 => cases hrow
  all_goals
    obtain ⟨-, hi⟩ := checkFixed_ok hrow
    cases hi

theorem State.setPort_ok {s : State} (h : ∀ p, (s.port p).Ok s.cfg) {r : PortId} {q : Port} (hq : q.Ok s.cfg) (p : PortId) :
    ((s.setPort r q).port p).Ok (s.setPort r q).cfg := by
  rw [State.setPort_cfg]
  by_cases hp : p = r
  · subst hp; rwa [State.port_setPort]
  · rw [State.port_setPort_of_ne s q hp]; exact h p

theorem State.retire_ok {s : State} (h : ∀ p, (s.port p).Ok s.cfg) (n : Nat) (p : PortId) :
    ((s.retire n).port p).Ok (s.retire n).cfg := State.setPort_ok h (Port.Ok.retire (h _).resp n) p

/-- A response to a port with room, and the move past the command. -/
theorem State.respond_retire_ok {s : State} (h : ∀ p, (s.port p).Ok s.cfg) (w : Word) (n : Nat)
    (hroom : (s.port s.serving).resp.length < s.cfg.respDepth) (p : PortId) :
    (((s.respond w).retire n).port p).Ok ((s.respond w).retire n).cfg := by
  have hresp : ∀ p, ((s.respond w).port p).Ok (s.respond w).cfg :=
    State.setPort_ok h ⟨by simpa using hroom, (h _).pending, (h _).ticks⟩
  exact State.retire_ok hresp n p

/-- A command executed for the port at whose head it stands keeps the ports. -/
theorem exec_portsOk {s t : State} {i : Instr} {w d : Word} (hs : ∀ p, (s.port p).Ok s.cfg)
    (hhead : (s.port s.serving).head = some (w, d)) (hdecode : decodeCommand s.cfg w d = .ok i)
    (h : exec i s = .next t) (p : PortId) : (t.port p).Ok t.cfg := by
  obtain ⟨u, hu, hend⟩ := exec_cases h
  have hcfg : u.cfg = s.cfg := effects_cfg hu
  obtain ⟨hA, hL, hserving, -⟩ := effects_sharesPorts hu
  have hport : ∀ q, u.port q = s.port q := fun q => by cases q <;> assumption
  have huok : ∀ q, (u.port q).Ok u.cfg := fun q => by rw [hport, hcfg]; exact hs q
  cases hend with
  | retires => exact State.retire_ok huok _ p
  | responds v hroom =>
    refine State.respond_retire_ok huok v _ ?_ p
    rw [hserving, hport, hcfg]
    simpa [Port.respFull] using hroom
  | waits => exact huok p
  | holds imm k hi hk =>
    subst hi
    obtain ⟨hop, himm⟩ := decodeCommand_tick hdecode
    obtain ⟨rest, hw⟩ : ∃ rest, (s.port s.serving).words = w :: rest := by
      rcases Port.words_of_head hhead with ⟨-, rest, hw⟩ | ⟨rest, hw⟩
      · exact ⟨rest, hw⟩
      · exact ⟨d :: rest, hw⟩
    have hle : k ≤ (immField w).toNat := by
      rcases hk with rfl | hk
      · rw [himm]
      · rcases (hs s.serving).ticks with h0 | ⟨w', rest', hw', -, hle⟩
        · omega
        · rw [hw] at hw'; cases hw'; omega
    exact State.setPort_ok huok (Port.Ok.holdTick (huok _) (by rw [hserving, hport, hw]) hop hle) p

theorem State.illegal_portsOk {s : State} (hs : ∀ p, (s.port p).Ok s.cfg) {w : Word}
    (hroom : opField w = 0x03 → (s.port s.serving).resp.length < s.cfg.respDepth) (p : PortId) :
    ((s.illegal w).port p).Ok (s.illegal w).cfg := by
  have hraise : ∀ p, ((s.raise .badCommand).port p).Ok (s.raise .badCommand).cfg := fun p => by 
    rw [State.raise_port]; exact hs p
  unfold State.illegal
  split
  · next hop =>
    refine State.respond_retire_ok hraise 0 _ ?_ p
    rw [State.raise_serving, State.raise_port]; exact hroom hop
  · exact State.retire_ok hraise _ p

/-- Settles O60: each way a step can go keeps both ports. -/
theorem stepKeepsThePorts : Obligations.StepKeepsThePorts := by
  intro s t h hs
  rw [State.portsOk_iff] at hs ⊢
  have hs' : ∀ p, (s.reschedule.port p).Ok s.reschedule.cfg := fun p => by rw [s.port_reschedule]; exact hs p
  rcases step_cases h with ⟨q, -, rfl⟩ | ⟨q, -, rfl⟩ | ⟨-, -, -, rfl⟩ | ⟨-, q, w, d, -, -, hhead, hroom, hexec⟩
  · exact State.setPort_ok hs' (hs q).hostSend
  · exact State.setPort_ok hs' (hs q).hostTake
  · exact hs'
  · have hserve : ∀ p, (State.port { s.reschedule with serving := q } p).Ok s.cfg := fun p => by
      rw [s.port_serve]; exact hs p
    rw [← s.port_serve q] at hhead hroom
    rcases hexec with ⟨i, hdecode, he⟩ | ⟨-, rfl⟩
    · exact exec_portsOk (s := { s.reschedule with serving := q }) hserve hhead hdecode he
    · exact State.illegal_portsOk (s := { s.reschedule with serving := q }) hserve hroom

end Sys2Proof.Machine
end

section
/-! STATUS, the bank map, the pools and the loop: what every elementary change keeps of them (10_state.md R116, R131, R150;
44_voice_pool.md R600; 46_looper.md R704; 70_reset_and_hazards.md R973). -/

namespace Sys2Proof.Machine

/-! ## STATUS -/

/-- The events are the six lowest bits. -/
theorem raiseBit_toNat_lt (e : Event) {w : Word} (h : w.toNat < 2 ^ 6) : (raiseBit e w).toNat < 2 ^ 6 := by
  have hbit : (1#32 <<< e.code).toNat < 2 ^ 6 := by cases e <;> decide
  rw [raiseBit, BitVec.toNat_or]
  exact Nat.or_lt_two_pow h hbit

theorem clearBits_toNat_lt (mask : BitVec 14) {w : Word} (h : w.toNat < 2 ^ 6) : (clearBits mask w).toNat < 2 ^ 6 := by
  rw [clearBits, BitVec.toNat_and]
  exact Nat.lt_of_le_of_lt Nat.and_le_left h

section GranDraws

/-! GRAN's tick reaches its generator by draws and STATUS by raising events only: what holds of the two and is kept by
both operations is kept by every part of the tick. -/

variable {Q : Word → Word → Prop} (hraise : ∀ e r w, Q r w → Q r (raiseBit e w)) (hdraw : ∀ r w, Q r w → Q (xorshift r) w)
  {cfg : Config.Params} {s : GranStep}

include hraise in
theorem enqueue_raises (tag : SpawnTag) (h : Q s.1.rng s.2) : Q (enqueue cfg tag s).1.rng (enqueue cfg tag s).2 := by
  unfold enqueue; split
  · exact hraise _ _ _ h
  · exact h

include hraise in
theorem granClock_raises (h : Q s.1.rng s.2) : Q (granClock cfg s).1.rng (granClock cfg s).2 := by
  unfold granClock; dsimp only; split
  · exact enqueue_raises hraise _ h
  · exact h

include hraise hdraw

theorem spawn_draws (h : Q s.1.rng s.2) : Q (spawn cfg s).1.rng (spawn cfg s).2 := by
  unfold spawn; split
  · exact hraise _ _ _ h
  · exact hdraw _ _ h

theorem drainQueue_draws (h : Q s.1.rng s.2) : Q (drainQueue cfg s).1.rng (drainQueue cfg s).2 :=
  List.foldlRecOn (motive := fun r : GranStep => Q r.1.rng r.2) s.1.queue _ h fun _ hr _ _ => spawn_draws hraise hdraw hr

theorem granTimer_draws (dt : F32) (h : Q s.1.rng s.2) : Q (granTimer cfg dt s).1.rng (granTimer cfg dt s).2 := by
  unfold granTimer; dsimp only; split
  · split
    · exact enqueue_raises hraise _ (hdraw _ _ h)
    · exact hdraw _ _ h
  · exact h

theorem granTick_draws (dt : F32) (m : Memory) (h : Q s.1.rng s.2) :
    Q (granTick cfg dt m s).1.rng (granTick cfg dt m s).2 :=
  drainQueue_draws hraise hdraw (granTimer_draws hraise hdraw dt (granClock_raises hraise h))

end GranDraws

/-- Every elementary change raises events, clears bits or resets STATUS. -/
theorem Effect.statusOk {s u : State} (he : Effect s u) (h : s.statusOk = true) : u.statusOk = true := by
  simp only [State.statusOk, decide_eq_true_eq] at h ⊢
  cases he with
  | raise e => exact raiseBit_toNat_lt e h
  | clear mask => exact clearBits_toNat_lt mask h
  | tick =>
    rw [State.tick_status]
    exact granTick_draws (Q := fun _ w => w.toNat < 2 ^ 6) (fun e _ _ hw => raiseBit_toNat_lt e hw) (fun _ _ hw => hw) _ _ h
  | store r d =>
    cases r with
    | global r => cases r <;> exact h
    | _ => exact h
  | resetCore => exact Nat.two_pow_pos 6
  | resetUnit u => rwa [State.resetUnit_global]
  | allocate f =>
    rcases s.allocate_cases f with ⟨k, v, -, -, -, hs⟩ | ⟨-, hs⟩ <;> rw [hs]
    · exact h
    · exact raiseBit_toNat_lt .voiceDrop h
  | requestGrain =>
    exact enqueue_raises (Q := fun _ w => w.toNat < 2 ^ 6) (fun e _ _ hw => raiseBit_toNat_lt e hw) _ h
  | _ => exact h

/-! ## The bank map -/

/-- The bank map, the open load and the ready bits of WT. -/
def WtUnit.bankMap (u : WtUnit) : List Nat × Nat × Bool × Nat × List Bool :=
  (u.slotOf, u.spare, u.loading, u.target, u.ready)

/-- What `State.bankMapOk` says of WT with n logical banks, as named facts. -/
structure WtUnit.MapOk (n : Nat) (u : WtUnit) : Prop where
  slots : u.slotOf.length = n
  flags : u.ready.length = n
  distinct : (u.spare :: u.slotOf).Nodup
  bound : ∀ b ∈ u.spare :: u.slotOf, b ≤ n
  target : u.loading = true → u.target < n
  ready : ∀ b < n, u.ready.getD b false = !(u.loading && u.target == b)

theorem State.bankMapOk_iff {s : State} : s.bankMapOk = true ↔ s.wt.MapOk s.cfg.numBanks := by
  have himp : ∀ (b : Bool) (p : Prop), b = false ∨ p ↔ (b = true → p) := by intro b p; cases b <;> simp
  simp only [State.bankMapOk, Bool.and_eq_true, decide_eq_true_eq, List.all_eq_true, Bool.or_eq_true, Bool.not_eq_true',
    himp, List.mem_range, beq_iff_eq]
  exact ⟨fun ⟨⟨⟨⟨⟨h1, h2⟩, h3⟩, h4⟩, h5⟩, h6⟩ => ⟨h1, h2, h3, h4, h5, h6⟩,
    fun ⟨h1, h2, h3, h4, h5, h6⟩ => ⟨⟨⟨⟨⟨h1, h2⟩, h3⟩, h4⟩, h5⟩, h6⟩⟩

theorem WtUnit.MapOk.congr {n : Nat} {u v : WtUnit} (h : u.MapOk n) (e : v.bankMap = u.bankMap) : v.MapOk n := by
  simp only [WtUnit.bankMap, Prod.mk.injEq] at e
  obtain ⟨hslots, hspare, hloading, htarget, hready⟩ := e
  obtain ⟨h1, h2, h3, h4, h5, h6⟩ := h
  constructor <;> simpa only [hslots, hspare, hloading, htarget, hready]

theorem getD_set {α : Type} (l : List α) (i j : Nat) (v d : α) :
    (l.set i v).getD j d = if i = j ∧ j < l.length then v else l.getD j d := by
  simp only [List.getD_eq_getElem?_getD, List.getElem?_set]
  grind

theorem wtReset_mapOk (cfg : Config.Params) : (wtReset cfg).MapOk cfg.numBanks where
  slots := List.length_range
  flags := List.length_replicate
  distinct := List.nodup_cons.2 ⟨List.not_mem_range_self, List.nodup_range⟩
  bound b hb := by
    rcases List.mem_cons.1 hb with rfl | hb
    · exact Nat.le_refl _
    · exact (List.mem_range.1 hb).le
  target h := nomatch h
  ready b hb := by simp [wtReset, List.getD_eq_getElem?_getD, hb]

/-- Closing the load makes its bank ready again. -/
theorem WtUnit.MapOk.closeLoad {n : Nat} {u : WtUnit} (h : u.MapOk n) (hopen : u.loading = true) : u.closeLoad.MapOk n where
  slots := h.slots
  flags := (List.length_set ..).trans h.flags
  distinct := h.distinct
  bound := h.bound
  target hl := nomatch hl
  ready b hb := by
    have hready := h.ready b hb
    rw [hopen] at hready
    simp only [WtUnit.closeLoad, getD_set, h.flags]
    by_cases hbt : u.target = b <;> simp_all

/-- Opening a load takes its bank's readiness. -/
theorem WtUnit.MapOk.openLoad {n b : Nat} {u : WtUnit} (h : u.MapOk n) (hclosed : u.loading = false) (hb : b < n) :
    (u.openLoad b).MapOk n where
  slots := h.slots
  flags := (List.length_set ..).trans h.flags
  distinct := h.distinct
  bound := h.bound
  target _ := hb
  ready c hc := by
    have hready := h.ready c hc
    rw [hclosed] at hready
    simp only [WtUnit.openLoad, getD_set, h.flags]
    by_cases hbc : b = c <;> simp_all

/-- The publication swaps the target's slot and the spare one. -/
theorem WtUnit.MapOk.publish {n : Nat} {u : WtUnit} (h : u.MapOk n) (hopen : u.loading = true) : u.publish.MapOk n := by
  have hspare : u.publish.spare = u.slotOf.getD u.target u.spare := by
    have htarget : u.target < u.slotOf.length := h.slots.symm ▸ h.target hopen
    exact (List.getD_eq_getElem _ _ htarget).trans (List.getD_eq_getElem _ _ htarget).symm
  have hperm : (u.publish.spare :: u.publish.slotOf).Perm (u.spare :: u.slotOf) :=
    hspare ▸ List.getD_set_perm_cons u.slotOf u.target u.spare
  exact
    { slots := (List.length_set ..).trans h.slots
      flags := h.flags
      distinct := hperm.nodup_iff.2 h.distinct
      bound := fun b hb => h.bound b (hperm.mem_iff.1 hb)
      target := h.target
      ready := h.ready }

theorem State.resetUnit_wt_cases (s : State) (n : Nat) : (s.resetUnit n).wt = s.wt ∨ (s.resetUnit n).wt = wtReset s.cfg := by
  by_cases hn : n = 2
  · exact .inr (hn ▸ rfl)
  · exact .inl (State.resetUnit_wt hn)

theorem Effect.bankMapOk {s u : State} (he : Effect s u) (h : s.bankMapOk = true) : u.bankMapOk = true := by
  rw [State.bankMapOk_iff] at h ⊢
  rw [he.cfg]
  cases he with
  | tick => rw [State.tick_wt]; exact h.congr rfl
  | store r d =>
    cases r with
    | wt r => cases r <;> exact h.congr rfl
    | _ => exact h
  | resetCore => exact wtReset_mapOk s.cfg
  | resetUnit n => rcases s.resetUnit_wt_cases n with hw | hw <;> rw [hw]; exacts [h, wtReset_mapOk s.cfg]
  | allocate f => rwa [State.allocate_wt]
  | closeLoad hopen => exact h.closeLoad hopen
  | openLoad b hb hclosed => exact h.openLoad hclosed hb
  | stageBank x hopen hroom => exact h.congr rfl
  | publishBank hopen hcount => exact (h.publish hopen).closeLoad hopen
  | _ => exact h

/-! ## The voices -/

/-- A slot of n phases that is silent and closed unless it is active. -/
def Voice.ok (n : Nat) (v : Voice) : Prop := v.phase.length = n ∧ v.rested = true

theorem State.voicesOk_iff {s : State} : s.voicesOk = true ↔
    s.vpool.voices.length = s.cfg.nVoices ∧ ∀ v ∈ s.vpool.voices, v.ok s.cfg.nStack := by
  simp only [State.voicesOk, Voice.ok, Bool.and_eq_true, decide_eq_true_eq, List.all_eq_true]

theorem Voice.rested_of_active {v : Voice} (h : v.active = true) : v.rested = true := by
  rw [Voice.rested, h, Bool.true_or]

theorem voiceReset_ok (cfg : Config.Params) : (voiceReset cfg).ok cfg.nStack := ⟨List.length_replicate, rfl⟩

theorem Voice.ok.startedAt {n : Nat} {v : Voice} (h : v.ok n) (pool : VoicePool) (f : F32) : (v.startedAt pool f).ok n :=
  ⟨h.1, rfl⟩

theorem Voice.ok.gateOff {n : Nat} {v : Voice} (h : v.ok n) : v.gateOff.ok n := by
  unfold Voice.gateOff
  split
  · next ha => exact ⟨h.1, Voice.rested_of_active ha⟩
  · exact h

/-- An active voice stays active or ages out; an inactive one is left alone. -/
theorem Voice.ok.ticked {n : Nat} {v : Voice} (h : v.ok n) (cfg : Config.Params) (dt : F32) (pool : VoicePool) :
    (v.ticked cfg dt pool).ok n := by
  unfold Voice.ticked
  split
  · next ha =>
    have hlen : (v.advance cfg dt pool).phase.length = n := by simpa [Voice.advance, stackPhases] using h.1
    unfold Voice.ageOut
    split
    · exact ⟨hlen, rfl⟩
    · exact ⟨hlen, Voice.rested_of_active ha⟩
  · exact h

theorem forall_mem_modify {α : Type} {P : α → Prop} {f : α → α} {l : List α} (hf : ∀ v, P v → P (f v))
    (h : ∀ v ∈ l, P v) (i : Nat) : ∀ v ∈ l.modify i f, P v := by
  intro v hv
  obtain ⟨j, hj⟩ := List.mem_iff_getElem?.1 hv
  rw [List.getElem?_modify] at hj
  obtain ⟨w, hw, rfl⟩ := Option.map_eq_some_iff.1 hj
  have hPw := h w (List.mem_of_getElem? hw)
  split
  · exact hf w hPw
  · exact hPw

theorem Effect.voicesOk {s u : State} (he : Effect s u) (h : s.voicesOk = true) : u.voicesOk = true := by
  rw [State.voicesOk_iff] at h ⊢
  rw [he.cfg]
  obtain ⟨hlen, hall⟩ := h
  have hreset : (vpoolReset s.cfg).voices.length = s.cfg.nVoices ∧ ∀ v ∈ (vpoolReset s.cfg).voices, v.ok s.cfg.nStack :=
    ⟨List.length_replicate, fun v hv => List.eq_of_mem_replicate hv ▸ voiceReset_ok s.cfg⟩
  cases he with
  | tick =>
    rw [State.tick_vpool, vpoolTick_voices]
    exact ⟨(List.length_map _).trans hlen, List.forall_mem_map.2 fun v hv => (hall v hv).ticked _ _ _⟩
  | store r d =>
    cases r with
    | vpool r => cases r <;> exact ⟨hlen, hall⟩
    | _ => exact ⟨hlen, hall⟩
  | resetCore => exact hreset
  | resetUnit n =>
    unfold State.resetUnit
    split
    case h_4 => exact hreset
    all_goals exact ⟨hlen, hall⟩
  | allocate f =>
    rcases s.allocate_cases f with ⟨k, v, hv, -, -, hs⟩ | ⟨-, hs⟩ <;> rw [hs]
    · refine ⟨(List.length_set ..).trans hlen, fun w hw => ?_⟩
      rcases List.mem_or_eq_of_mem_set hw with hw | rfl
      · exact hall w hw
      · exact (hall v (List.mem_of_getElem? hv)).startedAt _ _
    · exact ⟨hlen, hall⟩
  | gateOff slot => exact ⟨(List.length_modify ..).trans hlen, forall_mem_modify (fun _ hv => hv.gateOff) hall slot⟩
  | gatesOff => exact ⟨(List.length_map _).trans hlen, List.forall_mem_map.2 fun v hv => (hall v hv).gateOff⟩
  | _ => exact ⟨hlen, hall⟩

/-! ## GRAN -/

/-- What `State.granOk` says of GRAN, as named facts. -/
structure GranUnit.Ok (cfg : Config.Params) (u : GranUnit) : Prop where
  grains : u.grains.length = cfg.nGrains
  queue : u.queue.length ≤ cfg.gqDepth
  rng : u.rng ≠ 0
  edges : u.clkEdges ≤ 2
  count : u.srcCount ≤ cfg.srcMax
  lenGe : 2 ≤ u.srcLen.toNat
  lenLe : u.srcLen.toNat ≤ cfg.srcMax

theorem State.granOk_iff {s : State} : s.granOk = true ↔ s.gran.Ok s.cfg := by
  simp only [State.granOk, Bool.and_eq_true, decide_eq_true_eq]
  exact ⟨fun ⟨⟨⟨⟨⟨⟨h1, h2⟩, h3⟩, h4⟩, h5⟩, h6⟩, h7⟩ => ⟨h1, h2, h3, h4, h5, h6, h7⟩,
    fun ⟨h1, h2, h3, h4, h5, h6, h7⟩ => ⟨⟨⟨⟨⟨⟨h1, h2⟩, h3⟩, h4⟩, h5⟩, h6⟩, h7⟩⟩

/-- A word that is its own shift by k > 0 is 0: so it is by k any number of times. -/
theorem eq_zero_of_shiftLeft {x : Word} {k : Nat} (hk : 0 < k) (h : x <<< k = x) : x = 0 := by
  have hiter : ∀ n, x <<< (k * n) = x := by
    intro n
    induction n with
    | zero => simp
    | succ n ih => rw [Nat.mul_succ, BitVec.shiftLeft_add, ih, h]
  rw [← hiter 32]
  exact BitVec.shiftLeft_eq_zero (Nat.le_mul_of_pos_left 32 hk)

theorem eq_zero_of_ushiftRight {x : Word} {k : Nat} (hk : 0 < k) (h : x >>> k = x) : x = 0 := by
  have hiter : ∀ n, x >>> (k * n) = x := by
    intro n
    induction n with
    | zero => simp
    | succ n ih => rw [Nat.mul_succ, BitVec.shiftRight_add, ih, h]
  rw [← hiter 32]
  exact BitVec.ushiftRight_eq_zero (Nat.le_mul_of_pos_left 32 hk)

/-- The generator never reaches 0 (45_granular.md R653). -/
theorem xorshift_ne_zero {x : Word} (h : x ≠ 0) : xorshift x ≠ 0 := by
  have hleft : ∀ (k : Nat) (y : Word), 0 < k → y ≠ 0 → y ^^^ (y <<< k) ≠ 0 := fun k y hk hy he =>
    hy (eq_zero_of_shiftLeft hk (BitVec.xor_eq_zero_iff.1 he).symm)
  have hright : ∀ (k : Nat) (y : Word), 0 < k → y ≠ 0 → y ^^^ (y >>> k) ≠ 0 := fun k y hk hy he =>
    hy (eq_zero_of_ushiftRight hk (BitVec.xor_eq_zero_iff.1 he).symm)
  exact hleft 5 _ (by omega) (hright 17 _ (by omega) (hleft 13 x (by omega) h))

theorem clockMeasure_edges (hi prev : Bool) (count : Nat) {edges : Nat} (period : Word) (h : edges ≤ 2) :
    (clockMeasure hi prev count edges period).edges ≤ 2 := by
  unfold clockMeasure
  dsimp only
  split
  · exact Nat.min_le_right _ _
  · exact h

section GranBounds

variable {cfg : Config.Params} {s : GranStep}

theorem enqueue_ok (h : s.1.Ok cfg) (tag : SpawnTag) : (enqueue cfg tag s).1.Ok cfg := by
  unfold enqueue
  split
  · exact h
  · next hne =>
    have hle := h.queue
    exact { h with queue := by simp only [List.length_append, List.length_singleton]; omega }

theorem spawn_ok (h : s.1.Ok cfg) : (spawn cfg s).1.Ok cfg := by
  unfold spawn
  split
  · exact h
  · exact { h with grains := (List.length_set ..).trans h.grains, rng := xorshift_ne_zero h.rng }

theorem drainQueue_ok (h : s.1.Ok cfg) : (drainQueue cfg s).1.Ok cfg :=
  List.foldlRecOn (motive := fun r : GranStep => r.1.Ok cfg) s.1.queue _ { h with queue := Nat.zero_le _ }
    fun _ hr _ _ => spawn_ok hr

theorem granClock_ok (h : s.1.Ok cfg) : (granClock cfg s).1.Ok cfg := by
  have hedges := clockMeasure_edges (connectedHigh cfg s.1.conn 0 s.1.clockIn) s.1.clkPrev s.1.clkCount s.1.clkPeriod h.edges
  unfold granClock
  dsimp only
  split
  · refine enqueue_ok ?_ _
    exact { h with edges := hedges }
  · exact { h with edges := hedges }

theorem granTimer_ok (h : s.1.Ok cfg) (dt : F32) : (granTimer cfg dt s).1.Ok cfg := by
  unfold granTimer
  dsimp only
  split
  · split
    · refine enqueue_ok ?_ _
      exact { h with rng := xorshift_ne_zero h.rng }
    · exact { h with rng := xorshift_ne_zero h.rng }
  · exact { h with }

theorem granSound_ok (h : s.1.Ok cfg) (dt : F32) (m : Memory) : (granSound cfg dt m s).1.Ok cfg :=
  { h with grains := by rw [← h.grains]; exact (congrArg List.length (grainsTick_grains ..)).trans (List.length_map _) }

theorem granTick_ok (h : s.1.Ok cfg) (dt : F32) (m : Memory) : (granTick cfg dt m s).1.Ok cfg :=
  granSound_ok (drainQueue_ok (granTimer_ok (granClock_ok h) dt)) dt m

end GranBounds

/-- DEFAULT_SRC has 2 to SRC_MAX samples (00_scope.md R9). -/
theorem granReset_srcLen {cfg : Config.Params} (hc : cfg.Legal) :
    2 ≤ (granReset cfg).srcLen.toNat ∧ (granReset cfg).srcLen.toNat ≤ cfg.srcMax := by
  have hge := hc.srcMax_ge
  have hlt := hc.srcMax_lt
  have hlen : (granReset cfg).srcLen.toNat = defaultSrcLen cfg :=
    (BitVec.toNat_ofNat _ _).trans (Nat.mod_eq_of_lt (by unfold defaultSrcLen; omega))
  rw [hlen]
  unfold defaultSrcLen
  omega

theorem granReset_ok {cfg : Config.Params} (hc : cfg.Legal) : (granReset cfg).Ok cfg where
  grains := List.length_replicate
  queue := Nat.zero_le _
  rng := hc.seed_ne
  edges := Nat.zero_le _
  count := Nat.zero_le _
  lenGe := (granReset_srcLen hc).1
  lenLe := (granReset_srcLen hc).2

/-- A published source has the length that was staged. -/
theorem GranUnit.Ok.publish {cfg : Config.Params} (hc : cfg.Legal) {u : GranUnit} (h : u.Ok cfg) (hcount : 2 ≤ u.srcCount) :
    u.publish.Ok cfg := by
  have hlt := hc.srcMax_lt
  have hle := h.count
  have hlen : u.publish.srcLen.toNat = u.srcCount := (BitVec.toNat_ofNat _ _).trans (Nat.mod_eq_of_lt (by omega))
  exact { h with
    grains := (List.length_map _).trans h.grains
    lenGe := by rw [hlen]; exact hcount
    lenLe := by rw [hlen]; exact hle }

theorem Effect.granOk {s u : State} (he : Effect s u) (hc : s.cfg.Legal) (h : s.granOk = true) : u.granOk = true := by
  rw [State.granOk_iff] at h ⊢
  rw [he.cfg]
  cases he with
  | tick => rw [State.tick_gran]; exact granTick_ok (s := (s.gran, s.global.status)) h _ _
  | store r d =>
    cases r with
    | gran r =>
      cases r with
      | rng =>
        refine { h with rng := ?_ }
        show legalRng s.cfg d ≠ 0
        unfold legalRng
        split
        · exact hc.seed_ne
        · assumption
      | _ => exact { h with }
    | _ => exact h
  | resetCore => exact granReset_ok hc
  | resetUnit n =>
    unfold State.resetUnit
    split
    case h_5 => exact granReset_ok hc
    all_goals exact h
  | allocate f => rwa [State.allocate_gran]
  | openSource rate => exact { h with count := Nat.zero_le _ }
  | stageSource x hroom => exact { h with count := hroom }
  | publishSource hcount => exact { h.publish hc hcount with }
  | closeSource => exact { h with }
  | requestGrain => exact enqueue_ok (s := (s.gran, s.global.status)) h _
  | _ => exact h

/-! ## LOOP -/

/-- What `State.loopOk` says of LOOP, as named facts. -/
structure LoopUnit.Ok (cfg : Config.Params) (u : LoopUnit) : Prop where
  edges : u.clkEdges ≤ 2
  len : u.loopLen.toNat ≤ cfg.loopMax
  window : 2 * u.xfLen.toNat ≤ u.loopLen.toNat

theorem State.loopOk_iff {s : State} : s.loopOk = true ↔ s.loop.Ok s.cfg := by
  simp only [State.loopOk, Bool.and_eq_true, decide_eq_true_eq]
  exact ⟨fun ⟨⟨h1, h2⟩, h3⟩ => ⟨h1, h2, h3⟩, fun ⟨h1, h2, h3⟩ => ⟨⟨h1, h2⟩, h3⟩⟩

theorem loopReset_ok (cfg : Config.Params) : loopReset.Ok cfg := ⟨Nat.zero_le _, Nat.zero_le _, Nat.le_refl _⟩

theorem clampInt_le {x lo hi : Int} (h : lo ≤ hi) : lo ≤ clampInt x lo hi ∧ clampInt x lo hi ≤ hi := by
  unfold clampInt
  split_ifs <;> omega

/-- A snapshot's loop fits the loop buffer, and its window is at most half of it (46_looper.md R704). -/
theorem snapshot_ok {cfg : Config.Params} (hc : cfg.Legal) {fs : F32} {s : LoopStep} (h : s.1.Ok cfg) :
    (snapshot cfg fs s).1.Ok cfg := by
  have hmax := hc.loopMax_lt
  have hcap := hc.ringCap_lt
  obtain ⟨hlen0, hlen⟩ : (cfg.lMin : Int) ≤ snapshotLength cfg fs s.1 ∧ snapshotLength cfg fs s.1 ≤ cfg.loopMax :=
    clampInt_le (by exact_mod_cast hc.lMin_le)
  obtain ⟨hwin0, hwin⟩ : 0 ≤ snapshotWindow fs s.1 (snapshotLength cfg fs s.1) ∧
      snapshotWindow fs s.1 (snapshotLength cfg fs s.1) ≤ snapshotLength cfg fs s.1 / 2 := clampInt_le (by omega)
  have hlenNat : (snapshot cfg fs s).1.loopLen.toNat = (snapshotLength cfg fs s.1).toNat :=
    (BitVec.toNat_ofNat _ _).trans (Nat.mod_eq_of_lt (by omega))
  have hwinNat : (snapshot cfg fs s).1.xfLen.toNat = (snapshotWindow fs s.1 (snapshotLength cfg fs s.1)).toNat :=
    (BitVec.toNat_ofNat _ _).trans (Nat.mod_eq_of_lt (by omega))
  refine ⟨h.edges, ?_, ?_⟩
  · rw [hlenNat]; omega
  · rw [hlenNat, hwinNat]; omega

theorem loopControls_ok {cfg : Config.Params} {u : LoopUnit} (h : u.Ok cfg) : (loopControls cfg u).Ok cfg :=
  { h with edges := clockMeasure_edges _ _ _ _ h.edges }

theorem loopTransition_ok {cfg : Config.Params} (hc : cfg.Legal) {fs : F32} {s : LoopStep} (h : s.1.Ok cfg) :
    (loopTransition cfg fs s).1.Ok cfg := by
  unfold loopTransition
  split
  · split
    · exact { snapshot_ok hc h with }
    · exact h
  · split
    · exact h
    · exact { h with }
  · split
    · exact { h with }
    · exact h

theorem loopOutput_ok {cfg : Config.Params} {dt xL xR : F32} {m : Memory} {u : LoopUnit} (h : u.Ok cfg) :
    (loopOutput cfg dt xL xR m u).Ok cfg := by
  unfold loopOutput
  split
  · exact { h with }
  · exact { h with }

theorem loopTick_ok {cfg : Config.Params} (hc : cfg.Legal) {g : GlobalRegs} {s : LoopStep} (h : s.1.Ok cfg) :
    (loopTick cfg g s).1.Ok cfg := by
  have hring : (ringWrite cfg (fdiv s.1.inL cfg.inDiv) (fdiv s.1.inR cfg.inDiv) s).1.Ok cfg := { h with }
  exact loopOutput_ok (loopTransition_ok (s := (loopControls cfg _, _)) hc (loopControls_ok hring))

theorem Effect.loopOk {s u : State} (he : Effect s u) (hc : s.cfg.Legal) (h : s.loopOk = true) : u.loopOk = true := by
  rw [State.loopOk_iff] at h ⊢
  rw [he.cfg]
  cases he with
  | tick => rw [State.tick_loop]; exact loopTick_ok (s := (s.loop, s.mem)) hc h
  | store r d =>
    cases r with
    | loop r => cases r <;> exact { h with }
    | _ => exact h
  | resetCore => exact loopReset_ok s.cfg
  | resetUnit n =>
    unfold State.resetUnit
    split
    case h_6 => exact loopReset_ok s.cfg
    all_goals exact h
  | allocate f => rwa [State.allocate_loop]
  | _ => exact h

/-! ## Every step -/

/-- An invariant of the units, kept by every elementary change on legal parameters, is kept by every step. -/
theorem step_keeps_legal {P : State → Prop} (hports : ∀ {s t}, s.sameUnits t → P s → P t)
    (heffect : ∀ {s u}, Effect s u → s.cfg.Legal → P s → P u) {s t : State} (h : step s = .next t) (hc : s.cfg.Legal)
    (hs : P s) : P t :=
  (step_keeps (P := fun x => x.cfg.Legal ∧ P x)
    (fun hp hx => ⟨hp.cfg ▸ hx.1, hports hp hx.2⟩)
    (fun he hx => ⟨he.cfg ▸ hx.1, heffect he hx.1 hx.2⟩) h ⟨hc, hs⟩).2

/-- Settles O56: each invariant is kept by every elementary change. -/
theorem stepKeepsStatusBankMapAndPools : Obligations.StepKeepsStatusBankMapAndPools := by
  intro s t h
  refine ⟨step_keeps (fun hp hs => ?_) Effect.statusOk h, step_keeps (fun hp hs => ?_) Effect.bankMapOk h, fun hlegal => ?_⟩
  · rw [hp]; exact hs
  · rw [hp]; exact hs
  · have hc := Config.Params.legal_facts hlegal
    refine ⟨step_keeps (fun hp hs => ?_) Effect.voicesOk h, step_keeps_legal (fun hp hs => ?_) Effect.granOk h hc,
      step_keeps_legal (fun hp hs => ?_) Effect.loopOk h hc⟩
    · rw [hp]; exact hs
    · rw [hp]; exact hs
    · rw [hp]; exact hs

end Sys2Proof.Machine
end

section
/-! Registers: what a write of one stores and leaves alone (10_state.md R102 to R105; 40_host_commands.md R408), and the
ranges that every step keeps. -/

namespace Sys2Proof.Machine

/-! ## What a write does to the registers -/

/-- The registers with a range are those of class P and I. -/
theorem Reg.legal_eq_none_iff (r : Reg) (cfg : Config.Params) (d : Word) :
    (r.range cfg).legal cfg d = none ↔ r.cls = .O ∨ r.cls = .C := by
  have hP : ∀ v : Word, some v = none ↔ RegClass.P = .O ∨ RegClass.P = .C := by simp
  have hI : ∀ v : Word, some v = none ↔ RegClass.I = .O ∨ RegClass.I = .C := by simp
  have hO : (none : Option Word) = none ↔ RegClass.O = .O ∨ RegClass.O = .C := by simp
  have hC : (none : Option Word) = none ↔ RegClass.C = .O ∨ RegClass.C = .C := by simp
  rcases r with r | r | r | r | r | r | r | r | r <;> cases r <;> first | exact hP _ | exact hI _ | exact hO | exact hC

/-- A register of class O or C allows what it holds. -/
theorem Reg.allows_of_readOnly {r : Reg} (h : r.cls = .O ∨ r.cls = .C) (cfg : Config.Params) (v : Word) :
    (r.range cfg).allows cfg v = true := by
  have hnone := (r.legal_eq_none_iff cfg v).2 h
  generalize r.range cfg = rg at hnone ⊢
  cases rg with
  | readOnly => rfl
  | _ => simp [RegRange.legal] at hnone

variable (d : Word) (s : State)

/-- A write stores the legal value (10_state.md R102, R103). -/
theorem Reg.value_store {r : Reg} {v : Word} (h : (r.range s.cfg).legal s.cfg d = some v) : r.value (r.store d s) = v := by
  rcases r with r | r | r | r | r | r | r | r | r <;> cases r <;> cases h <;> rfl

theorem GlobalReg.value_store_ne {q r : GlobalReg} (h : q ≠ r) (hdt : q ≠ .dt) :
    q.value { s with global := r.store s.cfg d s.global } = q.value s := by
  cases r with
  | sampleRate => cases q <;> first | rfl | contradiction
  | _ => rfl

theorem OscReg.value_store_ne {q r : OscReg} (h : q ≠ r) : q.value { s with osc := r.store s.cfg d s.osc } = q.value s := by
  cases r <;> cases q <;> first | rfl | contradiction

theorem WtReg.value_store_ne {q r : WtReg} (h : q ≠ r) : q.value { s with wt := r.store s.cfg d s.wt } = q.value s := by
  cases r <;> cases q <;> first | rfl | contradiction

theorem EnvReg.value_store_ne {q r : EnvReg} (h : q ≠ r) : q.value { s with env := r.store s.cfg d s.env } = q.value s := by
  cases r <;> cases q <;> first | rfl | contradiction

theorem VpoolReg.value_store_ne {q r : VpoolReg} (h : q ≠ r) :
    q.value { s with vpool := r.store s.cfg d s.vpool } = q.value s := by
  cases r <;> cases q <;> first | rfl | contradiction

theorem GranReg.value_store_ne {q r : GranReg} (h : q ≠ r) :
    q.value { s with gran := r.store s.cfg d s.gran } = q.value s := by
  cases r <;> cases q <;> first | rfl | contradiction

theorem LoopReg.value_store_ne {q r : LoopReg} (h : q ≠ r) :
    q.value { s with loop := r.store s.cfg d s.loop } = q.value s := by
  cases r <;> cases q <;> first | rfl | contradiction

theorem DlyReg.value_store_ne {q r : DlyReg} (h : q ≠ r) : q.value { s with dly := r.store s.cfg d s.dly } = q.value s := by
  cases r <;> cases q <;> first | rfl | contradiction

theorem ArpReg.value_store_ne {q r : ArpReg} (h : q ≠ r) : q.value { s with arp := r.store s.cfg d s.arp } = q.value s := by
  cases r <;> cases q <;> first | rfl | contradiction

/-- A write leaves every other register but DT as it is. -/
theorem Reg.value_store_ne {q r : Reg} (h : q ≠ r) (hdt : q ≠ .global .dt) : q.value (r.store d s) = q.value s := by
  cases r with
  | global r =>
    cases q with
    | global q => exact GlobalReg.value_store_ne d s (fun e => h (e ▸ rfl)) (fun e => hdt (e ▸ rfl))
    | _ => rfl
  | osc r =>
    cases q with
    | osc q => exact OscReg.value_store_ne d s (fun e => h (e ▸ rfl))
    | _ => rfl
  | wt r =>
    cases q with
    | wt q => exact WtReg.value_store_ne d s (fun e => h (e ▸ rfl))
    | _ => rfl
  | env r =>
    cases q with
    | env q => exact EnvReg.value_store_ne d s (fun e => h (e ▸ rfl))
    | _ => rfl
  | vpool r =>
    cases q with
    | vpool q => exact VpoolReg.value_store_ne d s (fun e => h (e ▸ rfl))
    | _ => rfl
  | gran r =>
    cases q with
    | gran q => exact GranReg.value_store_ne d s (fun e => h (e ▸ rfl))
    | _ => rfl
  | loop r =>
    cases q with
    | loop q => exact LoopReg.value_store_ne d s (fun e => h (e ▸ rfl))
    | _ => rfl
  | dly r =>
    cases q with
    | dly q => exact DlyReg.value_store_ne d s (fun e => h (e ▸ rfl))
    | _ => rfl
  | arp r =>
    cases q with
    | arp q => exact ArpReg.value_store_ne d s (fun e => h (e ▸ rfl))
    | _ => rfl

/-- A write of SAMPLE_RATE sets DT with it (10_state.md R101). -/
theorem Reg.dt_store {r : Reg} {v : Word} (h : (r.range s.cfg).legal s.cfg d = some v) :
    (r.store d s).global.dt = if r = .global .sampleRate then fdiv 0x3F800000 v else s.global.dt := by
  split
  · next hr => subst hr; cases h; rfl
  · next hr =>
    cases r with
    | global r => cases r <;> first | rfl | contradiction
    | _ => rfl

theorem Reg.hidden_store (r : Reg) : (r.store d s).hidden = s.hidden := by
  rcases r with r | r | r | r | r | r | r | r | r <;> cases r <;> rfl

theorem Reg.store_mem (r : Reg) : (r.store d s).mem = s.mem := by cases r <;> rfl

/-! ## The registers do not show the ports -/

variable {s}

theorem Reg.value_sameUnits {t : State} (h : s.sameUnits t) (r : Reg) : r.value t = r.value s := by
  rw [h]; cases r <;> rfl

theorem State.sameUnits.hidden {t : State} (h : s.sameUnits t) : t.hidden = s.hidden := by rw [h]; rfl

/-- WRREG of a writable register. -/
theorem exec_wrreg_store {unit : BitVec 4} {reg : BitVec 8} {r : Reg} (hr : Reg.ofAddr s.cfg unit reg = some r)
    (hcls : ¬ (r.cls = .O ∨ r.cls = .C)) : exec (.wrreg unit reg d) s = .next (State.retire 2 (r.store d s)) := by
  simp only [exec, execWrreg, hr, if_neg hcls]

/-- WRREG of no writable register is refused. -/
theorem exec_wrreg_bad {unit : BitVec 4} {reg : BitVec 8}
    (h : ∀ r, Reg.ofAddr s.cfg unit reg = some r → r.cls = .O ∨ r.cls = .C) :
    exec (.wrreg unit reg d) s = .next (s.badCommand 2) := by
  simp only [exec, execWrreg]
  split
  · rfl
  · next r hr => rw [if_pos (h r hr)]

/-- Settles O16: a writable register by the laws of `Reg.store`, any other by the refusal. -/
theorem wrregStoresTheLegalValue : Obligations.WrregStoresTheLegalValue := by
  intro unit reg d s
  refine ⟨fun r v hr hv => ?_, fun hnone => ?_⟩
  · have hcls : ¬ (r.cls = .O ∨ r.cls = .C) := fun hc => by
      rw [(r.legal_eq_none_iff s.cfg d).2 hc] at hv; cases hv
    have hcfg : (r.store d s).cfg = s.cfg := (Effect.store r d).cfg
    have hunits := (r.store d s).sameUnits_retire 2
    refine ⟨_, exec_wrreg_store d hr hcls, ?_, fun q hq hdt => ?_, ?_, ?_, ?_, ?_, ?_⟩
    · rw [Reg.value_sameUnits hunits, Reg.value_store d s hv]
    · rw [Reg.value_sameUnits hunits, Reg.value_store_ne d s hq hdt]
    · rw [State.retire_global, Reg.dt_store d s hv]
    · rw [hunits.hidden, Reg.hidden_store]
    · exact State.memoryKept_retire 2 hcfg (Reg.store_mem d s r)
    · rw [State.retire_cfg, hcfg]
    · exact (State.becomes_retire 2 (Effect.store r d).sharesPorts).2
  · have hcls : ∀ r, Reg.ofAddr s.cfg unit reg = some r → r.cls = .O ∨ r.cls = .C := fun r hr =>
      (r.legal_eq_none_iff s.cfg d).1 (hnone r hr)
    exact ⟨_, exec_wrreg_bad d hcls, s.becomes_badCommand 2, State.memoryKept_retire (u := s.raise .badCommand) 2 rfl rfl⟩

end Sys2Proof.Machine
end

section
/-! The ranges of the registers (10_state.md R102, R103) and DT (00_scope.md R25), kept by every step. -/

namespace Sys2Proof.Machine

/-! ## Legal values are in range -/

theorem isFinite_of_isPositive {x : F32} (h : isPositive x = true) : isFinite x = true := by
  rw [isPositive, Bool.and_eq_true] at h
  exact h.1

theorem fle_trans {x y z : F32} (h : fle x y = true) (h' : fle y z = true) : fle x z = true := by
  simp only [fle_eq, Bool.and_eq_true, Bool.not_eq_true', decide_eq_true_eq] at *
  exact ⟨⟨h.1.1, h'.1.2⟩, h.2.trans h'.2⟩

/-- A clamp to finite bounds is a value between them. -/
theorem inRange_fclamp {lo hi : F32} (hlo : isFinite lo = true) (hhi : isFinite hi = true) (h : fle lo hi = true) (d : Word) :
    inRange lo hi (fclamp d lo hi) = true := by
  obtain ⟨hge, hle⟩ := fclamp_mem (x := d) (isNaN_of_finite hlo) (isNaN_of_finite hhi) h
  rw [inRange, isFinite_of_between hlo hhi hge hle, hge, hle]
  rfl

/-- A range that holds a value has its bounds in order. -/
theorem fle_of_inRange {lo hi x : F32} (h : inRange lo hi x = true) : fle lo hi = true := by
  simp only [inRange, Bool.and_eq_true] at h
  exact fle_trans h.1.2 h.2

/-- The bounds of a range of F32 values are finite, and the seed that replaces 0 is not 0. -/
def RegRange.bounded (cfg : Config.Params) : RegRange → Prop
  | .f32 lo hi => isFinite lo = true ∧ isFinite hi = true
  | .seed => cfg.rngSeedReset ≠ 0
  | .volts => isFinite cfg.inMax = true
  | .u32 _ _ | .mask _ | .readOnly => True

/-- Every range of a legal parameter set is of that kind. -/
theorem Reg.range_bounded {cfg : Config.Params} (hc : cfg.Legal) (r : Reg) : (r.range cfg).bounded cfg := by
  have htEps := isFinite_of_isPositive hc.tEps_pos
  have hsrMin := isFinite_of_isPositive hc.srMin_pos
  have hinMax := isFinite_of_isPositive hc.inMax_pos
  have hsrMax := hc.srMax_finite
  have hfbMax := hc.fbMax_finite
  have hmaxSpd := hc.maxSpd_finite
  rcases r with r | r | r | r | r | r | r | r | r <;> cases r
  case gran.rng => exact hc.seed_ne
  all_goals first | exact trivial | exact hinMax | (constructor <;> first | assumption | rfl)

/-- A legal value is one the range allows, if the range allows any. -/
theorem RegRange.allows_legal {cfg : Config.Params} {rg : RegRange} {d v v₀ : Word} (hb : rg.bounded cfg)
    (h₀ : rg.allows cfg v₀ = true) (h : rg.legal cfg d = some v) : rg.allows cfg v = true := by
  cases rg with
  | f32 lo hi => cases h; exact inRange_fclamp hb.1 hb.2 (fle_of_inRange h₀) d
  | u32 lo hi =>
    cases h
    simp only [RegRange.allows, Bool.and_eq_true, decide_eq_true_eq] at h₀ ⊢
    split_ifs <;> omega
  | mask m =>
    cases h
    simp [RegRange.allows, BitVec.and_assoc]
  | seed =>
    cases h
    simp only [RegRange.allows, bne_iff_ne]
    split
    · exact hb
    · assumption
  | volts => cases h; exact inRange_fclamp (isFinite_fneg.trans hb) hb (fle_of_inRange h₀) d
  | readOnly => cases h

/-! ## What every elementary change keeps -/

/-- The state with nothing but its P and I registers and DT: everything else as at reset. -/
def State.controls (s : State) : State :=
  { State.resetOf s.cfg with
    global := { globalReset s.cfg with sampleRate := s.global.sampleRate, dt := s.global.dt }
    osc := { oscReset with
      wave := s.osc.wave, pitch := s.osc.pitch, harmN := s.osc.harmN, harmStr := s.osc.harmStr, conn := s.osc.conn
      voctIn := s.osc.voctIn, syncIn := s.osc.syncIn }
    wt := { wtReset s.cfg with
      bank := s.wt.bank, framePos := s.wt.framePos, pitch := s.wt.pitch, quality := s.wt.quality, conn := s.wt.conn
      voctIn := s.wt.voctIn, frameIn := s.wt.frameIn }
    env := { envReset with
      attack := s.env.attack, decay := s.env.decay, sustain := s.env.sustain, release := s.env.release
      variant := s.env.variant, gateIn := s.env.gateIn }
    vpool := { vpoolReset s.cfg with
      wave := s.vpool.wave, attack := s.vpool.attack, decay := s.vpool.decay, sustain := s.vpool.sustain
      release := s.vpool.release, variant := s.vpool.variant, glide := s.vpool.glide, detune := s.vpool.detune }
    gran := { granReset s.cfg with
      bpm := s.gran.bpm, density := s.gran.density, vitality := s.gran.vitality, position := s.gran.position
      size := s.gran.size, rate := s.gran.rate, rng := s.gran.rng, conn := s.gran.conn, clockIn := s.gran.clockIn }
    loop := { loopReset with
      lenS := s.loop.lenS, bars := s.loop.bars, intensity := s.loop.intensity, rampS := s.loop.rampS
      xfadeS := s.loop.xfadeS, mode := s.loop.mode, boostEn := s.loop.boostEn, conn := s.loop.conn, inL := s.loop.inL
      inR := s.loop.inR, buildIn := s.loop.buildIn, clockIn := s.loop.clockIn }
    dly := { dlyReset s.cfg with
      revFb := s.dly.revFb, revMix := s.dly.revMix, echoTime := s.dly.echoTime, echoFb := s.dly.echoFb
      echoMix := s.dly.echoMix, revIn := s.dly.revIn, echoInL := s.dly.echoInL, echoInR := s.dly.echoInR }
    arp := { arpReset with
      root := s.arp.root, chord := s.arp.chord, bpm := s.arp.bpm, div := s.arp.div, conn := s.arp.conn
      clockIn := s.arp.clockIn } }

/-- Whether a register of a state is in range shows in its P and I registers. -/
theorem Reg.allows_controls (s : State) (r : Reg) :
    (r.range s.cfg).allows s.cfg (r.value s.controls) = (r.range s.cfg).allows s.cfg (r.value s) := by
  rcases r with r | r | r | r | r | r | r | r | r <;> cases r <;> rfl

theorem State.registersOk_congr {s u : State} (hcfg : u.cfg = s.cfg) (h : u.controls = s.controls) (hs : s.registersOk) :
    u.registersOk := fun r => by
  rw [← Reg.allows_controls, h, hcfg, Reg.allows_controls]; exact hs r

/-- A tick changes no P or I register but GRAN.RNG (40_host_commands.md R404; log entry 26). -/
theorem State.tick_controls (s : State) :
    s.tick.controls = { s.controls with gran := { s.controls.gran with rng := s.tick.gran.rng } } := by
  have hgran : s.tick.gran.inputs = s.gran.inputs := by rw [State.tick_gran, granTick_inputs]
  have hloop : s.tick.loop.inputs = s.loop.inputs := by rw [State.tick_loop, loopTick_inputs]
  have harp := arpTick_inputs s.cfg s.global s.arp
  rw [← State.tick_arp] at harp
  simp only [GranUnit.inputs, LoopUnit.inputs, List.cons.injEq, Prod.mk.injEq] at hgran hloop harp
  simp only [State.controls, hgran, hloop, harp, State.tick_cfg, State.tick_sampleRate, State.tick_dt, State.tick_osc,
    State.tick_wt, State.tick_env, State.tick_vpool, State.tick_dly]
  rfl

/-- A write keeps every register in range. -/
theorem Reg.store_registersOk {s : State} (hc : s.cfg.Legal) (h : s.registersOk) (r : Reg) (d : Word) :
    (r.store d s).registersOk := by
  intro q
  rw [(Effect.store r d).cfg]
  by_cases hq : q.cls = .O ∨ q.cls = .C
  · exact Reg.allows_of_readOnly hq _ _
  · by_cases hqr : q = r
    · subst hqr
      obtain ⟨v, hv⟩ := Option.ne_none_iff_exists'.1 fun hnone => hq ((q.legal_eq_none_iff s.cfg d).1 hnone)
      rw [Reg.value_store d s hv]
      exact RegRange.allows_legal (Reg.range_bounded hc q) (h q) hv
    · rw [Reg.value_store_ne d s hqr fun hdt => hq (.inl (hdt ▸ rfl))]
      exact h q

/-- A tick steps the generator as a write of it would, and changes no other P or I register. -/
theorem State.tick_registersOk {s : State} (hc : s.cfg.Legal) (h : s.registersOk) : s.tick.registersOk := by
  have hrng : s.tick.gran.rng ≠ 0 := by
    rw [State.tick_gran]
    exact granTick_draws (Q := fun r _ => r ≠ 0) (fun _ _ _ hr => hr) (fun _ _ hr => xorshift_ne_zero hr) _ _
      (bne_iff_ne.1 (h (.gran .rng)))
  have hstore : (Reg.gran .rng).store s.tick.gran.rng s = { s with gran := { s.gran with rng := s.tick.gran.rng } } := by
    simp only [Reg.store, GranReg.store, legalRng, if_neg hrng]
  have hok := Reg.store_registersOk hc h (.gran .rng) s.tick.gran.rng
  rw [hstore] at hok
  exact State.registersOk_congr (s := { s with gran := { s.gran with rng := s.tick.gran.rng } }) s.tick_cfg
    s.tick_controls hok

/-- Resetting a unit gives its registers their reset values. -/
theorem State.resetUnit_registersOk {s : State} (hreset : (State.resetOf s.cfg).registersOk) (h : s.registersOk) (n : Nat) :
    (s.resetUnit n).registersOk := by
  intro r
  have hr := h r
  have hr₀ := hreset r
  unfold State.resetUnit
  split <;> cases r <;> assumption

theorem Effect.registersOk {s u : State} (he : Effect s u) (hc : s.cfg.Legal)
    (hreset : (State.resetOf s.cfg).registersOk) (h : s.registersOk) : u.registersOk := by
  cases he with
  | tick => exact State.tick_registersOk hc h
  | store r d => exact Reg.store_registersOk hc h r d
  | resetCore => exact State.registersOk_congr (s := State.resetOf s.cfg) rfl rfl hreset
  | resetUnit n => exact State.resetUnit_registersOk hreset h n
  | allocate f =>
    refine State.registersOk_congr (s.allocate_cfg f) ?_ h
    unfold State.allocate
    split <;> rfl
  | requestGrain =>
    refine State.registersOk_congr (s := s) rfl ?_ h
    unfold enqueue
    split <;> rfl
  | _ => exact State.registersOk_congr (s := s) rfl rfl h

/-- DT changes with SAMPLE_RATE only (10_state.md R101). -/
theorem Effect.dtOk {s u : State} (he : Effect s u) (h : s.dtOk = true) : u.dtOk = true := by
  simp only [State.dtOk, decide_eq_true_eq] at h ⊢
  cases he with
  | tick => rwa [State.tick_dt, State.tick_sampleRate]
  | store r d =>
    cases r with
    | global r =>
      cases r with
      | sampleRate => rfl
      | _ => exact h
    | _ => exact h
  | resetCore => rfl
  | resetUnit n => rwa [State.resetUnit_global]
  | allocate f =>
    unfold State.allocate
    split <;> exact h
  | _ => exact h

/-! ## Every step -/

/-- Settles O58: both invariants are kept by every elementary change. -/
theorem stepKeepsRegistersInRange : Obligations.StepKeepsRegistersInRange := by
  intro s t h hlegal hreset hs hdt
  have hc := Config.Params.legal_facts hlegal
  refine ⟨(step_keeps_legal (P := fun x => (State.resetOf x.cfg).registersOk ∧ x.registersOk) (fun {x y} hp hx => ?_)
    (fun he hc hx => ?_) h hc ⟨hreset, hs⟩).2, step_keeps (fun hp hx => ?_) Effect.dtOk h hdt⟩
  · have hcfg := hp.cfg
    refine ⟨hcfg ▸ hx.1, fun r => ?_⟩
    rw [hcfg, Reg.value_sameUnits hp]
    exact hx.2 r
  · exact ⟨he.cfg ▸ hx.1, he.registersOk hc hx.1 hx.2⟩
  · rw [hp]; exact hx

end Sys2Proof.Machine
end

section
/-! The register map (10_state.md R100 to R145) is that of the tables, row by row. -/

namespace Sys2Proof.Machine

/-! ## The tables -/

/-- The rows that do not depend on the parameters: all but the readback entries of slots and comb lines. -/
def fixedRows : List (Nat × Nat × Reg) :=
  globalTable ++ oscTable ++ wtTable ++ envTable ++ vpoolTable ++ granTable ++ loopTable ++ dlyTable ++ arpTable

theorem mem_registerTable {cfg : Config.Params} {e : Nat × Nat × Reg} : e ∈ cfg.registerTable ↔
    e ∈ fixedRows ∨ (∃ k < cfg.nVoices, e ∈ voiceReadback k) ∨ (∃ k < cfg.nGrains, e ∈ grainReadback k) ∨
      ∃ i < cfg.nComb, e = (7, 0x30 + i, .dly (.combLen i)) := by
  simp only [Config.Params.registerTable, fixedRows, List.mem_append, List.mem_flatMap, List.mem_range, List.mem_map,
    or_assoc, eq_comm (a := e)]

/-- The j-th readback register of voice slot k (10_state.md R125). -/
def VpoolReg.inSlot (k j : Nat) : VpoolReg :=
  match j with
  | 0 => .vFreq k
  | 1 => .vTarget k
  | 2 => .vLevel k
  | _ => .vFlags k

/-- The j-th readback register of grain slot k (10_state.md R130). -/
def GranReg.inSlot (k j : Nat) : GranReg :=
  match j with
  | 0 => .gFlags k
  | 1 => .gElapsed k
  | 2 => .gDur k
  | _ => .gPhase k

theorem mem_voiceReadback {k : Nat} {e : Nat × Nat × Reg} :
    e ∈ voiceReadback k ↔ ∃ j < 4, e = (4, 0x80 + 4 * k + j, .vpool (.inSlot k j)) := by
  have hrows : voiceReadback k = (List.range 4).map fun j => (4, 0x80 + 4 * k + j, .vpool (.inSlot k j)) := rfl
  simp only [hrows, List.mem_map, List.mem_range, eq_comm (a := e)]

theorem mem_grainReadback {k : Nat} {e : Nat × Nat × Reg} :
    e ∈ grainReadback k ↔ ∃ j < 4, e = (5, 0x80 + 4 * k + j, .gran (.inSlot k j)) := by
  have hrows : grainReadback k = (List.range 4).map fun j => (5, 0x80 + 4 * k + j, .gran (.inSlot k j)) := rfl
  simp only [hrows, List.mem_map, List.mem_range, eq_comm (a := e)]

/-- The address of a register: that of its row, or of its slot (10_state.md R105). -/
def Reg.address : Reg → Nat × Nat
  | .vpool (.vFreq k) => (4, 0x80 + 4 * k)
  | .vpool (.vTarget k) => (4, 0x80 + 4 * k + 1)
  | .vpool (.vLevel k) => (4, 0x80 + 4 * k + 2)
  | .vpool (.vFlags k) => (4, 0x80 + 4 * k + 3)
  | .gran (.gFlags k) => (5, 0x80 + 4 * k)
  | .gran (.gElapsed k) => (5, 0x80 + 4 * k + 1)
  | .gran (.gDur k) => (5, 0x80 + 4 * k + 2)
  | .gran (.gPhase k) => (5, 0x80 + 4 * k + 3)
  | .dly (.combLen i) => (7, 0x30 + i)
  | r => ((fixedRows.find? fun e => e.2.2 == r).map fun e => (e.1, e.2.1)).getD (0, 0)

theorem fixedRows_address : ∀ e ∈ fixedRows, e.2.2.address = (e.1, e.2.1) := by
  refine List.forall_iff_forall_mem.1 ?_
  simp only [fixedRows, globalTable, oscTable, wtTable, envTable, vpoolTable, granTable, loopTable, dlyTable, arpTable,
    List.cons_append, List.nil_append, List.Forall]
  and_intros <;> rfl

theorem address_inSlot (k : Nat) : ∀ j < 4, (Reg.vpool (.inSlot k j)).address = (4, 0x80 + 4 * k + j) ∧
    (Reg.gran (.inSlot k j)).address = (5, 0x80 + 4 * k + j)
  | 0, _ | 1, _ | 2, _ | 3, _ => ⟨rfl, rfl⟩

/-- Every register of the tables has one address. -/
theorem address_of_mem {cfg : Config.Params} {u a : Nat} {r : Reg} (h : (u, a, r) ∈ cfg.registerTable) :
    r.address = (u, a) := by
  rcases mem_registerTable.1 h with h | ⟨k, -, h⟩ | ⟨k, -, h⟩ | ⟨i, -, h⟩
  · exact fixedRows_address _ h
  · obtain ⟨j, hj, h⟩ := mem_voiceReadback.1 h
    cases h; exact (address_inSlot k j hj).1
  · obtain ⟨j, hj, h⟩ := mem_grainReadback.1 h
    cases h; exact (address_inSlot k j hj).2
  · cases h; rfl

theorem fixedRows_bounds : ∀ e ∈ fixedRows, e.1 ≤ 8 ∧ e.2.1 < 2 ^ 8 := by decide

/-- The tables of a legal parameter set fit the fields UNIT and REG. -/
theorem registerTable_bounds {cfg : Config.Params} (hc : cfg.Legal) {u a : Nat} {r : Reg}
    (h : (u, a, r) ∈ cfg.registerTable) : u ≤ 8 ∧ a < 2 ^ 8 := by
  have hv := hc.nVoices_le
  have hg := hc.nGrains_le
  have hcomb := hc.nComb_le
  rcases mem_registerTable.1 h with h | ⟨k, hk, h⟩ | ⟨k, hk, h⟩ | ⟨i, hi, h⟩
  · exact fixedRows_bounds _ h
  · obtain ⟨j, hj, h⟩ := mem_voiceReadback.1 h
    cases h; omega
  · obtain ⟨j, hj, h⟩ := mem_grainReadback.1 h
    cases h; omega
  · cases h; omega

/-! ## The map -/

/-- The register at unit u and register number a, for any numbers. -/
def Reg.at (cfg : Config.Params) (u a : Nat) : Option Reg :=
  match u with
  | 0 => (GlobalReg.ofAddr a).map Reg.global
  | 1 => (OscReg.ofAddr a).map Reg.osc
  | 2 => (WtReg.ofAddr a).map Reg.wt
  | 3 => (EnvReg.ofAddr a).map Reg.env
  | 4 => (VpoolReg.ofAddr cfg a).map Reg.vpool
  | 5 => (GranReg.ofAddr cfg a).map Reg.gran
  | 6 => (LoopReg.ofAddr a).map Reg.loop
  | 7 => (DlyReg.ofAddr cfg a).map Reg.dly
  | 8 => (ArpReg.ofAddr a).map Reg.arp
  | _ => none

theorem Reg.ofAddr_eq_at (cfg : Config.Params) (unit : BitVec 4) (reg : BitVec 8) :
    Reg.ofAddr cfg unit reg = Reg.at cfg unit.toNat reg.toNat := rfl

theorem VpoolReg.ofAddr_slot {cfg : Config.Params} {k j : Nat} (hk : k < cfg.nVoices) (hj : j < 4) :
    VpoolReg.ofAddr cfg (0x80 + 4 * k + j) = some (.inSlot k j) := by
  have hdiv : (0x80 + 4 * k + j - 0x80) / 4 = k := by omega
  have hmod : (0x80 + 4 * k + j - 0x80) % 4 = j := by omega
  unfold VpoolReg.ofAddr
  split
  case h_13 =>
    rw [hdiv, hmod, if_pos ⟨by omega, hk⟩]
    clear * - hj
    interval_cases j <;> rfl
  all_goals omega

theorem GranReg.ofAddr_slot {cfg : Config.Params} {k j : Nat} (hk : k < cfg.nGrains) (hj : j < 4) :
    GranReg.ofAddr cfg (0x80 + 4 * k + j) = some (.inSlot k j) := by
  have hdiv : (0x80 + 4 * k + j - 0x80) / 4 = k := by omega
  have hmod : (0x80 + 4 * k + j - 0x80) % 4 = j := by omega
  unfold GranReg.ofAddr
  split
  case h_19 =>
    rw [hdiv, hmod, if_pos ⟨by omega, hk⟩]
    clear * - hj
    interval_cases j <;> rfl
  all_goals omega

/-! Each unit's map answers rows of its table only. -/

theorem GlobalReg.mem_of_ofAddr {a : Nat} {r : GlobalReg} (h : GlobalReg.ofAddr a = some r) :
    (0, a, Reg.global r) ∈ fixedRows := by
  unfold GlobalReg.ofAddr at h; split at h <;> cases h <;> decide

theorem OscReg.mem_of_ofAddr {a : Nat} {r : OscReg} (h : OscReg.ofAddr a = some r) : (1, a, Reg.osc r) ∈ fixedRows := by
  unfold OscReg.ofAddr at h; split at h <;> cases h <;> decide

theorem WtReg.mem_of_ofAddr {a : Nat} {r : WtReg} (h : WtReg.ofAddr a = some r) : (2, a, Reg.wt r) ∈ fixedRows := by
  unfold WtReg.ofAddr at h; split at h <;> cases h <;> decide

theorem EnvReg.mem_of_ofAddr {a : Nat} {r : EnvReg} (h : EnvReg.ofAddr a = some r) : (3, a, Reg.env r) ∈ fixedRows := by
  unfold EnvReg.ofAddr at h; split at h <;> cases h <;> decide

theorem LoopReg.mem_of_ofAddr {a : Nat} {r : LoopReg} (h : LoopReg.ofAddr a = some r) :
    (6, a, Reg.loop r) ∈ fixedRows := by
  unfold LoopReg.ofAddr at h; split at h <;> cases h <;> decide

theorem ArpReg.mem_of_ofAddr {a : Nat} {r : ArpReg} (h : ArpReg.ofAddr a = some r) : (8, a, Reg.arp r) ∈ fixedRows := by
  unfold ArpReg.ofAddr at h; split at h <;> cases h <;> decide

theorem VpoolReg.mem_of_ofAddr {cfg : Config.Params} {a : Nat} {r : VpoolReg} (h : VpoolReg.ofAddr cfg a = some r) :
    (4, a, Reg.vpool r) ∈ fixedRows ∨ ∃ k < cfg.nVoices, (4, a, Reg.vpool r) ∈ voiceReadback k := by
  by_cases ha : 0x80 ≤ a ∧ (a - 0x80) / 4 < cfg.nVoices
  · obtain ⟨k, j, hj, rfl⟩ : ∃ k j, j < 4 ∧ a = 0x80 + 4 * k + j := ⟨(a - 0x80) / 4, (a - 0x80) % 4, by omega, by omega⟩
    have hk : k < cfg.nVoices := by omega
    rw [VpoolReg.ofAddr_slot hk hj] at h
    cases h
    exact .inr ⟨k, hk, mem_voiceReadback.2 ⟨j, hj, rfl⟩⟩
  · unfold VpoolReg.ofAddr at h
    split at h
    case h_13 => rw [if_neg ha] at h; cases h
    all_goals cases h; exact .inl (by decide)

theorem GranReg.mem_of_ofAddr {cfg : Config.Params} {a : Nat} {r : GranReg} (h : GranReg.ofAddr cfg a = some r) :
    (5, a, Reg.gran r) ∈ fixedRows ∨ ∃ k < cfg.nGrains, (5, a, Reg.gran r) ∈ grainReadback k := by
  by_cases ha : 0x80 ≤ a ∧ (a - 0x80) / 4 < cfg.nGrains
  · obtain ⟨k, j, hj, rfl⟩ : ∃ k j, j < 4 ∧ a = 0x80 + 4 * k + j := ⟨(a - 0x80) / 4, (a - 0x80) % 4, by omega, by omega⟩
    have hk : k < cfg.nGrains := by omega
    rw [GranReg.ofAddr_slot hk hj] at h
    cases h
    exact .inr ⟨k, hk, mem_grainReadback.2 ⟨j, hj, rfl⟩⟩
  · unfold GranReg.ofAddr at h
    split at h
    case h_19 => rw [if_neg ha] at h; cases h
    all_goals cases h; exact .inl (by decide)

theorem DlyReg.mem_of_ofAddr {cfg : Config.Params} {a : Nat} {r : DlyReg} (h : DlyReg.ofAddr cfg a = some r) :
    (7, a, Reg.dly r) ∈ fixedRows ∨ ∃ i < cfg.nComb, (7, a, Reg.dly r) = (7, 0x30 + i, Reg.dly (.combLen i)) := by
  unfold DlyReg.ofAddr at h
  split at h
  case h_13 =>
    split at h
    · next ha => cases h; exact .inr ⟨a - 0x30, ha.2, by rw [Nat.add_sub_cancel' ha.1]⟩
    · cases h
  all_goals cases h; exact .inl (by decide)

theorem mem_of_at {cfg : Config.Params} {u a : Nat} {r : Reg} (h : Reg.at cfg u a = some r) :
    (u, a, r) ∈ cfg.registerTable := by
  rw [mem_registerTable]
  unfold Reg.at at h
  split at h
  case h_10 => cases h
  all_goals obtain ⟨q, hq, rfl⟩ := Option.map_eq_some_iff.1 h
  · exact .inl (GlobalReg.mem_of_ofAddr hq)
  · exact .inl (OscReg.mem_of_ofAddr hq)
  · exact .inl (WtReg.mem_of_ofAddr hq)
  · exact .inl (EnvReg.mem_of_ofAddr hq)
  · exact (VpoolReg.mem_of_ofAddr hq).imp_right .inl
  · exact (GranReg.mem_of_ofAddr hq).imp_right fun hk => .inr (.inl hk)
  · exact .inl (LoopReg.mem_of_ofAddr hq)
  · exact (DlyReg.mem_of_ofAddr hq).imp_right fun hi => .inr (.inr hi)
  · exact .inl (ArpReg.mem_of_ofAddr hq)

/-! The map answers every row. -/

theorem at_of_fixedRows (cfg : Config.Params) : ∀ e ∈ fixedRows, Reg.at cfg e.1 e.2.1 = some e.2.2 := by
  refine List.forall_iff_forall_mem.1 ?_
  simp only [fixedRows, globalTable, oscTable, wtTable, envTable, vpoolTable, granTable, loopTable, dlyTable, arpTable,
    List.cons_append, List.nil_append, List.Forall]
  and_intros <;> rfl

theorem DlyReg.ofAddr_combLen {cfg : Config.Params} {i : Nat} (hi : i < cfg.nComb) :
    DlyReg.ofAddr cfg (0x30 + i) = some (.combLen i) := by
  unfold DlyReg.ofAddr
  split
  case h_13 => rw [Nat.add_sub_cancel_left, if_pos ⟨by omega, hi⟩]
  all_goals omega

theorem at_of_mem {cfg : Config.Params} {u a : Nat} {r : Reg} (h : (u, a, r) ∈ cfg.registerTable) :
    Reg.at cfg u a = some r := by
  rcases mem_registerTable.1 h with h | ⟨k, hk, h⟩ | ⟨k, hk, h⟩ | ⟨i, hi, h⟩
  · exact at_of_fixedRows cfg _ h
  · obtain ⟨j, hj, h⟩ := mem_voiceReadback.1 h
    cases h; exact congrArg (Option.map Reg.vpool) (VpoolReg.ofAddr_slot hk hj)
  · obtain ⟨j, hj, h⟩ := mem_grainReadback.1 h
    cases h; exact congrArg (Option.map Reg.gran) (GranReg.ofAddr_slot hk hj)
  · cases h; exact congrArg (Option.map Reg.dly) (DlyReg.ofAddr_combLen hi)

theorem Reg.at_unmapped (cfg : Config.Params) {u : Nat} (hu : 9 ≤ u) (a : Nat) : Reg.at cfg u a = none := by
  unfold Reg.at
  split
  case h_10 => rfl
  all_goals omega

/-- Settles O17: the map and the table hold the same rows, and a row's register tells its address. -/
theorem registerMapIsTheTable : Obligations.RegisterMapIsTheTable := by
  intro cfg
  refine ⟨fun unit reg r => ?_, fun hlegal u a r h => ?_, fun u a u' a' r h h' => ?_, fun unit reg hu => ?_⟩
  · rw [Reg.ofAddr_eq_at]
    exact ⟨mem_of_at, at_of_mem⟩
  · exact registerTable_bounds (Config.Params.legal_facts hlegal) h
  · exact Prod.mk.inj ((address_of_mem h').symm.trans (address_of_mem h))
  · exact Reg.at_unmapped cfg hu _

end Sys2Proof.Machine
end

section
/-! What the constant, derived and mirrored registers tell (10_state.md R101, R115, R116, R120, R125, R130, R131, R135,
R140), and the registers and hidden elements at reset (70_reset_and_hazards.md R950). -/

namespace Sys2Proof.Machine

/-! ## Words made of fields -/

theorem bytes4_toNat {a b c d : Nat} (ha : a < 2 ^ 8) (hb : b < 2 ^ 8) (hc : c < 2 ^ 8) (hd : d < 2 ^ 8) :
    (bytes4 a b c d).toNat = d + 2 ^ 8 * c + 2 ^ 16 * b + 2 ^ 24 * a := by
  unfold bytes4
  rw [append_toNat, append_toNat, append_toNat]
  simp only [BitVec.toNat_ofNat]
  omega

theorem halves_toNat {a b : Nat} (ha : a < 2 ^ 16) (hb : b < 2 ^ 16) :
    (BitVec.ofNat 16 a ++ BitVec.ofNat 16 b : BitVec 32).toNat = b + 2 ^ 16 * a := by
  rw [append_toNat]
  simp only [BitVec.toNat_ofNat]
  omega

theorem word_ofNat_toNat {n : Nat} (h : n < 2 ^ 32) : (BitVec.ofNat 32 n).toNat = n :=
  (BitVec.toNat_ofNat _ _).trans (Nat.mod_eq_of_lt h)

/-- Bit k is flag k, as far as a word reaches. -/
theorem bitsOf_getLsbD (l : List Bool) (k : Nat) : (bitsOf l).getLsbD k = (decide (k < 32) && l.getD k false) := by
  induction l generalizing k with
  | nil => simp [bitsOf]
  | cons b l ih =>
    rw [bitsOf, BitVec.getLsbD_or, BitVec.getLsbD_shiftLeft]
    cases k with
    | zero => cases b <;> simp
    | succ k =>
      rw [Nat.add_sub_cancel, ih]
      have htail : (if b then 1 else 0 : Word).getLsbD (k + 1) = false := by cases b <;> simp
      rw [htail]
      by_cases hk : k + 1 < 32
      · have hk' : k < 32 := by omega
        simp [hk, hk']
      · simp [hk]

/-- The flags of at most 32 slots fit a word. -/
theorem bitsOf_getLsbD_of_le {l : List Bool} (h : l.length ≤ 32) (k : Nat) : (bitsOf l).getLsbD k = l.getD k false := by
  rw [bitsOf_getLsbD]
  by_cases hk : k < 32
  · rw [decide_eq_true hk, Bool.true_and]
  · rw [List.getD_eq_default _ _ (by omega), Bool.and_false]

/-- V_FLAGS field by field (10_state.md R125). -/
theorem voiceFlags_toNat (v : Voice) : (voiceFlags v).toNat =
    v.active.toNat + 2 * v.gate.toNat + 4 * v.primed.toNat + 2 ^ 4 * v.envState.number + 2 ^ 8 * v.wave.toNat := by
  have hfields : ∀ (a g p : Bool) (w : BitVec 2) (e : EnvState),
      ((if a then 1 else 0) ||| (if g then 2 else 0) ||| (if p then 4 else 0) ||| BitVec.ofNat 32 (e.code * 2 ^ 4)
        ||| w.setWidth 32 <<< 8 : Word).toNat
      = a.toNat + 2 * g.toNat + 4 * p.toNat + 2 ^ 4 * e.number + 2 ^ 8 * w.toNat := by
    intro a g p w e
    cases e <;> revert a g p w <;> decide
  exact hfields v.active v.gate v.primed v.wave v.envState

/-- LOAD_STATE of an open load: bit 0 and the target above bit 8 (10_state.md R115, R116). -/
theorem loadStateWord_open_toNat {target : Nat} (h : target < 2 ^ 4) :
    (loadStateWord true target).toNat = 1 + 2 ^ 8 * target := by
  have hall : ∀ t < 16, (loadStateWord true t).toNat = 1 + 2 ^ 8 * t := by decide
  exact hall target h

theorem loadStateWord_getLsbD_zero (loading : Bool) (target : Nat) :
    (loadStateWord loading target).getLsbD 0 = loading := by
  unfold loadStateWord
  cases loading <;> simp

/-- The other bits of LOAD_STATE are 0. -/
theorem loadStateWord_getLsbD_out (loading : Bool) (target : Nat) {b : Nat} (h0 : b ≠ 0) (hb : b < 8 ∨ 12 ≤ b) :
    (loadStateWord loading target).getLsbD b = false := by
  unfold loadStateWord
  cases loading
  · simp
  · have hone : (1 : Word).getLsbD b = false := by simp [h0]
    rw [if_pos rfl, BitVec.getLsbD_or, hone, Bool.or_false, BitVec.getLsbD_shiftLeft, BitVec.getLsbD_setWidth]
    rcases hb with hb | hb
    · simp [hb]
    · rw [BitVec.getLsbD_of_ge _ _ (by omega : 4 ≤ b - 8)]; simp

theorem getD_map_of_getElem? {α β : Type} {l : List α} {k : Nat} {x : α} (f : α → β) (d : β) (h : l[k]? = some x) :
    (l.map f).getD k d = f x := by
  rw [List.getD_eq_getElem?_getD, List.getElem?_map, h]; rfl

/-! ## What the derived registers tell -/

/-- The mip levels of a legal parameter set are at most 17. -/
theorem mipLevels_lt {cfg : Config.Params} (hc : cfg.Legal) : cfg.mipLevels < 2 ^ 16 := by
  have hpow : 2 ^ (cfg.mipLevels - 1) ≤ 2 ^ 16 := hc.mipLevels_pow.trans hc.tableSize_le
  have hle : cfg.mipLevels - 1 ≤ 16 := (Nat.pow_le_pow_iff_right (by omega)).1 hpow
  omega

theorem combLen_lt {cfg : Config.Params} (hc : cfg.Legal) {i len : Nat} (h : cfg.combLen[i]? = some len) : len < 2 ^ 32 := by
  have hall := List.all_eq_true.1 hc.combLen_range len (List.mem_of_getElem? h)
  have hcap := hc.dlyCap_lt
  simp only [Bool.and_eq_true, decide_eq_true_eq] at hall
  omega

/-- The number of marked slots of at most 32. -/
theorem countP_toNat {α : Type} {l : List α} (p : α → Bool) (h : l.length ≤ 32) :
    (BitVec.ofNat 32 (l.countP p)).toNat = (l.filter p).length := by
  have hle := List.countP_le_length (p := p) (l := l)
  rw [word_ofNat_toNat (by omega), List.countP_eq_length_filter]

theorem EnvState.code_toNat (e : EnvState) : (BitVec.ofNat 32 e.code).toNat = e.number := by cases e <;> rfl

theorem LoopState.code_toNat (e : LoopState) : (BitVec.ofNat 32 e.code).toNat = e.number := by cases e <;> rfl

theorem flag_toNat (b : Bool) : (if b then 1 else 0 : Word).toNat = b.toNat := by cases b <;> rfl

/-- Settles O19: unit by unit, from the bounds that the invariants give. -/
theorem constantAndDerivedRegistersTellTheirState : Obligations.ConstantAndDerivedRegistersTellTheirState := by
  intro s hlegal hmap hvoices hgran hcursors
  have hc := Config.Params.legal_facts hlegal
  obtain ⟨hflags, htarget⟩ : s.wt.ready.length = s.cfg.numBanks ∧ (s.wt.loading = true → s.wt.target < s.cfg.numBanks) :=
    have h := State.bankMapOk_iff.1 hmap
    ⟨h.flags, h.target⟩
  have hslots := (State.voicesOk_iff.1 hvoices).1
  have hgran := State.granOk_iff.1 hgran
  have hcount : s.wt.count ≤ s.cfg.stageMax := by
    simp only [State.cursorsOk, Bool.and_eq_true, decide_eq_true_eq] at hcursors
    tauto
  have hbanks := hc.numBanks_le
  have hnVoices := hc.nVoices_le
  have hnGrains := hc.nGrains_le
  have hcomb := hc.nComb_le
  have hdepth := hc.gqDepth_le
  have hharm := hc.harmMax_le
  have hstack := hc.nStack_le
  have hframes := hc.numFrames_le
  have hstage := hc.stageMax_lt
  intro v
  refine ⟨⟨rfl, ?_, ?_, ?_, ?_, ?_, ?_, ?_, ?_, ?_, fun i len hlen => ?_⟩,
    ⟨fun b => ?_, ?_, fun hopen => ?_, fun b h0 hb => ?_, ?_⟩, ⟨?_, fun k => ?_, fun k x hx => ?_⟩,
    ⟨?_, ?_, ?_, ?_, fun k g hg => ?_⟩, ?_, ?_, ?_⟩
  · exact bytes4_toNat (by omega) (by omega) (by omega) (by omega)
  · exact word_ofNat_toNat (hc.tableSize_le.trans_lt (by decide))
  · exact halves_toNat (mipLevels_lt hc) (by omega)
  · exact word_ofNat_toNat hc.ringCap_lt
  · exact word_ofNat_toNat hc.dlyCap_lt
  · exact word_ofNat_toNat hc.srcMax_lt
  · exact word_ofNat_toNat hstage
  · exact (bytes4_toNat (a := 0) (by omega) (by omega) (by omega) (by omega)).trans (by omega)
  · exact word_ofNat_toNat (hc.loopMax_lt.trans hc.ringCap_lt)
  · have hvalue : v (.dly (.combLen i)) = (BitVec.ofNat 32 (s.cfg.combLen.getD i 0)).toNat := rfl
    rw [hvalue, List.getD_eq_getElem?_getD, hlen]
    exact word_ofNat_toNat (combLen_lt hc hlen)
  · refine (bitsOf_getLsbD_of_le (by omega) b).trans ?_
    by_cases hb : b < s.cfg.numBanks
    · rw [decide_eq_true hb, Bool.true_and]
    · rw [decide_eq_false hb, Bool.false_and, List.getD_eq_default _ _ (by omega)]
  · exact loadStateWord_getLsbD_zero _ _
  · have htarget := htarget hopen
    have hword : v (.wt .loadState) = 1 + 2 ^ 8 * s.wt.target := by
      rw [← loadStateWord_open_toNat (by omega), ← hopen]; rfl
    omega
  · exact loadStateWord_getLsbD_out _ _ h0 hb
  · exact word_ofNat_toNat (by omega)
  · exact countP_toNat _ (by omega)
  · refine (bitsOf_getLsbD_of_le (by rw [List.length_map]; omega) k).trans ?_
    rw [List.getD_eq_getElem?_getD, List.getElem?_map]
    cases s.vpool.voices[k]? with
    | none => rfl
    | some x => cases hx : x.active <;> simp [hx]
  · exact ⟨getD_map_of_getElem? _ _ hx, getD_map_of_getElem? _ _ hx, getD_map_of_getElem? _ _ hx,
      (congrArg BitVec.toNat (getD_map_of_getElem? _ _ hx)).trans (voiceFlags_toNat x)⟩
  · exact countP_toNat _ (by have := hgran.grains; omega)
  · exact word_ofNat_toNat (by have := hgran.queue; omega)
  · exact flag_toNat _
  · exact word_ofNat_toNat (hgran.count.trans_lt hc.srcMax_lt)
  · refine ⟨?_, getD_map_of_getElem? _ _ hg, getD_map_of_getElem? _ _ hg, getD_map_of_getElem? _ _ hg⟩
    exact (flag_toNat _).trans (congrArg Bool.toNat (getD_map_of_getElem? _ _ hg))
  · exact EnvState.code_toNat _
  · exact LoopState.code_toNat _
  · exact flag_toNat _

/-! ## Reset -/

/-- The ready bits of the banks at reset. -/
theorem bitsOf_replicate_true (n : Nat) : bitsOf (List.replicate n true) = BitVec.ofNat 32 (2 ^ n - 1) := by
  apply BitVec.eq_of_getLsbD_eq
  intro k hk
  rw [bitsOf_getLsbD, BitVec.getLsbD_ofNat, Nat.testBit_two_pow_sub_one, List.getD_eq_getElem?_getD,
    List.getElem?_replicate]
  by_cases hkn : k < n <;> simp [hk, hkn]

theorem bitsOf_replicate_false (n : Nat) : bitsOf (List.replicate n false) = 0 := by
  apply BitVec.eq_of_getLsbD_eq
  intro k hk
  rw [bitsOf_getLsbD, List.getD_eq_getElem?_getD, List.getElem?_replicate]
  by_cases hkn : k < n <;> simp [hkn]

/-- A readback of a slot of equal slots, or of none. -/
theorem getD_map_replicate {α β : Type} (f : α → β) (n k : Nat) (x : α) (d : β) (h : f x = d) :
    ((List.replicate n x).map f).getD k d = d := by
  rw [List.map_replicate, List.getD_eq_getElem?_getD, List.getElem?_replicate, h]
  split <;> rfl

theorem voiceFlags_reset (cfg : Config.Params) : voiceFlags (voiceReset cfg) = 0 :=
  BitVec.eq_of_toNat_eq (voiceFlags_toNat (voiceReset cfg))

theorem resetOf_value (cfg : Config.Params) {q : Reg} (hcls : q.cls ≠ .C) (hlen : q ≠ .gran .srcLen) :
    q.value (State.resetOf cfg) = q.resetColumn cfg := by
  have hactive : ((List.replicate cfg.nVoices (voiceReset cfg)).map fun v => v.active) = List.replicate cfg.nVoices false :=
    List.map_replicate
  have hvoices : (List.replicate cfg.nVoices (voiceReset cfg)).countP (fun v => v.active) = 0 := by
    simp [List.countP_replicate, voiceReset]
  have hgrains : (List.replicate cfg.nGrains grainReset).countP (fun g => g.active) = 0 := by
    simp [List.countP_replicate, grainReset]
  rcases q with r | r | r | r | r | r | r | r | r <;> cases r
  case wt.bankReady => exact bitsOf_replicate_true cfg.numBanks
  case vpool.activeCount => exact congrArg (BitVec.ofNat 32) hvoices
  case vpool.activeMask => exact (congrArg bitsOf hactive).trans (bitsOf_replicate_false _)
  case vpool.vFreq | vpool.vTarget | vpool.vLevel => exact getD_map_replicate _ _ _ _ _ rfl
  case vpool.vFlags => exact getD_map_replicate _ _ _ _ _ (voiceFlags_reset cfg)
  case gran.activeCount => exact congrArg (BitVec.ofNat 32) hgrains
  case gran.gFlags k =>
    exact congrArg (fun b : Bool => (if b then 1 else 0 : Word))
      (getD_map_replicate (fun g => g.active) _ k grainReset false rfl)
  case gran.gElapsed | gran.gDur | gran.gPhase => exact getD_map_replicate _ _ _ _ _ rfl
  all_goals first | rfl | contradiction

/-- Settles O33: the registers by the reset column, everything else by the reset state itself. -/
theorem resetGivesEveryElementItsValue : Obligations.ResetGivesEveryElementItsValue := by
  refine ⟨fun cfg => ⟨fun q hcls hlen => resetOf_value cfg hcls hlen,
    fun hlegal => granReset_srcLen (Config.Params.legal_facts hlegal), rfl, fun p => ?_⟩, rfl, by decide⟩
  cases p <;> exact ⟨rfl, rfl, rfl, rfl, rfl⟩

end Sys2Proof.Machine
end

section
/-! The memories and the cursors into them (20_memory.md R200, R201): every store of a tick or a command falls inside its
memory while the cursors are in range, and every elementary change keeps them there. -/

namespace Sys2Proof.Machine

/-! ## The cursors of a unit -/

/-- The slots of WT exist, and its load has at most STAGE_MAX samples. -/
structure WtUnit.CursorsOk (cfg : Config.Params) (u : WtUnit) : Prop where
  spare : u.spare ≤ cfg.numBanks
  slots : ∀ b ∈ u.slotOf, b ≤ cfg.numBanks
  count : u.count ≤ cfg.stageMax

/-- There is one write cursor per comb line and per echo channel, each inside its line. -/
structure DlyUnit.CursorsOk (cfg : Config.Params) (u : DlyUnit) : Prop where
  lines : u.combW.length = cfg.nComb
  combs : ∀ w ∈ u.combW, w < cfg.dlyCap
  echoL : u.echoWL < cfg.dlyCap
  echoR : u.echoWR < cfg.dlyCap

/-- What `State.cursorsOk` says, as named facts. -/
structure State.CursorsOk (s : State) : Prop where
  wt : s.wt.CursorsOk s.cfg
  source : s.gran.srcCount ≤ s.cfg.srcMax
  ring : s.loop.wcur.toNat < s.cfg.ringCap
  dly : s.dly.CursorsOk s.cfg

theorem State.cursorsOk_iff {s : State} : s.cursorsOk = true ↔ s.CursorsOk := by
  simp only [State.cursorsOk, Bool.and_eq_true, decide_eq_true_eq, List.all_eq_true]
  constructor
  · rintro ⟨⟨⟨⟨⟨⟨⟨⟨hspare, hslots⟩, hcount⟩, hsource⟩, hring⟩, hlines⟩, hcombs⟩, hechoL⟩, hechoR⟩
    exact ⟨⟨hspare, hslots, hcount⟩, hsource, hring, ⟨hlines, hcombs, hechoL, hechoR⟩⟩
  · rintro ⟨⟨hspare, hslots, hcount⟩, hsource, hring, ⟨hlines, hcombs, hechoL, hechoR⟩⟩
    exact ⟨⟨⟨⟨⟨⟨⟨⟨hspare, hslots⟩, hcount⟩, hsource⟩, hring⟩, hlines⟩, hcombs⟩, hechoL⟩, hechoR⟩

theorem wtReset_cursorsOk (cfg : Config.Params) : (wtReset cfg).CursorsOk cfg where
  spare := Nat.le_refl _
  slots _ hb := (List.mem_range.1 hb).le
  count := Nat.zero_le _

theorem dlyReset_cursorsOk {cfg : Config.Params} (hcap : 0 < cfg.dlyCap) : (dlyReset cfg).CursorsOk cfg where
  lines := List.length_replicate
  combs w hw := by rw [List.eq_of_mem_replicate hw]; exact hcap
  echoL := hcap
  echoR := hcap

/-- The publication takes the new spare slot from the bank map (42_wavetable.md R523). -/
theorem WtUnit.CursorsOk.publish {cfg : Config.Params} {u : WtUnit} (h : u.CursorsOk cfg) : u.publish.CursorsOk cfg where
  spare := by
    show u.slotOf.getD u.target 0 ≤ cfg.numBanks
    by_cases htarget : u.target < u.slotOf.length
    · rw [List.getD_eq_getElem _ _ htarget]; exact h.slots _ (List.getElem_mem htarget)
    · rw [List.getD_eq_default _ _ (Nat.le_of_not_lt htarget)]; exact Nat.zero_le _
  slots b hb := by
    rcases List.mem_or_eq_of_mem_set hb with hb | rfl
    · exact h.slots b hb
    · exact h.spare
  count := h.count

/-! ## What a tick does to the cursors -/

theorem spawn_srcCount (cfg : Config.Params) (s : GranStep) : (spawn cfg s).1.srcCount = s.1.srcCount := by
  rw [spawn_frame]

theorem drainQueue_srcCount (cfg : Config.Params) (s : GranStep) : (drainQueue cfg s).1.srcCount = s.1.srcCount :=
  List.foldlRecOn (motive := fun r : GranStep => r.1.srcCount = s.1.srcCount) s.1.queue _ rfl
    fun _ hr _ _ => (spawn_srcCount cfg _).trans hr

theorem enqueue_srcCount (cfg : Config.Params) (tag : SpawnTag) (s : GranStep) :
    (enqueue cfg tag s).1.srcCount = s.1.srcCount := by
  unfold enqueue; split <;> rfl

theorem granTimer_srcCount (cfg : Config.Params) (dt : F32) (s : GranStep) :
    (granTimer cfg dt s).1.srcCount = s.1.srcCount := by
  unfold granTimer
  dsimp only
  split
  · split
    · exact enqueue_srcCount cfg .timer _
    · rfl
  · rfl

theorem granClock_srcCount (cfg : Config.Params) (s : GranStep) : (granClock cfg s).1.srcCount = s.1.srcCount := by
  unfold granClock
  dsimp only
  split
  · exact enqueue_srcCount cfg .clock _
  · rfl

/-- A tick stages no sample of a source. -/
theorem granTick_srcCount (cfg : Config.Params) (dt : F32) (m : Memory) (s : GranStep) :
    (granTick cfg dt m s).1.srcCount = s.1.srcCount :=
  (drainQueue_srcCount cfg _).trans ((granTimer_srcCount cfg dt _).trans (granClock_srcCount cfg s))

theorem cursorStep_lt {cfg : Config.Params} (hcap : 0 < cfg.dlyCap) (w : Nat) : cursorStep cfg w < cfg.dlyCap :=
  Nat.mod_lt _ hcap

/-- DLY's tick steps every cursor inside its line. -/
theorem dlyTick_cursorsOk {cfg : Config.Params} {u : DlyUnit} (h : u.CursorsOk cfg) (g : GlobalRegs) (m : Memory) :
    (dlyTick cfg g u m).1.CursorsOk cfg := by
  have hcap : 0 < cfg.dlyCap := (Nat.zero_le _).trans_lt h.echoL
  have hcombW : (dlyTick cfg g u m).1.combW = (cfg.combLen.zip u.combW).map fun l => cursorStep cfg l.2 :=
    combsTick_cursors ..
  refine ⟨?_, ?_, cursorStep_lt hcap _, cursorStep_lt hcap _⟩
  · have hlines := h.lines
    unfold Config.Params.nComb at hlines ⊢
    rw [hcombW, List.length_map, List.length_zip, hlines, Nat.min_self]
  · rw [hcombW]
    exact List.forall_mem_map.2 fun l _ => cursorStep_lt hcap l.2

theorem State.tick_wcur_lt {s : State} (hcap : 0 < s.cfg.ringCap) : s.tick.loop.wcur.toNat < s.cfg.ringCap := by
  rw [State.tick_wcur, BitVec.toNat_ofNat]
  exact (Nat.mod_le _ _).trans_lt (Nat.mod_lt _ hcap)

/-! ## What a tick stores -/

/-- An element of a row of n elements lies among the first m rows when its row does. -/
theorem row_add_lt {r m i n : Nat} (hr : r < m) (hi : i < n) : r * n + i < m * n :=
  calc r * n + i < r * n + n := Nat.add_lt_add_left hi _
    _ = (r + 1) * n := (Nat.succ_mul r n).symm
    _ ≤ m * n := Nat.mul_le_mul_right n hr

/-- Channel c of a memory of two channels of n elements. -/
theorem channel_lt {n a : Nat} (c : Fin 2) (h : a < n) : c.val * n + a < 2 * n := row_add_lt c.isLt h

/-- Both inputs are stored inside the ring (46_looper.md R702). -/
theorem ringWrite_wf {cfg : Config.Params} {s : LoopStep} (hm : s.2.wf cfg = true) (hw : s.1.wcur.toNat < cfg.ringCap)
    (xL xR : F32) : (ringWrite cfg xL xR s).2.wf cfg = true :=
  Memory.wf_write _ (Memory.wf_write _ hm (channel_lt 0 hw)) (channel_lt 1 hw)

theorem ringTail_length (cfg : Config.Params) (m : Memory) (wcur len c : Nat) :
    (ringTail cfg m wcur len c).length = len := by
  rw [ringTail, List.length_map, List.length_range]

/-- A snapshot fits the loop buffer (46_looper.md R704, R705). -/
theorem snapshot_wf {cfg : Config.Params} (hc : cfg.Legal) {s : LoopStep} (hm : s.2.wf cfg = true) (fs : F32) :
    (snapshot cfg fs s).2.wf cfg = true := by
  have hlen : snapshotLength cfg fs s.1 ≤ cfg.loopMax := (clampInt_le (by exact_mod_cast hc.lMin_le)).2
  refine Memory.wf_writeBlock (Memory.wf_writeBlock hm ?_) ?_ <;>
    rw [ringTail_length] <;> simp only [spaceSize, Config.nch] <;> omega

theorem loopTransition_wf {cfg : Config.Params} (hc : cfg.Legal) {s : LoopStep} (hm : s.2.wf cfg = true) (fs : F32) :
    (loopTransition cfg fs s).2.wf cfg = true := by
  unfold loopTransition
  split
  · split
    · exact snapshot_wf hc hm fs
    · exact hm
  · split <;> exact hm
  · split <;> exact hm

theorem loopTick_wf {cfg : Config.Params} (hc : cfg.Legal) {s : LoopStep} (hm : s.2.wf cfg = true)
    (hw : s.1.wcur.toNat < cfg.ringCap) (g : GlobalRegs) : (loopTick cfg g s).2.wf cfg = true :=
  loopTransition_wf (s := (loopControls cfg _, _)) hc (ringWrite_wf hm hw _ _) _

/-- The comb lines and the echo channels are stored inside COMB and ECHO (47_delay.md R750, R751, R755). -/
theorem dlyTick_wf {cfg : Config.Params} {u : DlyUnit} (h : u.CursorsOk cfg) {m : Memory} (hm : m.wf cfg = true)
    (g : GlobalRegs) : (dlyTick cfg g u m).2.wf cfg = true := by
  have hreverb : (reverbTick cfg u m).2.wf cfg = true := by
    refine combsTick_wf _ _ _ _ 0 m _ hm ?_ fun l hl => h.combs l.2 (List.of_mem_zip hl).2
    rw [List.length_zip, h.lines, Nat.zero_add]
    exact Nat.min_le_right _ _
  exact Memory.wf_write _ (Memory.wf_write _ hreverb (channel_lt 0 h.echoL)) (channel_lt 1 h.echoR)

theorem State.tick_mem_wf {s : State} (hc : s.cfg.Legal) (h : s.CursorsOk) (hm : s.mem.wf s.cfg = true) :
    s.tick.mem.wf s.cfg = true := by
  rw [s.tick_dly_mem.2]
  exact dlyTick_wf h.dly (loopTick_wf hc hm h.ring s.global) s.global

/-! ## What a command stores -/

/-- A built bank fills the spare slot (42_wavetable.md R522). -/
theorem buildSpare_wf {cfg : Config.Params} {u : WtUnit} (h : u.spare ≤ cfg.numBanks) {m : Memory}
    (hm : m.wf cfg = true) : (buildSpare cfg u m).wf cfg = true := by
  refine Memory.wf_writeBlock hm ?_
  rw [slotImage_length, ← Nat.succ_mul]
  exact Nat.mul_le_mul_right _ (Nat.succ_le_succ h)

theorem State.resetUnit_mem_wf {s : State} (hm : s.mem.wf s.cfg = true) (n : Nat) :
    (s.resetUnit n).mem.wf s.cfg = true := by
  unfold State.resetUnit
  split
  case h_2 => exact Memory.wf_clear (Memory.wf_clear hm .bankmem) .wtStage
  case h_5 => exact Memory.wf_clear hm .gsrc
  case h_6 => exact Memory.wf_clear (Memory.wf_clear hm .ring) .loopbuf
  case h_7 => exact Memory.wf_clear (Memory.wf_clear hm .comb) .echo
  all_goals exact hm

/-! ## Every step -/

/-- While the cursors are in range, every elementary change keeps the memories. -/
theorem Effect.memoryOk {s u : State} (he : Effect s u) (hc : s.cfg.Legal) (h : s.CursorsOk) (hm : s.memoryOk = true) :
    u.memoryOk = true := by
  unfold State.memoryOk at hm ⊢
  rw [he.cfg]
  cases he with
  | tick => exact State.tick_mem_wf hc h hm
  | store r d => cases r <;> exact hm
  | resetCore => exact Memory.wf_reset s.cfg
  | resetUnit n => exact State.resetUnit_mem_wf hm n
  | allocate f => rwa [State.allocate_mem]
  | stageBank x hopen hroom => exact Memory.wf_write _ hm hroom
  | publishBank hopen hcount => exact buildSpare_wf h.wt.spare hm
  | stageSource x hroom => exact Memory.wf_write _ hm (channel_lt s.gran.staging hroom)
  | _ => exact hm

theorem Effect.cursorsOk {s u : State} (he : Effect s u) (hc : s.cfg.Legal) (h : s.CursorsOk) : u.CursorsOk := by
  have hdly := dlyReset_cursorsOk (cfg := s.cfg) (by have := hc.dlyCap_ge; omega)
  have hring : 0 < s.cfg.ringCap := (Nat.zero_le _).trans_lt h.ring
  cases he with
  | tick =>
    refine ⟨?_, ?_, ?_, ?_⟩
    · rw [State.tick_wt, State.tick_cfg]; exact { h.wt with }
    · rw [State.tick_gran, State.tick_cfg, granTick_srcCount]; exact h.source
    · rw [State.tick_cfg]; exact State.tick_wcur_lt hring
    · rw [State.tick_dly, State.tick_cfg]; exact dlyTick_cursorsOk h.dly _ _
  | store r d =>
    cases r with
    | wt r => cases r <;> exact { h with wt := { h.wt with } }
    | gran r => cases r <;> exact { h with }
    | loop r => cases r <;> exact { h with }
    | dly r => cases r <;> exact { h with dly := { h.dly with } }
    | _ => exact { h with }
  | resetCore => exact ⟨wtReset_cursorsOk s.cfg, Nat.zero_le _, hring, hdly⟩
  | resetUnit n =>
    unfold State.resetUnit
    split
    case h_2 => exact { h with wt := wtReset_cursorsOk s.cfg }
    case h_5 => exact { h with source := Nat.zero_le _ }
    case h_6 => exact { h with ring := hring }
    case h_7 => exact { h with dly := hdly }
    all_goals exact { h with }
  | allocate f => exact ⟨by simpa using h.wt, by simpa using h.source, by simpa using h.ring, by simpa using h.dly⟩
  | closeLoad hopen => exact { h with wt := { h.wt with } }
  | openLoad b hb hclosed => exact { h with wt := { h.wt with count := Nat.zero_le _ } }
  | stageBank x hopen hroom => exact { h with wt := { h.wt with count := hroom } }
  | publishBank hopen hcount => exact { h with wt := { h.wt.publish with } }
  | openSource rate => exact { h with source := Nat.zero_le _ }
  | stageSource x hroom => exact { h with source := hroom }
  | requestGrain => exact { h with source := (enqueue_srcCount s.cfg .host _).trans_le h.source }
  | _ => exact { h with }

/-- Settles O57: every elementary change keeps the memories and the cursors together. -/
theorem stepKeepsTheMemories : Obligations.StepKeepsTheMemories := by
  intro s t h hlegal hm hs
  rw [State.cursorsOk_iff] at hs ⊢
  refine step_keeps_legal (P := fun x => x.memoryOk = true ∧ x.CursorsOk) (fun hp hx => ?_)
    (fun he hc hx => ⟨he.memoryOk hc hx.2 hx.1, he.cursorsOk hc hx.2⟩) h (Config.Params.legal_facts hlegal) ⟨hm, hs⟩
  rw [hp]
  exact ⟨hx.1, { hx.2 with }⟩

end Sys2Proof.Machine
end

section
/-! When a port can execute, how the host's words and responses move, and that a ready port is served (20_memory.md R210 to
R213, R218; 60_exceptions.md R915). -/

namespace Sys2Proof.Machine

/-! ## Readiness (20_memory.md R212, R213) -/

/-- A head command has arrived exactly when as many words have as its OP says. -/
theorem Port.exists_head_iff {p : Port} {w : Word} :
    (∃ d, p.head = some (w, d)) ↔ ∃ rest, p.words = w :: rest ∧ commandLength w ≤ p.words.length := by
  constructor
  · rintro ⟨d, hhead⟩
    have hlen := Port.head_length hhead
    rcases Port.words_of_head hhead with ⟨-, rest, hw⟩ | ⟨rest, hw⟩
    · exact ⟨rest, hw, hlen⟩
    · exact ⟨d :: rest, hw, hlen⟩
  · rintro ⟨rest, hw, hlen⟩
    rcases commandLength_eq w with h1 | h2
    · exact ⟨0, Port.head_eq_some.2 (.inl ⟨h1, rfl, rest, hw⟩)⟩
    · cases rest with
      | nil => rw [hw, h2, List.length_singleton] at hlen; omega
      | cons d rest => exact ⟨d, Port.head_eq_some.2 (.inr ⟨by omega, rest, hw⟩)⟩

theorem State.grant_eq_none {s : State} (h : ∀ q, (s.port q).ready s.cfg = false) (p : PortId) : s.grant p = none := by
  simp [State.grant, h]

/-- A ready port is granted its own turn. -/
theorem State.grant_self {s : State} {p : PortId} (h : (s.port p).ready s.cfg = true) : s.grant p = some p := by
  simp [State.grant, h]

/-- Settles O7: readiness by the head command; with no port granted, a step only chooses who moves next. -/
theorem portIsReadyWhenItsCommandHasArrived : Obligations.PortIsReadyWhenItsCommandHasArrived := by
  refine ⟨fun cfg p => ?_, fun s p hturn hidle => ?_⟩
  · calc p.ready cfg = true
        ↔ ∃ w, (∃ d, p.head = some (w, d)) ∧ (opField w = 0x03 → p.resp.length < cfg.respDepth) := by
          simp only [Port.ready_iff, exists_and_right]
      _ ↔ ∃ w rest, p.words = w :: rest ∧ commandLength w ≤ p.words.length ∧
            (opField w = 0x03 → p.resp.length < cfg.respDepth) := by
          simp only [Port.exists_head_iff, ← exists_and_right, and_assoc]
  · simp only [step, hturn, State.grant_eq_none hidle p]

/-! ## The host's moves (20_memory.md R210, R213) -/

theorem step_hostSend {s : State} {p : PortId} (h : s.sched.turn = .hostSend p) :
    step s = .next (s.reschedule.setPort p (s.port p).hostSend) := by
  simp only [step, h, State.port_reschedule]

theorem step_hostTake {s : State} {p : PortId} (h : s.sched.turn = .hostTake p) :
    step s = .next (s.reschedule.setPort p (s.port p).hostTake) := by
  simp only [step, h, State.port_reschedule]

theorem Port.hostSend_cons {p : Port} {w : Word} {ws : List Word} (h : p.unsent = w :: ws) :
    p.hostSend = { p with unsent := ws }.withWords (p.words ++ [w]) := by
  simp only [Port.hostSend, h]

theorem Port.hostTake_cons {p : Port} {w : Word} {ws : List Word} (h : p.resp = w :: ws) :
    p.hostTake = { p with resp := ws, taken := p.taken ++ [w] } := by
  simp only [Port.hostTake, h]

/-- A step that replaces one port changes the other port and the units not at all. -/
theorem State.setPort_reschedule_frame (s : State) (p : PortId) (q : Port) :
    (s.reschedule.setPort p q).withPortsOf s = s.reschedule ∧
      (s.reschedule.setPort p q).port p.other = s.port p.other ∧ (s.reschedule.setPort p q).port p = q :=
  ⟨State.withPortsOf_setPort s s.reschedule p q,
    (State.port_other_setPort _ p q).trans (s.port_reschedule p.other), State.port_setPort _ p q⟩

/-- Settles O8: both moves of the host replace one port. -/
theorem wordsArriveAndResponsesLeave : Obligations.WordsArriveAndResponsesLeave := by
  refine fun s p => ⟨fun w ws hturn hw => ?_, fun w ws hturn hw => ?_⟩
  · obtain ⟨hunits, hother, hport⟩ := s.setPort_reschedule_frame p (s.port p).hostSend
    refine ⟨_, step_hostSend hturn, hunits, hother, ?_⟩
    rw [hport, Port.hostSend_cons hw]
    simp
  · obtain ⟨hunits, hother, hport⟩ := s.setPort_reschedule_frame p (s.port p).hostTake
    exact ⟨_, step_hostTake hturn, hunits, hother, hport.trans (Port.hostTake_cons hw)⟩

/-! ## The turn of a port (20_memory.md R218) -/

theorem Arbiter.next_turn_L {c : Arbiter} (hA : 0 < c.waitA) (hL : c.wait .L = 0) : c.next.turn = .port .L := by
  have hL' : c.waitL = 0 := hL
  simp only [Arbiter.next, if_neg hA.ne', if_pos hL']

/-- A port has a turn after at most two choices more than it may be passed over. -/
theorem Arbiter.exists_turn (c : Arbiter) (p : PortId) : ∃ n ≤ c.wait p + 2, (Arbiter.next^[n] c).turn = .port p := by
  induction hwait : c.wait p generalizing c with
  | zero =>
    rcases c.next_wait p with hturn | ⟨hpos, -⟩ | ⟨rfl, -, -, hL, hA⟩
    · exact ⟨1, by omega, hturn⟩
    · omega
    · exact ⟨2, by omega, Arbiter.next_turn_L hA hL⟩
  | succ k ih =>
    rcases c.next_wait p with hturn | ⟨-, hnext⟩ | ⟨-, hzero, -⟩
    · exact ⟨1, by omega, hturn⟩
    · obtain ⟨n, hn, hturn⟩ := ih c.next (by omega)
      exact ⟨n + 1, by omega, hturn⟩
    · omega

/-! ## A ready port waits for its turn -/

/-- A port still has the same command to execute, at the same position and as far through it, and no less room for its
response. -/
structure Port.Waits (p q : Port) : Prop where
  head : q.head = p.head
  pc : q.pc = p.pc
  ticksLeft : q.ticksLeft = p.ticksLeft
  room : q.resp.length ≤ p.resp.length

theorem Port.Waits.refl (p : Port) : p.Waits p := ⟨rfl, rfl, rfl, Nat.le_refl _⟩

theorem Port.Waits.trans {p q r : Port} (h : p.Waits q) (h' : q.Waits r) : p.Waits r :=
  ⟨h'.head.trans h.head, h'.pc.trans h.pc, h'.ticksLeft.trans h.ticksLeft, h'.room.trans h.room⟩

theorem Port.Waits.ready {cfg : Config.Params} {p q : Port} (h : p.Waits q) (hp : p.ready cfg = true) :
    q.ready cfg = true := by
  obtain ⟨w, d, hhead, hroom⟩ := Port.ready_iff.1 hp
  exact Port.ready_iff.2 ⟨w, d, h.head.trans hhead, fun hop => h.room.trans_lt (hroom hop)⟩

/-- A word that arrives stands behind the head command. -/
theorem Port.waits_hostSend {p : Port} {c : Word × Word} (h : p.head = some c) : p.Waits p.hostSend := by
  refine ⟨(Port.head_hostSend h).trans h.symm, ?_, ?_, ?_⟩ <;> unfold Port.hostSend <;> split <;> simp

theorem Port.waits_hostTake (p : Port) : p.Waits p.hostTake := by
  unfold Port.hostTake
  split
  · exact .refl p
  · next w ws hw => exact ⟨rfl, rfl, rfl, by simp [hw]⟩

/-- A command leaves the port that it does not execute for alone, and the choice of agents. -/
theorem exec_other {i : Instr} {s t : State} (h : exec i s = .next t) :
    t.port s.serving.other = s.port s.serving.other ∧ t.sched = s.sched := by
  rcases exec_ports h with ⟨-, -, -, -, -, -, hother, -, hsched⟩ |
    ⟨-, -, -, -, ⟨-, -, -, -, -, -, hother, -, hsched⟩, -⟩ | ⟨-, -, -, -, rfl⟩ | ⟨imm, k, -, rfl, -⟩
  · exact ⟨hother, hsched⟩
  · exact ⟨hother, hsched⟩
  · exact ⟨rfl, rfl⟩
  · have hother := s.tick.port_other_holdTick k
    rw [State.tick_serving, State.tick_port] at hother
    exact ⟨hother, by simp⟩

theorem State.illegal_other (w : Word) (s : State) :
    (s.illegal w).port s.serving.other = s.port s.serving.other ∧ (s.illegal w).sched = s.sched := by
  obtain ⟨_, -, -, -, -, -, -, -, hother, -, hsched⟩ := s.movedPast_illegal w
  exact ⟨hother, hsched⟩

/-- The meaning of every command is a next state (40_host_commands.md R401). -/
theorem exec_next (i : Instr) (s : State) : ∃ t, exec i s = .next t := by
  cases i with
  | wrreg unit reg data => simp only [exec, execWrreg]; split <;> [exact ⟨_, rfl⟩; (split <;> exact ⟨_, rfl⟩)]
  | rdreg unit reg => simp only [exec, execRdreg]; split <;> [exact ⟨_, rfl⟩; (split <;> exact ⟨_, rfl⟩)]
  | sreset unit => simp only [exec, execSreset]; split <;> [exact ⟨_, rfl⟩; (split <;> exact ⟨_, rfl⟩)]
  | noteOff slot => simp only [exec, execNoteOff]; split <;> exact ⟨_, rfl⟩
  | chordOn chord root => simp only [exec, execChordOn]; split <;> exact ⟨_, rfl⟩
  | bankBegin bank => simp only [exec, execBankBegin]; split <;> exact ⟨_, rfl⟩
  | bankData sample => simp only [exec, execBankData]; split <;> [(split <;> exact ⟨_, rfl⟩); exact ⟨_, rfl⟩]
  | bankCommit => simp only [exec, execBankCommit]; split <;> [(split <;> exact ⟨_, rfl⟩); exact ⟨_, rfl⟩]
  | bankAbort => simp only [exec, execBankAbort]; split <;> exact ⟨_, rfl⟩
  | srcData sample => simp only [exec, execSrcData]; split <;> [(split <;> exact ⟨_, rfl⟩); exact ⟨_, rfl⟩]
  | srcCommit => simp only [exec, execSrcCommit]; split <;> [(split <;> exact ⟨_, rfl⟩); exact ⟨_, rfl⟩]
  | srcAbort => simp only [exec, execSrcAbort]; split <;> exact ⟨_, rfl⟩
  | _ => exact ⟨_, rfl⟩

theorem step_next (s : State) : ∃ t, step s = .next t := by
  unfold step
  split
  · split
    · exact ⟨_, rfl⟩
    · unfold State.execute
      dsimp only
      split
      · exact ⟨_, rfl⟩
      · split
        · exact exec_next _ _
        · exact ⟨_, rfl⟩
  · exact ⟨_, rfl⟩
  · exact ⟨_, rfl⟩

theorem step_cfg {s t : State} (h : step s = .next t) : t.cfg = s.cfg := by
  obtain ⟨r, u, hr, hu, ht⟩ := step_effects h
  rw [ht.cfg, effects_cfg hu, hr.cfg]

/-- A step executes for a ready port, or keeps it waiting. -/
theorem step_waits {s t : State} (h : step s = .next t) {p : PortId} (hready : (s.port p).ready s.cfg = true) :
    (∃ q, s.sched.turn = .port q ∧ s.grant q = some p) ∨ (t.sched = s.sched.next ∧ (s.port p).Waits (t.port p)) := by
  obtain ⟨w, d, hhead, -⟩ := Port.ready_iff.1 hready
  have hreplace : ∀ {r : PortId} {q : Port}, (r = p → (s.port p).Waits q) →
      (s.reschedule.setPort r q).sched = s.sched.next ∧ (s.port p).Waits ((s.reschedule.setPort r q).port p) := by
    intro r q hq
    refine ⟨by rw [State.setPort_sched]; rfl, ?_⟩
    by_cases hr : p = r
    · subst hr; rw [State.port_setPort]; exact hq rfl
    · rw [State.port_setPort_of_ne _ q hr, State.port_reschedule]; exact .refl _
  rcases step_cases h with ⟨r, -, rfl⟩ | ⟨r, -, rfl⟩ | ⟨r, -, -, rfl⟩ | ⟨r, q, v, e, hturn, hgrant, -, -, hexec⟩
  · exact .inr (hreplace fun hr => hr ▸ Port.waits_hostSend (hr ▸ hhead))
  · exact .inr (hreplace fun hr => hr ▸ Port.waits_hostTake _)
  · exact .inr ⟨rfl, by rw [State.port_reschedule]; exact .refl _⟩
  · by_cases hq : q = p
    · exact .inl ⟨r, hturn, hq ▸ hgrant⟩
    · obtain rfl : p = q.other := by
        revert hq
        cases p <;> cases q <;> decide
      have hother : t.port q.other = s.port q.other ∧ t.sched = s.sched.next := by
        rw [← s.port_serve q q.other]
        rcases hexec with ⟨i, -, he⟩ | ⟨-, rfl⟩
        · exact exec_other he
        · exact State.illegal_other v { s.reschedule with serving := q }
      exact .inr ⟨hother.2, by rw [hother.1]; exact .refl _⟩

theorem stepTimes_succ {s t : State} (h : step s = .next t) (n : Nat) : stepTimes (n + 1) s = stepTimes n t := by
  simp only [stepTimes, h]

/-- A ready port is served by the time the arbiter gives it a turn. -/
theorem served_by_turn {n : Nat} {s : State} {p : PortId} (hready : (s.port p).ready s.cfg = true)
    (hturn : (Arbiter.next^[n] s.sched).turn = .port p) :
    ∃ m ≤ n, ∃ u q, stepTimes m s = .next u ∧ u.sched.turn = .port q ∧ u.grant q = some p ∧
      (s.port p).Waits (u.port p) := by
  induction n generalizing s with
  | zero => exact ⟨0, Nat.le_refl 0, s, p, rfl, hturn, State.grant_self hready, .refl _⟩
  | succ n ih =>
    obtain ⟨t, hstep⟩ := step_next s
    rcases step_waits hstep hready with ⟨q, hq, hgrant⟩ | ⟨hsched, hwaits⟩
    · exact ⟨0, Nat.zero_le _, s, q, rfl, hq, hgrant, .refl _⟩
    · obtain ⟨m, hm, u, q, hsteps, hq, hgrant, hu⟩ :=
        ih (s := t) (by rw [step_cfg hstep]; exact hwaits.ready hready) (by rw [hsched]; exact hturn)
      exact ⟨m + 1, Nat.succ_le_succ hm, u, q, (stepTimes_succ hstep m).trans hsteps, hq, hgrant, hwaits.trans hu⟩

/-- Settles O10: the arbiter gives the port a turn, and the port waits for it. -/
theorem readyPortsAreServed : Obligations.ReadyPortsAreServed := by
  intro s p hready
  obtain ⟨n, hn, hturn⟩ := s.sched.exists_turn p
  obtain ⟨m, hm, u, q, hsteps, hq, hgrant, hwaits⟩ := served_by_turn hready hturn
  exact ⟨m, u, q, hm.trans hn, hsteps, hq, hgrant, hwaits.head, hwaits.pc, hwaits.ticksLeft⟩

end Sys2Proof.Machine
end

section
/-! The contents of the memories at reset, element by element (20_memory.md R202; 42_wavetable.md R500, R501). -/

namespace Sys2Proof.Machine

/-- A memory at reset reads as its reset contents, inside its size. -/
theorem State.resetOf_read (cfg : Config.Params) (sp : Space) (a : Nat) :
    (State.resetOf cfg).read sp a = resetElem cfg sp a := by cases sp <;> rfl

/-- The mips of the machine are the box filter of R501. -/
theorem mipElem_eq_boxFilter (y : Nat → F32) (n k i : Nat) : mipElem y n k i = boxFilter n y k i := by
  unfold mipElem boxFilter windowMean
  simp only [Nat.cast_pow, Nat.cast_ofNat, Int.add_sub_assoc]

theorem row_add_div {r i n : Nat} (hi : i < n) : (r * n + i) / n = r := by
  rw [Nat.mul_comm, Nat.mul_add_div (Nat.zero_lt_of_lt hi), Nat.div_eq_of_lt hi, Nat.add_zero]

variable {cfg : Config.Params} {b f k i : Nat}

theorem bankIndex_lt (hb : b ≤ cfg.numBanks) (hf : f < cfg.numFrames) (hk : k < cfg.mipLevels) (hi : i < cfg.tableSize) :
    bankIndex cfg b f k i < spaceSize cfg .bankmem := by
  have h := row_add_lt (row_add_lt (row_add_lt (Nat.lt_succ_of_le hb) hf) hk) hi
  simpa only [bankIndex, spaceSize, slotSize, Nat.mul_assoc] using h

/-- Element (b, f, k, i) of BANKMEM at reset: a mip of frame f of default bank b, or 0.0 in the spare slot. -/
theorem bankResetElem_bankIndex (hf : f < cfg.numFrames) (hk : k < cfg.mipLevels) (hi : i < cfg.tableSize) :
    bankResetElem cfg (bankIndex cfg b f k i) =
      if b < cfg.numBanks then
        mipElem (fun j => defaultBankElem ((b * cfg.numFrames + f) * cfg.tableSize + j)) cfg.tableSize k i
      else 0 := by
  have hindex : bankIndex cfg b f k i % cfg.tableSize = i := Nat.mul_add_mod_of_lt hi
  have hrow : bankIndex cfg b f k i / cfg.tableSize = (b * cfg.numFrames + f) * cfg.mipLevels + k := row_add_div hi
  have htable : bankIndex cfg b f k i / (cfg.tableSize * cfg.mipLevels) = b * cfg.numFrames + f := by
    rw [← Nat.div_div_eq_div_mul, hrow, row_add_div hk]
  unfold bankResetElem
  simp only [htable, hindex, hrow, Nat.mul_add_mod_of_lt hk, row_add_div hf]

/-- The length of the source at reset is that of DEFAULT_SRC. -/
theorem granReset_srcLen_toNat (hc : cfg.Legal) : (granReset cfg).srcLen.toNat = defaultSrcLen cfg := by
  have hge := hc.srcMax_ge
  have hlt := hc.srcMax_lt
  refine (BitVec.toNat_ofNat _ _).trans (Nat.mod_eq_of_lt ?_)
  unfold defaultSrcLen
  omega

/-- Settles O34: each memory reads as its reset contents. -/
theorem resetContentsOfTheMemories : Obligations.ResetContentsOfTheMemories := by
  intro cfg hlegal
  have hc := Config.Params.legal_facts hlegal
  refine ⟨fun b f k i hb hf hk hi => ?_, fun i hi => ?_, fun i hi => ?_, fun sp a hsp ha => ?_⟩
  · calc (State.resetOf cfg).read .bankmem (bankIndex cfg b f k i)
        = bankResetElem cfg (bankIndex cfg b f k i) := by
          rw [State.resetOf_read, resetElem, if_pos (bankIndex_lt hb hf hk hi)]
      _ = _ := by rw [bankResetElem_bankIndex hf hk hi, mipElem_eq_boxFilter]
  · have hin : i < spaceSize cfg .gsrc := by simp only [spaceSize]; omega
    rw [State.resetOf_read, resetElem, if_pos hin]
    show gsrcResetElem cfg i = if i < (granReset cfg).srcLen.toNat then defaultSrcElem i else 0
    rw [granReset_srcLen_toNat hc]
    simp only [gsrcResetElem, hi, true_and]
  · have hin : cfg.srcMax + i < spaceSize cfg .gsrc := by simp only [spaceSize]; omega
    rw [State.resetOf_read, resetElem, if_pos hin]
    exact if_neg fun h => by omega
  · rw [State.resetOf_read]
    refine (if_pos ha).trans ?_
    rcases hsp with rfl | rfl | rfl | rfl | rfl <;> rfl

end Sys2Proof.Machine
end

section
/-! Encoding and decoding are inverse to each other (30_encoding.md R300 to R304; 20_memory.md R205). One equivalence says
it: a row answers a command for the words w and d exactly when those are the words of the command. -/

namespace Sys2Proof

/-! ## The words of a command -/

/-- The words of the command that begins with w, where d is the word after w (30_encoding.md R302). -/
def commandWords (w d : Word) : List Word := if commandLength w = 2 then [w, d] else [w]

open Laws.EncodeLength in
/-- A command is as long as the OP of its first word says (30_encoding.md R302). -/
theorem commandLength_encode : ∀ i : Instr, commandLength ((encode i).headD 0) = (encode i).length
  | .nop => nop.1
  | .tick imm => (tick imm).1
  | .wrreg unit reg data => (wrreg unit reg data).1
  | .rdreg unit reg => (rdreg unit reg).1
  | .sreset unit => (sreset unit).1
  | .clrstat mask => (clrstat mask).1
  | .noteOn freq => (noteOn freq).1
  | .noteOnMidi note => (noteOnMidi note).1
  | .noteOff slot => (noteOff slot).1
  | .allOff => allOff.1
  | .chordOn chord root => (chordOn chord root).1
  | .bankBegin bank => (bankBegin bank).1
  | .bankData sample => (bankData sample).1
  | .bankCommit => bankCommit.1
  | .bankAbort => bankAbort.1
  | .srcBegin rate => (srcBegin rate).1
  | .srcData sample => (srcData sample).1
  | .srcCommit => srcCommit.1
  | .srcAbort => srcAbort.1
  | .granSpawn => granSpawn.1

/-- The words of a command are its first word and, where that word's length is 2, the next. -/
theorem encode_eq_commandWords (i : Instr) :
    encode i = commandWords ((encode i).headD 0) ((encode i).tail.headD 0) := by
  rw [commandWords, commandLength_encode]
  cases i <;> rfl

theorem commandWords_of_length_one {w : Word} (h : commandLength w = 1) (d : Word) : commandWords w d = [w] := by
  simp [commandWords, h]

theorem commandWords_of_length_two {w : Word} (h : commandLength w = 2) (d : Word) : commandWords w d = [w, d] :=
  if_pos h

/-! ## Words from fields -/

/-- A word has the fields of which it is the command word. -/
theorem commandWord_eq_iff {w : Word} {op : BitVec 6} {u : BitVec 4} {r : BitVec 8} {i : BitVec 14} :
    commandWord op u r i = w ↔ opField w = op ∧ unitField w = u ∧ regField w = r ∧ immField w = i := by
  rw [← commandWord_inj, commandWord_fields, eq_comm]

/-- IMM is a MIDI note exactly when its high part is zero (30_encoding.md R303). -/
theorem immField_eq_note_iff {w : Word} : immField w = (noteField w).setWidth 14 ↔ noteHighField w = 0 := by
  refine ⟨fun h => ?_, immField_of_noteHigh⟩
  rw [← commandWord_fields w, h, noteHighField_commandWord]

theorem checkFixed_true (i : Instr) : checkFixed true i = .ok i := rfl

/-! ## The rows -/

/-- The row of a command's word answers the command. -/
theorem decodeRow_encode (i : Instr) : decodeRow ((encode i).headD 0) ((encode i).tail.headD 0) = .ok i := by
  cases i <;> simp [encode, decodeRow, bareFields, checkFixed_true]

/-- What a row answers for the words w and d has those words: OP picks the row, the row's fixed fields are checked, and
every other field is an operand. -/
theorem encode_of_decodeRow {w d : Word} {i : Instr} (h : decodeRow w d = .ok i) : encode i = commandWords w d := by
  have hop : opField w = BitVec.ofNat 6 (opField w).toNat := by simp
  unfold decodeRow at h
  dsimp only at h
  split at h
  case h_21 => cases h
  all_goals
    next hrow =>
    rw [hrow] at hop
    obtain ⟨hfixed, rfl⟩ := checkFixed_ok h
    simp only [bareFields, Bool.and_eq_true, beq_iff_eq] at hfixed
    simp [encode, commandWords, commandLength, commandWord_eq_iff, immField_eq_note_iff, hop, hfixed]

/-- A row answers a command for exactly the command's words (30_encoding.md R300, R302, R304). -/
theorem decodeRow_eq_ok_iff {w d : Word} {i : Instr} : decodeRow w d = .ok i ↔ encode i = commandWords w d := by
  refine ⟨encode_of_decodeRow, fun h => ?_⟩
  have hrow := decodeRow_encode i
  rw [h] at hrow
  rcases commandLength_eq w with h1 | h2
  · rw [commandWords_of_length_one h1] at hrow
    exact (Machine.decodeRow_short h1).trans hrow
  · rwa [commandWords_of_length_two h2] at hrow

/-- The decoder answers a command for exactly the words of that command, where it is well-formed. -/
theorem decodeCommand_eq_ok_iff {cfg : Config.Params} {w d : Word} {i : Instr} :
    decodeCommand cfg w d = .ok i ↔ i.wellFormed cfg = true ∧ encode i = commandWords w d := by
  rw [← decodeRow_eq_ok_iff]
  exact ⟨fun h => (decodeCommand_ok h).symm, fun ⟨hwf, hrow⟩ => decodeCommand_of_row hrow hwf⟩

/-- The words of one command, whatever follows them, decode as the command does. -/
theorem decodeWords_commandWords (cfg : Config.Params) (w d : Word) (rest : List Word) :
    decodeWords cfg (commandWords w d ++ rest) = (decodeCommand cfg w d).map fun i => (i, rest) := by
  rcases commandLength_eq w with h1 | h2
  · have hdata : decodeCommand cfg w 0 = decodeCommand cfg w d := by
      rw [decodeCommand, Machine.decodeRow_short h1, decodeCommand]
    simp only [commandWords_of_length_one h1, List.singleton_append, decodeWords, if_pos h1, hdata]
  · simp [commandWords_of_length_two h2, decodeWords, h2]

theorem decodeWords_encode {cfg : Config.Params} {i : Instr} (hwf : i.wellFormed cfg = true) (rest : List Word) :
    decodeWords cfg (encode i ++ rest) = .ok (i, rest) := by
  have hwords := encode_eq_commandWords i
  rw [hwords, decodeWords_commandWords, decodeCommand_eq_ok_iff.2 ⟨hwf, hwords⟩]
  rfl

/-- Settles O1: the words by the decoder's law, the bytes by the words that they carry. -/
theorem decodeReadsBackEncode : Obligations.DecodeReadsBackEncode := by
  refine fun cfg i rest hwf => ⟨decodeWords_encode hwf rest, ?_⟩
  rw [decodeBytes, encodeBytes, wordsOfBytes_bytesOfWords, ← List.append_nil (encode i)]
  exact decodeWords_encode hwf []

/-- Settles O2: the same law, read from the decoder's side. -/
theorem encodeReadsBackDecode : Obligations.EncodeReadsBackDecode := fun _ _ _ _ => decodeCommand_eq_ok_iff.1

/-- Settles O4: the legal words are encodings of well-formed commands; the decoder runs on the illegal ones. -/
theorem decodesWordsOfTheEncodingTable : Obligations.DecodesWordsOfTheEncodingTable :=
  ⟨decodeWords_encode (i := .nop) rfl [], decodeWords_encode (i := .tick 3) rfl [],
    decodeWords_encode (i := .wrreg 0 1 0x44800000) rfl [], decodeWords_encode (i := .clrstat 1) rfl [],
    decodeWords_encode (i := .noteOnMidi 60) rfl [], decodeWords_encode (i := .chordOn 0 60) rfl [],
    decodeWords_encode (i := .bankBegin 1) rfl [], decodeWords_encode (i := .srcData 0x3F000000) rfl [],
    by decide, by decide, by decide, by decide⟩

/-! ## The match and mask table (30_encoding.md R304), whose words are numbers -/

@[simp] theorem opField_ofNat (n : Nat) : opField (BitVec.ofNat 32 n) = BitVec.ofNat 6 (n / 2 ^ 26) := by
  apply BitVec.eq_of_toNat_eq
  rw [opField_toNat, BitVec.toNat_ofNat, BitVec.toNat_ofNat]
  omega
@[simp] theorem unitField_ofNat (n : Nat) : unitField (BitVec.ofNat 32 n) = BitVec.ofNat 4 (n / 2 ^ 22) := by
  apply BitVec.eq_of_toNat_eq
  rw [unitField_toNat, BitVec.toNat_ofNat, BitVec.toNat_ofNat]
  omega
@[simp] theorem regField_ofNat (n : Nat) : regField (BitVec.ofNat 32 n) = BitVec.ofNat 8 (n / 2 ^ 14) := by
  apply BitVec.eq_of_toNat_eq
  rw [regField_toNat, BitVec.toNat_ofNat, BitVec.toNat_ofNat]
  omega
@[simp] theorem immField_ofNat (n : Nat) : immField (BitVec.ofNat 32 n) = BitVec.ofNat 14 n := by
  apply BitVec.eq_of_toNat_eq
  rw [immField_toNat, BitVec.toNat_ofNat, BitVec.toNat_ofNat]
  omega

/-- The mask of a field that a row fixes has every bit set. -/
@[simp] theorem and_fullMask :
    (∀ x : BitVec 6, x &&& 0x3F#6 = x) ∧ (∀ x : BitVec 4, x &&& 0xF#4 = x) ∧ (∀ x : BitVec 8, x &&& 0xFF#8 = x) ∧
      ∀ x : BitVec 14, x &&& 0x3FFF#14 = x :=
  ⟨fun _ => BitVec.and_allOnes, fun _ => BitVec.and_allOnes, fun _ => BitVec.and_allOnes, fun _ => BitVec.and_allOnes⟩

/-- A MIDI note has no bit under the mask of the high part. -/
@[simp] theorem note_and_highMask (note : BitVec 7) : note.setWidth 14 &&& 0x3F80#14 = 0 := by
  simpa using (noteHigh_iff (commandWord 0 0 0 (note.setWidth 14))).2 (noteHighField_commandWord _ _ _ note)

/-- IMM has no bit under the mask of the high part exactly when it is a MIDI note. -/
theorem highMask_iff {w : Word} : immField w &&& 0x3F80#14 = 0#14 ↔ immField w = (noteField w).setWidth 14 :=
  (noteHigh_iff w).trans immField_eq_note_iff.symm

@[simp] theorem RowCheck.passes_always (cfg : Config.Params) (w : Word) : always.passes cfg w = true := rfl
@[simp] theorem RowCheck.passes_unitAtMost8 (cfg : Config.Params) (w : Word) :
    unitAtMost8.passes cfg w = decide ((unitField w).toNat ≤ 8) := by rw [unitField_toNat]; rfl
@[simp] theorem RowCheck.passes_slot (cfg : Config.Params) (w : Word) :
    slot.passes cfg w = decide ((regField w).toNat < cfg.nVoices) := by rw [regField_toNat]; rfl
@[simp] theorem RowCheck.passes_chordCode (cfg : Config.Params) (w : Word) :
    chordCode.passes cfg w = decide ((regField w).toNat < cfg.nChord) := by rw [regField_toNat]; rfl
@[simp] theorem RowCheck.passes_bank (cfg : Config.Params) (w : Word) :
    bank.passes cfg w = decide ((regField w).toNat < cfg.numBanks) := by rw [regField_toNat]; rfl

/-- A row accepts a word whose fields match and pass the row's check. -/
theorem EncodingRow.accepts_iff {cfg : Config.Params} {w bits mask : Word} {c : RowCheck} :
    (⟨bits, mask, c⟩ : EncodingRow).accepts cfg w = true ↔
      (opField w &&& opField mask = opField bits ∧ unitField w &&& unitField mask = unitField bits ∧
        regField w &&& regField mask = regField bits ∧ immField w &&& immField mask = immField bits) ∧
      c.passes cfg w = true := by
  simp only [EncodingRow.accepts, Bool.and_eq_true, beq_iff_eq, match_iff]

/-- The row of a well-formed command accepts its first word, field by field. -/
theorem row_accepts_encode {cfg : Config.Params} {i : Instr} (hwf : i.wellFormed cfg = true) :
    ∃ r, encodingTable[i.row]? = some r ∧ r.accepts cfg ((encode i).headD 0) = true := by
  cases i <;> exact ⟨_, rfl, by simp_all [EncodingRow.accepts_iff, encode, Instr.wellFormed]⟩

/-- The command of each row of the table with the operands of the words w and d. -/
def rowCommand (w d : Word) : Nat → Instr
  | 0 => .nop
  | 1 => .tick (immField w)
  | 2 => .wrreg (unitField w) (regField w) d
  | 3 => .rdreg (unitField w) (regField w)
  | 4 => .sreset (unitField w)
  | 5 => .clrstat (immField w)
  | 6 => .noteOn d
  | 7 => .noteOnMidi (noteField w)
  | 8 => .noteOff (regField w)
  | 9 => .allOff
  | 10 => .chordOn (regField w) (noteField w)
  | 11 => .bankBegin (regField w)
  | 12 => .bankData d
  | 13 => .bankCommit
  | 14 => .bankAbort
  | 15 => .srcBegin d
  | 16 => .srcData d
  | 17 => .srcCommit
  | 18 => .srcAbort
  | _ => .granSpawn

/-- A word that a row accepts is the word of the row's command, which is well-formed: the fields that the row matches are
those that the command's word fixes, and the row's check is the one on the command's operands. -/
theorem rowCommand_of_accepts {cfg : Config.Params} {w : Word} {k : Nat} {r : EncodingRow}
    (hr : encodingTable[k]? = some r) (hacc : r.accepts cfg w = true) (d : Word) :
    (rowCommand w d k).row = k ∧ (rowCommand w d k).wellFormed cfg = true ∧
      encode (rowCommand w d k) = commandWords w d := by
  obtain ⟨hk, -⟩ := List.getElem?_eq_some_iff.1 hr
  change k < 20 at hk
  interval_cases k
  all_goals
    obtain rfl := Option.some.inj hr
    rw [EncodingRow.accepts_iff] at hacc
    refine ⟨rfl, ?_⟩
    clear hr
    simp_all [rowCommand, Instr.wellFormed, encode, commandWords, commandLength, commandWord_eq_iff, highMask_iff]

/-- Settles O3: a command's row accepts its word, and the command of a row's word is of that row. -/
theorem wellFormedWordsMatchTheTable : Obligations.WellFormedWordsMatchTheTable := by
  refine fun cfg w d => ⟨fun i h => ?_, fun r hr hacc => ?_⟩
  · obtain ⟨hwf, hwords⟩ := decodeCommand_eq_ok_iff.1 h
    have hw : (encode i).headD 0 = w := by rw [hwords, commandWords]; split <;> rfl
    exact hw ▸ row_accepts_encode hwf
  · obtain ⟨k, hk⟩ := List.mem_iff_getElem?.1 hr
    obtain ⟨hrow, hwf, hwords⟩ := rowCommand_of_accepts hk hacc d
    exact ⟨_, decodeCommand_eq_ok_iff.2 ⟨hwf, hwords⟩, hrow.symm ▸ hk⟩

end Sys2Proof
end

section
/-! What the decoder refuses, and the operands that a command's meaning refuses: BadCommand, and nothing else (30_encoding.md
R304, R306, R307; 40_host_commands.md R400). -/

namespace Sys2Proof.Machine

/-! ## An illegal word (30_encoding.md R306, R307) -/

/-- An illegal word is BadCommand, passed over by its length, with the answer 0 where its OP is RDREG's. -/
theorem State.becomes_illegal (s : State) (w : Word) :
    s.becomes (commandLength w) (if opField w = 0x03 then [0] else []) (s.withEvent .badCommand) (s.illegal w) := by
  unfold State.illegal
  split
  · rw [← State.raise_eq_withEvent]
    exact State.becomes_respond_retire _ 0 ⟨rfl, rfl, rfl, rfl⟩
  · exact s.becomes_badCommand _

theorem State.execute_illegal {s : State} {p : PortId} {w d : Word} {e : DecodeError}
    (hhead : (s.port p).head = some (w, d)) (herr : decodeCommand s.cfg w d = .error e) :
    s.execute p = .next (State.illegal w { s with serving := p }) := by
  have hserve : State.port { s with serving := p } p = s.port p := by cases p <;> rfl
  simp only [State.execute, hserve, hhead, herr]

/-- The step at an illegal head command. -/
theorem step_illegal {s : State} {p q : PortId} {w d : Word} {e : DecodeError} (hturn : s.sched.turn = .port p)
    (hgrant : s.grant p = some q) (hhead : (s.port q).head = some (w, d)) (herr : decodeCommand s.cfg w d = .error e) :
    step s = .next (State.illegal w { s.reschedule with serving := q }) := by
  rw [← s.port_reschedule q] at hhead
  simp only [step, hturn, hgrant]
  exact State.execute_illegal hhead herr

/-- Words that the decoder refuses begin with a head command that it refuses. -/
theorem decodeCommand_error_of_head {cfg : Config.Params} {p : Port} {w d : Word} {e : DecodeError}
    (hhead : p.head = some (w, d)) (herr : decodeWords cfg p.words = .error e) : decodeCommand cfg w d = .error e := by
  obtain ⟨rest, hdecode⟩ := decodeWords_of_head (cfg := cfg) hhead
  rw [hdecode] at herr
  cases hcommand : decodeCommand cfg w d with
  | ok i => rw [hcommand] at herr; cases herr
  | error e' => rw [hcommand] at herr; cases herr; rfl

/-- Settles O6: the granted port's head command has arrived, and the decoder refuses it. -/
theorem stepTakesAnIllegalWord : Obligations.StepTakesAnIllegalWord := by
  intro s p q e w rest hturn hgrant hwords herr
  obtain ⟨w', d, hhead, -⟩ := Port.ready_iff.1 (State.grant_ready hgrant)
  obtain rfl : w' = w := by
    obtain ⟨rest', hwords', -⟩ := Port.exists_head_iff.1 ⟨d, hhead⟩
    rw [hwords] at hwords'
    exact (List.cons.inj hwords').1.symm
  have herr' := decodeCommand_error_of_head hhead (hwords ▸ herr)
  exact ⟨_, step_illegal hturn hgrant hhead herr', State.becomes_illegal _ w'⟩

/-! ## A refused command (40_host_commands.md R400) -/

theorem Reg.ofAddr_illFormed (cfg : Config.Params) {unit : BitVec 4} (hunit : ¬ unit.toNat ≤ 8) (reg : BitVec 8) :
    Reg.ofAddr cfg unit reg = none := Reg.at_unmapped cfg (Nat.lt_of_not_le hunit) _

/-- An ill-formed command other than an RDREG is BadCommand. -/
theorem exec_illFormed {i : Instr} {s : State} (hwf : i.wellFormed s.cfg = false) (hrd : ∀ unit reg, i ≠ .rdreg unit reg) :
    exec i s = .next (s.badCommand (encode i).length) := by
  cases i with
  | wrreg unit reg data =>
    refine exec_wrreg_bad data fun r hr => ?_
    rw [Reg.ofAddr_illFormed s.cfg (of_decide_eq_false hwf) reg] at hr
    cases hr
  | rdreg unit reg => exact absurd rfl (hrd unit reg)
  | sreset unit => exact if_pos (Nat.lt_of_not_le (of_decide_eq_false hwf))
  | noteOff slot => exact if_neg (of_decide_eq_false hwf)
  | chordOn chord root => exact if_neg (of_decide_eq_false hwf)
  | bankBegin bank => exact if_neg (of_decide_eq_false hwf)
  | _ => cases hwf

/-- An RDREG of an unmapped register answers 0 and is BadCommand, where its response has room. -/
theorem exec_rdreg_unmapped {unit : BitVec 4} {reg : BitVec 8} {s : State}
    (hroom : (s.port s.serving).resp.length < s.cfg.respDepth) (hreg : Reg.ofAddr s.cfg unit reg = none) :
    exec (.rdreg unit reg) s = .next (((s.raise .badCommand).respond 0).retire 1) := by
  have hfull : (s.port s.serving).respFull s.cfg = false := decide_eq_false (Nat.not_le_of_lt hroom)
  simp [exec, execRdreg, hfull, hreg]

/-- BANK_DATA, BANK_COMMIT and BANK_ABORT without an open load (42_wavetable.md R521, R523, R524). -/
theorem exec_bank_notLoading {i : Instr} {s : State} (hload : s.wt.loading = false)
    (hi : (∃ x, i = .bankData x) ∨ i = .bankCommit ∨ i = .bankAbort) :
    exec i s = .next (s.badCommand (encode i).length) := by
  have hclosed : ¬ s.wt.loading = true := by simp [hload]
  rcases hi with ⟨x, rfl⟩ | rfl | rfl <;> exact if_neg hclosed

/-- SRC_DATA, SRC_COMMIT and SRC_ABORT without an open load (45_granular.md R661 to R663). -/
theorem exec_src_notLoading {i : Instr} {s : State} (hload : s.gran.srcLoading = false)
    (hi : (∃ x, i = .srcData x) ∨ i = .srcCommit ∨ i = .srcAbort) :
    exec i s = .next (s.badCommand (encode i).length) := by
  have hclosed : ¬ s.gran.srcLoading = true := by simp [hload]
  rcases hi with ⟨x, rfl⟩ | rfl | rfl <;> exact if_neg hclosed

theorem State.memoryKept_badCommand (s : State) (n : Nat) : s.memoryKept (s.badCommand n) :=
  State.memoryKept_retire (u := s.raise .badCommand) n rfl rfl

/-- What a refused command without a response does. -/
theorem refused_of_badCommand {i : Instr} {s : State} {n : Nat} (h : exec i s = .next (s.badCommand n)) :
    ∃ t, exec i s = .next t ∧ s.becomes n [] (s.withEvent .badCommand) t ∧ s.memoryKept t :=
  ⟨_, h, s.becomes_badCommand n, s.memoryKept_badCommand n⟩

/-- What a refused RDREG does. -/
theorem refused_rdreg {unit : BitVec 4} {reg : BitVec 8} {s : State}
    (hroom : (s.port s.serving).resp.length < s.cfg.respDepth) (hreg : Reg.ofAddr s.cfg unit reg = none) :
    ∃ t, exec (.rdreg unit reg) s = .next t ∧ s.becomes 1 [0] (s.withEvent .badCommand) t ∧ s.memoryKept t := by
  refine ⟨_, exec_rdreg_unmapped hroom hreg, ?_, State.memoryKept_respond_retire (u := s.raise .badCommand) 1 0 rfl rfl⟩
  rw [← State.raise_eq_withEvent]
  exact State.becomes_respond_retire 1 0 ⟨rfl, rfl, rfl, rfl⟩

/-- Settles O22: each refusal is BadCommand; an RDREG answers 0 as well. -/
theorem refusedCommandsRaiseBadCommand : Obligations.RefusedCommandsRaiseBadCommand := by
  refine fun i s => ⟨fun hwf hroom => ?_, fun hload hi => ?_, fun hload hi => ?_⟩
  · cases i
    case rdreg unit reg =>
      exact refused_rdreg (hroom unit reg rfl) (Reg.ofAddr_illFormed s.cfg (of_decide_eq_false hwf) reg)
    all_goals exact refused_of_badCommand (exec_illFormed hwf fun _ _ h => nomatch h)
  · exact refused_of_badCommand (exec_bank_notLoading hload hi)
  · exact refused_of_badCommand (exec_src_notLoading hload hi)

end Sys2Proof.Machine
end

section
/-! TICK: one tick of every unit from the state it began with, and the count of ticks a command runs (40_host_commands.md
R402 to R404, R407). -/

namespace Sys2Proof.Machine

/-! ## One execution of TICK (40_host_commands.md R407) -/

/-- How many ticks a TICK of n = IMM + 1 has still to run at the serving port: n where it has not begun. -/
def State.ticksToRun (imm : BitVec 14) (s : State) : Nat :=
  if (s.port s.serving).ticksLeft = 0 then imm.toNat + 1 else (s.port s.serving).ticksLeft

theorem State.ticksToRun_holdTick (imm : BitVec 14) {k : Nat} (hk : k ≠ 0) (s : State) :
    (s.holdTick k).ticksToRun imm = k := by
  rw [State.ticksToRun, State.holdTick_serving, State.port_holdTick]
  exact if_neg hk

theorem exec_tick_last {imm : BitVec 14} {s : State} (h : s.ticksToRun imm = 1) :
    exec (.tick imm) s = .next (s.tick.retire 1) := congrArg Host.Outcome.next (if_pos h)

theorem exec_tick_more {imm : BitVec 14} {s : State} (h : s.ticksToRun imm ≠ 1) :
    exec (.tick imm) s = .next (s.tick.holdTick (s.ticksToRun imm - 1)) := congrArg Host.Outcome.next (if_neg h)

/-- An execution of TICK gives the units what one tick gives them. -/
theorem exec_tick_sameUnits {imm : BitVec 14} {s t : State} (h : exec (.tick imm) s = .next t) : s.tick.sameUnits t := by
  rcases exec_tick_cases h with rfl | ⟨k, rfl⟩
  · exact s.tick.sameUnits_retire 1
  · exact s.tick.sameUnits_holdTick k

/-- Settles O12: the units are those of `State.tick`, given by its laws; the port moves past the last tick and is held
before it. -/
theorem tickRunsEveryUnit : Obligations.TickRunsEveryUnit := by
  intro imm s
  obtain ⟨t, ht⟩ := exec_next (.tick imm) s
  have hcount : s.global.tickCount + 1 = BitVec.ofNat 32 ((s.global.tickCount.toNat + 1) % 2 ^ 32) :=
    BitVec.eq_of_toNat_eq (by simp)
  have hunits := exec_tick_sameUnits ht
  obtain ⟨hcfg, hmem⟩ := exec_tick_mem ht
  have hreads := tick_reads hcfg hmem
  have hports : (s.ticksToRun imm = 1 → s.movedPast 1 [] t) ∧
      (s.ticksToRun imm ≠ 1 → t.port s.serving = { s.port s.serving with ticksLeft := s.ticksToRun imm - 1 } ∧
        t.port s.serving.other = s.port s.serving.other ∧ t.serving = s.serving ∧ t.sched = s.sched) := by
    refine ⟨fun hlast => ?_, fun hmore => ?_⟩
    · obtain rfl := Host.Outcome.next.inj ((exec_tick_last hlast).symm.trans ht)
      exact (State.becomes_retire 1 Effect.tick.sharesPorts).2
    · obtain rfl := Host.Outcome.next.inj ((exec_tick_more hmore).symm.trans ht)
      have hport := s.tick.port_holdTick (s.ticksToRun imm - 1)
      have hother := s.tick.port_other_holdTick (s.ticksToRun imm - 1)
      rw [State.tick_serving, State.tick_port] at hport hother
      exact ⟨hport, hother, by simp, by simp⟩
  refine ⟨t, ht, ?_, ?_, ?_, ?_, ?_, ?_, ?_, ?_, ?_, ?_, ?_, hcfg, hreads, hports⟩ <;> rw [hunits]
  · exact s.tick_osc
  · exact s.tick_wt
  · exact s.tick_env
  · exact s.tick_vpool
  · exact Prod.ext s.tick_gran s.tick_status
  · exact s.tick_loop
  · exact s.tick_dly
  · exact s.tick_arp
  · exact s.tick_tickCount.trans hcount
  · exact s.tick_sampleRate
  · exact s.tick_dt

/-! ## Every tick of a TICK (40_host_commands.md R407) -/

/-- A tick neither reads nor writes a port. -/
theorem State.tick_setPort (s : State) (p : PortId) (q : Port) : (s.setPort p q).tick = s.tick.setPort p q := by
  cases p <;> rfl

theorem State.ticks_holdTick (k n : Nat) (s : State) : (s.holdTick k).ticks n = (s.ticks n).holdTick k := by
  induction n generalizing s with
  | zero => rfl
  | succ n ih =>
    have htick : (s.holdTick k).tick = s.tick.holdTick k := by
      rw [State.holdTick, State.tick_setPort, State.holdTick, State.tick_serving, State.tick_port]
    rw [State.ticks, htick, ih]
    rfl

theorem State.setPort_setPort (s : State) (p : PortId) (q r : Port) : (s.setPort p q).setPort p r = s.setPort p r := by
  cases p <;> rfl

/-- A port that moves past its command keeps no tick of it. -/
theorem State.retire_holdTick (k n : Nat) (s : State) : (s.holdTick k).retire n = s.retire n := by
  rw [State.retire, State.holdTick_serving, State.port_holdTick, State.holdTick, State.setPort_setPort]
  rfl

/-- Ticks leave the ports alone. -/
theorem State.sharesPorts_ticks (s : State) (n : Nat) : s.sharesPorts (s.ticks n) := by
  induction n with
  | zero => exact s.sharesPorts_self
  | succ n ih =>
    rw [State.ticks_succ]
    exact State.sharesPorts_trans ih Effect.tick.sharesPorts

/-- A TICK with n + 1 ticks to run, executed as often, runs them and moves past. -/
theorem execTimes_tick {imm : BitVec 14} (n : Nat) {s : State} (h : s.ticksToRun imm = n + 1) :
    execTimes (.tick imm) (n + 1) s = .next ((s.ticks (n + 1)).retire 1) := by
  induction n generalizing s with
  | zero => simp only [execTimes, exec_tick_last h, State.ticks]
  | succ n ih =>
    have hmore : exec (.tick imm) s = .next (s.tick.holdTick (n + 1)) := by
      rw [exec_tick_more (by omega), h, Nat.add_sub_cancel]
    have hleft := s.tick.ticksToRun_holdTick imm n.succ_ne_zero
    calc execTimes (.tick imm) (n + 2) s
        = execTimes (.tick imm) (n + 1) (s.tick.holdTick (n + 1)) := by simp only [execTimes, hmore]
      _ = .next (((s.tick.holdTick (n + 1)).ticks (n + 1)).retire 1) := ih hleft
      _ = .next ((s.tick.ticks (n + 1)).retire 1) := by rw [State.ticks_holdTick, State.retire_holdTick]
      _ = .next ((s.ticks (n + 2)).retire 1) := rfl

/-- Settles O15: a TICK not begun has IMM + 1 ticks to run. -/
theorem tickCommandRunsAllItsTicks : Obligations.TickCommandRunsAllItsTicks := by
  intro imm s h
  exact ⟨_, execTimes_tick imm.toNat (if_pos h), State.becomes_retire 1 (s.sharesPorts_ticks _)⟩

/-! ## What a tick writes to the registers (40_host_commands.md R404) -/

/-- `State.controls` holds every P and I register. A register of class C shows the parameters alone. -/
theorem Reg.value_controls (s : State) {r : Reg} (h : r.cls = .P ∨ r.cls = .I) : r.value s.controls = r.value s := by
  have hO : ¬ (RegClass.O = .P ∨ RegClass.O = .I) := by decide
  rcases r with r | r | r | r | r | r | r | r | r <;> cases r <;> first | rfl | exact absurd h hO

/-- No other register shows the generator's state. -/
theorem Reg.value_rng {r : Reg} (h : r ≠ .gran .rng) (s : State) (w : Word) :
    r.value { s with gran := { s.gran with rng := w } } = r.value s := by
  cases r with
  | gran r => cases r <;> first | rfl | contradiction
  | _ => rfl

/-- Settles O13: a tick keeps all the controls but GRAN.RNG. -/
theorem tickWritesNoParameterOrInput : Obligations.TickWritesNoParameterOrInput := by
  intro imm s t r ht hcls hr
  calc r.value t = r.value s.tick := Reg.value_sameUnits (exec_tick_sameUnits ht) r
    _ = r.value s.tick.controls := (Reg.value_controls s.tick hcls).symm
    _ = r.value s.controls := by rw [State.tick_controls, Reg.value_rng hr]
    _ = r.value s := Reg.value_controls s hcls

end Sys2Proof.Machine
end

section
/-! RDREG, SRESET of the CORE, CLRSTAT and NOP (40_host_commands.md R405, R406, R409, R410), and the step that executes a
command (R400, R401). -/

namespace Sys2Proof.Machine

/-! ## RDREG (40_host_commands.md R409) -/

theorem exec_rdreg_mapped {unit : BitVec 4} {reg : BitVec 8} {s : State} {r : Reg}
    (hroom : (s.port s.serving).resp.length < s.cfg.respDepth) (hreg : Reg.ofAddr s.cfg unit reg = some r) :
    exec (.rdreg unit reg) s = .next ((s.respond (r.value s)).retire 1) := by
  have hfull : (s.port s.serving).respFull s.cfg = false := decide_eq_false (Nat.not_le_of_lt hroom)
  simp [exec, execRdreg, hfull, hreg]

theorem exec_rdreg_full {s : State} (hfull : s.cfg.respDepth ≤ (s.port s.serving).resp.length) (unit : BitVec 4)
    (reg : BitVec 8) : exec (.rdreg unit reg) s = .next s :=
  if_pos (decide_eq_true hfull : (s.port s.serving).respFull s.cfg = true)

/-- Settles O18: a mapped register, an unmapped one, and the wait. -/
theorem rdregAnswersTheRegister : Obligations.RdregAnswersTheRegister := by
  refine fun unit reg s =>
    ⟨fun hroom => ⟨fun r hreg => ?_, refused_rdreg hroom⟩, fun hfull => exec_rdreg_full hfull unit reg⟩
  exact ⟨_, exec_rdreg_mapped hroom hreg, State.becomes_respond_retire 1 _ s.sharesPorts_self,
    State.memoryKept_respond_retire 1 _ rfl rfl⟩

/-! ## SRESET of the CORE (40_host_commands.md R410) -/

/-- Settles O20: the units of `State.resetCore` are those of reset; its ports are the ports before. -/
theorem sresetRestoresTheCore : Obligations.SresetRestoresTheCore := by
  intro s
  have hunits : s.resetCore.sameUnits (s.resetCore.retire 1) := s.resetCore.sameUnits_retire 1
  refine ⟨s.resetCore.retire 1, rfl, ?_, fun sp a => ?_, (State.becomes_retire 1 Effect.resetCore.sharesPorts).2⟩
  · rw [hunits]; rfl
  · rw [hunits]; rfl

/-! ## CLRSTAT and NOP (40_host_commands.md R405, R406) -/

/-- The mask of CLRSTAT reaches the bits below 14. -/
theorem clearBits_getLsbD (mask : BitVec 14) (status : Word) {k : Nat} (hk : k < 32) :
    (clearBits mask status).getLsbD k = (status.getLsbD k && !(decide (k < 14) && mask.getLsbD k)) := by
  by_cases hin : k < 14
  · simp [clearBits, hk, hin]
  · have hout : mask.getLsbD k = false := mask.getLsbD_of_ge k (Nat.le_of_not_lt hin)
    simp [clearBits, hk, hout]

/-- Settles O23: CLRSTAT changes STATUS, NOP nothing; both move past one word. -/
theorem clrstatAndNopChangeOnlyTheirBits : Obligations.ClrstatAndNopChangeOnlyTheirBits := by
  refine fun s => ⟨fun mask => ⟨_, rfl, fun k hk => ?_, ?_, State.memoryKept_retire 1 rfl rfl⟩,
    _, rfl, State.becomes_retire 1 s.sharesPorts_self, State.memoryKept_retire 1 rfl rfl⟩
  · rw [State.retire_global]
    exact clearBits_getLsbD mask s.global.status hk
  · rw [State.retire_global]
    exact State.becomes_retire 1 (Effect.clear mask).sharesPorts

/-! ## The step that executes a command (40_host_commands.md R400, R401) -/

/-- Words that decode begin with a head command that decodes. -/
theorem decodeCommand_ok_of_head {cfg : Config.Params} {p : Port} {w d : Word} {i : Instr} {rest : List Word}
    (hhead : p.head = some (w, d)) (hwords : decodeWords cfg p.words = .ok (i, rest)) : decodeCommand cfg w d = .ok i := by
  obtain ⟨rest', hdecode⟩ := decodeWords_of_head (cfg := cfg) hhead
  rw [hdecode] at hwords
  cases hcommand : decodeCommand cfg w d with
  | ok j => rw [hcommand] at hwords; cases hwords; rfl
  | error e => rw [hcommand] at hwords; cases hwords

theorem State.execute_decoded {s : State} {p : PortId} {w d : Word} {i : Instr} (hhead : (s.port p).head = some (w, d))
    (hdecode : decodeCommand s.cfg w d = .ok i) : s.execute p = exec i { s with serving := p } := by
  have hserve : State.port { s with serving := p } p = s.port p := by cases p <;> rfl
  simp only [State.execute, hserve, hhead, hdecode]

/-- Settles O5: the granted port's head command has arrived, and is the one its words decode to. -/
theorem stepRunsTheDecodedCommand : Obligations.StepRunsTheDecodedCommand := by
  refine fun s p q i rest hturn hgrant hwords => ⟨?_, rfl⟩
  obtain ⟨w, d, hhead, -⟩ := Port.ready_iff.1 (State.grant_ready hgrant)
  have hdecode := decodeCommand_ok_of_head hhead hwords
  rw [← s.port_reschedule q] at hhead
  simp only [step, hturn, hgrant]
  exact State.execute_decoded hhead hdecode

theorem exec_cfg {i : Instr} {s t : State} (h : exec i s = .next t) : t.cfg = s.cfg := by
  obtain ⟨u, hu, hend⟩ := exec_cases h
  rw [hend.sameUnits.cfg, effects_cfg hu]

/-- Settles O11: every outcome is a next state, and no elementary change touches the parameters. -/
theorem everyCommandAnswersANextState : Obligations.EveryCommandAnswersANextState := by
  refine ⟨fun i s => ?_, fun s => ?_⟩
  · obtain ⟨t, ht⟩ := exec_next i s
    exact ⟨t, ht, exec_cfg ht⟩
  · obtain ⟨t, ht⟩ := step_next s
    exact ⟨t, ht, step_cfg ht⟩

end Sys2Proof.Machine
end

section
/-! OSC's phase accumulator, waveforms and tick (41_oscillator.md R450 to R460; 00_scope.md R31). -/

namespace Sys2Proof.Machine

/-! ## Results inside finite bounds -/

theorem inRange_iff {lo hi x : F32} (hlo : isFinite lo = true) (hhi : isFinite hi = true) :
    inRange lo hi x = true ↔ isFinite x = true ∧ scaled lo ≤ scaled x ∧ scaled x ≤ scaled hi := by
  simp only [inRange, Bool.and_eq_true, and_assoc]
  exact and_congr_right fun hx => and_congr (fle_iff hlo hx) (fle_iff hx hhi)

theorem inRange_of_fle {lo hi x : F32} (hlo : isFinite lo = true) (hhi : isFinite hi = true) (hge : fle lo x = true)
    (hle : fle x hi = true) : inRange lo hi x = true := by
  rw [inRange, isFinite_of_between hlo hhi hge hle, hge, hle]; rfl

/-- A sum between two values rounds to a value between them. -/
theorem inRange_fadd {a b lo hi : F32} (ha : isFinite a = true) (hb : isFinite b = true) (hlo : isFinite lo = true)
    (hhi : isFinite hi = true) (hge : scaled lo ≤ scaled a + scaled b) (hle : scaled a + scaled b ≤ scaled hi) :
    inRange lo hi (fadd a b) = true :=
  inRange_of_fle hlo hhi (le_fadd ha hb hlo hge) (fadd_le ha hb hhi hle)

theorem inRange_fsub {a b lo hi : F32} (ha : isFinite a = true) (hb : isFinite b = true) (hlo : isFinite lo = true)
    (hhi : isFinite hi = true) (hge : scaled lo ≤ scaled a - scaled b) (hle : scaled a - scaled b ≤ scaled hi) :
    inRange lo hi (fsub a b) = true :=
  inRange_fadd ha (isFinite_fneg.trans hb) hlo hhi (by rw [scaled_fneg]; omega) (by rw [scaled_fneg]; omega)

theorem inRange_fmul {a b lo hi : F32} (ha : isFinite a = true) (hb : isFinite b = true) (hlo : isFinite lo = true)
    (hhi : isFinite hi = true) (hge : scaled lo * unitScale ≤ scaled a * scaled b)
    (hle : scaled a * scaled b ≤ scaled hi * unitScale) : inRange lo hi (fmul a b) = true :=
  inRange_of_fle hlo hhi (le_fmul ha hb hlo hge) (fmul_le ha hb hhi hle)

/-- A sum is −0.0 only where both operands are negative or −0.0. -/
theorem fadd_ne_negZero {a b : F32} (ha : isFinite a = true) (hb : isFinite b = true) (hs : fSign a = false) :
    fadd a b ≠ 0x80000000 := by
  intro h
  rcases lt_trichotomy (scaled a + scaled b) 0 with hneg | hzero | hpos
  · have hle := fadd_le ha hb (c := 0x80000001) (by decide) (by rw [show scaled 0x80000001 = -1 by decide]; omega)
    rw [h] at hle
    exact absurd hle (by decide)
  · rw [fadd_zero_sum ha hb hzero, hs, Bool.false_and] at h
    exact absurd h (by decide)
  · have hge := le_fadd ha hb (c := 0x00000001) (by decide) (by rw [show scaled 0x00000001 = 1 by decide]; omega)
    rw [h] at hge
    exact absurd hge (by decide)

/-! ## Phases (41_oscillator.md R450, R451) -/

/-- A finite value that is not negative and no −0.0 has a clear sign bit. -/
theorem fSign_of_nonneg {x : F32} (hx : isFinite x = true) (h0 : 0 ≤ scaled x) (hne : x ≠ 0x80000000) :
    fSign x = false := by
  rw [fSign_eq_false_iff]
  by_contra hge
  have hzero : scaled x = 0 := by
    have hs : fSign x = true := decide_eq_true (by omega)
    rw [scaled, if_pos hs] at *
    omega
  have hmag := natAbs_orderKey x
  rw [(orderKey_eq_zero_iff hx).2 hzero] at hmag
  exact hne (BitVec.eq_of_toNat_eq (show x.toNat = 2 ^ 31 by omega))

theorem isPhase_iff {p : F32} :
    isPhase p = true ↔ isFinite p = true ∧ 0 ≤ scaled p ∧ scaled p < scaled f1 ∧ p ≠ 0x80000000 := by
  rw [isPhase, decide_eq_true_eq]
  constructor
  · intro h
    have hp : isFinite p = true := isFinite_of_mag_lt (by omega)
    have hs : fSign p = false := fSign_eq_false_iff.2 (by omega)
    have hlt := flt_iff hp isFinite_f1
    rw [flt_eq, isNaN_of_finite hp, isNaN_f1, toNat_of_nonneg hs, orderKey_f1] at hlt
    refine ⟨hp, scaled_nonneg_of hs, hlt.1 (by simpa using h), ?_⟩
    rintro rfl
    exact absurd hs (by decide)
  · rintro ⟨hp, h0, h1, hne⟩
    have hlt := (flt_iff hp isFinite_f1).2 h1
    rw [flt_eq, isNaN_of_finite hp, isNaN_f1, toNat_of_nonneg (fSign_of_nonneg hp h0 hne), orderKey_f1] at hlt
    simpa using hlt

theorem isPhase_f0 : isPhase f0 = true := by decide

/-- A phase accumulator's sum, wrapped (41_oscillator.md R450). -/
def wrapPhase (q : F32) : F32 :=
  if fle f1 q then fsub q f1
  else if flt q f0 then
    if fle f1 (fadd q f1) then f0 else fadd q f1
  else q

theorem phaseStep_eq_wrapPhase (dt p f : F32) :
    phaseStep dt p f = wrapPhase (fadd p (fclamp (fmul f dt) 0xBF000000 0x3F000000)) := rfl

/-- A value from −0.5 to 1.5 wraps to a phase, unless it is −0.0. -/
theorem isPhase_wrapPhase {q : F32} (hq : inRange 0xBF000000 0x3FC00000 q = true) (hne : q ≠ 0x80000000) :
    isPhase (wrapPhase q) = true := by
  have half : scaled 0x3F000000 = 2 ^ 148 ∧ scaled 0xBF000000 = -2 ^ 148 ∧ scaled 0x3FC00000 = 2 ^ 149 + 2 ^ 148 := by
    decide
  have one := scaled_f1
  have zero := scaled_f0
  obtain ⟨hfin, hlo, hhi⟩ := (inRange_iff (by decide) (by decide)).1 hq
  have hge := fle_iff isFinite_f1 hfin
  have hlt := flt_iff hfin isFinite_f0
  unfold wrapPhase
  split
  case isTrue h =>
    rw [hge] at h
    have hdiff := inRange_fsub hfin isFinite_f1 (lo := f0) (hi := 0x3F000000) (by decide) (by decide)
      (by omega) (by omega)
    rw [inRange_iff isFinite_f0 (by decide)] at hdiff
    refine isPhase_iff.2 ⟨hdiff.1, by omega, by omega, fadd_ne_negZero hfin (by decide) ?_⟩
    exact fSign_of_nonneg hfin (by omega) hne
  case isFalse h =>
    rw [hge] at h
    split
    case isTrue hneg =>
      rw [hlt] at hneg
      have hsum := inRange_fadd hfin isFinite_f1 (lo := 0x3F000000) (hi := f1) (by decide) (by decide)
        (by omega) (by omega)
      rw [inRange_iff (by decide) isFinite_f1] at hsum
      split
      case isTrue => exact isPhase_f0
      case isFalse hsmall =>
        rw [fle_iff isFinite_f1 hsum.1] at hsmall
        refine isPhase_iff.2 ⟨hsum.1, by omega, by omega, fun hz => ?_⟩
        have hzero : scaled 0x80000000 = 0 := by decide
        rw [hz] at hsum
        omega
    case isFalse hneg =>
      rw [hlt] at hneg
      exact isPhase_iff.2 ⟨hfin, by omega, by omega, hne⟩

/-- The increment is clamped to half a period, whatever the frequency. -/
theorem isPhase_phaseStep {p : F32} (hp : isPhase p = true) (dt f : F32) : isPhase (phaseStep dt p f) = true := by
  obtain ⟨hfin, h0, h1, hne⟩ := isPhase_iff.1 hp
  have hinc := inRange_fclamp (lo := 0xBF000000) (hi := 0x3F000000) (by decide) (by decide) (by decide) (fmul f dt)
  rw [phaseStep_eq_wrapPhase]
  generalize fclamp (fmul f dt) 0xBF000000 0x3F000000 = inc at *
  obtain ⟨hincFin, hlo, hhi⟩ := (inRange_iff (by decide) (by decide)).1 hinc
  have bounds : scaled 0x3F000000 = 2 ^ 148 ∧ scaled 0xBF000000 = -2 ^ 148 ∧
      scaled 0x3FC00000 = 2 ^ 149 + 2 ^ 148 ∧ scaled f1 = 2 ^ 149 := by decide
  exact isPhase_wrapPhase (inRange_fadd hfin hincFin (by decide) (by decide) (by omega) (by omega))
    (fadd_ne_negZero hfin hincFin (fSign_of_nonneg hfin h0 hne))

/-- Settles O36: the formula is that of the definition. -/
theorem phaseStaysInRange : Obligations.PhaseStaysInRange :=
  fun dt _ f => ⟨rfl, fun hp => isPhase_phaseStep hp dt f⟩

/-! ## Waveforms (41_oscillator.md R452; 00_scope.md R31) -/

theorem inRange_unit_iff {y : F32} :
    inRange 0xBF800000 0x3F800000 y = true ↔ isFinite y = true ∧ -2 ^ 149 ≤ scaled y ∧ scaled y ≤ 2 ^ 149 := by
  rw [inRange_iff (by decide) (by decide), show scaled 0xBF800000 = -2 ^ 149 by decide,
    show scaled 0x3F800000 = 2 ^ 149 by decide]

/-- R31 (c) bounds the sine of every phase. -/
theorem inRange_fsin2pi {p : F32} (hp : isPhase p = true) : inRange 0xBF800000 0x3F800000 (fsin2pi p) = true := by
  obtain ⟨-, -, -, -, -, hsine⟩ := transcendentalsKeepTheirBounds
  obtain ⟨hfin, h0, h1, -⟩ := isPhase_iff.1 hp
  have hone : scaled f1 = unitScale := by decide
  obtain ⟨⟨hy, hle, -⟩, -⟩ := hsine p hfin ((ratOf_nonneg_iff p).2 h0) ((ratOf_lt_one_iff p).2 (hone ▸ h1))
  have hmag := (abs_ratOf_le_iff (fsin2pi p) 1).1 (by exact_mod_cast hle)
  have habs := abs_le.1 (abs_scaled (fsin2pi p)).le
  rw [show 1 * unitScale = 2 ^ 149 by decide] at hmag
  exact inRange_unit_iff.2 ⟨hy, by omega, by omega⟩

theorem waveAt_triangle (p : F32) : waveAt 1 p =
    if flt p 0x3E800000 then fmul 0x40800000 p
    else if flt p 0x3F400000 then fsub 0x40000000 (fmul 0x40800000 p)
    else fsub (fmul 0x40800000 p) 0x40800000 := rfl

theorem waveAt_square (p : F32) : waveAt 3 p = if flt p 0x3F000000 then f1 else 0xBF800000 := rfl

/-- A value times a whole number is in a range that the exact product is in. -/
theorem inRange_fmul_nat {c p lo hi : F32} (k : Nat) (hc : isFinite c = true) (hk : scaled c = k * unitScale)
    (hp : isFinite p = true) (hlo : isFinite lo = true) (hhi : isFinite hi = true) (hge : scaled lo ≤ k * scaled p)
    (hle : k * scaled p ≤ scaled hi) : inRange lo hi (fmul c p) = true := by
  have hunit := unitScale_cast_pos.le
  refine inRange_fmul hc hp hlo hhi ?_ ?_ <;> rw [hk, mul_right_comm]
  · exact mul_le_mul_of_nonneg_right hge hunit
  · exact mul_le_mul_of_nonneg_right hle hunit

/-- The rising quarter, the falling half and the last rising quarter of the triangle. -/
theorem inRange_triangle {p : F32} (hp : isPhase p = true) : inRange 0xBF800000 0x3F800000 (waveAt 1 p) = true := by
  obtain ⟨hfin, h0, h1, -⟩ := isPhase_iff.1 hp
  have hfirst := flt_iff hfin (y := 0x3E800000) (by decide)
  have hlast := flt_iff hfin (y := 0x3F400000) (by decide)
  have points : scaled 0x3E800000 = 2 ^ 147 ∧ scaled 0x3F400000 = 3 * 2 ^ 147 ∧ scaled f1 = 2 ^ 149 ∧
      scaled 0x40000000 = 2 ^ 150 ∧ scaled 0x40400000 = 3 * 2 ^ 149 ∧ scaled 0x40800000 = 2 ^ 151 ∧
      scaled 0xBF800000 = -2 ^ 149 ∧ scaled 0x3F800000 = 2 ^ 149 := by decide
  have four : scaled 0x40800000 = (4 : Nat) * unitScale := by decide
  rw [waveAt_triangle]
  split
  case isTrue h =>
    rw [hfirst] at h
    exact inRange_fmul_nat 4 (by decide) four hfin (by decide) (by decide) (by omega) (by omega)
  case isFalse h =>
    rw [hfirst] at h
    split
    case isTrue h' =>
      rw [hlast] at h'
      have hprod := inRange_fmul_nat (lo := f1) (hi := 0x40400000) 4 (by decide) four hfin (by decide) (by decide)
        (by omega) (by omega)
      obtain ⟨hprodFin, hlo, hhi⟩ := (inRange_iff (by decide) (by decide)).1 hprod
      exact inRange_fsub (by decide) hprodFin (by decide) (by decide) (by omega) (by omega)
    case isFalse h' =>
      rw [hlast] at h'
      have hprod := inRange_fmul_nat (lo := 0x40400000) (hi := 0x40800000) 4 (by decide) four hfin (by decide)
        (by decide) (by omega) (by omega)
      obtain ⟨hprodFin, hlo, hhi⟩ := (inRange_iff (by decide) (by decide)).1 hprod
      exact inRange_fsub hprodFin (by decide) (by decide) (by decide) (by omega) (by omega)

theorem inRange_saw {p : F32} (hp : isPhase p = true) : inRange 0xBF800000 0x3F800000 (waveAt 2 p) = true := by
  obtain ⟨hfin, h0, h1, -⟩ := isPhase_iff.1 hp
  have points : scaled f0 = 0 ∧ scaled f1 = 2 ^ 149 ∧ scaled 0x40000000 = 2 ^ 150 ∧
      scaled 0xBF800000 = -2 ^ 149 ∧ scaled 0x3F800000 = 2 ^ 149 := by decide
  have hprod := inRange_fmul_nat (c := 0x40000000) (lo := f0) (hi := 0x40000000) 2 (by decide) (by decide) hfin
    (by decide) (by decide) (by omega) (by omega)
  obtain ⟨hprodFin, hlo, hhi⟩ := (inRange_iff (by decide) (by decide)).1 hprod
  exact inRange_fsub hprodFin isFinite_f1 (by decide) (by decide) (by omega) (by omega)

theorem inRange_square (p : F32) : inRange 0xBF800000 0x3F800000 (waveAt 3 p) = true := by
  rw [waveAt_square]
  split <;> decide

theorem waveform_code_cases (k : BitVec 2) : k = 0 ∨ k = 1 ∨ k = 2 ∨ k = 3 := by revert k; decide

/-- The model's waveforms are those of R452. -/
theorem waveAt_eq_waveform (k : BitVec 2) (p : F32) : waveAt k p = waveform k.toNat p := by
  rcases waveform_code_cases k with rfl | rfl | rfl | rfl <;> rfl

/-- Settles O38: waveform by waveform. -/
theorem waveformStaysInRange : Obligations.WaveformStaysInRange := by
  intro k p hp
  rcases waveform_code_cases k with rfl | rfl | rfl | rfl
  · exact inRange_fsin2pi hp
  · exact inRange_triangle hp
  · exact inRange_saw hp
  · exact inRange_square p

/-! ## The tick (41_oscillator.md R453, R460) -/

theorem waveAt_waveCode {w : Word} (hw : w.toNat ≤ 3) : waveAt (waveCode w) = waveform w.toNat := by
  have hcode : (waveCode w).toNat = w.toNat := by
    rw [waveCode, BitVec.toNat_setWidth]
    exact Nat.mod_eq_of_lt (by omega)
  funext p
  rw [waveAt_eq_waveform, hcode]

theorem oscTick_phase (cfg : Config.Params) (g : GlobalRegs) (o : OscUnit) : (oscTick cfg g o).phase =
    if (oscTick cfg g o).syncPrev = true ∧ o.syncPrev = false then f0
      else phaseStep g.dt o.phase (oscTick cfg g o).freq := by
  simp [oscTick]

theorem oscTick_out (cfg : Config.Params) (g : GlobalRegs) (o : OscUnit) : (oscTick cfg g o).out =
    fmul (harmwave (waveCode o.wave) (oscTick cfg g o).phase o.harmN.toNat o.harmStr) cfg.outMul := rfl

/-- The harmonics counted in the integers, as R453 writes them. -/
theorem harmonicSums_eq (k : BitVec 2) (p : F32) (n : Nat) : harmonicSums k p n =
    ((List.range n).map Nat.cast).foldl (fun acc (h : Int) =>
      let m := toF32 (h + 2)
      let x := fmul p m
      let w := fdiv f1 m
      (fadd acc.1 (fmul w (waveAt k (fsub x (toF32 (ffloor x))))), fadd acc.2 w)) (f0, f0) := by
  rw [List.foldl_map]
  rfl

/-- Settles O37: the unit is that of `oscTick`, whose waveform is R452's. -/
theorem oscFollowsPitchSyncAndHarmonics : Obligations.OscFollowsPitchSyncAndHarmonics := by
  intro imm s t ht
  have hosc : t.osc = oscTick s.cfg s.global s.osc := by
    rw [exec_tick_sameUnits ht]
    exact s.tick_osc
  rw [hosc]
  refine ⟨rfl, rfl, oscTick_phase s.cfg s.global s.osc, fun hwave => ?_⟩
  have hnone : s.osc.harmN = 0 ↔ s.osc.harmN.toNat = 0 := BitVec.toNat_inj.symm
  rw [← waveAt_waveCode hwave, oscTick_out, harmwave]
  simp only [hnone, harmonicSums_eq, bind_pure_comp, List.map_eq_map]
  rfl

end Sys2Proof.Machine
end

section
/-! Envelope levels (43_envelope.md R552, R554), and the phases and levels that every step keeps. -/

namespace Sys2Proof.Machine

/-! ## The level of an envelope (43_envelope.md R552) -/

theorem fle_of_not_fle {x y : F32} (hx : isNaN x = false) (hy : isNaN y = false) (h : ¬ fle x y = true) :
    fle y x = true := by
  simp only [fle_eq, hx, hy, Bool.not_false, Bool.true_and, decide_eq_true_eq] at h ⊢
  omega

theorem isLevel_iff {l : F32} : isLevel l = true ↔ fle f0 l = true ∧ fle l f1 = true := by
  constructor
  · intro h
    simp only [isLevel, inRange, Bool.and_eq_true] at h
    exact ⟨h.1.2, h.2⟩
  · exact fun ⟨hge, hle⟩ => inRange_of_fle isFinite_f0 isFinite_f1 hge hle

theorem isLevel_f0 : isLevel f0 = true := by decide

theorem isLevel_f1 : isLevel f1 = true := by decide

/-- Times that are positive and a sustain level in [0, 1]. -/
structure Adsr.Ok (p : Adsr) : Prop where
  attack : isPositive p.attack = true
  decay : isPositive p.decay = true
  release : isPositive p.release = true
  sustain : isLevel p.sustain = true

/-- The increment of a tick over a positive time is not negative; it is +infinity where the quotient overflows. -/
theorem increment_cases {dt a : F32} (hdt : flt f0 dt = true) (ha : isPositive a = true) :
    (isFinite (fdiv dt a) = true ∧ 0 ≤ scaled (fdiv dt a)) ∨ fdiv dt a = 0x7F800000 := by
  rw [isPositive, Bool.and_eq_true] at ha
  obtain ⟨hnan, hsign⟩ := fdiv_nonneg hdt ha.2 ha.1
  exact (nonneg_cases hnan hsign).imp_left fun hfin => ⟨hfin, scaled_nonneg_of hsign⟩

/-- A level that rises is not negative. -/
theorem fle_f0_rise {l dt a : F32} (hl : isLevel l = true) (hdt : flt f0 dt = true) (ha : isPositive a = true) :
    fle f0 (fadd l (fdiv dt a)) = true := by
  obtain ⟨hfin, hge, hle⟩ := (inRange_iff isFinite_f0 isFinite_f1).1 hl
  rcases increment_cases hdt ha with ⟨hinc, h0⟩ | hinf
  · exact le_fadd hfin hinc isFinite_f0 (by omega)
  · rw [hinf, fadd_inf hfin (by decide)]; decide

/-- A level that falls is at most 1.0. -/
theorem fle_fall_f1 {l dt a : F32} (hl : isLevel l = true) (hdt : flt f0 dt = true) (ha : isPositive a = true) :
    fle (fsub l (fdiv dt a)) f1 = true := by
  obtain ⟨hfin, hge, hle⟩ := (inRange_iff isFinite_f0 isFinite_f1).1 hl
  rcases increment_cases hdt ha with ⟨hinc, h0⟩ | hinf
  · exact fadd_le hfin (isFinite_fneg.trans hinc) isFinite_f1 (by rw [scaled_fneg]; omega)
  · rw [hinf, fsub, fadd_inf hfin (by decide)]; decide

theorem isNaN_of_fle {x y : F32} (h : fle x y = true) : isNaN x = false ∧ isNaN y = false := by
  simp only [fle_eq, Bool.and_eq_true, Bool.not_eq_true'] at h
  exact h.1

/-- A step of the level stops at 1.0 in Attack, at SUSTAIN in Decay and at 0.0 in Release. -/
theorem isLevel_envLevelStep {dt : F32} {p : Adsr} (hdt : flt f0 dt = true) (hp : p.Ok) (e : EnvState) {l : F32}
    (hl : isLevel l = true) : isLevel (envLevelStep dt p e l).2 = true := by
  cases e with
  | idle => exact isLevel_f0
  | attack =>
    have hge := fle_f0_rise hl hdt hp.attack
    simp only [envLevelStep]
    split
    · exact isLevel_f1
    · next h => exact isLevel_iff.2 ⟨hge, fle_of_not_fle isNaN_f1 (isNaN_of_fle hge).2 h⟩
  | decay =>
    have hle := fle_fall_f1 hl hdt hp.decay
    have hsustain := isLevel_iff.1 hp.sustain
    simp only [envLevelStep]
    split
    · exact hp.sustain
    · next h =>
      have hstop := fle_of_not_fle (isNaN_of_fle hle).1 (isNaN_of_fle hsustain.2).1 h
      exact isLevel_iff.2 ⟨fle_trans hsustain.1 hstop, hle⟩
  | sustain => exact hp.sustain
  | release =>
    have hle := fle_fall_f1 hl hdt hp.release
    simp only [envLevelStep]
    split
    · exact isLevel_f0
    · next h => exact isLevel_iff.2 ⟨fle_of_not_fle (isNaN_of_fle hle).1 isNaN_f0 h, hle⟩

/-- An edge keeps the level or, in PLUCK, sets it to 0.0. -/
theorem envEdges_level (e : EnvState) (l : F32) (on off : Bool) (variant : Word) :
    (envEdges e l on off variant).2 = l ∨ (envEdges e l on off variant).2 = f0 := by
  unfold envEdges
  cases on with
  | false => left; simp only [Bool.false_eq_true, if_false]; split <;> rfl
  | true =>
    by_cases hpluck : variant = 1
    · right; simp only [hpluck, if_true]; split <;> rfl
    · left; simp only [hpluck, if_true, if_false]; split_ifs <;> rfl

theorem isLevel_envStep {dt : F32} {p : Adsr} (hdt : flt f0 dt = true) (hp : p.Ok) (e : EnvState) {l : F32}
    (hl : isLevel l = true) (on off : Bool) : isLevel (envStep dt p e l on off).2 = true := by
  refine isLevel_envLevelStep hdt hp _ ?_
  rcases envEdges_level e l on off p.variant with h | h <;> rw [h]
  · exact hl
  · exact isLevel_f0

/-! ## Voices -/

/-- What holds of every voice at reset and is kept by a note-on, a gate-off and a tick holds of every voice after any
elementary change. -/
theorem Effect.voices {Q : Voice → Prop} {s u : State} (he : Effect s u) (hreset : Q (voiceReset s.cfg))
    (hstart : ∀ v f, Q v → Q (v.startedAt s.vpool f)) (hgate : ∀ v, Q v → Q v.gateOff)
    (htick : ∀ v, Q v → Q (v.ticked s.cfg s.global.dt s.vpool)) (h : ∀ v ∈ s.vpool.voices, Q v) :
    ∀ v ∈ u.vpool.voices, Q v := by
  have hpool : ∀ v ∈ (vpoolReset s.cfg).voices, Q v := fun v hv => List.eq_of_mem_replicate hv ▸ hreset
  cases he with
  | tick =>
    rw [State.tick_vpool, vpoolTick_voices]
    exact List.forall_mem_map.2 fun v hv => htick v (h v hv)
  | store r d =>
    cases r with
    | vpool r => cases r <;> exact h
    | _ => exact h
  | resetCore => exact hpool
  | resetUnit n =>
    unfold State.resetUnit
    split
    case h_4 => exact hpool
    all_goals exact h
  | allocate f =>
    rcases s.allocate_cases f with ⟨k, v, hv, -, -, hs⟩ | ⟨-, hs⟩ <;> rw [hs]
    · intro w hw
      rcases List.mem_or_eq_of_mem_set hw with hw | rfl
      · exact h w hw
      · exact hstart v f (h v (List.mem_of_getElem? hv))
    · exact h
  | gateOff slot => exact forall_mem_modify hgate h slot
  | gatesOff => exact List.forall_mem_map.2 fun v hv => hgate v (h v hv)
  | _ => exact h

theorem Voice.gateOff_phase (v : Voice) : v.gateOff.phase = v.phase := by
  unfold Voice.gateOff; split <;> rfl

theorem Voice.gateOff_envLevel (v : Voice) : v.gateOff.envLevel = v.envLevel := by
  unfold Voice.gateOff; split <;> rfl

theorem Voice.ageOut_phase (cfg : Config.Params) (v : Voice) : (v.ageOut cfg).phase = v.phase := by
  unfold Voice.ageOut; split <;> rfl

/-- A voice that ages out is silent. -/
theorem Voice.ageOut_envLevel (cfg : Config.Params) (v : Voice) :
    (v.ageOut cfg).envLevel = v.envLevel ∨ (v.ageOut cfg).envLevel = f0 := by
  unfold Voice.ageOut
  split
  · exact .inr rfl
  · exact .inl rfl

/-- Every phase of a stack takes a phase step. -/
theorem forall_isPhase_ticked {v : Voice} (hv : ∀ p ∈ v.phase, isPhase p = true) (cfg : Config.Params) (dt : F32)
    (pool : VoicePool) : ∀ p ∈ (v.ticked cfg dt pool).phase, isPhase p = true := by
  unfold Voice.ticked
  split
  · rw [Voice.ageOut_phase]
    refine List.forall_mem_map.2 fun x hx => isPhase_phaseStep (hv x.1 ?_) _ _
    exact List.fst_mem_of_mem_zipIdx hx
  · exact hv

theorem isLevel_ticked {v : Voice} (hv : isLevel v.envLevel = true) (cfg : Config.Params) {dt : F32} {pool : VoicePool}
    (hdt : flt f0 dt = true) (hp : pool.adsr.Ok) : isLevel (v.ticked cfg dt pool).envLevel = true := by
  unfold Voice.ticked
  split
  · rcases (v.advance cfg dt pool).ageOut_envLevel cfg with h | h <;> rw [h]
    · exact isLevel_envStep hdt hp _ hv _ _
    · exact isLevel_f0
  · exact hv

theorem Voice.startedAt_envLevel (pool : VoicePool) (f : F32) (v : Voice) :
    (v.startedAt pool f).envLevel = if pool.variant = 1 then f0 else v.envLevel := rfl

theorem isLevel_startedAt {v : Voice} (hv : isLevel v.envLevel = true) (pool : VoicePool) (f : F32) :
    isLevel (v.startedAt pool f).envLevel = true := by
  rw [Voice.startedAt_envLevel]
  split
  · exact isLevel_f0
  · exact hv

/-! ## Phases -/

theorem State.phasesOk_iff {s : State} : s.phasesOk = true ↔ isPhase s.osc.phase = true ∧ isPhase s.wt.phase = true ∧
    ∀ v ∈ s.vpool.voices, ∀ p ∈ v.phase, isPhase p = true := by
  simp only [State.phasesOk, Bool.and_eq_true, List.all_eq_true, and_assoc]

theorem Effect.oscPhase {s u : State} (he : Effect s u) (h : isPhase s.osc.phase = true) : isPhase u.osc.phase = true := by
  cases he with
  | tick =>
    rw [State.tick_osc, oscTick_phase]
    split
    · exact isPhase_f0
    · exact isPhase_phaseStep h _ _
  | store r d =>
    cases r with
    | osc r => cases r <;> exact h
    | _ => exact h
  | resetCore => exact isPhase_f0
  | resetUnit n =>
    unfold State.resetUnit
    split
    case h_1 => exact isPhase_f0
    all_goals exact h
  | allocate f => rwa [State.allocate_osc]
  | _ => exact h

theorem Effect.wtPhase {s u : State} (he : Effect s u) (h : isPhase s.wt.phase = true) : isPhase u.wt.phase = true := by
  cases he with
  | tick =>
    rw [State.tick_wt]
    exact isPhase_phaseStep h _ _
  | store r d =>
    cases r with
    | wt r => cases r <;> exact h
    | _ => exact h
  | resetCore => exact isPhase_f0
  | resetUnit n => rcases s.resetUnit_wt_cases n with hw | hw <;> rw [hw]; exacts [h, isPhase_f0]
  | allocate f => rwa [State.allocate_wt]
  | _ => exact h

theorem Effect.phasesOk {s u : State} (he : Effect s u) (h : s.phasesOk = true) : u.phasesOk = true := by
  rw [State.phasesOk_iff] at h ⊢
  obtain ⟨hosc, hwt, hvoices⟩ := h
  refine ⟨he.oscPhase hosc, he.wtPhase hwt, he.voices ?_ (fun v f hv => hv) (fun v hv => ?_)
    (fun v hv => forall_isPhase_ticked hv _ _ _) hvoices⟩
  · exact fun p hp => List.eq_of_mem_replicate hp ▸ isPhase_f0
  · rwa [Voice.gateOff_phase]

/-! ## Levels -/

/-- What keeps the levels in range: DT is above 0.0, and both envelopes have positive times and a sustain level in [0, 1].
A reset gives the envelopes positive times whatever T_EPS is, where it may leave the range of a register. -/
structure State.EnvelopesOk (s : State) : Prop where
  dt : flt f0 s.global.dt = true
  env : s.env.adsr.Ok
  vpool : s.vpool.adsr.Ok

theorem flt_f0_of_fle {x y : F32} (hx : flt f0 x = true) (h : fle x y = true) : flt f0 y = true := by
  simp only [flt_eq, fle_eq, Bool.and_eq_true, Bool.not_eq_true', decide_eq_true_eq] at *
  exact ⟨⟨hx.1.1, h.1.2⟩, hx.2.trans_le h.2⟩

theorem isPositive_of_inRange {lo hi x : F32} (hlo : isPositive lo = true) (h : inRange lo hi x = true) :
    isPositive x = true := by
  simp only [isPositive, inRange, Bool.and_eq_true] at *
  exact ⟨h.1.1, flt_f0_of_fle hlo.2 h.1.2⟩

/-- A clamp to positive bounds is positive, in order or not. -/
theorem isPositive_fclamp {lo hi : F32} (hlo : isPositive lo = true) (hhi : isPositive hi = true) (x : F32) :
    isPositive (fclamp x lo hi) = true := by
  have hloFin := isFinite_of_isPositive hlo
  have hhiFin := isFinite_of_isPositive hhi
  unfold fclamp
  split
  · exact hlo
  · next hx =>
    have hx := Bool.eq_false_of_not_eq_true hx
    split
    · exact hlo
    · next hge =>
      split
      · exact hhi
      · next hle =>
        have hge := fle_of_not_flt (isNaN_of_finite hloFin) hx (Bool.eq_false_of_not_eq_true hge)
        have hle := fle_of_not_flt hx (isNaN_of_finite hhiFin) (Bool.eq_false_of_not_eq_true hle)
        exact isPositive_of_inRange hlo (inRange_of_fle hloFin hhiFin hge hle)

/-- 1.0 over a positive finite value is at least the smallest positive value. -/
theorem flt_f0_fdiv {b : F32} (hb : isPositive b = true) : flt f0 (fdiv f1 b) = true := by
  have hfin := isFinite_of_isPositive hb
  rw [isPositive, Bool.and_eq_true] at hb
  obtain ⟨hpos, hsign⟩ := scaled_pos_of_flt hfin hb.2
  have hnan := (fdiv_nonneg (a := f1) (by decide) hb.2 hfin).1
  have hkey := fdiv_key isFinite_f1 hfin hpos.ne'
  have hmag : (scaled b).natAbs ≤ scaledMag 0x7F7FFFFF := by
    rw [natAbs_scaled, ← scaledMag_eq]
    exact (scaledMag_le_iff hfin (by decide)).2 (Nat.le_of_lt_succ (mag_lt_of_finite hfin))
  have hmax : (scaledMag 0x7F7FFFFF : Int) ≤ scaled f1 * unitScale := by decide
  have hge := le_rounded (n := scaled f1 * unitScale) (c := 0x00000001) (Int.natAbs_pos.2 hpos.ne') (by decide)
    (by rw [show scaled 0x00000001 = 1 by decide]; omega)
  rw [Int.sign_eq_one_of_pos hpos, Int.mul_one] at hkey
  rw [← hkey, show orderKey 0x00000001 = 1 by decide] at hge
  rw [flt_eq, isNaN_f0, hnan, orderKey_f0]
  exact decide_eq_true (by omega)

theorem State.inRange_of_registersOk {s : State} (h : s.registersOk) (r : Reg) {lo hi : F32}
    (hr : r.range s.cfg = .f32 lo hi) : inRange lo hi (r.value s) = true := by
  have hallows := h r
  rwa [hr] at hallows

theorem State.envelopesOk_of_registersOk {s : State} (hc : s.cfg.Legal) (h : s.registersOk) (hdt : s.dtOk = true) :
    s.EnvelopesOk := by
  have hrange := State.inRange_of_registersOk h
  have time := fun (r : Reg) (hr : r.range s.cfg = .f32 s.cfg.tEps 0x461C4000) =>
    isPositive_of_inRange hc.tEps_pos (hrange r hr)
  have hrate := isPositive_of_inRange hc.srMin_pos (hrange (.global .sampleRate) rfl)
  rw [State.dtOk, decide_eq_true_eq] at hdt
  refine ⟨?_, ?_, ?_⟩
  · rw [hdt]
    exact flt_f0_fdiv hrate
  · exact ⟨time (.env .attack) rfl, time (.env .decay) rfl, time (.env .release) rfl, hrange (.env .sustain) rfl⟩
  · exact ⟨time (.vpool .attack) rfl, time (.vpool .decay) rfl, time (.vpool .release) rfl,
      hrange (.vpool .sustain) rfl⟩

/-- A write of SAMPLE_RATE keeps it positive, one of an envelope's times or of SUSTAIN keeps its bounds. -/
theorem Reg.store_envelopesOk {s : State} (hc : s.cfg.Legal) (h : s.EnvelopesOk) (r : Reg) (d : Word) :
    (r.store d s).EnvelopesOk := by
  obtain ⟨hdt, henv, hpool⟩ := h
  have htime := isPositive_fclamp hc.tEps_pos (hi := f10000) (by decide) d
  have hlevel : isLevel (legalF f0 f1 d) = true := inRange_fclamp isFinite_f0 isFinite_f1 (by decide) d
  cases r with
  | global r =>
    cases r with
    | sampleRate =>
      have hmax : isPositive s.cfg.srMax = true := by
        have hmin := hc.srMin_pos
        rw [isPositive, Bool.and_eq_true] at hmin ⊢
        exact ⟨hc.srMax_finite, flt_f0_of_fle hmin.2 (fle_of_inRange hc.srReset_range)⟩
      exact ⟨flt_f0_fdiv (isPositive_fclamp hc.srMin_pos hmax d), henv, hpool⟩
    | _ => exact ⟨hdt, henv, hpool⟩
  | env r =>
    cases r with
    | attack => exact ⟨hdt, { henv with attack := htime }, hpool⟩
    | decay => exact ⟨hdt, { henv with decay := htime }, hpool⟩
    | sustain => exact ⟨hdt, { henv with sustain := hlevel }, hpool⟩
    | release => exact ⟨hdt, { henv with release := htime }, hpool⟩
    | variant => exact ⟨hdt, { henv with }, hpool⟩
    | _ => exact ⟨hdt, henv, hpool⟩
  | vpool r =>
    cases r with
    | attack => exact ⟨hdt, henv, { hpool with attack := htime }⟩
    | decay => exact ⟨hdt, henv, { hpool with decay := htime }⟩
    | sustain => exact ⟨hdt, henv, { hpool with sustain := hlevel }⟩
    | release => exact ⟨hdt, henv, { hpool with release := htime }⟩
    | variant => exact ⟨hdt, henv, { hpool with }⟩
    | _ => exact ⟨hdt, henv, hpool⟩
  | _ => exact ⟨hdt, henv, hpool⟩

theorem envReset_adsr_ok : envReset.adsr.Ok := by constructor <;> decide

theorem vpoolReset_adsr_ok (cfg : Config.Params) : (vpoolReset cfg).adsr.Ok := envReset_adsr_ok

theorem Effect.envelopesOk {s u : State} (he : Effect s u) (hc : s.cfg.Legal) (h : s.EnvelopesOk) : u.EnvelopesOk := by
  obtain ⟨hdt, henv, hpool⟩ := h
  cases he with
  | tick => exact ⟨s.tick_dt ▸ hdt, s.tick_env ▸ henv, s.tick_vpool ▸ hpool⟩
  | store r d => exact Reg.store_envelopesOk hc ⟨hdt, henv, hpool⟩ r d
  | resetCore =>
    exact ⟨flt_f0_fdiv (isPositive_of_inRange hc.srMin_pos hc.srReset_range), envReset_adsr_ok, vpoolReset_adsr_ok _⟩
  | resetUnit n =>
    unfold State.resetUnit
    split
    case h_3 => exact ⟨hdt, envReset_adsr_ok, hpool⟩
    case h_4 => exact ⟨hdt, henv, vpoolReset_adsr_ok _⟩
    all_goals exact ⟨hdt, henv, hpool⟩
  | allocate f => rcases s.allocate_cases f with ⟨k, v, -, -, -, hs⟩ | ⟨-, hs⟩ <;> rw [hs] <;> exact ⟨hdt, henv, hpool⟩
  | _ => exact ⟨hdt, henv, hpool⟩

theorem Effect.envLevel {s u : State} (he : Effect s u) (hok : s.EnvelopesOk) (h : isLevel s.env.level = true) :
    isLevel u.env.level = true := by
  cases he with
  | tick =>
    rw [State.tick_env]
    exact isLevel_envStep hok.dt hok.env _ h _ _
  | store r d =>
    cases r with
    | env r => cases r <;> exact h
    | _ => exact h
  | resetCore => exact isLevel_f0
  | resetUnit n =>
    unfold State.resetUnit
    split
    case h_3 => exact isLevel_f0
    all_goals exact h
  | allocate f => rwa [State.allocate_env]
  | _ => exact h

theorem State.levelsOk_iff {s : State} :
    s.levelsOk = true ↔ isLevel s.env.level = true ∧ ∀ v ∈ s.vpool.voices, isLevel v.envLevel = true := by
  simp only [State.levelsOk, Bool.and_eq_true, List.all_eq_true]

theorem Effect.levelsOk {s u : State} (he : Effect s u) (hok : s.EnvelopesOk) (h : s.levelsOk = true) :
    u.levelsOk = true := by
  rw [State.levelsOk_iff] at h ⊢
  refine ⟨he.envLevel hok h.1, he.voices isLevel_f0 (fun v f hv => isLevel_startedAt hv _ f) (fun v hv => ?_)
    (fun v hv => isLevel_ticked hv _ hok.dt hok.vpool) h.2⟩
  rwa [Voice.gateOff_envLevel]

/-! ## Every step -/

/-- Settles O59: both invariants are kept by every elementary change, the levels with what keeps them in range. -/
theorem stepKeepsPhasesAndLevels : Obligations.StepKeepsPhasesAndLevels := by
  intro s t h
  refine ⟨step_keeps (fun hp hs => ?_) Effect.phasesOk h, fun hlegal hregs hdt hlevels => ?_⟩
  · rw [hp]; exact hs
  · have hc := Config.Params.legal_facts hlegal
    refine (step_keeps_legal (P := fun x => x.EnvelopesOk ∧ x.levelsOk = true) (fun hp hs => ?_)
      (fun he hc hx => ⟨he.envelopesOk hc hx.1, he.levelsOk hx.1 hx.2⟩) h hc
      ⟨State.envelopesOk_of_registersOk hc hregs hdt, hlevels⟩).2
    rw [hp]
    exact ⟨⟨hs.1.dt, hs.1.env, hs.1.vpool⟩, hs.2⟩

end Sys2Proof.Machine
end

section
/-! The bank built by BANK_COMMIT, element by element (42_wavetable.md R500, R501, R522). -/

namespace Sys2Proof.Machine

/-! ## The level-0 samples -/

/-- Sample j of M resampled and normalised samples, by itself (42_wavetable.md R522); `level0` is the list of them. -/
def level0Elem (n M : Nat) (stage : Nat → F32) (j : Nat) : F32 :=
  let peak := (List.range M).foldl (fun p j => fmax p (fabs (resampleElem n M stage j))) 0
  if flt 0 peak = true then fdiv (resampleElem n M stage j) peak else resampleElem n M stage j

theorem level0_eq_map (n M : Nat) (stage : Nat → F32) :
    level0 n M stage = (List.range M).map (level0Elem n M stage) := by
  simp only [level0, normalise, peakOf, List.foldl_map]
  split
  · next hpeak =>
    rw [List.map_map]
    exact List.map_congr_left fun j _ => (if_pos hpeak).symm
  · next hpeak => exact List.map_congr_left fun j _ => (if_neg hpeak).symm

theorem level0_getD {n M : Nat} (stage : Nat → F32) {j : Nat} (hj : j < M) :
    (level0 n M stage).toArray.getD j 0 = level0Elem n M stage j := by
  simp [level0_eq_map, hj]

/-! ## The mip levels -/

/-- The box filter reads its table inside the table only. -/
theorem boxFilter_congr {n : Nat} {y z : Nat → F32} (h : ∀ j < n, y j = z j) (k : Nat) {i : Nat} (hi : i < n) :
    boxFilter n y k i = boxFilter n z k i := by
  have hin (x : Int) : y (x % n).toNat = z (x % n).toNat := by
    have hlt : x % n < n := Int.emod_lt_of_pos x (by omega)
    exact h _ (by omega)
  unfold boxFilter
  simp only [h i hi, hin]

/-- Element (f, k, i) of the built slot is a mip of the resampled and normalised samples. -/
theorem buildSpare_read {cfg : Config.Params} (u : WtUnit) (m : Memory) {f k i : Nat} (hf : f < cfg.numFrames)
    (hk : k < cfg.mipLevels) (hi : i < cfg.tableSize) :
    (buildSpare cfg u m).read cfg .bankmem (bankIndex cfg u.spare f k i) =
      boxFilter cfg.tableSize
        (fun j => level0Elem u.count (cfg.tableSize * cfg.numFrames) (fun a => m.read cfg .wtStage a)
          (f * cfg.tableSize + j)) k i := by
  have hget := slotImage_get cfg
    (level0 u.count (cfg.tableSize * cfg.numFrames) fun a => m.read cfg .wtStage a).toArray hf hk hi
  obtain ⟨hin, hval⟩ := List.getElem?_eq_some_iff.1 hget
  have hframe : ∀ j < cfg.tableSize, f * cfg.tableSize + j < cfg.tableSize * cfg.numFrames := fun j hj =>
    Nat.mul_comm cfg.numFrames cfg.tableSize ▸ row_add_lt hf hj
  rw [bankIndex_eq, buildSpare, Memory.read_writeBlock hin, hval, mipElem_eq_boxFilter]
  exact boxFilter_congr (fun j hj => level0_getD _ (hframe j hj)) k hi

/-- Nothing outside the spare slot changes. -/
theorem buildSpare_read_out (cfg : Config.Params) (u : WtUnit) (m : Memory) {sp : Space} {a : Nat}
    (h : ¬ (sp = .bankmem ∧ u.spare * slotSize cfg ≤ a ∧ a < (u.spare + 1) * slotSize cfg)) :
    (buildSpare cfg u m).read cfg sp a = m.read cfg sp a := by
  refine Memory.read_writeBlock_out ?_
  rw [slotImage_length, ← Nat.succ_mul]
  by_cases hsp : sp = .bankmem
  · refine .inr (Nat.lt_or_ge a _ |>.imp_right fun hge => Nat.le_of_not_lt fun hlt => h ⟨hsp, hge, hlt⟩)
  · exact .inl hsp

end Sys2Proof.Machine
end

section
/-! Bank replacement and source loads, command by command (42_wavetable.md R520 to R524; 45_granular.md R660 to R663). -/

namespace Sys2Proof.Machine

variable {s : State}

/-! ## A command that stores no sample, and one that stores one -/

/-- A command that moves past its words with the units of u and the memories as they were. -/
theorem becomes_of_exec_retire {i : Instr} {u : State} {n : Nat} (h : exec i s = .next (u.retire n))
    (hports : s.sharesPorts u) (hcfg : u.cfg = s.cfg) (hmem : u.mem = s.mem) :
    ∃ t, exec i s = .next t ∧ s.memoryKept t ∧ s.becomes n [] u t :=
  ⟨_, h, State.memoryKept_retire n hcfg hmem, State.becomes_retire n hports⟩

/-- What is read after one element has been stored and the port has moved past the command. -/
theorem State.read_retire_of_write (hm : s.memoryOk = true) {u : State} (n : Nat) (sp : Space) (a : Nat) (v : F32)
    (hcfg : u.cfg = s.cfg) (hmem : u.mem = s.mem.write s.cfg sp a v) :
    (u.retire n).read sp a = v ∧ ∀ sq b, ¬ (sq = sp ∧ b = a) → (u.retire n).read sq b = s.read sq b := by
  unfold State.read
  rw [State.retire_cfg, State.retire_mem, hcfg, hmem]
  exact ⟨Memory.read_write_same hm sp a v, fun sq b h => Memory.read_write_ne s.cfg s.mem sp a v h⟩

/-! ## BANK_BEGIN and SRC_BEGIN (42_wavetable.md R520; 45_granular.md R660) -/

/-- An event that is set or not leaves the ports, the parameters and the memories alone. -/
theorem State.withEvent_if_frame (p : Prop) [Decidable p] (e : Event) (s : State) :
    s.sharesPorts (if p then s.withEvent e else s) ∧ (if p then s.withEvent e else s).cfg = s.cfg ∧
      (if p then s.withEvent e else s).mem = s.mem := by
  split <;> exact ⟨s.sharesPorts_self, rfl, rfl⟩

/-- WT with an open load discarded. -/
def WtUnit.discardLoad (u : WtUnit) : WtUnit := if u.loading = true then u.closeLoad else u

theorem WtUnit.discardLoad_openLoad (u : WtUnit) (b : Nat) :
    u.discardLoad.openLoad b =
      { u with loading := true, target := b, count := 0, ready := (u.discardLoad.openLoad b).ready } := by
  unfold WtUnit.discardLoad
  split <;> rfl

theorem getElem?_set_eq_map {α : Type} (l : List α) (i k : Nat) (v : α) :
    (l.set i v)[k]? = l[k]?.map fun x => if k = i then v else x := by
  rw [List.getElem?_set']
  by_cases h : i = k
  · rw [if_pos h, funext fun x => if_pos h.symm]; rfl
  · simp [h, Ne.symm h]

theorem WtUnit.discardLoad_ready (u : WtUnit) (k : Nat) :
    u.discardLoad.ready[k]? = u.ready[k]?.map fun r => if u.loading = true ∧ k = u.target then true else r := by
  unfold WtUnit.discardLoad
  split
  · next hopen => simp only [WtUnit.closeLoad, getElem?_set_eq_map, hopen, true_and]
  · next hclosed => simp [hclosed]

/-- The ready bits after BANK_BEGIN: the discarded load's bank is made ready before the new one is taken. -/
theorem WtUnit.discardLoad_openLoad_ready (u : WtUnit) (b k : Nat) :
    (u.discardLoad.openLoad b).ready[k]? = u.ready[k]?.map fun r =>
      if k = b then false else if u.loading = true ∧ k = u.target then true else r := by
  simp only [WtUnit.openLoad, getElem?_set_eq_map, WtUnit.discardLoad_ready, Option.map_map, Function.comp_def]

theorem exec_bankBegin {bank : BitVec 8} (hb : bank.toNat < s.cfg.numBanks) :
    exec (.bankBegin bank) s = .next (State.retire 1
      { (if s.wt.loading = true then s.withEvent .loadFail else s) with wt := s.wt.discardLoad.openLoad bank.toNat }) := by
  rw [exec, execBankBegin, if_pos hb, WtUnit.discardLoad]
  by_cases hopen : s.wt.loading = true
  · simp only [if_pos hopen]; rfl
  · simp only [if_neg hopen]

theorem exec_srcBegin (rate : F32) (s : State) :
    exec (.srcBegin rate) s = .next (State.retire 2
      { (if s.gran.srcLoading = true then s.withEvent .loadFail else s) with
        gran := { s.gran with
          srcLoading := true, srcCount := 0, srcStageRate := fclamp rate 0x3F800000 0x49742400 } }) := by
  rw [exec, execSrcBegin]
  by_cases hopen : s.gran.srcLoading = true
  · simp only [if_pos hopen]; rfl
  · simp only [if_neg hopen]; rfl

/-- Settles O28: an open load is discarded, then the new one is opened. -/
theorem beginCommandsOpenALoad : Obligations.BeginCommandsOpenALoad := by
  refine fun s => ⟨fun bank hb => ?_, fun rate => ?_⟩
  · obtain ⟨hports, hcfg, hmem⟩ := s.withEvent_if_frame (s.wt.loading = true) .loadFail
    refine ⟨_, exec_bankBegin hb, fun k => ?_, ?_, State.memoryKept_retire 1 hcfg hmem⟩
    · rw [State.retire_wt]
      exact s.wt.discardLoad_openLoad_ready bank.toNat k
    · rw [State.retire_wt, ← WtUnit.discardLoad_openLoad]
      exact State.becomes_retire 1 hports
  · obtain ⟨hports, hcfg, hmem⟩ := s.withEvent_if_frame (s.gran.srcLoading = true) .loadFail
    exact becomes_of_exec_retire (exec_srcBegin rate s) hports hcfg hmem

/-! ## BANK_DATA and SRC_DATA (42_wavetable.md R521; 45_granular.md R661) -/

theorem exec_bankData_room (hopen : s.wt.loading = true) (hroom : s.wt.count < s.cfg.stageMax) (x : F32) :
    exec (.bankData x) s = .next (State.retire 2
      { s.write .wtStage s.wt.count (finiteOrZero x) with wt := { s.wt with count := s.wt.count + 1 } }) := by
  rw [exec, execBankData, if_pos hopen, if_neg (Nat.not_le_of_lt hroom)]; rfl

theorem exec_bankData_full (hopen : s.wt.loading = true) (hfull : s.cfg.stageMax ≤ s.wt.count) (x : F32) :
    exec (.bankData x) s = .next ((s.withEvent .loadTrunc).retire 2) := by
  rw [exec, execBankData, if_pos hopen, if_pos hfull, State.raise_eq_withEvent]

theorem exec_srcData_room (hopen : s.gran.srcLoading = true) (hroom : s.gran.srcCount < s.cfg.srcMax) (x : F32) :
    exec (.srcData x) s = .next (State.retire 2
      { s.write .gsrc (srcIndex s.cfg s.gran.staging s.gran.srcCount) (finiteOrZero x) with
        gran := { s.gran with srcCount := s.gran.srcCount + 1 } }) := by
  rw [exec, execSrcData, if_pos hopen, if_neg (Nat.not_le_of_lt hroom)]; rfl

theorem exec_srcData_full (hopen : s.gran.srcLoading = true) (hfull : s.cfg.srcMax ≤ s.gran.srcCount) (x : F32) :
    exec (.srcData x) s = .next ((s.withEvent .loadTrunc).retire 2) := by
  rw [exec, execSrcData, if_pos hopen, if_pos hfull, State.raise_eq_withEvent]

/-- The staging buffer is the one that is not current (45_granular.md R650). -/
theorem GranUnit.staging_val (u : GranUnit) : u.staging.val = 1 - u.srcCur.val := by
  unfold GranUnit.staging
  split <;> omega

/-- Settles O29: with room the sample is stored at the count, with the memory full it is dropped. -/
theorem dataCommandsAppendASample : Obligations.DataCommandsAppendASample := by
  refine fun x s hm => ⟨fun hopen => ⟨fun hroom => ?_, fun hfull => ?_⟩, fun hopen => ⟨fun hroom => ?_, fun hfull => ?_⟩⟩
  · have heffect := Effect.stageBank x hopen hroom
    obtain ⟨hsame, hframe⟩ :=
      State.read_retire_of_write hm 2 .wtStage s.wt.count (finiteOrZero x) heffect.cfg rfl
    refine ⟨_, exec_bankData_room hopen hroom x, hsame, hframe, ?_⟩
    rw [State.retire_mem]
    exact State.becomes_retire 2 heffect.sharesPorts
  · exact ⟨_, exec_bankData_full hopen hfull x, State.becomes_retire 2 s.sharesPorts_self,
      State.memoryKept_retire 2 rfl rfl⟩
  · have heffect := Effect.stageSource x hroom
    obtain ⟨hsame, hframe⟩ := State.read_retire_of_write hm 2 .gsrc
      (srcIndex s.cfg s.gran.staging s.gran.srcCount) (finiteOrZero x) heffect.cfg rfl
    rw [← GranUnit.staging_val]
    refine ⟨_, exec_srcData_room hopen hroom x, hsame, hframe, ?_⟩
    rw [State.retire_mem]
    exact State.becomes_retire 2 heffect.sharesPorts
  · exact ⟨_, exec_srcData_full hopen hfull x, State.becomes_retire 2 s.sharesPorts_self,
      State.memoryKept_retire 2 rfl rfl⟩

/-! ## Loads that are published (42_wavetable.md R522, R523; 45_granular.md R662) -/

theorem exec_bankCommit_publishes (hopen : s.wt.loading = true) (hcount : s.wt.count ≠ 0) :
    exec .bankCommit s =
      .next (State.retire 1 { s with mem := buildSpare s.cfg s.wt s.mem, wt := s.wt.publish.closeLoad }) := by
  rw [exec, execBankCommit, if_pos hopen, if_neg hcount]

theorem exec_srcCommit_publishes (hopen : s.gran.srcLoading = true) (hcount : 2 ≤ s.gran.srcCount) :
    exec .srcCommit s = .next (State.retire 1 { s with gran := { s.gran.publish with srcLoading := false } }) := by
  rw [exec, execSrcCommit, if_pos hopen, if_neg (Nat.not_lt_of_le hcount)]

/-- Settles O30: the built slot is read element by element; both publications keep the rest. -/
theorem commitCommandsPublishTheLoad : Obligations.CommitCommandsPublishTheLoad := by
  refine fun s => ⟨fun hopen hpos => ?_, fun hopen hcount => ?_⟩
  · have hcount := Nat.ne_of_gt hpos
    refine ⟨_, exec_bankCommit_publishes hopen hcount, fun f k i hf hk hi => ?_, fun sp a hout => ?_, ?_⟩
    · rw [State.read, State.retire_cfg, State.retire_mem]
      exact buildSpare_read s.wt s.mem hf hk hi
    · rw [State.read, State.retire_cfg, State.retire_mem]
      exact buildSpare_read_out s.cfg s.wt s.mem hout
    · rw [State.retire_mem]
      exact State.becomes_retire 1 (Effect.publishBank hopen hcount).sharesPorts
  · refine ⟨_, exec_srcCommit_publishes hopen hcount, State.memoryKept_retire 1 rfl rfl, ?_, fun g => ?_, ?_⟩
    · rw [State.retire_gran]
      exact s.gran.staging_val
    · rw [State.retire_gran]
      exact List.getElem?_map
    · rw [State.retire_gran]
      exact State.becomes_retire 1 (Effect.publishSource hcount).sharesPorts

/-! ## Loads that are discarded (42_wavetable.md R523, R524; 45_granular.md R662, R663) -/

theorem exec_bank_discards {i : Instr} (hopen : s.wt.loading = true)
    (hi : i = .bankAbort ∨ i = .bankCommit ∧ s.wt.count = 0) :
    exec i s = .next (State.retire 1 { s.withEvent .loadFail with wt := s.wt.closeLoad }) := by
  rcases hi with rfl | ⟨rfl, hcount⟩
  · rw [exec, execBankAbort, if_pos hopen]; rfl
  · rw [exec, execBankCommit, if_pos hopen, if_pos hcount]; rfl

theorem exec_src_discards {i : Instr} (hopen : s.gran.srcLoading = true)
    (hi : i = .srcAbort ∨ i = .srcCommit ∧ s.gran.srcCount < 2) :
    exec i s = .next (State.retire 1 { s.withEvent .loadFail with gran := { s.gran with srcLoading := false } }) := by
  rcases hi with rfl | ⟨rfl, hcount⟩
  · rw [exec, execSrcAbort, if_pos hopen]; rfl
  · rw [exec, execSrcCommit, if_pos hopen, if_pos hcount]; rfl

/-- Settles O31: both discards close the load and set LOAD_FAIL. -/
theorem discardedLoadsKeepWhatIsPlayed : Obligations.DiscardedLoadsKeepWhatIsPlayed :=
  fun s => ⟨fun hopen _ hi => becomes_of_exec_retire (exec_bank_discards hopen hi) s.sharesPorts_self rfl rfl,
    fun hopen _ hi => becomes_of_exec_retire (exec_src_discards hopen hi) s.sharesPorts_self rfl rfl⟩

end Sys2Proof.Machine
end

section
/-! The envelope's transitions and where its level stands still (43_envelope.md R551 to R554, R560). -/

namespace Sys2Proof.Machine

/-! ## Edges (43_envelope.md R551, R552) -/

section
variable {variant : Word} (dt : F32) (p : Adsr) (e : EnvState) (l : F32)

theorem envEdges_none : envEdges e l false false variant = (e, l) := by simp [envEdges]

theorem envEdges_on_pluck (h : variant = 1) : envEdges e l true false variant = (.attack, f0) := by
  simp [envEdges, h]

theorem envEdges_on_pad (h : variant ≠ 1) :
    envEdges e l true false variant = (if e = .idle ∨ e = .release then .attack else e, l) := by
  simp only [envEdges, if_true, if_neg h, Bool.false_eq_true, false_and, if_false]
  split <;> rfl

theorem envEdges_off : envEdges e l false true variant =
    (if e = .idle then .idle else .release, l) := by
  cases e <;> rfl

theorem envStep_no_edge : envStep dt p e l false false = envLevelStep dt p e l := by
  rw [envStep, envEdges_none]

/-- The state after the edges takes the step that it takes without edges. -/
theorem envStep_of_envEdges {e' : EnvState} {l' : F32} {on off : Bool}
    (h : envEdges e l on off p.variant = (e', l')) : envStep dt p e l on off = envStep dt p e' l' false false := by
  rw [envStep_no_edge, envStep, h]

/-! ## Where the level stands still (43_envelope.md R554) -/

/-- A level step ends in Idle with 0.0 only, and in Sustain with SUSTAIN only. -/
theorem envLevelStep_at_rest : ((envLevelStep dt p e l).1 = .idle → (envLevelStep dt p e l).2 = f0) ∧
    ((envLevelStep dt p e l).1 = .sustain → (envLevelStep dt p e l).2 = p.sustain) := by
  cases e with
  | idle => exact ⟨fun _ => rfl, nofun⟩
  | attack => simp only [envLevelStep]; split <;> exact ⟨nofun, nofun⟩
  | decay =>
    simp only [envLevelStep]
    split
    · exact ⟨nofun, fun _ => rfl⟩
    · exact ⟨nofun, nofun⟩
  | sustain => exact ⟨nofun, fun _ => rfl⟩
  | release =>
    simp only [envLevelStep]
    split
    · exact ⟨fun _ => rfl, nofun⟩
    · exact ⟨nofun, nofun⟩

end

/-- Settles O40: the bound of `isLevel_envStep`; the exact levels are those in which a level step ends. -/
theorem envelopeLevelStaysInRange : Obligations.EnvelopeLevelStaysInRange := by
  intro dt p e l on off hdt hattack hdecay hrelease hsustain hl
  rw [isPositive, Bool.and_eq_true] at hdt
  exact ⟨isLevel_envStep hdt.2 ⟨hattack, hdecay, hrelease, hsustain⟩ e hl on off, envLevelStep_at_rest dt p _ _⟩

/-- Settles O39: edge by edge, then state by state; a tick of the CORE gives ENV the tick of R560. -/
theorem envelopeFollowsItsTransitions : Obligations.EnvelopeFollowsItsTransitions := by
  refine ⟨fun dt p e l => ⟨fun hpluck => ?_, fun hpad => ?_, ?_, ?_, ?_, ?_, ?_, ?_⟩, fun imm s t ht => ?_⟩
  · exact envStep_of_envEdges dt p e l (envEdges_on_pluck e l hpluck)
  · exact envStep_of_envEdges dt p e l (envEdges_on_pad e l (by rw [hpad]; decide))
  · exact envStep_of_envEdges dt p e l (envEdges_off e l)
  · exact envStep_no_edge dt p .idle l
  · exact envStep_no_edge dt p .sustain l
  · exact envStep_no_edge dt p .attack l
  · exact envStep_no_edge dt p .decay l
  · exact envStep_no_edge dt p .release l
  · have henv : t.env = envTick s.cfg s.global s.env := by
      rw [exec_tick_sameUnits ht]
      exact s.tick_env
    rw [henv]
    exact ⟨rfl, rfl, rfl⟩

end Sys2Proof.Machine
end

section
/-! The note commands: a note-on starts the lowest free slot or is dropped, a chord is a run of note-ons, and a gate is
closed slot by slot (44_voice_pool.md R600 to R602, R620 to R624). -/

namespace Sys2Proof.Machine

variable {s : State}

/-! ## One note-on (44_voice_pool.md R601, R602) -/

/-- At most one slot is the lowest free one. -/
theorem State.allocate_of_lowest_free {k : Nat} {v : Voice} (hv : s.vpool.voices[k]? = some v) (hfree : v.active = false)
    (hlow : ∀ (j : Nat) (w : Voice), j < k → s.vpool.voices[j]? = some w → w.active = true) (f : F32) :
    s.allocate f = { s with vpool :=
      { s.vpool with voices := s.vpool.voices.set k (v.startedAt s.vpool f), lastSlot := BitVec.ofNat 32 k } } := by
  rcases s.allocate_cases f with ⟨k', v', hv', hfree', hlow', hs⟩ | ⟨hfull, -⟩
  · have hge : ¬ k < k' := fun hlt => Bool.false_ne_true (hfree.symm.trans (hlow' k v hlt hv))
    have hle : ¬ k' < k := fun hlt => Bool.false_ne_true (hfree'.symm.trans (hlow k' v' hlt hv'))
    obtain rfl : k' = k := by omega
    obtain rfl : v' = v := Option.some.inj (hv'.symm.trans hv)
    exact hs
  · exact absurd (hfull v (List.mem_of_getElem? hv)) (by simp [hfree])

theorem State.allocate_of_full (hfull : ∀ v ∈ s.vpool.voices, v.active = true) (f : F32) :
    s.allocate f = { s.withEvent .voiceDrop with vpool := { s.vpool with lastSlot := 0xFFFFFFFF } } := by
  rcases s.allocate_cases f with ⟨k, v, hv, hfree, -⟩ | ⟨-, hs⟩
  · exact absurd (hfull v (List.mem_of_getElem? hv)) (by simp [hfree])
  · exact hs

/-- NOTE_ON is one note-on at its frequency, NOTE_ON_MIDI one at its note's. -/
theorem noteOns_of_allocate {u : F32 → State} (hu : ∀ f, s.allocate f = u f) (f : F32) (note : BitVec 7) :
    (∃ t, exec (.noteOn f) s = .next t ∧ s.memoryKept t ∧ s.becomes 2 [] (u f) t) ∧
      ∃ t, exec (.noteOnMidi note) s = .next t ∧ s.memoryKept t ∧
        s.becomes 1 [] (u (noteHz s.cfg note.toNat)) t := by
  obtain rfl : u = s.allocate := funext fun f => (hu f).symm
  exact ⟨becomes_of_exec_retire rfl (Effect.allocate f).sharesPorts (s.allocate_cfg f) (s.allocate_mem f),
    becomes_of_exec_retire rfl (Effect.allocate _).sharesPorts (s.allocate_cfg _) (s.allocate_mem _)⟩

/-- Settles O24: a note-on takes the lowest free slot. -/
theorem noteOnStartsTheLowestFreeSlot : Obligations.NoteOnStartsTheLowestFreeSlot := by
  intro s f k v hv hfree hlow
  have hstart := State.allocate_of_lowest_free hv hfree hlow
  exact ⟨(noteOns_of_allocate hstart f 0).1, fun note => (noteOns_of_allocate hstart f note).2⟩

/-- Settles O25: with no free slot a note-on is dropped. -/
theorem noteOnWithAFullPoolIsDropped : Obligations.NoteOnWithAFullPoolIsDropped :=
  fun _ f note hfull => noteOns_of_allocate (State.allocate_of_full hfull) f note

/-! ## Gates (44_voice_pool.md R622, R623) -/

/-- A command that changes the slots of the pool only. -/
theorem becomes_of_exec_voices {i : Instr} {vs : List Voice} {n : Nat}
    (h : exec i s = .next (State.retire n { s with vpool := { s.vpool with voices := vs } })) :
    ∃ t, exec i s = .next t ∧ t.vpool.voices = vs ∧
      s.becomes n [] { s with vpool := { s.vpool with voices := t.vpool.voices } } t ∧ s.memoryKept t := by
  obtain ⟨t, ht, hmem, hbecomes⟩ := becomes_of_exec_retire h s.sharesPorts_self rfl rfl
  have hvoices : t.vpool.voices = vs := congrArg (fun u => u.vpool.voices) hbecomes.1
  exact ⟨t, ht, hvoices, hvoices ▸ hbecomes, hmem⟩

/-- Settles O26: NOTE_OFF closes the gate of one slot, ALL_OFF that of each. -/
theorem noteOffAndAllOffCloseGates : Obligations.NoteOffAndAllOffCloseGates := by
  refine fun slot s => ⟨fun hslot => ?_, ?_⟩
  · obtain ⟨t, ht, hvoices, hframe⟩ := becomes_of_exec_voices (i := .noteOff slot) (if_pos hslot)
    refine ⟨t, ht, fun k => ?_, hframe⟩
    rw [hvoices, List.getElem?_modify]
    by_cases hk : slot.toNat = k
    · simp [hk, Voice.gateOff]
    · simp [hk, Ne.symm hk]
  · obtain ⟨t, ht, hvoices, hframe⟩ := becomes_of_exec_voices (i := .allOff) (s := s) rfl
    refine ⟨t, ht, fun k => ?_, hframe⟩
    rw [hvoices, List.getElem?_map]
    rfl

/-! ## The free slots (44_voice_pool.md R600, R601) -/

theorem VoicePool.mem_freeSlots {u : VoicePool} {k : Nat} :
    k ∈ u.freeSlots ↔ ∃ v, u.voices[k]? = some v ∧ v.active = false := by
  simp only [freeSlots, List.mem_filter, List.mem_range, beq_iff_eq, Option.map_eq_some_iff]
  exact and_iff_right_of_imp fun ⟨_, hv, _⟩ => (List.getElem?_eq_some_iff.1 hv).1

theorem VoicePool.freeSlots_ascend (u : VoicePool) : u.freeSlots.Pairwise (· < ·) :=
  List.pairwise_lt_range.filter _

theorem VoicePool.lt_of_freeSlots_cons {u : VoicePool} {k : Nat} {ks : List Nat} (h : u.freeSlots = k :: ks) :
    ∀ i ∈ ks, k < i := fun _ => List.rel_of_pairwise_cons (h ▸ u.freeSlots_ascend)

theorem VoicePool.freeSlots_eq_nil {u : VoicePool} : u.freeSlots = [] ↔ ∀ v ∈ u.voices, v.active = true := by
  rw [List.eq_nil_iff_forall_not_mem]
  constructor
  · intro h v hv
    obtain ⟨k, hk⟩ := List.mem_iff_getElem?.1 hv
    exact Bool.eq_true_of_not_eq_false fun hfree => h k (mem_freeSlots.2 ⟨v, hk, hfree⟩)
  · intro h k hk
    obtain ⟨v, hv, hfree⟩ := mem_freeSlots.1 hk
    exact Bool.false_ne_true (hfree.symm.trans (h v (List.mem_of_getElem? hv)))

/-- The first free slot is free, and every slot below it is active. -/
theorem VoicePool.lowest_of_freeSlots_cons {u : VoicePool} {k : Nat} {ks : List Nat} (h : u.freeSlots = k :: ks) :
    ∃ v, u.voices[k]? = some v ∧ v.active = false ∧
      ∀ (j : Nat) (w : Voice), j < k → u.voices[j]? = some w → w.active = true := by
  obtain ⟨v, hv, hfree⟩ := mem_freeSlots.1 (h ▸ List.mem_cons_self : k ∈ u.freeSlots)
  refine ⟨v, hv, hfree, fun j w hj hw => ?_⟩
  by_contra hinactive
  have hmem : j ∈ k :: ks := h ▸ mem_freeSlots.2 ⟨w, hw, Bool.eq_false_of_not_eq_true hinactive⟩
  rcases List.mem_cons.1 hmem with rfl | hlater
  · exact lt_irrefl j hj
  · exact lt_asymm hj (lt_of_freeSlots_cons h j hlater)

/-- A slot that is started leaves the free slots. -/
theorem VoicePool.freeSlots_set {u : VoicePool} {k : Nat} {v : Voice} (hactive : v.active = true) (w : Word) :
    VoicePool.freeSlots { u with voices := u.voices.set k v, lastSlot := w } = u.freeSlots.filter (· ≠ k) := by
  simp only [freeSlots, List.length_set, List.filter_filter]
  refine List.filter_congr fun i _ => ?_
  rw [getElem?_set_eq_map, Option.map_map]
  by_cases hi : i = k
  · cases u.voices[i]? <;> simp [hi, hactive]
  · simp [hi, Function.comp_def]

theorem VoicePool.freeSlots_startFirst {u : VoicePool} {k : Nat} {ks : List Nat} (h : u.freeSlots = k :: ks) {v : Voice}
    (hactive : v.active = true) (w : Word) :
    VoicePool.freeSlots { u with voices := u.voices.set k v, lastSlot := w } = ks := by
  rw [freeSlots_set hactive, h, List.filter_cons_of_neg (by simp)]
  exact List.filter_eq_self.2 fun i hi => decide_eq_true (lt_of_freeSlots_cons h i hi).ne'

/-! ## A run of note-ons (44_voice_pool.md R624) -/

/-- The slots after the notes have been given to the free slots, in order. -/
def VoicePool.chordVoices (u : VoicePool) (hz : Nat → F32) (notes : List Nat) : List Voice :=
  u.voices.mapIdx fun k v =>
    match (u.freeSlots.zip notes).lookup k with
    | some n => v.startedAt u (hz n)
    | none => v

/-- LAST_SLOT after the notes: the last note's slot, or all ones where that note is dropped. -/
def VoicePool.chordLastSlot (u : VoicePool) (notes : List Nat) : Word :=
  if u.freeSlots.length < notes.length then 0xFFFFFFFF
  else match (u.freeSlots.take notes.length).getLast? with
    | some k => BitVec.ofNat 32 k
    | none => u.lastSlot

/-- STATUS after the notes. -/
def State.chordStatus (s : State) (notes : List Nat) : Word :=
  if s.vpool.freeSlots.length < notes.length then s.global.status ||| 1 else s.global.status

/-- The state after the notes. -/
def State.withChord (hz : Nat → F32) (notes : List Nat) (s : State) : State :=
  { s with
    global := { s.global with status := s.chordStatus notes }
    vpool := { s.vpool with voices := s.vpool.chordVoices hz notes, lastSlot := s.vpool.chordLastSlot notes } }

/-- The slots stay as they are where no slot is free or no note is left. -/
theorem VoicePool.chordVoices_of_zip_nil {u : VoicePool} {notes : List Nat} (h : u.freeSlots.zip notes = [])
    (hz : Nat → F32) : u.chordVoices hz notes = u.voices := by
  rw [chordVoices, h]
  exact List.ext_getElem? fun k => by simp

theorem State.withChord_nil (hz : Nat → F32) (s : State) : s.withChord hz [] = s := by
  rw [withChord, VoicePool.chordVoices_of_zip_nil List.zip_nil_right]
  simp [chordStatus, VoicePool.chordLastSlot]

/-- With no free slot the first note is dropped, and so are the others. -/
theorem State.withChord_allocate_full (hnone : s.vpool.freeSlots = []) (hz : Nat → F32) (n : Nat) (ns : List Nat) :
    (s.allocate (hz n)).withChord hz ns = s.withChord hz (n :: ns) := by
  have hkeep (w : Word) : VoicePool.freeSlots { s.vpool with lastSlot := w } = [] := hnone
  have hbit : BitVec.ofNat 32 (2 ^ Event.voiceDrop.code) = 1 := rfl
  rw [State.allocate_of_full (VoicePool.freeSlots_eq_nil.1 hnone), withChord, withChord,
    VoicePool.chordVoices_of_zip_nil (by rw [hkeep]; rfl), VoicePool.chordVoices_of_zip_nil (by rw [hnone]; rfl)]
  simp [chordStatus, VoicePool.chordLastSlot, hnone, hkeep, withEvent, hbit, BitVec.or_assoc]

/-- The first of the free slots takes the first note. -/
theorem VoicePool.chordVoices_startFirst {u : VoicePool} {k : Nat} {ks : List Nat} (hfree : u.freeSlots = k :: ks)
    {v : Voice} (hv : u.voices[k]? = some v) (w : Word) (hz : Nat → F32) (n : Nat) (ns : List Nat) :
    VoicePool.chordVoices { u with voices := u.voices.set k (v.startedAt u (hz n)), lastSlot := w } hz ns =
      u.chordVoices hz (n :: ns) := by
  rw [chordVoices, chordVoices, freeSlots_startFirst hfree rfl, hfree]
  refine List.ext_getElem? fun i => ?_
  rw [List.getElem?_mapIdx, List.getElem?_mapIdx, getElem?_set_eq_map, List.zip_cons_cons, List.lookup_cons]
  by_cases hi : i = k
  · subst hi
    have hnone : (ks.zip ns).lookup i = none := List.lookup_eq_none_iff.2 fun p hp =>
      bne_iff_ne.2 (lt_of_freeSlots_cons hfree p.1 (List.of_mem_zip hp).1).ne
    simp [hv, hnone]
  · simp only [beq_false_of_ne hi, if_neg hi, Option.map_id']
    rfl

theorem VoicePool.chordLastSlot_startFirst {u : VoicePool} {k : Nat} {ks : List Nat} (hfree : u.freeSlots = k :: ks)
    {v : Voice} (hactive : v.active = true) (n : Nat) (ns : List Nat) :
    VoicePool.chordLastSlot { u with voices := u.voices.set k v, lastSlot := BitVec.ofNat 32 k } ns =
      u.chordLastSlot (n :: ns) := by
  rw [chordLastSlot, chordLastSlot, freeSlots_startFirst hfree hactive, hfree, List.length_cons, List.length_cons,
    List.take_succ_cons, List.getLast?_cons]
  cases (ks.take ns.length).getLast? <;> simp

/-- With a free slot the first note takes the first one, and the other notes the others. -/
theorem State.withChord_allocate_free {k : Nat} {ks : List Nat} (hfree : s.vpool.freeSlots = k :: ks) (hz : Nat → F32)
    (n : Nat) (ns : List Nat) : (s.allocate (hz n)).withChord hz ns = s.withChord hz (n :: ns) := by
  obtain ⟨v, hv, hinactive, hlow⟩ := VoicePool.lowest_of_freeSlots_cons hfree
  have hactive : (v.startedAt s.vpool (hz n)).active = true := rfl
  rw [State.allocate_of_lowest_free hv hinactive hlow, withChord, withChord]
  simp only [chordStatus, VoicePool.chordVoices_startFirst hfree hv, VoicePool.chordLastSlot_startFirst hfree hactive n,
    VoicePool.freeSlots_startFirst hfree hactive, hfree, List.length_cons, Nat.add_lt_add_iff_right]

/-- A run of note-ons. -/
theorem State.foldl_allocate (cfg : Config.Params) (notes : List Nat) : ∀ s : State, s.cfg = cfg →
    notes.foldl (fun x n => x.allocate (noteHz x.cfg n)) s = s.withChord (noteHz cfg) notes := by
  induction notes with
  | nil => exact fun s _ => (s.withChord_nil _).symm
  | cons n ns ih =>
    rintro s rfl
    rw [List.foldl_cons, ih _ (s.allocate_cfg _)]
    cases hfree : s.vpool.freeSlots with
    | nil => exact State.withChord_allocate_full hfree _ n ns
    | cons k ks => exact State.withChord_allocate_free hfree _ n ns

theorem exec_chordOn {chord : BitVec 8} {root : BitVec 7} (hchord : chord.toNat < s.cfg.nChord) :
    exec (.chordOn chord root) s =
      .next ((s.withChord (noteHz s.cfg) (chordNotes s.cfg chord.toNat root.toNat)).retire 1) := by
  rw [exec, execChordOn, if_pos hchord, State.foldl_allocate s.cfg _ s rfl]

/-- Settles O27: a chord is a run of note-ons. -/
theorem chordOnStartsItsNotesInFreeSlots : Obligations.ChordOnStartsItsNotesInFreeSlots := by
  intro chord root s hchord notes free hz
  refine ⟨_, exec_chordOn hchord, State.memoryKept_retire 1 rfl rfl, ?_⟩
  simp only [State.retire_vpool, State.retire_global]
  exact ⟨List.length_mapIdx, fun k v hv => (List.getElem?_mapIdx ..).trans (congrArg _ hv), rfl, rfl,
    State.becomes_retire 1 s.sharesPorts_self⟩

end Sys2Proof.Machine
end

section
/-! VPOOL's tick: the voice step written out, the mix of the active voices and the age-out (44_voice_pool.md R610 to R613,
R630). -/

namespace Sys2Proof.Machine

/-! ## One voice (44_voice_pool.md R610 to R613) -/

/-- The ratio of R611, its oscillator number counted in the integers. -/
theorem detuneRatio_eq (cfg : Config.Params) (detune : F32) (k : Nat) : detuneRatio cfg detune k =
    if cfg.nStack = 1 ∨ feq detune f0 = true then f1
    else fexp2 (fdiv (fmul detune (fsub (fdiv (toF32 (2 * k)) (toF32 ((cfg.nStack : Int) - 1))) f1)) 0x44960000) := by
  rw [detuneRatio, Nat.cast_mul]
  rfl

theorem stackPhases_eq_mapIdx (cfg : Config.Params) (dt detune freq : F32) (phases : List F32) :
    stackPhases cfg dt detune freq phases =
      phases.mapIdx fun k p => phaseStep dt p (fmul freq (detuneRatio cfg detune k)) := by
  rw [List.mapIdx_eq_zipIdx_map]
  rfl

/-- The sum of R613 over the waveforms of R452. -/
theorem stackSum_eq_waveform (wave : BitVec 2) (phases : List F32) :
    stackSum wave phases = phases.foldl (fun acc p => fadd acc (waveform wave.toNat p)) f0 := by
  simp only [stackSum, waveAt_eq_waveform]

/-! ## The mix (44_voice_pool.md R630) -/

/-- An inactive slot takes no part in the sum. -/
theorem voicesTick_sum (cfg : Config.Params) (dt : F32) (u : VoicePool) (vs : List Voice) : ∀ sum,
    (voicesTick cfg dt u vs sum).2 =
      (vs.filter Voice.active).foldl (fun acc v => fadd acc ((v.advance cfg dt u).sample cfg)) sum := by
  induction vs with
  | nil => exact fun _ => rfl
  | cons v vs ih =>
    intro sum
    rw [voicesTick, List.filter_cons]
    split <;> exact ih _

theorem vpoolTick_out (cfg : Config.Params) (g : GlobalRegs) (u : VoicePool) : (vpoolTick cfg g u).out =
    if u.voices.filter Voice.active = [] then f0
    else fmul (fdiv ((u.voices.filter Voice.active).foldl
      (fun acc v => fadd acc ((v.advance cfg g.dt u).sample cfg)) f0)
      (toF32 (u.voices.filter Voice.active).length)) cfg.outMul := by
  have hcount : (u.voices.countP fun v => v.active) = (u.voices.filter Voice.active).length := List.countP_eq_length_filter
  simp only [vpoolTick, hcount, voicesTick_sum, List.length_pos_iff, ne_eq, ite_not]

/-! ## The tick (44_voice_pool.md R612, R630) -/

/-- Settles O41: the slots are those of `Voice.ticked`, whose step is R630's, and OUT is the mix of the active ones. -/
theorem voicesGlideSoundAndAgeOut : Obligations.VoicesGlideSoundAndAgeOut := by
  intro imm s t ht u dt ratio moved sample active
  have hpool : t.vpool = vpoolTick s.cfg s.global u := by
    rw [exec_tick_sameUnits ht]
    exact s.tick_vpool
  have hratio : ratio = detuneRatio s.cfg u.detune := funext fun k => (detuneRatio_eq ..).symm
  have hmoved : moved = Voice.advance s.cfg dt u := by
    funext v
    rw [Voice.advance, stackPhases_eq_mapIdx, ← hratio]
    rfl
  have hsample : sample = Voice.sample s.cfg := by
    funext w
    rw [Voice.sample, stackSum_eq_waveform]
    rfl
  rw [hmoved, hsample, hpool, vpoolTick_voices]
  refine ⟨List.length_map _, fun k v hv => ?_, vpoolTick_out s.cfg s.global u⟩
  rw [List.getElem?_map, hv]
  exact ⟨fun hinactive => congrArg some (if_neg (Bool.not_eq_true _ ▸ hinactive)),
    fun hactive => congrArg some (if_pos hactive)⟩

end Sys2Proof.Machine
end

section
/-! GRAN's spawn queue, its clock and timer, and its generator, as equations (45_granular.md R651 to R654, R664). -/

namespace Sys2Proof.Machine

/-! ## The queue (45_granular.md R654) -/

/-- The queue after an event with this tag, where one comes. -/
def offer (cfg : Config.Params) (tag : SpawnTag) (comes : Bool) (q : List SpawnTag) : List SpawnTag :=
  if comes = true ∧ q.length < cfg.gqDepth then q ++ [tag] else q

/-- The STATUS bit of an event that finds the queue full, where one comes. -/
def overflowBit (cfg : Config.Params) (comes : Bool) (q : List SpawnTag) : Word :=
  if comes = true ∧ q.length = cfg.gqDepth then 4 else 0

section
variable {cfg : Config.Params} {q : List SpawnTag}

theorem offer_length (tag : SpawnTag) (comes : Bool) :
    (offer cfg tag comes q).length = q.length + if comes = true ∧ q.length < cfg.gqDepth then 1 else 0 := by
  unfold offer
  split <;> simp

theorem offer_length_le (h : q.length ≤ cfg.gqDepth) (tag : SpawnTag) (comes : Bool) :
    (offer cfg tag comes q).length ≤ cfg.gqDepth := by
  rw [offer_length]
  split <;> omega

@[simp] theorem offer_false (tag : SpawnTag) : offer cfg tag false q = q := rfl

variable {u : GranUnit} {w : Word}

theorem enqueue_room (tag : SpawnTag) (h : u.queue.length < cfg.gqDepth) :
    enqueue cfg tag (u, w) = ({ u with queue := u.queue ++ [tag] }, w) := if_neg h.ne

theorem enqueue_full (tag : SpawnTag) (h : u.queue.length = cfg.gqDepth) :
    enqueue cfg tag (u, w) = (u, raiseBit .queueOverflow w) := if_pos h

theorem enqueue_eq_offer (tag : SpawnTag) (h : u.queue.length ≤ cfg.gqDepth) :
    enqueue cfg tag (u, w) = ({ u with queue := offer cfg tag true u.queue }, w ||| overflowBit cfg true u.queue) := by
  rcases h.lt_or_eq with hroom | hfull
  · rw [enqueue_room tag hroom, offer, overflowBit, if_pos ⟨rfl, hroom⟩, if_neg (fun h => hroom.ne h.2)]
    exact Prod.ext rfl BitVec.or_zero.symm
  · rw [enqueue_full tag hfull, offer, overflowBit, if_neg (fun h => h.2.ne hfull), if_pos ⟨rfl, hfull⟩]
    rfl

/-- No event comes: the queue and STATUS stay. -/
theorem eq_offer_false (tag : SpawnTag) :
    (u, w) = ({ u with queue := offer cfg tag false u.queue }, w ||| overflowBit cfg false u.queue) := by
  simp [overflowBit]

end

/-- Settles O32: the queue has room, or is full. -/
theorem granSpawnQueuesAnEvent : Obligations.GranSpawnQueuesAnEvent := by
  have hexec (s : State) {r : GranStep} (h : enqueue s.cfg .host (s.gran, s.global.status) = r) :
      exec .granSpawn s = .next ((s.withGran r).retire 1) := h ▸ rfl
  exact fun s => ⟨fun hroom => becomes_of_exec_retire (hexec s (enqueue_room .host hroom)) s.sharesPorts_self rfl rfl,
    fun hfull => becomes_of_exec_retire (hexec s (enqueue_full .host hfull)) s.sharesPorts_self rfl rfl⟩

/-! ## The draw (45_granular.md R653) -/

theorem drawValue_eq (x : Word) : drawValue x = fmul (toF32 (x.toNat / 2 ^ 8 : Nat)) 0x33800000 := by
  rw [drawValue, BitVec.toNat_ushiftRight, Nat.shiftRight_eq_div_pow]

/-- A draw is in [0, 1): it is a whole number below 2^24 over 2^24. -/
theorem isPhase_drawValue (x : Word) : isPhase (drawValue x) = true := by
  have hlt : x.toNat / 2 ^ 8 < 2 ^ 24 := by have := x.isLt; omega
  obtain ⟨hfin, hval, hsign⟩ := toF32_nat hlt
  have hunit : isFinite 0x33800000 = true ∧ fSign 0x33800000 = false ∧ scaled 0x33800000 = 2 ^ 125 := by decide
  have hmax : isFinite 0x3F7FFFFF = true ∧ scaled 0x3F7FFFFF = (2 ^ 24 - 1) * 2 ^ 125 := by decide
  have hnonneg : fSign (drawValue x) = false := by rw [drawValue_eq, fmul_sign hfin hunit.1, hsign, hunit.2.1]; rfl
  have hle : fle (drawValue x) 0x3F7FFFFF = true := by
    rw [drawValue_eq]
    refine fmul_le hfin hunit.1 hmax.1 ?_
    rw [hval, hunit.2.2, hmax.2, show (unitScale : Int) = 2 ^ 149 by decide]
    omega
  rw [fle_eq, toNat_of_nonneg hnonneg, Bool.and_eq_true, decide_eq_true_eq] at hle
  have hkey : orderKey 0x3F7FFFFF = 0x3F7FFFFF := by decide
  rw [isPhase, decide_eq_true_eq]
  omega

/-- No draw is below a DENSITY of 0.0. -/
theorem flt_drawValue_of_feq_zero {d : F32} (hd : feq d 0x00000000 = true) (x : Word) : flt (drawValue x) d = false := by
  have hsign : fSign (drawValue x) = false := by
    have hphase := isPhase_drawValue x
    rw [isPhase, decide_eq_true_eq] at hphase
    exact fSign_eq_false_iff.2 (by omega)
  rw [feq, Bool.and_eq_true, decide_eq_true_eq, show orderKey 0x00000000 = 0 by decide] at hd
  rw [flt_eq, toNat_of_nonneg hsign, hd.2]
  simp

/-! ## The clock (45_granular.md R651, R670) -/

/-- The period is from one rising edge to the next. -/
theorem clockMeasure_eq (hi prev : Bool) (count edges : Nat) (period : Word) :
    clockMeasure hi prev count edges period =
      { rise := hi && !prev
        count := if (hi && !prev) = true then 0 else min (count + 1) (2 ^ 32 - 1)
        edges := if (hi && !prev) = true then min (edges + 1) 2 else edges
        period := if (hi && !prev) = true ∧ 1 ≤ edges then BitVec.ofNat 32 (min (count + 1) (2 ^ 32 - 1)) else period } := by
  unfold clockMeasure
  cases hi && !prev <;> simp

/-- A rising edge of the clock. -/
def GranUnit.rises (cfg : Config.Params) (u : GranUnit) : Bool := connectedHigh cfg u.conn 0 u.clockIn && !u.clkPrev

/-- The unit after the clock part of a tick. -/
def GranUnit.clocked (cfg : Config.Params) (u : GranUnit) : GranUnit :=
  { u with
    clkPrev := connectedHigh cfg u.conn 0 u.clockIn
    clkCount := if u.rises cfg = true then 0 else min (u.clkCount + 1) (2 ^ 32 - 1)
    clkEdges := if u.rises cfg = true then min (u.clkEdges + 1) 2 else u.clkEdges
    clkPeriod := if u.rises cfg = true ∧ 1 ≤ u.clkEdges then BitVec.ofNat 32 (min (u.clkCount + 1) (2 ^ 32 - 1))
      else u.clkPeriod
    schedT := if u.rises cfg = true then f0 else u.schedT
    queue := offer cfg .clock (u.rises cfg) u.queue }

section
variable {cfg : Config.Params} {u : GranUnit} (w : Word)

theorem granClock_eq (hq : u.queue.length ≤ cfg.gqDepth) :
    granClock cfg (u, w) = (u.clocked cfg, w ||| overflowBit cfg (u.rises cfg) u.queue) := by
  have hrise : (connectedHigh cfg u.conn 0 u.clockIn && !u.clkPrev) = u.rises cfg := rfl
  rw [granClock, GranUnit.clocked]
  simp only [clockMeasure_eq, hrise]
  cases u.rises cfg
  · exact eq_offer_false .clock
  · exact enqueue_eq_offer .clock hq

/-! ## The timer (45_granular.md R652, R670) -/

/-- The interval has passed. -/
def GranUnit.fires (cfg : Config.Params) (dt : F32) (u : GranUnit) : Bool :=
  fle (spawnInterval cfg dt u) (fadd u.schedT dt)

/-- The generator after the timer: one draw where it fires. -/
def GranUnit.drawn (cfg : Config.Params) (dt : F32) (u : GranUnit) : Word :=
  if u.fires cfg dt = true then xorshift u.rng else u.rng

/-- The timer queues an event. -/
def GranUnit.timerEvent (cfg : Config.Params) (dt : F32) (u : GranUnit) : Bool :=
  u.fires cfg dt && flt (drawValue (u.drawn cfg dt)) u.density

/-- The unit after the timer part of a tick. -/
def GranUnit.timed (cfg : Config.Params) (dt : F32) (u : GranUnit) : GranUnit :=
  { u with
    schedT := if u.fires cfg dt = true then
        if fle (spawnInterval cfg dt u) (fsub (fadd u.schedT dt) (spawnInterval cfg dt u)) = true then f0
        else fsub (fadd u.schedT dt) (spawnInterval cfg dt u)
      else fadd u.schedT dt
    rng := u.drawn cfg dt
    queue := offer cfg .timer (u.timerEvent cfg dt) u.queue }

theorem granTimer_eq (dt : F32) (hq : u.queue.length ≤ cfg.gqDepth) :
    granTimer cfg dt (u, w) = (u.timed cfg dt, w ||| overflowBit cfg (u.timerEvent cfg dt) u.queue) := by
  have hfires : fle (spawnInterval cfg dt u) (fadd u.schedT dt) = u.fires cfg dt := rfl
  simp only [granTimer, GranUnit.timed, GranUnit.timerEvent, GranUnit.drawn, hfires]
  cases u.fires cfg dt
  · exact eq_offer_false .timer
  · simp only [if_true, Bool.true_and]
    cases flt (drawValue (xorshift u.rng)) u.density
    · exact eq_offer_false .timer
    · exact enqueue_eq_offer .timer hq

end

end Sys2Proof.Machine
end

section
/-! The grains that a tick starts: spawn after spawn into the free slots (45_granular.md R655, R670). -/

namespace Sys2Proof.Machine

/-! ## Free slots -/

/-- The numbers of the free slots, ascending. -/
def freeGrains (gs : List Grain) : List Nat :=
  (List.range gs.length).filter fun k => gs[k]?.map Grain.active == some false

theorem freeGrains_nodup (gs : List Grain) : (freeGrains gs).Nodup := List.nodup_range.filter _

theorem lt_length_of_mem_freeGrains {gs : List Grain} {k : Nat} (h : k ∈ freeGrains gs) : k < gs.length :=
  List.mem_range.1 (List.mem_of_mem_filter h)

/-- The slot that `spawn` takes is the first of the free ones. -/
theorem freeGrain_eq_head? (gs : List Grain) : freeGrain gs = (freeGrains gs).head? := by
  have hfree (k : Nat) (hk : k < gs.length) : (gs[k]?.map Grain.active == some false) = !gs[k].active := by
    rw [List.getElem?_eq_getElem hk]
    cases h : gs[k].active <;> simp [h]
  refine Option.ext fun k => ?_
  rw [freeGrain, freeGrains, List.head?_filter, List.findIdx?_eq_some_iff_getElem, List.find?_range_eq_some]
  constructor
  · rintro ⟨hk, hinactive, hlow⟩
    refine ⟨(hfree k hk).trans hinactive, List.mem_range.2 hk, fun j hj => ?_⟩
    rw [hfree j (hj.trans hk)]
    simpa using hlow j hj
  · rintro ⟨hinactive, hk, hlow⟩
    have hk := List.mem_range.1 hk
    refine ⟨hk, (hfree k hk).symm.trans hinactive, fun j hj => ?_⟩
    have hj' := hlow j hj
    rw [hfree j (hj.trans hk)] at hj'
    simpa using hj'

/-! ## Several spawns -/

/-- The grain of the j-th spawn that finds a free slot. -/
def GranUnit.startedGrain (cfg : Config.Params) (u : GranUnit) (j : Nat) : Grain :=
  { active := true, elapsed := f0, dur := u.size, rate := u.rate,
    phase := spawnPhase cfg u (drawValue (xorshift^[j + 1] u.rng)) }

/-- The slots after n spawns. -/
def GranUnit.spawnedGrains (cfg : Config.Params) (u : GranUnit) (n : Nat) : List Grain :=
  u.grains.mapIdx fun k g =>
    if k ∈ (freeGrains u.grains).take n then u.startedGrain cfg ((freeGrains u.grains).idxOf k) else g

/-- The unit after n spawns. -/
def GranUnit.spawned (cfg : Config.Params) (u : GranUnit) (n : Nat) : GranUnit :=
  { u with
    rng := xorshift^[min n (freeGrains u.grains).length] u.rng
    spawnCount := u.spawnCount + BitVec.ofNat 32 (min n (freeGrains u.grains).length)
    grains := u.spawnedGrains cfg n }

/-- The STATUS bit of n spawns with fewer free slots. -/
def dropBit (u : GranUnit) (n : Nat) : Word := if (freeGrains u.grains).length < n then 2 else 0

section
variable (cfg : Config.Params) (u : GranUnit) (w : Word)

theorem GranUnit.getElem?_spawnedGrains (n k : Nat) : (u.spawnedGrains cfg n)[k]? = u.grains[k]?.map fun g =>
    if k ∈ (freeGrains u.grains).take n then u.startedGrain cfg ((freeGrains u.grains).idxOf k) else g :=
  List.getElem?_mapIdx

theorem GranUnit.spawnedGrains_zero : u.spawnedGrains cfg 0 = u.grains :=
  List.ext_getElem? fun k => by simp [getElem?_spawnedGrains]

theorem GranUnit.spawned_zero : u.spawned cfg 0 = u := by
  rw [spawned, spawnedGrains_zero, Nat.zero_min]
  simp

/-- n spawns take the first n free slots. -/
theorem GranUnit.freeGrains_spawnedGrains (n : Nat) :
    freeGrains (u.spawnedGrains cfg n) = (freeGrains u.grains).drop n := by
  generalize htaken : (freeGrains u.grains).take n = taken
  have hstill : freeGrains (u.spawnedGrains cfg n) = (freeGrains u.grains).filter (· ∉ taken) := by
    have hlength : (u.spawnedGrains cfg n).length = u.grains.length := List.length_mapIdx
    rw [freeGrains, freeGrains, List.filter_filter, hlength]
    refine List.filter_congr fun k _ => ?_
    rw [getElem?_spawnedGrains, htaken, Option.map_map]
    by_cases hk : k ∈ taken
    · cases u.grains[k]? <;> simp [hk, startedGrain]
    · simp [hk, Function.comp_def]
  have hnodup := freeGrains_nodup u.grains
  have hdisjoint := List.disjoint_take_drop hnodup (le_refl n)
  rw [htaken] at hdisjoint
  calc freeGrains (u.spawnedGrains cfg n)
      = (taken ++ (freeGrains u.grains).drop n).filter (· ∉ taken) := by rw [hstill, ← htaken, List.take_append_drop]
    _ = (freeGrains u.grains).drop n := by
      rw [List.filter_append, List.filter_eq_nil_iff.2 (by simp), List.nil_append, List.filter_eq_self]
      exact fun k hk => decide_eq_true fun hk' => hdisjoint hk' hk

/-- The n-th spawn starts the n-th free slot. -/
theorem GranUnit.set_spawnedGrains {n k : Nat} (hk : (freeGrains u.grains)[n]? = some k) :
    (u.spawnedGrains cfg n).set k (u.startedGrain cfg n) = u.spawnedGrains cfg (n + 1) := by
  obtain ⟨hn, rfl⟩ := List.getElem?_eq_some_iff.1 hk
  have hidx : (freeGrains u.grains).idxOf (freeGrains u.grains)[n] = n := (freeGrains_nodup u.grains).idxOf_getElem n hn
  refine List.ext_getElem? fun i => ?_
  have hmem : i ∈ (freeGrains u.grains).take (n + 1) ↔
      i ∈ (freeGrains u.grains).take n ∨ i = (freeGrains u.grains)[n] := by
    rw [List.take_add_one, hk, List.mem_append]
    exact or_congr_right List.mem_singleton
  rw [getElem?_set_eq_map, getElem?_spawnedGrains, getElem?_spawnedGrains, Option.map_map]
  refine congrArg (Option.map · _) (funext fun g => ?_)
  by_cases hi : i = (freeGrains u.grains)[n]
  · simp only [Function.comp_apply, hi ▸ hmem, hi, hidx, if_true, or_true]
  · simp only [Function.comp_apply, hmem, hi, if_false, or_false]

/-- The j-th spawn starts the j-th free slot, and the others start no other. -/
theorem GranUnit.spawnedGrains_started {n j k : Nat} (hj : j < n) (hk : (freeGrains u.grains)[j]? = some k) :
    (u.spawnedGrains cfg n)[k]? = some (u.startedGrain cfg j) := by
  obtain ⟨hlt, rfl⟩ := List.getElem?_eq_some_iff.1 hk
  have hmem : (freeGrains u.grains)[j] ∈ (freeGrains u.grains).take n := List.mem_take_iff_getElem.2 ⟨j, by omega, rfl⟩
  have hslot := lt_length_of_mem_freeGrains (List.mem_of_mem_take hmem)
  rw [getElem?_spawnedGrains, List.getElem?_eq_getElem hslot, Option.map_some, if_pos hmem,
    (freeGrains_nodup u.grains).idxOf_getElem j hlt]

theorem GranUnit.spawnedGrains_kept {n k : Nat} (hk : k ∉ (freeGrains u.grains).take n) :
    (u.spawnedGrains cfg n)[k]? = u.grains[k]? := by
  rw [getElem?_spawnedGrains]
  simp [hk]

/-- A spawn with no free slot left starts nothing. -/
theorem GranUnit.spawned_succ_of_le {n : Nat} (hn : (freeGrains u.grains).length ≤ n) :
    u.spawned cfg (n + 1) = u.spawned cfg n := by
  have hn' : (freeGrains u.grains).length ≤ n + 1 := Nat.le_succ_of_le hn
  rw [spawned, spawned, spawnedGrains, spawnedGrains, min_eq_right hn, min_eq_right hn', List.take_of_length_le hn,
    List.take_of_length_le hn']

/-- A spawn with a free slot left draws once and starts the next free slot. -/
theorem GranUnit.spawned_succ_of_lt {n k : Nat} (hk : (freeGrains u.grains)[n]? = some k) :
    u.spawned cfg (n + 1) = { u.spawned cfg n with
      rng := xorshift (u.spawned cfg n).rng
      spawnCount := (u.spawned cfg n).spawnCount + 1
      grains := (u.spawned cfg n).grains.set k (u.startedGrain cfg n) } := by
  have hn := (List.getElem?_eq_some_iff.1 hk).1
  have hn' : n + 1 ≤ (freeGrains u.grains).length := hn
  simp only [spawned, set_spawnedGrains cfg u hk, min_eq_left hn.le, min_eq_left hn', Function.iterate_succ_apply']
  rw [BitVec.ofNat_add, BitVec.add_assoc]
  rfl

/-- One spawn more. -/
theorem spawn_spawned (n : Nat) :
    spawn cfg (u.spawned cfg n, w ||| dropBit u n) = (u.spawned cfg (n + 1), w ||| dropBit u (n + 1)) := by
  have hfirst : freeGrain (u.spawned cfg n).grains = (freeGrains u.grains)[n]? := by
    rw [freeGrain_eq_head?, ← List.head?_drop, ← GranUnit.freeGrains_spawnedGrains cfg u n]
    rfl
  rw [spawn]
  cases hk : (freeGrains u.grains)[n]? with
  | none =>
    have hle := List.getElem?_eq_none_iff.1 hk
    have hdrop : dropBit u (n + 1) = 2 := if_pos (Nat.lt_succ_of_le hle)
    have hraise : raiseBit .grainDrop (w ||| dropBit u n) = w ||| 2 := by
      rw [raiseBit, BitVec.or_assoc, dropBit]
      split <;> rfl
    rw [hfirst.trans hk, u.spawned_succ_of_le cfg hle, hdrop]
    exact Prod.ext rfl hraise
  | some k =>
    have hlt := (List.getElem?_eq_some_iff.1 hk).1
    have hdraw : xorshift^[n + 1] u.rng = xorshift (u.spawned cfg n).rng := by
      rw [Function.iterate_succ_apply', GranUnit.spawned, min_eq_left hlt.le]
    have hdrop : dropBit u n = dropBit u (n + 1) := by rw [dropBit, dropBit, if_neg hlt.not_gt, if_neg (by omega)]
    rw [hfirst.trans hk, u.spawned_succ_of_lt cfg hk, hdrop, GranUnit.startedGrain, hdraw]
    rfl

/-- The queue is drained, one spawn per event. -/
theorem drainQueue_eq : drainQueue cfg (u, w) =
    (GranUnit.spawned cfg { u with queue := [] } u.queue.length, w ||| dropBit u u.queue.length) := by
  have hspawns (v : GranUnit) (n : Nat) : (spawn cfg)^[n] (v, w) = (v.spawned cfg n, w ||| dropBit v n) := by
    induction n with
    | zero =>
      rw [v.spawned_zero cfg]
      exact Prod.ext rfl BitVec.or_zero.symm
    | succ n ih => rw [Function.iterate_succ_apply', ih, spawn_spawned]
  rw [drainQueue, List.foldl_const]
  exact hspawns _ _

/-! ## The sum of the grains -/

/-- What a grain that sounds adds to the sum. -/
def Grain.sample (cfg : Config.Params) (m : Memory) (u : GranUnit) (g : Grain) : F32 :=
  fmul (grainEnv (fdiv g.elapsed g.dur)) (srcRead cfg m u g.phase)

/-- A grain that ends in this tick is not heard. -/
theorem grainsTick_sum (dt : F32) (m : Memory) (gs : List Grain) : ∀ sum,
    (grainsTick cfg dt m u gs sum).2 =
      ((gs.map (Grain.ticked dt u)).filter Grain.active).foldl (fun acc g => fadd acc (g.sample cfg m u)) sum := by
  induction gs with
  | nil => exact fun _ => rfl
  | cons g gs ih =>
    intro sum
    have hadvance : (g.advance dt u.srcRate).active = g.active := rfl
    rw [grainsTick, List.map_cons, List.filter_cons, Grain.ticked]
    by_cases hactive : g.active = true
    · by_cases hended : (g.advance dt u.srcRate).ended u = true
      · simp only [hactive, hended, if_true, Bool.false_eq_true, if_false]
        exact ih _
      · simp only [hactive, hended, hadvance, if_true, Bool.false_eq_true, if_false]
        exact ih _
    · simp only [hactive, Bool.false_eq_true, if_false]
      exact ih _

/-- An active grain after one tick, active or ended. -/
theorem Grain.ticked_of_active {g : Grain} (h : g.active = true) (dt : F32) : g.ticked dt u =
    { g.advance dt u.srcRate with active := !(g.advance dt u.srcRate).ended u } := by
  rw [ticked, if_pos h]
  cases hended : (g.advance dt u.srcRate).ended u
  · rw [advance]; simp [h]
  · rfl

end
end Sys2Proof.Machine
end

section
/-! GRAN's tick, part after part (45_granular.md R670), and what it does without an event (R673). -/

namespace Sys2Proof.Machine

/-- The unit after the clock and the timer of a tick. -/
def GranUnit.scheduled (cfg : Config.Params) (dt : F32) (u : GranUnit) : GranUnit := (u.clocked cfg).timed cfg dt

/-- That unit with its events taken off the queue. -/
def GranUnit.emptied (cfg : Config.Params) (dt : F32) (u : GranUnit) : GranUnit := { u.scheduled cfg dt with queue := [] }

/-- The unit after the drain of a tick: a spawn per event. -/
def GranUnit.drained (cfg : Config.Params) (dt : F32) (u : GranUnit) : GranUnit :=
  (u.emptied cfg dt).spawned cfg (u.scheduled cfg dt).queue.length

/-- The STATUS bits that a tick sets: those of the clock's event, of the timer's and of the spawns. -/
def GranUnit.tickBits (cfg : Config.Params) (dt : F32) (u : GranUnit) : Word :=
  overflowBit cfg (u.rises cfg) u.queue |||
    overflowBit cfg ((u.clocked cfg).timerEvent cfg dt) (u.clocked cfg).queue |||
    dropBit u (u.scheduled cfg dt).queue.length

theorem overflowBit_or (cfg : Config.Params) (a b : Bool) (q r : List SpawnTag) :
    overflowBit cfg a q ||| overflowBit cfg b r =
      if a = true ∧ q.length = cfg.gqDepth ∨ b = true ∧ r.length = cfg.gqDepth then 4 else 0 := by
  unfold overflowBit
  by_cases ha : a = true ∧ q.length = cfg.gqDepth
  · rw [if_pos ha, if_pos (Or.inl ha)]
    split <;> rfl
  · rw [if_neg ha]
    exact BitVec.zero_or.trans (if_congr (or_iff_right ha).symm rfl rfl)

theorem GranUnit.scheduled_queue_length (cfg : Config.Params) (dt : F32) (u : GranUnit) :
    (u.scheduled cfg dt).queue.length = (u.clocked cfg).queue.length +
      if (u.clocked cfg).timerEvent cfg dt = true ∧ (u.clocked cfg).queue.length < cfg.gqDepth then 1 else 0 :=
  offer_length ..

section
variable {cfg : Config.Params} {u : GranUnit}

theorem granTick_eq (dt : F32) (m : Memory) (w : Word) (hq : u.queue.length ≤ cfg.gqDepth) :
    granTick cfg dt m (u, w) = granSound cfg dt m (u.drained cfg dt, w ||| u.tickBits cfg dt) := by
  have hq' : (u.clocked cfg).queue.length ≤ cfg.gqDepth := offer_length_le hq .clock _
  rw [granTick, granClock_eq w hq, granTimer_eq _ dt hq', drainQueue_eq, BitVec.or_assoc, BitVec.or_assoc,
    ← BitVec.or_assoc (overflowBit ..)]
  rfl

/-! ## The grains of a tick -/

theorem GranUnit.emptied_grains (dt : F32) : (u.emptied cfg dt).grains = u.grains := by
  simp only [emptied, scheduled, timed, clocked]

theorem GranUnit.drained_srcLen (dt : F32) : (u.drained cfg dt).srcLen = u.srcLen := by
  simp only [drained, spawned, emptied, scheduled, timed, clocked]

theorem GranUnit.drained_srcRate (dt : F32) : (u.drained cfg dt).srcRate = u.srcRate := by
  simp only [drained, spawned, emptied, scheduled, timed, clocked]

theorem GranUnit.drained_srcCur (dt : F32) : (u.drained cfg dt).srcCur = u.srcCur := by
  simp only [drained, spawned, emptied, scheduled, timed, clocked]

/-- The j-th spawn of the drain starts the j-th free slot. -/
theorem GranUnit.drained_started {dt : F32} {j k : Nat} (hj : j < (u.scheduled cfg dt).queue.length)
    (hk : (freeGrains u.grains)[j]? = some k) :
    (u.drained cfg dt).grains[k]? = some ((u.emptied cfg dt).startedGrain cfg j) :=
  spawnedGrains_started cfg (u.emptied cfg dt) hj (by rwa [emptied_grains])

/-- The drain starts no other slot. -/
theorem GranUnit.drained_kept {dt : F32} {k : Nat}
    (hk : k ∉ (freeGrains u.grains).take (u.scheduled cfg dt).queue.length) :
    (u.drained cfg dt).grains[k]? = u.grains[k]? := by
  rw [← u.emptied_grains (cfg := cfg) dt] at hk ⊢
  exact spawnedGrains_kept cfg (u.emptied cfg dt) hk

theorem GranUnit.drained_grains_length (dt : F32) : (u.drained cfg dt).grains.length = u.grains.length := by
  rw [← u.emptied_grains (cfg := cfg) dt]
  exact List.length_mapIdx

/-- What moves a grain stays from the start of the tick. -/
theorem granSound_drained_grains (dt : F32) (m : Memory) (w : Word) :
    (granSound cfg dt m (u.drained cfg dt, w)).1.grains = (u.drained cfg dt).grains.map (Grain.ticked dt u) := by
  have hticked : Grain.ticked dt (u.drained cfg dt) = Grain.ticked dt u := by
    funext g
    rw [Grain.ticked, Grain.ticked, Grain.ended, Grain.ended, GranUnit.drained_srcRate, GranUnit.drained_srcLen]
  rw [← hticked]
  exact grainsTick_grains ..

/-- So does the source that a grain reads. -/
theorem granSound_drained_out (dt : F32) (m : Memory) (w : Word) :
    (granSound cfg dt m (u.drained cfg dt, w)).1.out =
      fmul (((granSound cfg dt m (u.drained cfg dt, w)).1.grains.filter Grain.active).foldl
        (fun acc g => fadd acc (g.sample cfg m u)) f0) cfg.outMul := by
  have hsample (g : Grain) : g.sample cfg m u = g.sample cfg m (u.drained cfg dt) := by
    rw [Grain.sample, Grain.sample, srcRead, srcRead, GranUnit.drained_srcLen, GranUnit.drained_srcCur]
  have hgrains : (granSound cfg dt m (u.drained cfg dt, w)).1.grains = _ := grainsTick_grains ..
  simp only [hsample, hgrains, ← grainsTick_sum]
  rfl

/-! ## No event (45_granular.md R673) -/

/-- No grain, no event, DENSITY 0.0 and no clock level. -/
structure GranUnit.Silent (cfg : Config.Params) (u : GranUnit) : Prop where
  idle : ∀ g ∈ u.grains, g.active = false
  queue : u.queue = []
  density : feq u.density 0x00000000 = true
  clock : connectedHigh cfg u.conn 0 u.clockIn = false

theorem fmul_f0_left {x : F32} (hx : isPositive x = true) : fmul f0 x = f0 := by
  rw [isPositive, Bool.and_eq_true] at hx
  obtain ⟨hfin, hpos⟩ := hx
  have hsign := (scaled_pos_of_flt hfin hpos).2
  have hfacts : scaledMag f0 = 0 ∧ fSign f0 = false ∧ packSign false 0 = f0 := by decide
  obtain ⟨hzero, hsign0, hpack⟩ := hfacts
  simp only [fmul, isNaN_f0, isNaN_of_finite hfin, isInf_of_finite hfin, isInf_of_finite isFinite_f0, hsign, hsign0, hzero,
    Nat.zero_mul, roundMag_zero unitScale_pos, Bool.or_self, Bool.false_eq_true, if_false, bne_self_eq_false, hpack]

/-- With no active grain OUT is 0.0. -/
theorem granSound_idle (hidle : ∀ g ∈ u.grains, g.active = false) (hout : isPositive cfg.outMul = true) (dt : F32)
    (m : Memory) (w : Word) : (granSound cfg dt m (u, w)).1 = { u with out := f0 } := by
  simp only [granSound, grainsTick_idle cfg dt m u u.grains hidle, fmul_f0_left hout]

/-- The timer may fire, but its draw is not below DENSITY: the unit stays silent. -/
theorem GranUnit.Silent.granTick (h : u.Silent cfg) (hout : isPositive cfg.outMul = true) (dt : F32) (m : Memory)
    (w : Word) :
    let v := (granTick cfg dt m (u, w)).1
    v.Silent cfg ∧ v.spawnCount = u.spawnCount ∧ v.grains = u.grains ∧ v.out = f0 := by
  have hrise : u.rises cfg = false := by rw [rises, h.clock]; rfl
  have htimer : (u.clocked cfg).timerEvent cfg dt = false := by
    have hdensity : (u.clocked cfg).density = u.density := rfl
    rw [timerEvent, hdensity, flt_drawValue_of_feq_zero h.density, Bool.and_false]
  have hqueue : (u.scheduled cfg dt).queue = [] := by
    show offer cfg .timer ((u.clocked cfg).timerEvent cfg dt) (offer cfg .clock (u.rises cfg) u.queue) = []
    rw [htimer, hrise, offer_false, offer_false, h.queue]
  have hdrained : u.drained cfg dt = u.emptied cfg dt := by
    rw [drained, hqueue]
    exact spawned_zero ..
  have htick : (Machine.granTick cfg dt m (u, w)).1 = { u.emptied cfg dt with out := f0 } := by
    rw [granTick_eq dt m w (by simp [h.queue]), hdrained]
    exact granSound_idle (u.emptied_grains (cfg := cfg) dt ▸ h.idle) hout dt m _
  simp only [htick, emptied, scheduled, timed, clocked, and_true]
  exact ⟨h.idle, rfl, h.density, h.clock⟩

end

/-! ## Ticks of the CORE -/

theorem exec_tick_gran {imm : BitVec 14} {s t : State} (ht : exec (.tick imm) s = .next t) :
    (t.gran, t.global.status) = granTick s.cfg s.global.dt s.mem (s.gran, s.global.status) := by
  rw [exec_tick_sameUnits ht]
  exact Prod.ext s.tick_gran s.tick_status

/-- Settles O43: the clock, the timer, the drain and the grains, each by its equation. -/
theorem granTickStartsAndPlaysGrains : Obligations.GranTickStartsAndPlaysGrains := by
  refine ⟨fun x => ⟨xorshift_ne_zero, isPhase_drawValue x, drawValue_eq x, rfl⟩, ?_⟩
  intro imm s t ht hq u dt last high rise count beat interval due fires rng timer q1 q2 free n start aged source sample
  obtain ⟨hgran, hstatus⟩ := Prod.mk.inj ((exec_tick_gran ht).trans (granTick_eq dt s.mem s.global.status hq))
  have hperiod : t.gran.clkPeriod = (u.clocked s.cfg).clkPeriod := by rw [hgran]; rfl
  have hinterval : interval = spawnInterval s.cfg dt (u.clocked s.cfg) := by
    simp only [interval, beat, spawnInterval, hperiod, Bool.and_eq_true, decide_eq_true_eq]
    rfl
  have hfires : fires = (u.clocked s.cfg).fires s.cfg dt := congrArg (fle · due) hinterval
  have hrng : rng = (u.clocked s.cfg).drawn s.cfg dt := by
    simp only [rng, hfires]
    rfl
  have htimer : timer = (u.clocked s.cfg).timerEvent s.cfg dt := by
    simp only [timer, hfires, hrng]
    rfl
  have hq1 : q1 = (u.clocked s.cfg).queue.length := (offer_length ..).symm
  have hq2 : q2 = (u.scheduled s.cfg dt).queue.length := by
    simp only [q2, htimer, hq1]
    exact (GranUnit.scheduled_queue_length ..).symm
  have hn : n = min (u.scheduled s.cfg dt).queue.length (freeGrains u.grains).length := by
    rw [← hq2]
    rfl
  have hstart : start = (u.emptied s.cfg dt).startedGrain s.cfg := by
    funext j
    simp only [start, hrng]
    rfl
  have hgrains : t.gran.grains = (u.drained s.cfg dt).grains.map (Grain.ticked dt u) := by
    rw [hgran]
    exact granSound_drained_grains ..
  refine ⟨?_, ?_, ?_, ?_, ?_, ?_, ?_, fun k g hg => ⟨fun j hj hk => ?_, fun hk => ?_⟩, ?_⟩
  · rw [hgran]; exact ⟨rfl, rfl, rfl, rfl⟩
  · rw [hgran, hfires, hinterval]; rfl
  · rw [hgran]; rfl
  · rw [hgran, hrng, hn]; rfl
  · have hcount : t.gran.spawnCount = u.spawnCount + BitVec.ofNat 32 n := by rw [hgran, hn]; rfl
    rw [hcount]
    exact BitVec.eq_of_toNat_eq (by simp)
  · rw [hstatus, GranUnit.tickBits, overflowBit_or, htimer, hq1, hq2, BitVec.or_assoc]
    rfl
  · rw [hgrains, List.length_map, GranUnit.drained_grains_length]
  · have hlt : j < (u.scheduled s.cfg dt).queue.length := hq2 ▸ lt_of_lt_of_le hj (min_le_left ..)
    have hactive : (start j).active = true := rfl
    rw [hgrains, List.getElem?_map, GranUnit.drained_started hlt hk, ← hstart, Option.map_some,
      Grain.ticked_of_active u hactive]
    rfl
  · have hkept : k ∉ (freeGrains u.grains).take (u.scheduled s.cfg dt).queue.length :=
      hq2 ▸ List.take_eq_take_min ▸ hk
    rw [hgrains, List.getElem?_map, GranUnit.drained_kept hkept, hg, Option.map_some]
    by_cases hactive : g.active = true
    · rw [if_pos hactive, Grain.ticked_of_active u hactive]
      rfl
    · rw [if_neg hactive, Grain.ticked, if_neg hactive]
  · rw [hgran]
    exact granSound_drained_out ..

theorem State.ticks_cfg (s : State) (n : Nat) : (s.ticks n).cfg = s.cfg := by
  induction n with
  | zero => rfl
  | succ n ih => rw [State.ticks_succ, State.tick_cfg, ih]

/-- Settles O44: GRAN stays silent tick after tick. -/
theorem noGrainWithoutAnEvent : Obligations.NoGrainWithoutAnEvent := by
  intro s n hlegal hidle hqueue hdensity hclock
  have hout := (Config.Params.legal_facts hlegal).outMul_pos
  have htick (x : State) (hcfg : x.cfg = s.cfg) (hx : x.gran.Silent s.cfg) : x.tick.gran.Silent s.cfg ∧
      x.tick.gran.spawnCount = x.gran.spawnCount ∧ x.tick.gran.grains = x.gran.grains ∧ x.tick.gran.out = f0 := by
    rw [State.tick_gran, hcfg]
    exact hx.granTick hout ..
  have hsilent : (s.ticks n).gran.Silent s.cfg ∧ (s.ticks n).gran.spawnCount = s.gran.spawnCount ∧
      (s.ticks n).gran.grains = s.gran.grains := by
    induction n with
    | zero => exact ⟨⟨hidle, hqueue, hdensity, hclock⟩, rfl, rfl⟩
    | succ n ih =>
      obtain ⟨hx, hcount, hgrains⟩ := ih
      obtain ⟨hx', hcount', hgrains', -⟩ := htick _ (s.ticks_cfg n) hx
      rw [State.ticks_succ]
      exact ⟨hx', hcount'.trans hcount, hgrains'.trans hgrains⟩
  obtain ⟨hx, hcount, hgrains⟩ := hsilent
  obtain ⟨hx', hcount', hgrains', hout'⟩ := htick _ (s.ticks_cfg n) hx
  rw [State.ticks_succ]
  exact ⟨hcount'.trans hcount, hgrains'.trans hgrains, hx'.queue, hout'⟩

end Sys2Proof.Machine
end

section
/-! What a tick stores, memory by memory (46_looper.md R702, R705; 47_delay.md R750, R751, R755), with LOOP's
transition case by case (46_looper.md R710). -/

namespace Sys2Proof.Machine

/-! ## LOOP's transition, case by case (46_looper.md R710) -/

/-- LOOP as the transition of a tick finds it: the inputs stored, the clock and the request measured. -/
def LoopUnit.requested (cfg : Config.Params) (u : LoopUnit) : LoopUnit :=
  { loopControls cfg u with wcur := BitVec.ofNat 32 ((u.wcur.toNat + 1) % cfg.ringCap) }

/-- The memories with this tick's inputs stored in the ring (46_looper.md R702). -/
def LoopUnit.recorded (cfg : Config.Params) (u : LoopUnit) (m : Memory) : Memory :=
  (ringWrite cfg (fdiv u.inL cfg.inDiv) (fdiv u.inR cfg.inDiv) (u, m)).2

/-- LOOP and the memories after the transition of a tick, before its output. -/
def LoopUnit.moved (cfg : Config.Params) (fs : F32) (u : LoopUnit) (m : Memory) : LoopStep :=
  loopTransition cfg fs (u.requested cfg, u.recorded cfg m)

theorem loopTick_eq (cfg : Config.Params) (g : GlobalRegs) (u : LoopUnit) (m : Memory) :
    loopTick cfg g (u, m) =
      (loopOutput cfg g.dt (fdiv u.inL cfg.inDiv) (fdiv u.inR cfg.inDiv) (u.moved cfg g.sampleRate m).2
        (u.moved cfg g.sampleRate m).1, (u.moved cfg g.sampleRate m).2) := rfl

/-- Everything the transition of a tick can do to LOOP and the memories (46_looper.md R710). -/
inductive LoopUnit.Moves (cfg : Config.Params) (fs : F32) (u : LoopUnit) (m : Memory) : LoopStep → Prop
  /-- Idle without a request -/
  | waits (hstate : u.state = .idle) (hreq : (u.requested cfg).req = false) :
      Moves cfg fs u m (u.requested cfg, u.recorded cfg m)
  /-- from Idle to Active, with a snapshot -/
  | begins (hstate : u.state = .idle) (hreq : (u.requested cfg).req = true) :
      Moves cfg fs u m
        ({ (snapshot cfg fs (u.requested cfg, u.recorded cfg m)).1 with pos := f0, tAct := f0, state := .active },
          (snapshot cfg fs (u.requested cfg, u.recorded cfg m)).2)
  /-- Active with the request held -/
  | plays (hstate : u.state = .active) (hreq : (u.requested cfg).req = true) :
      Moves cfg fs u m (u.requested cfg, u.recorded cfg m)
  /-- from Active to ExitFade -/
  | exits (hstate : u.state = .active) (hreq : (u.requested cfg).req = false) :
      Moves cfg fs u m ({ u.requested cfg with tExit := f0, state := .exitFade }, u.recorded cfg m)
  /-- from ExitFade to Idle -/
  | ends (hstate : u.state = .exitFade) (htime : fle cfg.exitFade u.tExit = true) :
      Moves cfg fs u m ({ u.requested cfg with state := .idle }, u.recorded cfg m)
  /-- ExitFade before its end -/
  | fades (hstate : u.state = .exitFade) (htime : fle cfg.exitFade u.tExit = false) :
      Moves cfg fs u m (u.requested cfg, u.recorded cfg m)

theorem LoopUnit.moves_moved (cfg : Config.Params) (fs : F32) (u : LoopUnit) (m : Memory) :
    u.Moves cfg fs m (u.moved cfg fs m) := by
  unfold moved loopTransition
  split
  · next hstate =>
    split
    · next hreq => exact .begins hstate hreq
    · next hreq => exact .waits hstate (Bool.eq_false_of_not_eq_true hreq)
  · next hstate =>
    split
    · next hreq => exact .plays hstate hreq
    · next hreq => exact .exits hstate (Bool.eq_false_of_not_eq_true hreq)
  · next hstate =>
    split
    · next htime => exact .ends hstate htime
    · next htime => exact .fades hstate (Bool.eq_false_of_not_eq_true htime)

/-! ## The elements a tick leaves alone -/

/-- Both inputs go to the ring and nowhere else. -/
theorem LoopUnit.recorded_read {sp : Space} (hsp : sp ≠ .ring) (cfg : Config.Params) (u : LoopUnit) (m : Memory)
    (a : Nat) : (u.recorded cfg m).read cfg sp a = m.read cfg sp a := by
  have hring : ∀ b, ¬ (sp = .ring ∧ a = b) := fun _ h => hsp h.1
  rw [recorded, ringWrite, Memory.read_write_ne _ _ _ _ _ (hring _), Memory.read_write_ne _ _ _ _ _ (hring _)]

/-- A snapshot stores the first L' elements of both channels (46_looper.md R705). -/
theorem snapshot_read_out {cfg : Config.Params} {fs : F32} {x : LoopStep} {a : Nat}
    (h : ∀ c < 2, ¬ (c * cfg.loopMax ≤ a ∧ a < c * cfg.loopMax + (snapshotLength cfg fs x.1).toNat)) :
    (snapshot cfg fs x).2.read cfg .loopbuf a = x.2.read cfg .loopbuf a := by
  have hl := h 0 (by omega)
  have hr := h 1 (by omega)
  unfold snapshot
  rw [Memory.read_writeBlock_out, Memory.read_writeBlock_out] <;> rw [ringTail_length] <;> omega

/-- LOOP's tick stores into LOOPBUF by a snapshot only. -/
theorem loopTick_read_loopbuf_out {cfg : Config.Params} {g : GlobalRegs} {u : LoopUnit} {a : Nat}
    (h : ¬ (u.state = .idle ∧ (loopControls cfg u).req = true ∧ ∃ c < 2, c * cfg.loopMax ≤ a ∧
      a < c * cfg.loopMax + (snapshotLength cfg g.sampleRate (loopControls cfg u)).toNat)) (m : Memory) :
    (loopTick cfg g (u, m)).2.read cfg .loopbuf a = m.read cfg .loopbuf a := by
  rw [loopTick_eq]
  refine Eq.trans ?_ (u.recorded_read (by decide) cfg m a)
  have hmoves := u.moves_moved cfg g.sampleRate m
  generalize u.moved cfg g.sampleRate m = x at hmoves ⊢
  cases hmoves with
  | begins hstate hreq => exact snapshot_read_out fun c hc hin => h ⟨hstate, hreq, c, hc, hin⟩
  | _ => rfl

theorem dlyTick_read_comb_out {cfg : Config.Params} {u : DlyUnit} {a : Nat}
    (h : ∀ k w, u.combW[k]? = some w → a ≠ k * cfg.dlyCap + w) (g : GlobalRegs) (m : Memory) :
    (dlyTick cfg g u m).2.read cfg .comb a = m.read cfg .comb a := by
  have hecho : ∀ b, ¬ (Space.comb = .echo ∧ a = b) := fun _ he => absurd he.1 (by decide)
  simp only [dlyTick, echoTick, echoChannel, linePush]
  rw [Memory.read_write_ne _ _ _ _ _ (hecho _), Memory.read_write_ne _ _ _ _ _ (hecho _), reverbTick]
  refine combsTick_read_out _ _ _ _ _ 0 m _ fun k l hl => ?_
  rw [Nat.zero_add]
  exact h k l.2 (List.getElem?_zip_eq_some.1 hl).2

theorem dlyTick_read_echo_out {cfg : Config.Params} {u : DlyUnit} {a : Nat} (hl : a ≠ u.echoWL)
    (hr : a ≠ cfg.dlyCap + u.echoWR) (g : GlobalRegs) (m : Memory) :
    (dlyTick cfg g u m).2.read cfg .echo a = m.read cfg .echo a := by
  have hL : a ≠ 0 * cfg.dlyCap + (reverbTick cfg u m).1.echoWL := by rw [Nat.zero_mul, Nat.zero_add]; exact hl
  have hR : a ≠ 1 * cfg.dlyCap + (reverbTick cfg u m).1.echoWR := by rw [Nat.one_mul]; exact hr
  simp only [dlyTick, echoTick, echoChannel, linePush]
  rw [Memory.read_write_ne _ _ _ _ _ fun he => hR he.2, Memory.read_write_ne _ _ _ _ _ fun he => hL he.2]
  exact read_of_cells (combsTick_cells _ _ _ _ (by decide) _ _ _) a

/-- An execution of TICK leaves the memories of one tick. -/
theorem exec_tick_read {imm : BitVec 14} {s t : State} (h : exec (.tick imm) s = .next t) : t.read = s.tick.read := by
  obtain ⟨hcfg, hmem⟩ := exec_tick_mem h
  funext sp a
  rw [State.read, hcfg, hmem, State.read, State.tick_cfg]

/-- An execution of TICK leaves LOOP after one tick. -/
theorem exec_tick_loop {imm : BitVec 14} {s t : State} (h : exec (.tick imm) s = .next t) : t.loop = s.tick.loop := by
  rw [exec_tick_sameUnits h]

/-- Settles O14: each memory by the part of the tick that stores into it. -/
theorem tickStoresOnlyAtItsCursors : Obligations.TickStoresOnlyAtItsCursors := by
  intro imm s t a h
  rw [exec_tick_read h]
  obtain ⟨hbank, hstage, hsrc, -, hloop, hcomb, hecho⟩ := tick_reads s.tick_cfg (Eq.refl s.tick.mem) a
  refine ⟨?_, s.tick_read_ring_out, fun hout => ?_, fun hout => ?_, fun hl hr => ?_⟩
  · rintro sp (rfl | rfl | rfl)
    · exact hbank
    · exact hstage
    · exact hsrc
  · exact hloop.trans (loopTick_read_loopbuf_out hout s.mem)
  · exact hcomb.trans (dlyTick_read_comb_out hout s.global s.mem)
  · exact hecho.trans (dlyTick_read_echo_out hl hr s.global s.mem)

end Sys2Proof.Machine
end

section
/-! The looper's ring from tick to tick (46_looper.md R702, R703): only a tick, or a reset of LOOP, moves the cursor and
stores, and a tick stores at the cursor. -/

namespace Sys2Proof.Machine

/-! ## One tick -/

/-- What a tick stores in the ring: both inputs at the cursor (46_looper.md R702). -/
theorem State.tick_read_ring_in {s : State} (hm : s.memoryOk = true) (hw : s.loop.wcur.toNat < s.cfg.ringCap) :
    s.tick.read .ring s.loop.wcur.toNat = fdiv s.loop.inL s.cfg.inDiv ∧
      s.tick.read .ring (s.cfg.ringCap + s.loop.wcur.toNat) = fdiv s.loop.inR s.cfg.inDiv := by
  rw [State.tick_read_ring, State.tick_read_ring]
  simp only [ringWrite, Nat.zero_mul, Nat.zero_add, Nat.one_mul]
  have hin : s.loop.wcur.toNat < spaceSize s.cfg .ring := by simp only [spaceSize, Config.nch]; omega
  refine ⟨?_, Memory.read_write_same (Memory.wf_write _ hm hin) _ _ _⟩
  rw [Memory.read_write_ne _ _ _ _ _ (by omega), Memory.read_write_same hm]

/-- The cursor after a tick, in a ring whose addresses a word can hold. -/
theorem State.tick_wcur_toNat {s : State} (hcap : s.cfg.ringCap < 2 ^ 32) (hpos : 0 < s.cfg.ringCap) :
    s.tick.loop.wcur.toNat = (s.loop.wcur.toNat + 1) % s.cfg.ringCap := by
  rw [State.tick_wcur]
  exact word_ofNat_toNat ((Nat.mod_lt _ hpos).trans hcap)

/-! ## Any command -/

/-- What the other commands keep of the looper's ring: its cells and its cursor, beside the parameters. -/
def State.ringPart (s : State) : Config.Params × Word × Cells := (s.cfg, s.loop.wcur, s.mem.ring)

theorem State.ringPart_retire (s : State) (n : Nat) : (s.retire n).ringPart = s.ringPart := by simp [ringPart]

theorem State.ringPart_allocate (s : State) (f : F32) : (s.allocate f).ringPart = s.ringPart := by simp [ringPart]

theorem State.ringPart_foldl_allocate (hz : State → Nat → F32) (notes : List Nat) (s : State) :
    (notes.foldl (fun s n => s.allocate (hz s n)) s).ringPart = s.ringPart := by
  induction notes generalizing s with
  | nil => rfl
  | cons n ns ih => rw [List.foldl_cons, ih, State.ringPart_allocate]

theorem State.ringPart_store (s : State) (r : Reg) (d : Word) : (r.store d s).ringPart = s.ringPart := by
  cases r with
  | loop r => cases r <;> rfl
  | _ => rfl

theorem State.ringPart_resetUnit {s : State} {u : Nat} (h : u ≠ 6) : (s.resetUnit u).ringPart = s.ringPart := by
  unfold State.resetUnit; split <;> first | rfl | contradiction

theorem State.ringPart_respond (s : State) (v : Word) : (s.respond v).ringPart = s.ringPart := by simp [ringPart]

/-- Every command keeps the ring but TICK and the resets of LOOP (46_looper.md R702; 70_reset_and_hazards.md R952). -/
theorem exec_ringPart {i : Instr} {s t : State} (h : exec i s = .next t) (htick : i.isTick = false)
    (hcore : i ≠ .sreset 0) (hunit : i ≠ .sreset 6) : t.ringPart = s.ringPart := by
  have retired (u : State) (n : Nat) (hu : u.ringPart = s.ringPart) : (u.retire n).ringPart = s.ringPart :=
    (u.ringPart_retire n).trans hu
  cases i with
  | tick imm => cases htick
  | sreset unit =>
    simp only [exec, execSreset] at h
    split_ifs at h with hunmapped h0 <;> cases h
    · exact retired _ _ rfl
    · exact absurd (congrArg Instr.sreset (BitVec.eq_of_toNat_eq h0)) hcore
    · exact retired _ _ (State.ringPart_resetUnit fun h6 =>
        hunit (congrArg Instr.sreset (BitVec.eq_of_toNat_eq h6)))
  | wrreg unit reg data =>
    simp only [exec, execWrreg] at h
    split at h
    · cases h; exact retired _ _ rfl
    · next r _ =>
      split_ifs at h <;> cases h
      · exact retired _ _ rfl
      · exact retired _ _ (s.ringPart_store r data)
  | rdreg unit reg =>
    simp only [exec, execRdreg] at h
    split at h
    · cases h; rfl
    · split at h <;> cases h <;> exact retired _ _ (State.ringPart_respond _ _)
  | noteOn freq | noteOnMidi note => cases h; exact retired _ _ (s.ringPart_allocate _)
  | chordOn chord root =>
    simp only [exec, execChordOn] at h
    split_ifs at h <;> cases h
    · exact retired _ _ (State.ringPart_foldl_allocate (fun s n => noteHz s.cfg n) _ s)
    · exact retired _ _ rfl
  | nop | clrstat | allOff | granSpawn => cases h; exact retired _ _ rfl
  | noteOff | bankBegin | bankData | bankCommit | bankAbort | srcBegin | srcData | srcCommit | srcAbort =>
    simp only [exec, execNoteOff, execBankBegin, execBankData, execBankCommit, execBankAbort, execSrcBegin, execSrcData,
      execSrcCommit, execSrcAbort] at h
    split_ifs at h <;> cases h <;> exact retired _ _ rfl

/-! ## A run of commands -/

/-- A cursor that has moved, and not all the way round, is elsewhere. -/
theorem add_mod_ne_self {w k n : Nat} (hw : w < n) (hk : 0 < k) (hkn : k < n) : (w + k) % n ≠ w := by
  rcases Nat.lt_or_ge (w + k) n with h | h
  · rw [Nat.mod_eq_of_lt h]; omega
  · rw [Nat.mod_eq_sub_mod h, Nat.mod_eq_of_lt (by omega)]; omega

theorem isTick_iff {i : Instr} : i.isTick = true ↔ ∃ imm, i = .tick imm := by
  cases i <;> simp [Instr.isTick]

/-- With the cursor k ticks past w, a run of commands moves it on by its ticks, and keeps the samples stored at w until
it comes round (46_looper.md R702, R703). -/
theorem execAll_ring {w : Nat} (is : List Instr) : ∀ {s t : State} {k : Nat}, execAll is s = .next t →
    (∀ i ∈ is, i ≠ .sreset 0 ∧ i ≠ .sreset 6) → s.cfg.ringCap < 2 ^ 32 → w < s.cfg.ringCap →
    s.loop.wcur.toNat = (w + k) % s.cfg.ringCap →
    t.loop.wcur.toNat = (w + k + is.countP Instr.isTick) % s.cfg.ringCap ∧
      (0 < k → k + is.countP Instr.isTick ≤ s.cfg.ringCap →
        t.read .ring w = s.read .ring w ∧ t.read .ring (s.cfg.ringCap + w) = s.read .ring (s.cfg.ringCap + w)) := by
  induction is with
  | nil => intro s t k h _ _ _ hcur; cases h; exact ⟨hcur, fun _ _ => ⟨rfl, rfl⟩⟩
  | cons i is ih =>
    intro s t k h hreset hcap hw hcur
    obtain ⟨x, hx⟩ := exec_next i s
    rw [execAll, hx] at h
    have hcfg : x.cfg = s.cfg := exec_cfg hx
    have hresets := fun j hj => hreset j (List.mem_cons_of_mem i hj)
    cases htick : i.isTick with
    | false =>
      obtain ⟨-, hpart⟩ := Prod.mk.inj (exec_ringPart hx htick (hreset i List.mem_cons_self).1
        (hreset i List.mem_cons_self).2)
      obtain ⟨hwcur, hring⟩ := Prod.mk.inj hpart
      have hread (a : Nat) : x.read .ring a = s.read .ring a := by
        rw [State.read, hcfg]; exact read_of_cells (sp := .ring) hring a
      have hrest := ih h hresets (hcfg ▸ hcap) (hcfg ▸ hw) (k := k) (by rw [hwcur, hcfg]; exact hcur)
      rw [hcfg, hread, hread] at hrest
      rwa [List.countP_cons_of_neg (by simp [htick])]
    | true =>
      obtain ⟨imm, rfl⟩ := isTick_iff.1 htick
      have hwcur : x.loop.wcur.toNat = (w + (k + 1)) % x.cfg.ringCap := by
        rw [exec_tick_loop hx, State.tick_wcur_toNat hcap (by omega), hcur, hcfg, Nat.mod_add_mod, Nat.add_assoc]
      obtain ⟨hmoved, hkept⟩ := ih h hresets (hcfg ▸ hcap) (hcfg ▸ hw) hwcur
      rw [List.countP_cons_of_pos htick]
      rw [hcfg] at hmoved hkept
      refine ⟨by rw [hmoved]; congr 1; omega, fun hk hn => ?_⟩
      have hne : s.loop.wcur.toNat ≠ w := hcur ▸ add_mod_ne_self hw hk (by omega)
      have hlt : s.loop.wcur.toNat < s.cfg.ringCap := hcur ▸ Nat.mod_lt _ (by omega)
      obtain ⟨hl, hr⟩ := hkept (by omega) (by omega)
      rw [hl, hr, exec_tick_read hx]
      exact ⟨s.tick_read_ring_out hne.symm (by omega), s.tick_read_ring_out (by omega) (by omega)⟩

/-- Settles O45: one tick, and then any commands that do not reset LOOP. -/
theorem ringKeepsASampleUntilOverwritten : Obligations.RingKeepsASampleUntilOverwritten := by
  intro imm s u h hm hw hcap w xL xR
  obtain ⟨hl, hr⟩ := s.tick_read_ring_in hm hw
  have hread := exec_tick_read h
  have hcfg : u.cfg = s.cfg := exec_cfg h
  have hwcur : u.loop.wcur.toNat = (w + 1) % s.cfg.ringCap := by
    rw [exec_tick_loop h]
    exact State.tick_wcur_toNat hcap (by omega)
  rw [← hread] at hl hr
  refine ⟨⟨hl, hr, fun a hal har => ?_, hwcur⟩, fun is t hrun hreset => ?_⟩
  · rw [hread]
    exact s.tick_read_ring_out hal har
  · have hring := execAll_ring is hrun hreset (hcfg ▸ hcap) (hcfg ▸ hw) (hcfg ▸ hwcur)
    rw [hcfg, hl, hr] at hring
    exact ⟨hring.1, fun hn => hring.2 Nat.one_pos (by omega)⟩

end Sys2Proof.Machine
end

section
/-! LOOP's tick, part after part: the request and the transition, the output, and the snapshot (46_looper.md R700 to
R710; 45_granular.md R651). -/

namespace Sys2Proof.Machine

/-! ## What the transition and the output leave of LOOP -/

/-- LOOP but for what the transition and the output of a tick write. -/
def LoopUnit.frame (u : LoopUnit) : LoopUnit :=
  { u with outL := 0, outR := 0, state := .idle, loopLen := 0, xfLen := 0, pos := 0, speed := 0, tAct := 0, tExit := 0 }

theorem LoopUnit.Moves.frame {cfg : Config.Params} {fs : F32} {u : LoopUnit} {m : Memory} {x : LoopStep}
    (h : u.Moves cfg fs m x) : x.1.frame = (u.requested cfg).frame := by
  cases h <;> rfl

section
variable (cfg : Config.Params) (dt xL xR : F32) (m : Memory) (u : LoopUnit)

theorem loopOutput_frame : (loopOutput cfg dt xL xR m u).frame = u.frame := by
  unfold loopOutput; dsimp only; split <;> rfl

theorem loopOutput_state : (loopOutput cfg dt xL xR m u).state = u.state := by
  unfold loopOutput; dsimp only; split <;> rfl

theorem loopOutput_loopLen : (loopOutput cfg dt xL xR m u).loopLen = u.loopLen := by
  unfold loopOutput; dsimp only; split <;> rfl

theorem loopOutput_xfLen : (loopOutput cfg dt xL xR m u).xfLen = u.xfLen := by
  unfold loopOutput; dsimp only; split <;> rfl

/-- In Idle the input passes through (46_looper.md R710). -/
theorem loopOutput_idle {u : LoopUnit} (h : u.state = .idle) :
    loopOutput cfg dt xL xR m u = { u with outL := u.inL, outR := u.inR, speed := f1 } := if_pos h

/-- In Active and ExitFade the loop plays (46_looper.md R707 to R710). -/
theorem loopOutput_playing {u : LoopUnit} (h : u.state ≠ .idle) :
    loopOutput cfg dt xL xR m u =
      { u with
        speed := playSpeed u
        outL := fmul (loopVoice cfg m u 0 xL) cfg.outMul
        outR := fmul (loopVoice cfg m u 1 xR) cfg.outMul
        tExit := if u.state = .exitFade then fadd u.tExit dt else u.tExit
        pos := advancePos u (playSpeed u)
        tAct := fadd u.tAct dt } := if_neg h

end

/-- LOOP and the memories after the transition of the next tick. -/
def State.loopMoved (s : State) : LoopStep := s.loop.moved s.cfg s.global.sampleRate s.mem

theorem State.tick_loop_eq (s : State) : s.tick.loop =
    loopOutput s.cfg s.global.dt (fdiv s.loop.inL s.cfg.inDiv) (fdiv s.loop.inR s.cfg.inDiv) s.loopMoved.2
      s.loopMoved.1 := by
  rw [State.tick_loop, loopTick_eq]; rfl

theorem State.loopMoved_moves (s : State) : s.loop.Moves s.cfg s.global.sampleRate s.mem s.loopMoved :=
  LoopUnit.moves_moved ..

theorem State.tick_loop_frame (s : State) : s.tick.loop.frame = (s.loop.requested s.cfg).frame := by
  rw [State.tick_loop_eq, loopOutput_frame, s.loopMoved_moves.frame]

/-- The clock, the request and the cursor stay as the controls and the ring's write left them. -/
theorem State.tick_requested (s : State) :
    s.tick.loop.clkPrev = (s.loop.requested s.cfg).clkPrev ∧ s.tick.loop.clkCount = (s.loop.requested s.cfg).clkCount ∧
      s.tick.loop.clkEdges = (s.loop.requested s.cfg).clkEdges ∧
      s.tick.loop.clkPeriod = (s.loop.requested s.cfg).clkPeriod ∧ s.tick.loop.req = (s.loop.requested s.cfg).req ∧
      s.tick.loop.buildPrev = (s.loop.requested s.cfg).buildPrev ∧ s.tick.loop.wcur = (s.loop.requested s.cfg).wcur :=
  have hframe := s.tick_loop_frame
  ⟨(congrArg LoopUnit.clkPrev hframe :), (congrArg LoopUnit.clkCount hframe :), (congrArg LoopUnit.clkEdges hframe :),
    (congrArg LoopUnit.clkPeriod hframe :), (congrArg LoopUnit.req hframe :), (congrArg LoopUnit.buildPrev hframe :),
    (congrArg LoopUnit.wcur hframe :)⟩

/-- The loop buffer after a tick is as the transition left it. -/
theorem State.tick_read_loopbuf (s : State) (a : Nat) :
    s.tick.read .loopbuf a = s.loopMoved.2.read s.cfg .loopbuf a := by
  obtain ⟨-, -, -, -, hloop, -⟩ := tick_reads s.tick_cfg (Eq.refl s.tick.mem) a
  rw [hloop, loopTick_eq]
  rfl

/-! ## What the transition writes (46_looper.md R710) -/

/-- The state a tick leads to. -/
def LoopUnit.nextState (cfg : Config.Params) (u : LoopUnit) : LoopState :=
  match u.state with
  | .idle => if (u.requested cfg).req = true then .active else .idle
  | .active => if (u.requested cfg).req = true then .active else .exitFade
  | .exitFade => if fle cfg.exitFade u.tExit = true then .idle else .exitFade

section
variable {cfg : Config.Params} {fs : F32} {u : LoopUnit} {m : Memory} {x : LoopStep}

@[simp] theorem LoopUnit.requested_state : (u.requested cfg).state = u.state := rfl
@[simp] theorem LoopUnit.requested_pos : (u.requested cfg).pos = u.pos := rfl
@[simp] theorem LoopUnit.requested_tAct : (u.requested cfg).tAct = u.tAct := rfl
@[simp] theorem LoopUnit.requested_tExit : (u.requested cfg).tExit = u.tExit := rfl
@[simp] theorem LoopUnit.requested_loopLen : (u.requested cfg).loopLen = u.loopLen := rfl
@[simp] theorem LoopUnit.requested_xfLen : (u.requested cfg).xfLen = u.xfLen := rfl

theorem LoopUnit.Moves.state_eq (h : u.Moves cfg fs m x) : x.1.state = u.nextState cfg := by
  cases h with
  | waits hstate hreq | begins hstate hreq | plays hstate hreq | exits hstate hreq => simp [nextState, hstate, hreq]
  | ends hstate htime | fades hstate htime => simp [nextState, hstate, htime]

/-- The registers that the output reads. -/
theorem LoopUnit.Moves.registers_eq (h : u.Moves cfg fs m x) :
    x.1.rampS = u.rampS ∧ x.1.intensity = u.intensity ∧ x.1.boostEn = u.boostEn ∧ x.1.inL = u.inL ∧ x.1.inR = u.inR :=
  have hframe := h.frame
  ⟨(congrArg LoopUnit.rampS hframe :), (congrArg LoopUnit.intensity hframe :), (congrArg LoopUnit.boostEn hframe :),
    (congrArg LoopUnit.inL hframe :), (congrArg LoopUnit.inR hframe :)⟩

/-- The loop starts from 0 with a snapshot, and goes on otherwise. -/
theorem LoopUnit.Moves.position_eq (h : u.Moves cfg fs m x) :
    x.1.pos = (if u.state = .idle ∧ x.1.state = .active then f0 else u.pos) ∧
      x.1.tAct = (if u.state = .idle ∧ x.1.state = .active then f0 else u.tAct) ∧
      x.1.tExit = if u.state = .active ∧ x.1.state = .exitFade then f0 else u.tExit := by
  cases h with
  | waits hstate _ | begins hstate _ | plays hstate _ | exits hstate _ | ends hstate _ | fades hstate _ =>
    simp [hstate, snapshot]

/-- Only a snapshot sets the loop's length and window. -/
theorem LoopUnit.Moves.lengths_eq (h : u.Moves cfg fs m x) (hkeeps : ¬ (u.state = .idle ∧ x.1.state = .active)) :
    x.1.loopLen = u.loopLen ∧ x.1.xfLen = u.xfLen := by
  cases h with
  | begins hstate _ => exact absurd ⟨hstate, rfl⟩ hkeeps
  | _ => exact ⟨rfl, rfl⟩

end

/-! ## The snapshot (46_looper.md R704, R705) -/

section
variable {cfg : Config.Params} {fs : F32} {x : LoopStep}

theorem snapshotLength_range (hc : cfg.Legal) (fs : F32) (u : LoopUnit) :
    (cfg.lMin : Int) ≤ snapshotLength cfg fs u ∧ snapshotLength cfg fs u ≤ cfg.loopMax :=
  clampInt_le (by exact_mod_cast hc.lMin_le)

theorem snapshot_loopLen (hc : cfg.Legal) :
    ((snapshot cfg fs x).1.loopLen.toNat : Int) = snapshotLength cfg fs x.1 := by
  have hrange := snapshotLength_range hc fs x.1
  have hmax := hc.loopMax_lt
  have hcap := hc.ringCap_lt
  have hword : (snapshot cfg fs x).1.loopLen.toNat = (snapshotLength cfg fs x.1).toNat := word_ofNat_toNat (by omega)
  omega

theorem snapshot_xfLen (hc : cfg.Legal) :
    ((snapshot cfg fs x).1.xfLen.toNat : Int) = snapshotWindow fs x.1 (snapshotLength cfg fs x.1) := by
  have hrange := snapshotLength_range hc fs x.1
  have hmax := hc.loopMax_lt
  have hcap := hc.ringCap_lt
  have hwindow : 0 ≤ snapshotWindow fs x.1 (snapshotLength cfg fs x.1) ∧
      snapshotWindow fs x.1 (snapshotLength cfg fs x.1) ≤ snapshotLength cfg fs x.1 / 2 := clampInt_le (by omega)
  have hword : (snapshot cfg fs x).1.xfLen.toNat = (snapshotWindow fs x.1 (snapshotLength cfg fs x.1)).toNat :=
    word_ofNat_toNat (by omega)
  omega

/-- The address of the ring's element i of the last len ones, without negative numbers. -/
theorem ringTail_address {w len i cap : Nat} (h : len ≤ cap) :
    (((w : Int) - len + i) % (cap : Int)).toNat = (w + cap - len + i) % cap := by
  have hshift : (w : Int) - len + i + cap = (w + cap - len + i : Nat) := by omega
  rw [← Int.add_emod_right, hshift, ← Int.natCast_mod, Int.toNat_natCast]

theorem ringTail_getElem (m : Memory) {w len c i : Nat} (h : i < (ringTail cfg m w len c).length)
    (hcap : len ≤ cfg.ringCap) :
    (ringTail cfg m w len c)[i] = m.read cfg .ring (c * cfg.ringCap + (w + cfg.ringCap - len + i) % cfg.ringCap) := by
  simp only [ringTail, List.getElem_map, List.getElem_range, ringTail_address hcap]

/-- A snapshot holds the most recent samples of the ring, the oldest first (46_looper.md R705). -/
theorem snapshot_read (hc : cfg.Legal) {len c i : Nat} (hlen : (snapshotLength cfg fs x.1).toNat = len) (hch : c < 2)
    (hi : i < len) : (snapshot cfg fs x).2.read cfg .loopbuf (c * cfg.loopMax + i) =
      x.2.read cfg .ring (c * cfg.ringCap + (x.1.wcur.toNat + cfg.ringCap - len + i) % cfg.ringCap) := by
  have hrange := snapshotLength_range hc fs x.1
  have hmax := hc.loopMax_lt
  have hsize (d : Nat) : i < (ringTail cfg x.2 x.1.wcur.toNat len d).length := by rwa [ringTail_length]
  unfold snapshot
  simp only [hlen]
  obtain rfl | rfl : c = 0 ∨ c = 1 := by omega
  · rw [Memory.read_writeBlock_out (by omega), Memory.read_writeBlock (hsize 0), ringTail_getElem _ _ (by omega)]
  · rw [Memory.read_writeBlock (hsize 1), ringTail_getElem _ _ (by omega)]

end

/-- A build request in Idle: the snapshot, and the loop from its start (46_looper.md R710). -/
theorem LoopUnit.Moves.eq_begins {cfg : Config.Params} {fs : F32} {u : LoopUnit} {m : Memory} {x : LoopStep}
    (h : u.Moves cfg fs m x) (hidle : u.state = .idle) (hrequested : (u.requested cfg).req = true) :
    x = ({ (snapshot cfg fs (u.requested cfg, u.recorded cfg m)).1 with pos := f0, tAct := f0, state := .active },
      (snapshot cfg fs (u.requested cfg, u.recorded cfg m)).2) := by
  cases h with
  | begins => rfl
  | waits _ hreq => exact absurd (hrequested.symm.trans hreq) (by decide)
  | plays hstate _ | exits hstate _ | ends hstate _ | fades hstate _ =>
    exact absurd (hidle.symm.trans hstate) (by decide)

/-- Settles O47: the transition from Idle to Active is the snapshot, and the output changes none of it. -/
theorem snapshotCopiesTheRing : Obligations.SnapshotCopiesTheRing := by
  intro imm s t hlegal _ h hidle hreq raw L fade W
  have hc := Config.Params.legal_facts hlegal
  have hloop := exec_tick_loop h
  obtain ⟨-, -, -, hperiod, hrequested, -, hwcur⟩ := s.tick_requested
  rw [← hloop] at hperiod hrequested hwcur
  have hmoved := s.loopMoved_moves.eq_begins hidle (hrequested.symm.trans hreq)
  have hL : L = snapshotLength s.cfg s.global.sampleRate (s.loop.requested s.cfg) := by
    simp only [L, raw, hperiod, snapshotLength, Bool.and_eq_true, decide_eq_true_eq]
    rfl
  have hW : W = snapshotWindow s.global.sampleRate (s.loop.requested s.cfg) L := rfl
  have hlen : (t.loop.loopLen.toNat : Int) = L := by
    rw [hloop, s.tick_loop_eq, loopOutput_loopLen, hmoved, hL]
    exact snapshot_loopLen hc
  have hwin : (t.loop.xfLen.toNat : Int) = W := by
    rw [hloop, s.tick_loop_eq, loopOutput_xfLen, hmoved, hW, hL]
    exact snapshot_xfLen hc
  refine ⟨?_, hlen, hwin, fun c i hch hi => ?_⟩
  · rw [hloop, s.tick_loop_eq, loopOutput_state, hmoved]
  · rw [exec_tick_read h, s.tick_read_loopbuf, s.tick_read_ring, hmoved, hwcur]
    exact snapshot_read hc (by rw [← hL, ← hlen, Int.toNat_natCast]) hch hi

/-! ## The request and the clock (46_looper.md R701; 45_granular.md R651) -/

/-- The build request follows the gate, or is flipped at its rising edge. -/
theorem LoopUnit.requested_req (cfg : Config.Params) (u : LoopUnit) : (u.requested cfg).req =
    if u.mode = 0 then gateHigh cfg u.buildIn
    else if gateHigh cfg u.buildIn = true ∧ u.buildPrev = false then !u.req else u.req := by
  simp [requested, loopControls]

/-- The clock is measured from rising edge to rising edge. -/
theorem LoopUnit.requested_clock {cfg : Config.Params} {u : LoopUnit} {rise : Bool}
    (hrise : rise = ((u.requested cfg).clkPrev && !u.clkPrev)) :
    (u.requested cfg).clkCount = (if rise = true then 0 else min (u.clkCount + 1) (2 ^ 32 - 1)) ∧
      (u.requested cfg).clkEdges = (if rise = true then min (u.clkEdges + 1) 2 else u.clkEdges) ∧
      (u.requested cfg).clkPeriod =
        if rise = true ∧ 1 ≤ u.clkEdges then BitVec.ofNat 32 (min (u.clkCount + 1) (2 ^ 32 - 1)) else u.clkPeriod := by
  subst hrise
  simp only [requested, loopControls, clockMeasure_eq, and_self]

/-! ## The tick -/

/-- Settles O46: the request and the clock as the controls leave them, the state and the position as the transition
does, and the output read at that position. -/
theorem loopFollowsItsRequestAndPlays : Obligations.LoopFollowsItsRequestAndPlays := by
  intro imm s t h
  rw [exec_tick_loop h, exec_tick_read h]
  have hmoves := s.loopMoved_moves
  have hloop := s.tick_loop_eq
  have hread := s.tick_read_loopbuf
  generalize s.loopMoved = x at hmoves hloop hread
  obtain ⟨v, m⟩ := x
  have hstate : s.tick.loop.state = v.state := by rw [hloop, loopOutput_state]
  have hlen : s.tick.loop.loopLen = v.loopLen := by rw [hloop, loopOutput_loopLen]
  have hwin : s.tick.loop.xfLen = v.xfLen := by rw [hloop, loopOutput_xfLen]
  obtain ⟨hramp, hintensity, hboost, hinL, hinR⟩ := hmoves.registers_eq
  obtain ⟨hvpos, hvAct, hvExit⟩ := hmoves.position_eq
  rw [← hstate] at hvpos hvAct hvExit
  intro u rise count high req begins pos tAct tExit L W x smooth speed element sample seam looped boosted out moved
  have hpos : pos = v.pos := hvpos.symm
  have htAct : tAct = v.tAct := hvAct.symm
  have htExit : tExit = v.tExit := hvExit.symm
  obtain ⟨hclkPrev, hclkCount, hclkEdges, hclkPeriod, hrequested, hbuildPrev, -⟩ := s.tick_requested
  obtain ⟨hcount, hedges, hperiod⟩ := LoopUnit.requested_clock (u := u) (congrArg (· && !u.clkPrev) hclkPrev)
  have hreq : (u.requested s.cfg).req = req := u.requested_req s.cfg
  refine ⟨⟨hclkPrev, hclkCount.trans hcount, hclkEdges.trans hedges, hclkPeriod.trans hperiod⟩, hrequested.trans hreq,
    hbuildPrev, ?_, ?_, ?_, ?_⟩
  · rw [hstate, hmoves.state_eq, ← hreq]
    rfl
  · intro hkeeps
    rw [hlen, hwin]
    exact hmoves.lengths_eq (hstate ▸ hkeeps)
  · intro hidle
    rw [hidle] at hvpos hvAct hvExit
    rw [hloop, loopOutput_idle _ _ _ _ _ (hstate.symm.trans hidle)]
    exact ⟨hinL, hinR, rfl, by simpa using hvpos, by simpa using hvAct, by simpa using hvExit⟩
  · intro hplays
    have hspeed : speed = playSpeed v := by
      simp only [speed, smooth, x, htAct, u, ← hramp, ← hintensity]
      rfl
    have hL : L = v.loopLen.toNat := by rw [← hlen]
    have hW : W = v.xfLen.toNat := by rw [← hwin]
    have hsample (c : Nat) (q : F32) : sample c q = loopSample s.cfg m v c q := by
      simp only [sample, element, hL, hread]
      rfl
    have hlooped (c : Nat) : looped c = loopRead s.cfg m v c v.pos := by
      simp only [looped, seam, hsample, hL, hW, hpos, loopRead, Bool.and_eq_true, decide_eq_true_eq, Nat.cast_pos]
      rfl
    have hout (c : Nat) (live : F32) :
        out c live = fmul (loopVoice s.cfg m v c (fdiv live s.cfg.inDiv)) s.cfg.outMul := by
      simp only [out, boosted, hlooped, loopVoice, hstate, htExit, u, ← hboost]
      rfl
    have hmoved : (if fle (toF32 L) moved = true then fsub moved (toF32 (L - W)) else moved) = advancePos v speed := by
      simp only [moved, hpos, hL, hW]
      rfl
    rw [hspeed, hout, hout, hmoved, hspeed, hstate, htAct, htExit, hloop,
      loopOutput_playing _ _ _ _ _ (hstate ▸ hplays)]
    exact ⟨rfl, rfl, rfl, rfl, rfl, rfl⟩

end Sys2Proof.Machine
end

section
/-! Binary32 facts that LOOP's playback rests on: whole numbers below 2^24, and interpolation at a weight of 0
(00_scope.md R15 to R18). -/

namespace Sys2Proof.Machine

/-! ## Whole numbers below 2^24 -/

theorem toF32_zero : toF32 0 = f0 := by decide

theorem fadd_toF32_one {a : Nat} (h : a + 1 < 2 ^ 24) : fadd (toF32 a) f1 = toF32 (a + 1 : Nat) := by
  obtain ⟨hfin, hval, -⟩ := toF32_nat (n := a) (by omega)
  obtain ⟨hfin', hval', -⟩ := toF32_nat h
  have hunit := unitScale_cast_pos
  have hone : scaled f1 = (unitScale : Int) := by decide
  refine fadd_exact hfin isFinite_f1 hfin' ?_ ?_
  · rw [hval, hval', hone]
    push_cast
    ring
  · rw [hval']
    positivity

theorem fsub_toF32 {a b : Nat} (hab : b ≤ a) (h : a < 2 ^ 24) : fsub (toF32 a) (toF32 b) = toF32 (a - b : Nat) := by
  obtain ⟨ha, hva, hsa⟩ := toF32_nat h
  obtain ⟨hb, hvb, hsb⟩ := toF32_nat (n := b) (by omega)
  obtain ⟨hd, hvd, -⟩ := toF32_nat (n := a - b) (by omega)
  have hnb := isFinite_fneg.trans hb
  have hsum : scaled (toF32 a) + scaled (fneg (toF32 b)) = (a - b : Nat) * (unitScale : Int) := by
    rw [scaled_fneg, hva, hvb, Nat.cast_sub hab]
    ring
  rcases Nat.eq_zero_or_pos (a - b) with h0 | hpos
  · rw [fsub, fadd_zero_sum ha hnb (by rw [hsum, h0]; simp), hsa, h0]
    exact toF32_zero.symm
  · refine fadd_exact ha hnb hd (hsum.trans hvd.symm) ?_
    have hunit := unitScale_cast_pos
    rw [hvd]
    positivity

theorem fle_toF32 {a b : Nat} (ha : a < 2 ^ 24) (hb : b < 2 ^ 24) : fle (toF32 a) (toF32 b) = true ↔ a ≤ b := by
  obtain ⟨hfa, hva, -⟩ := toF32_nat ha
  obtain ⟨hfb, hvb, -⟩ := toF32_nat hb
  rw [fle_iff hfa hfb, hva, hvb, mul_le_mul_iff_of_pos_right unitScale_cast_pos, Nat.cast_le]

theorem toIntSat_toF32 {a n : Nat} (han : a < n) (h : n < 2 ^ 24) : toIntSat (toF32 a) 0 ((n : Int) - 1) = a := by
  obtain ⟨hfin, hval, -⟩ := toF32_nat (n := a) (by omega)
  have hfloor : ffloor (toF32 a) = a := by
    rw [ffloor_of_finite hfin, hval, Int.mul_ediv_cancel _ unitScale_cast_pos.ne']
  rw [toIntSat, isNaN_of_finite hfin, hfloor, clampInt]
  simp only [Bool.false_eq_true, if_false]
  split_ifs <;> omega

/-! ## Zero as an operand -/

/-- A product with 0.0 is a zero. -/
theorem fmul_f0_zero {y : F32} (hy : isFinite y = true) : isFinite (fmul f0 y) = true ∧ scaled (fmul f0 y) = 0 := by
  have hin : inRange f0 f0 (fmul f0 y) = true :=
    inRange_fmul isFinite_f0 hy isFinite_f0 isFinite_f0 (by simp [scaled_f0]) (by simp [scaled_f0])
  obtain ⟨hfin, hge, hle⟩ := (inRange_iff isFinite_f0 isFinite_f0).1 hin
  rw [scaled_f0] at hge hle
  exact ⟨hfin, le_antisymm hle hge⟩

/-- A sum with a zero has the value of the other operand. -/
theorem feq_fadd_zero {a z : F32} (ha : isFinite a = true) (hz : isFinite z = true) (h0 : scaled z = 0) :
    feq (fadd a z) a = true := by
  have hin : inRange a a (fadd a z) = true := inRange_fadd ha hz ha ha (by omega) (by omega)
  obtain ⟨hfin, hge, hle⟩ := (inRange_iff ha ha).1 hin
  exact (feq_iff hfin ha).2 (le_antisymm hle hge)

/-- Between values of at most 2^126, an interpolation of weight 0 has the value of its first end (00_scope.md R17). -/
theorem feq_lerp_f0 {a b : F32} (ha : inRange 0xFE800000 0x7E800000 a = true)
    (hb : inRange 0xFE800000 0x7E800000 b = true) : feq (lerp a b f0) a = true := by
  obtain ⟨hfa, hloa, hhia⟩ := (inRange_iff (by decide) (by decide)).1 ha
  obtain ⟨hfb, hlob, hhib⟩ := (inRange_iff (by decide) (by decide)).1 hb
  have hlo : scaled 0xFF000000 = scaled 0xFE800000 - scaled 0x7E800000 := by decide
  have hhi : scaled 0x7F000000 = scaled 0x7E800000 - scaled 0xFE800000 := by decide
  have hdiff : inRange 0xFF000000 0x7F000000 (fsub b a) = true :=
    inRange_fsub hfb hfa (by decide) (by decide) (by omega) (by omega)
  obtain ⟨hfin, -, -⟩ := (inRange_iff (by decide) (by decide)).1 hdiff
  obtain ⟨hfz, hz⟩ := fmul_f0_zero hfin
  exact feq_fadd_zero hfa hfz hz

/-! ## Values from 0.0 on, infinity among them -/

theorem finite_or_inf_of_nonneg {x : F32} (h : fle f0 x = true) : isFinite x = true ∨ x = 0x7F800000 := by
  have hn := (isNaN_of_fle h).2
  rw [fle_eq, orderKey_f0] at h
  simp only [Bool.and_eq_true, decide_eq_true_eq] at h
  cases hs : fSign x with
  | false => exact nonneg_cases hn hs
  | true =>
    have hkey := h.2
    rw [orderKey, if_pos hs] at hkey
    exact .inl (isFinite_of_mag_lt (by omega))

theorem scaled_nonneg_of_fle {x : F32} (hx : isFinite x = true) (h : fle f0 x = true) : 0 ≤ scaled x := by
  rwa [fle_iff isFinite_f0 hx, scaled_f0] at h

theorem scaled_pos_of_isPositive {x : F32} (h : isPositive x = true) : 0 < scaled x := by
  rw [isPositive, Bool.and_eq_true] at h
  exact (scaled_pos_of_flt h.1 h.2).1

theorem fle_f0_fadd {t d : F32} (ht : fle f0 t = true) (hd : isPositive d = true) : fle f0 (fadd t d) = true := by
  have hfd := isFinite_of_isPositive hd
  rcases finite_or_inf_of_nonneg ht with hft | rfl
  · have hge := scaled_nonneg_of_fle hft ht
    have hpos := scaled_pos_of_isPositive hd
    exact le_fadd hft hfd isFinite_f0 (by rw [scaled_f0]; omega)
  · have hinf : isNaN 0x7F800000 = false ∧ isInf 0x7F800000 = true := by decide
    simp only [fadd, hinf.1, hinf.2, isNaN_of_finite hfd, isInf_of_finite hfd, Bool.or_self, Bool.false_eq_true,
      Bool.false_and, if_true, if_false]
    decide

/-- A finite value over a finite one that is no zero is no NaN. -/
theorem isNaN_fdiv {a b : F32} (ha : isFinite a = true) (hb : isFinite b = true) (h0 : scaled b ≠ 0) :
    isNaN (fdiv a b) = false := by
  have hmag : scaledMag b ≠ 0 := by rwa [scaledMag_eq, ← natAbs_scaled, Int.natAbs_ne_zero]
  simp only [fdiv, isNaN_of_finite ha, isNaN_of_finite hb, isInf_of_finite ha, isInf_of_finite hb, hmag, Bool.or_self,
    Bool.false_eq_true, if_false]
  exact packSign_isNaN roundMag_le

theorem fle_f0_fdiv {t d : F32} (ht : fle f0 t = true) (hd : isPositive d = true) : fle f0 (fdiv t d) = true := by
  have hfd := isFinite_of_isPositive hd
  have hpos := scaled_pos_of_isPositive hd
  rcases finite_or_inf_of_nonneg ht with hft | rfl
  · have hge := scaled_nonneg_of_fle hft ht
    have hkey : orderKey f0 ≤ orderKey (fdiv t d) := by
      rw [fdiv_key hft hfd hpos.ne', Int.sign_eq_one_of_pos hpos, mul_one]
      refine le_rounded (by omega) isFinite_f0 ?_
      rw [scaled_f0, zero_mul]
      exact mul_nonneg hge unitScale_cast_pos.le
    rw [fle_eq, isNaN_f0, isNaN_fdiv hft hfd hpos.ne', decide_eq_true hkey]
    rfl
  · have hinf : isNaN 0x7F800000 = false ∧ isInf 0x7F800000 = true ∧ fSign 0x7F800000 = false := by decide
    rw [isPositive, Bool.and_eq_true] at hd
    have hsign := (scaled_pos_of_flt hd.1 hd.2).2
    simp only [fdiv, hinf.1, hinf.2.1, hinf.2.2, hsign, isNaN_of_finite hfd, isInf_of_finite hfd, Bool.or_self,
      Bool.false_eq_true, bne_self_eq_false, if_true, if_false]
    decide

theorem isLevel_fmin_f1 {q : F32} (hq : fle f0 q = true) : isLevel (fmin q f1) = true := by
  have hn := (isNaN_of_fle hq).2
  rw [fmin, hn, isNaN_f1, Bool.or_self, if_neg Bool.false_ne_true]
  split
  · exact isLevel_f1
  · next hle => exact isLevel_iff.2 ⟨hq, fle_of_not_flt hn isNaN_f1 (Bool.eq_false_of_not_eq_true hle)⟩

/-- The smoothstep 3x² − 2x³ of x in [0, 1] (46_looper.md R707) is finite. -/
theorem isFinite_smoothstep {x : F32} (hx : isLevel x = true) :
    isFinite (fmul (fmul x x) (fsub 0x40400000 (fmul 0x40000000 x))) = true := by
  obtain ⟨hfx, hge, hle⟩ := (inRange_iff (by decide) (by decide)).1 hx
  have hone : scaled 0x3F800000 = (unitScale : Int) := by decide
  have hzero : scaled 0x00000000 = 0 := by decide
  rw [hzero] at hge
  rw [hone] at hle
  have hsquare : inRange 0x00000000 0x3F800000 (fmul x x) = true := by
    refine inRange_fmul hfx hfx (by decide) (by decide) ?_ ?_
    · rw [hzero, zero_mul]; exact mul_nonneg hge hge
    · rw [hone]; exact mul_le_mul hle hle hge unitScale_cast_pos.le
  have htwo : scaled 0x40000000 = (2 : Nat) * (unitScale : Int) := by decide
  have hthree : scaled 0x40400000 = 3 * (unitScale : Int) := by decide
  have hdouble : inRange 0x00000000 0x40000000 (fmul 0x40000000 x) = true := by
    refine inRange_fmul_nat 2 (by decide) htwo hfx (by decide) (by decide) ?_ ?_
    · rw [hzero]; positivity
    · rw [htwo]; exact mul_le_mul_of_nonneg_left hle (by positivity)
  obtain ⟨hfs, hges, hles⟩ := (inRange_iff (by decide) (by decide)).1 hsquare
  obtain ⟨hfd, hged, hled⟩ := (inRange_iff (by decide) (by decide)).1 hdouble
  have hrest : inRange 0x00000000 0x40400000 (fsub 0x40400000 (fmul 0x40000000 x)) = true := by
    refine inRange_fsub (by decide) hfd (by decide) (by decide) ?_ ?_ <;> omega
  obtain ⟨hfr, hger, hler⟩ := (inRange_iff (by decide) (by decide)).1 hrest
  have hprod : inRange 0x00000000 0x40400000 (fmul (fmul x x) (fsub 0x40400000 (fmul 0x40000000 x))) = true := by
    refine inRange_fmul hfs hfr (by decide) (by decide) ?_ ?_
    · rw [hzero] at *; rw [zero_mul]; exact mul_nonneg hges hger
    · rw [mul_comm]; exact mul_le_mul hler (hone ▸ hles) (hzero ▸ hges) (by rw [hthree]; positivity)
  exact ((inRange_iff (by decide) (by decide)).1 hprod).1

end Sys2Proof.Machine
end

section
/-! The loop property (46_looper.md R711): an Active loop whose request is held, at speed 1.0, from tick to tick. -/

namespace Sys2Proof.Machine

/-! ## The position from tick to tick -/

/-- Where the loop of length L and window W is m samples after its start: it runs through 0 .. L − 1, and after that
through W .. L − 1. -/
def loopPosition (L W m : Nat) : Nat := if m < L then m else W + (m - W) % (L - W)

section
variable {L W m : Nat}

theorem loopPosition_of_ge (hm : W ≤ m) : loopPosition L W m = W + (m - W) % (L - W) := by
  unfold loopPosition
  split
  · rw [Nat.mod_eq_of_lt (by omega)]; omega
  · rfl

theorem loopPosition_lt (hW : W < L) : loopPosition L W m < L := by
  unfold loopPosition
  split
  · assumption
  · have := Nat.mod_lt (m - W) (show 0 < L - W by omega)
    omega

theorem loopPosition_succ (hW : W < L) :
    loopPosition L W (m + 1) = if loopPosition L W m + 1 = L then W else loopPosition L W m + 1 := by
  rcases Nat.lt_or_ge m W with hm | hm
  · have hnow : loopPosition L W m = m := if_pos (by omega)
    have hnext : loopPosition L W (m + 1) = m + 1 := if_pos (by omega)
    rw [hnow, hnext, if_neg (by omega)]
  · have hmod := Nat.mod_lt (m - W) (show 0 < L - W by omega)
    rw [loopPosition_of_ge hm, loopPosition_of_ge (by omega), Nat.sub_add_comm hm, ← Nat.mod_add_mod]
    split
    · next hend => rw [show (m - W) % (L - W) + 1 = L - W by omega, Nat.mod_self, Nat.add_zero]
    · next hin => rw [Nat.mod_eq_of_lt (by omega), Nat.add_assoc]

theorem loopPosition_add_period (hm : W ≤ m) : loopPosition L W (m + (L - W)) = loopPosition L W m := by
  rw [loopPosition_of_ge hm, loopPosition_of_ge (by omega), Nat.sub_add_comm hm, Nat.add_mod_right]

end

/-! ## Speed and sound -/

/-- At intensity 1.0 the loop plays at speed 1.0, however long it has been Active (46_looper.md R707). -/
theorem playSpeed_of_intensity {u : LoopUnit} (hint : u.intensity = f1) (hramp : isPositive u.rampS = true)
    (htime : fle f0 u.tAct = true) : playSpeed u = f1 := by
  have hsmooth := isFinite_smoothstep (isLevel_fmin_f1 (fle_f0_fdiv htime hramp))
  obtain ⟨hfin, hzero⟩ := fmul_f0_zero hsmooth
  have hsame : fsub f1 f1 = f0 := by decide
  rw [playSpeed, hint, hsame]
  exact fadd_exact isFinite_f1 hfin isFinite_f1 (by rw [hzero, Int.add_zero]) (by decide)

/-- At speed 1.0 the position is the next one, or the window's end after the last. -/
theorem advancePos_toF32 {u : LoopUnit} {L W p : Nat} (hL : u.loopLen.toNat = L) (hWlen : u.xfLen.toNat = W)
    (hWL : W ≤ L) (hlt : L < 2 ^ 24) (hp : p < L) (hpos : u.pos = toF32 p) :
    advancePos u f1 = toF32 (if p + 1 = L then W else p + 1 : Nat) := by
  have hperiod : loopPeriod u = toF32 (L - W : Nat) := by rw [loopPeriod, hL, hWlen, Nat.cast_sub hWL]
  have hwrap : fle (toF32 L) (toF32 (p + 1 : Nat)) = true ↔ L ≤ p + 1 := fle_toF32 hlt (by omega)
  rw [advancePos, hpos, fadd_toF32_one (by omega), hL, hperiod]
  simp only [hwrap]
  by_cases hend : p + 1 = L
  · rw [if_pos hend.ge, if_pos hend, hend, fsub_toF32 (by omega) hlt, Nat.sub_sub_self hWL]
  · rw [if_neg (by omega), if_neg hend]

/-- What the sound of a playing loop depends on, but for its position. -/
def State.tape (s : State) : Config.Params × Word × Word × Word × (Nat → F32) :=
  (s.cfg, s.loop.loopLen, s.loop.xfLen, s.loop.boostEn, s.read .loopbuf)

/-- The sound of channel c of an Active loop at its position. -/
def State.loopSound (s : State) (c : Nat) : F32 :=
  let y := loopRead s.cfg s.mem s.loop c s.loop.pos
  fmul (if s.loop.boostEn = 0 then y else boost y) s.cfg.outMul

theorem loopRead_congr {cfg : Config.Params} {m n : Memory} {u v : LoopUnit} (hlen : u.loopLen = v.loopLen)
    (hwin : u.xfLen = v.xfLen) (hread : ∀ a, m.read cfg .loopbuf a = n.read cfg .loopbuf a) (c : Nat) (q : F32) :
    loopRead cfg m u c q = loopRead cfg n v c q := by
  have hsample : loopSample cfg m u = loopSample cfg n v := by
    funext c q
    simp only [loopSample, hlen, hread]
  have hperiod : loopPeriod u = loopPeriod v := by rw [loopPeriod, loopPeriod, hlen, hwin]
  rw [loopRead, loopRead, hsample, hperiod, hwin]

theorem State.loopSound_congr {s t : State} (htape : t.tape = s.tape) (hpos : t.loop.pos = s.loop.pos) (c : Nat) :
    t.loopSound c = s.loopSound c := by
  simp only [tape, Prod.mk.injEq] at htape
  obtain ⟨hcfg, hlen, hwin, hboost, hread⟩ := htape
  have hmem (a : Nat) : t.mem.read s.cfg .loopbuf a = s.mem.read s.cfg .loopbuf a := by
    have hread := congrFun hread a
    rwa [State.read, hcfg] at hread
  rw [loopSound, loopSound, hcfg, hpos, hboost, loopRead_congr hlen hwin hmem]

/-! ## One tick -/

/-- LOOP is Active at position p of a loop of length L and window W, at intensity 1.0, and its request is held. -/
structure State.Loops (s : State) (L W p : Nat) : Prop where
  active : s.loop.state = .active
  held : s.loop.mode = 0 ∧ flt s.cfg.gateTh s.loop.buildIn = true ∨
    s.loop.mode = 1 ∧ s.loop.req = true ∧ (flt s.cfg.gateTh s.loop.buildIn = true → s.loop.buildPrev = true)
  intensity : s.loop.intensity = f1
  ramp : isPositive s.loop.rampS = true
  dt : isPositive s.global.dt = true
  time : fle f0 s.loop.tAct = true
  len : s.loop.loopLen.toNat = L
  window : s.loop.xfLen.toNat = W
  pos : s.loop.pos = toF32 p

section
variable {s : State} {L W p : Nat}

theorem State.Loops.requested (h : s.Loops L W p) : (s.loop.requested s.cfg).req = true := by
  rw [LoopUnit.requested_req]
  rcases h.held with ⟨hmode, hgate⟩ | ⟨hmode, hreq, hgate⟩
  · rw [if_pos hmode]; exact hgate
  · have hrise : ¬ (gateHigh s.cfg s.loop.buildIn = true ∧ s.loop.buildPrev = false) := fun hr =>
      absurd ((hgate hr.1).symm.trans hr.2) (by decide)
    rw [if_neg (hmode ▸ by decide), if_neg hrise, hreq]

/-- A loop whose request is held goes on. -/
theorem State.Loops.moved (h : s.Loops L W p) :
    s.loopMoved = (s.loop.requested s.cfg, s.loop.recorded s.cfg s.mem) := by
  have hmoves := s.loopMoved_moves
  generalize s.loopMoved = x at hmoves ⊢
  cases hmoves with
  | plays => rfl
  | exits _ hreq => exact absurd (h.requested.symm.trans hreq) (by decide)
  | waits hstate _ | begins hstate _ | ends hstate _ | fades hstate _ =>
    exact absurd (h.active.symm.trans hstate) (by decide)

theorem State.Loops.tick_loop (h : s.Loops L W p) : s.tick.loop =
    { s.loop.requested s.cfg with
      speed := f1
      outL := s.loopSound 0
      outR := s.loopSound 1
      pos := advancePos s.loop f1
      tAct := fadd s.loop.tAct s.global.dt } := by
  have hspeed : playSpeed (s.loop.requested s.cfg) = f1 := playSpeed_of_intensity h.intensity h.ramp h.time
  have hactive : (s.loop.requested s.cfg).state = .active := h.active
  have hvoice (c : Nat) (x : F32) :
      fmul (loopVoice s.cfg (s.loop.recorded s.cfg s.mem) (s.loop.requested s.cfg) c x) s.cfg.outMul =
        s.loopSound c := by
    rw [loopVoice, hactive, if_neg (by decide),
      loopRead_congr (u := s.loop.requested s.cfg) (v := s.loop) rfl rfl (s.loop.recorded_read (by decide) s.cfg s.mem)]
    rfl
  rw [State.tick_loop_eq, h.moved, loopOutput_playing _ _ _ _ _ (by rw [hactive]; decide), hspeed, hvoice, hvoice,
    if_neg (by rw [hactive]; decide)]
  rfl

theorem State.Loops.tick_tape (h : s.Loops L W p) : s.tick.tape = s.tape := by
  have hread : s.tick.read .loopbuf = s.read .loopbuf := by
    funext a
    rw [State.tick_read_loopbuf, h.moved]
    exact s.loop.recorded_read (by decide) s.cfg s.mem a
  rw [tape, tape, s.tick_cfg, hread, h.tick_loop]
  rfl

theorem State.Loops.tick (h : s.Loops L W p) (hWL : W ≤ L) (hlt : L < 2 ^ 24) (hp : p < L) :
    s.tick.Loops L W (if p + 1 = L then W else p + 1) := by
  have hloop := h.tick_loop
  exact
    { active := by rw [hloop]; exact h.active
      held := by
        rw [hloop, s.tick_cfg]
        exact h.held.imp id fun ⟨hmode, _, _⟩ => ⟨hmode, h.requested, id⟩
      intensity := by rw [hloop]; exact h.intensity
      ramp := by rw [hloop]; exact h.ramp
      dt := by rw [s.tick_dt]; exact h.dt
      time := by rw [hloop]; exact fle_f0_fadd h.time h.dt
      len := by rw [hloop]; exact h.len
      window := by rw [hloop]; exact h.window
      pos := by rw [hloop]; exact advancePos_toF32 h.len h.window hWL hlt hp h.pos }

end

/-! ## Tick after tick -/

theorem State.Loops.ticks {s : State} {L W k : Nat} (h : s.Loops L W k) (hW : W < L) (hlt : L < 2 ^ 24) (hk : k < L)
    (n : Nat) : (s.ticks n).Loops L W (loopPosition L W (k + n)) ∧ (s.ticks n).tape = s.tape := by
  induction n with
  | zero =>
    have hstart : loopPosition L W (k + 0) = k := if_pos hk
    exact ⟨by rw [hstart]; exact h, rfl⟩
  | succ n ih =>
    obtain ⟨hloops, htape⟩ := ih
    rw [State.ticks_succ, ← Nat.add_assoc, loopPosition_succ hW]
    exact ⟨hloops.tick hW.le hlt (loopPosition_lt hW), hloops.tick_tape.trans htape⟩

/-- Outside the seam window, and with boost off, the loop plays the sample at its position (46_looper.md R708, R709). -/
theorem State.Loops.plays_snapshot {s : State} {L W p : Nat} (h : s.Loops L W p) (hWL : W ≤ L) (hlt : L < 2 ^ 24)
    (hp : p < L) (hboost : s.loop.boostEn = 0) (hout : W = 0 ∨ p < L - W) {c : Nat}
    (hbound : ∀ i, i < L → inRange 0xFE800000 0x7E800000 (s.read .loopbuf (c * s.cfg.loopMax + i)) = true) :
    ∃ y, feq y (s.read .loopbuf (c * s.cfg.loopMax + p)) = true ∧ s.loopSound c = fmul y s.cfg.outMul := by
  have hperiod : loopPeriod s.loop = toF32 (L - W : Nat) := by rw [loopPeriod, h.len, h.window, Nat.cast_sub hWL]
  have hseam : ¬ ((decide (0 < s.loop.xfLen.toNat) && fle (loopPeriod s.loop) s.loop.pos) = true) := by
    rw [h.window, hperiod, h.pos, Bool.and_eq_true, decide_eq_true_eq, fle_toF32 (by omega) (by omega)]
    omega
  have hsame : fsub (toF32 p) (toF32 p) = f0 := by
    rw [fsub_toF32 (Nat.le_refl p) (by omega), Nat.sub_self]
    exact toF32_zero
  have hnext : (min ((p : Int) + 1) ((L : Int) - 1)).toNat = min (p + 1) (L - 1) := by omega
  have hread : loopRead s.cfg s.mem s.loop c s.loop.pos =
      lerp (s.read .loopbuf (c * s.cfg.loopMax + p)) (s.read .loopbuf (c * s.cfg.loopMax + min (p + 1) (L - 1)))
        f0 := by
    rw [loopRead, if_neg hseam, loopSample]
    simp only [State.read, h.pos, h.len, toIntSat_toF32 hp hlt, hsame, hnext, Int.toNat_natCast]
  refine ⟨_, feq_lerp_f0 (hbound p hp) (hbound (min (p + 1) (L - 1)) (by omega)), ?_⟩
  simp only [loopSound, hread, if_pos hboost]

/-- Settles O48: from tick to tick the position follows `loopPosition`, and the sound depends on the position alone. -/
theorem loopRepeatsItsPeriod : Obligations.LoopRepeatsItsPeriod := by
  intro s L W k n hactive hheld hint hramp hdt _ htime hlen hwin hWL hlt hk hpos q
  have hstart : s.Loops L W k := ⟨hactive, hheld, hint, hramp, hdt, htime, hlen, hwin, hpos⟩
  have hW : W < L := by omega
  obtain ⟨hloops, htape⟩ := hstart.ticks hW hlt hk n
  have htick : (s.ticks (n + 1)).loop.outL = (s.ticks n).loopSound 0 ∧
      (s.ticks (n + 1)).loop.outR = (s.ticks n).loopSound 1 := by
    rw [State.ticks_succ, hloops.tick_loop]
    exact ⟨rfl, rfl⟩
  refine ⟨hloops.pos, fun hge => ?_, fun hboost hout hbound => ?_⟩
  · obtain ⟨hlater, htapeLater⟩ := hstart.ticks hW hlt hk (n + (L - W))
    rw [← Nat.add_assoc, loopPosition_add_period hge] at hlater
    have hsound := State.loopSound_congr (htapeLater.trans htape.symm) (hlater.pos.trans hloops.pos.symm)
    rw [Nat.add_right_comm, State.ticks_succ, hlater.tick_loop, htick.1, htick.2, ← hsound, ← hsound]
    exact ⟨rfl, rfl⟩
  · simp only [State.tape, Prod.mk.injEq] at htape
    obtain ⟨hcfg, -, -, hboostEn, hread⟩ := htape
    have hplays (c : Nat) (hc : c < 2) := hloops.plays_snapshot hW.le hlt (loopPosition_lt hW) (hboostEn.trans hboost)
      hout (c := c) fun i hi => by rw [hread, hcfg]; exact hbound c i hc hi
    obtain ⟨yl, hyl, houtL⟩ := hplays 0 (by omega)
    obtain ⟨yr, hyr, houtR⟩ := hplays 1 (by omega)
    rw [hread, hcfg] at hyl hyr
    rw [Nat.zero_mul, Nat.zero_add] at hyl
    rw [Nat.one_mul] at hyr
    exact ⟨yl, yr, hyl, hyr, htick.1.trans (hcfg ▸ houtL), htick.2.trans (hcfg ▸ houtR)⟩

end Sys2Proof.Machine
end

section
/-! SRESET of one unit, and the invariants that the reset state meets (40_host_commands.md R410; 70_reset_and_hazards.md
R950, R952). -/

namespace Sys2Proof.Machine

/-! ## SRESET of a unit (70_reset_and_hazards.md R952) -/

theorem exec_sreset_unit {u : BitVec 4} (h0 : u.toNat ≠ 0) (h8 : u.toNat ≤ 8) (s : State) :
    exec (.sreset u) s = .next ((s.resetUnit u.toNat).retire 1) := by
  simp [exec, execSreset, Nat.not_lt.2 h8, h0]

/-- The units after a reset of unit n: that unit as at reset, the others as they were. -/
theorem State.resetUnit_units {n : Nat} (h0 : n ≠ 0) (h8 : n ≤ 8) (s : State) :
    (s.resetUnit n).osc = (if n = 1 then (State.resetOf s.cfg).osc else s.osc) ∧
      (s.resetUnit n).wt = (if n = 2 then (State.resetOf s.cfg).wt else s.wt) ∧
      (s.resetUnit n).env = (if n = 3 then (State.resetOf s.cfg).env else s.env) ∧
      (s.resetUnit n).vpool = (if n = 4 then (State.resetOf s.cfg).vpool else s.vpool) ∧
      (s.resetUnit n).gran = (if n = 5 then (State.resetOf s.cfg).gran else s.gran) ∧
      (s.resetUnit n).loop = (if n = 6 then (State.resetOf s.cfg).loop else s.loop) ∧
      (s.resetUnit n).dly = (if n = 7 then (State.resetOf s.cfg).dly else s.dly) ∧
      (s.resetUnit n).arp = (if n = 8 then (State.resetOf s.cfg).arp else s.arp) := by
  have hpos := Nat.pos_of_ne_zero h0
  interval_cases n <;> exact ⟨rfl, rfl, rfl, rfl, rfl, rfl, rfl, rfl⟩

/-- The memories after a reset of unit n: those of that unit as at reset, the others as they were. -/
theorem State.resetUnit_read {n : Nat} (h0 : n ≠ 0) (h8 : n ≤ 8) (s : State) (sp : Space) (a : Nat) :
    (s.resetUnit n).read sp a = if sp.unit = n then (State.resetOf s.cfg).read sp a else s.read sp a := by
  have hpos := Nat.pos_of_ne_zero h0
  interval_cases n <;> cases sp <;> rfl

/-- Settles O21: the units and memories of `State.resetUnit`, and the port moved past one word. -/
theorem sresetOfAUnitResetsThatUnitOnly : Obligations.SresetOfAUnitResetsThatUnitOnly := by
  intro u s h0 h8
  obtain ⟨hosc, hwt, henv, hvpool, hgran, hloop, hdly, harp⟩ := s.resetUnit_units h0 h8
  have hunits := (s.resetUnit u.toNat).sameUnits_retire 1
  have hread (sp : Space) (a : Nat) : ((s.resetUnit u.toNat).retire 1).read sp a = (s.resetUnit u.toNat).read sp a := by
    rw [hunits]; rfl
  refine ⟨_, exec_sreset_unit h0 h8 s, ?_, ?_, ?_, ?_, ?_, ?_, ?_, ?_, ?_, ?_,
    fun sp a => (hread sp a).trans (s.resetUnit_read h0 h8 sp a),
    (State.becomes_retire 1 (Effect.resetUnit u.toNat).sharesPorts).2⟩ <;> rw [hunits]
  · exact s.resetUnit_cfg _
  · exact s.resetUnit_global _
  · exact hosc
  · exact hwt
  · exact henv
  · exact hvpool
  · exact hgran
  · exact hloop
  · exact hdly
  · exact harp

/-! ## Invariants at reset (70_reset_and_hazards.md R950) -/

theorem State.resetOf_voicesOk (cfg : Config.Params) : (State.resetOf cfg).voicesOk = true :=
  State.voicesOk_iff.2 ⟨List.length_replicate, fun v hv => by
    rw [List.eq_of_mem_replicate hv]
    exact voiceReset_ok cfg⟩

theorem State.resetOf_cursorsOk {cfg : Config.Params} (hc : cfg.Legal) : (State.resetOf cfg).cursorsOk = true :=
  State.cursorsOk_iff.2
    { wt := wtReset_cursorsOk cfg
      source := Nat.zero_le _
      ring := (Nat.zero_le _).trans_lt hc.loopMax_lt
      dly := dlyReset_cursorsOk (Nat.zero_lt_of_lt hc.dlyCap_ge) }

theorem State.resetOf_phasesOk (cfg : Config.Params) : (State.resetOf cfg).phasesOk = true :=
  State.phasesOk_iff.2 ⟨rfl, rfl, fun v hv p hp => by
    rw [List.eq_of_mem_replicate hv] at hp
    rw [List.eq_of_mem_replicate hp]
    rfl⟩

theorem State.resetOf_levelsOk (cfg : Config.Params) : (State.resetOf cfg).levelsOk = true :=
  State.levelsOk_iff.2 ⟨isLevel_f0, fun v hv => by
    rw [List.eq_of_mem_replicate hv]
    exact isLevel_f0⟩

theorem portReset_ok (cfg : Config.Params) : portReset.Ok cfg := ⟨Nat.zero_le _, rfl, .inl rfl⟩

/-- The registers are in range at reset, for the defaults of 00_scope.md R9. -/
theorem State.reset_registersOk : State.reset.registersOk := by
  intro r
  rcases r with r | r | r | r | r | r | r | r | r <;> cases r <;> rfl

/-- Settles O35: each invariant by what it says of the units at reset. -/
theorem resetMeetsEveryInvariant : Obligations.ResetMeetsEveryInvariant := by
  have hlegal : State.reset.cfg.legal = true := by decide
  have hc := Config.Params.legal_facts hlegal
  exact ⟨hlegal, rfl, State.bankMapOk_iff.2 (wtReset_mapOk _), State.resetOf_voicesOk _,
    State.granOk_iff.2 (granReset_ok hc), State.loopOk_iff.2 (loopReset_ok _), State.reset_memory_wf,
    State.resetOf_cursorsOk hc, State.reset_registersOk, rfl, State.resetOf_phasesOk _, State.resetOf_levelsOk _,
    State.portsOk_iff.2 fun p => by cases p <;> exact portReset_ok _⟩

end Sys2Proof.Machine
end

section
/-! DLY: what a delay line returns, what one tick reads, stores and gives out, and the bound that a tick keeps
(47_delay.md R750 to R755). -/

namespace Sys2Proof.Machine

/-! ## One delay line (47_delay.md R750) -/

/-- The element o steps behind cursor w of line number `line`, in a memory of lines of N elements. -/
def lineIndex (N line w o : Nat) : Nat := line * N + (w + N - o) % N

section
variable {cfg : Config.Params} {m : Memory} {sp : Space} {N line w o : Nat}

theorem lineIndex_lt {lines : Nat} (hline : line < lines) (hN : 0 < N) : lineIndex N line w o < lines * N :=
  row_add_lt hline (Nat.mod_lt _ hN)

theorem mod_of_lt_two_mul {a n : Nat} (h : a < 2 * n) : a % n = if a < n then a else a - n := by
  split
  · exact Nat.mod_eq_of_lt ‹_›
  · rw [Nat.mod_eq_sub_mod (by omega), Nat.mod_eq_of_lt (by omega)]

/-- An offset inside the line needs no clamp. -/
theorem lineRead_eq {base : Nat} (ho : o < cfg.dlyCap) :
    lineRead cfg m sp base w o = m.read cfg sp (base + (w + cfg.dlyCap - o) % cfg.dlyCap) := by
  have hclamp : clampInt o 0 ((cfg.dlyCap : Int) - 1) = o := by
    unfold clampInt
    split_ifs <;> omega
  have hindex : (((w : Int) - o) % (cfg.dlyCap : Int)).toNat = (w + cfg.dlyCap - o) % cfg.dlyCap := by
    rw [← Int.add_emod_right, ← Int.toNat_natCast ((w + cfg.dlyCap - o) % cfg.dlyCap), Int.natCast_emod]
    congr 2
    omega
  rw [lineRead, hclamp, hindex]

theorem lineRead_lineIndex (ho : o < cfg.dlyCap) :
    lineRead cfg m sp (line * cfg.dlyCap) w o = m.read cfg sp (lineIndex cfg.dlyCap line w o) := lineRead_eq ho

/-- A line reads inside its own elements only, so that a push on another line of the memory is not seen. -/
theorem lineRead_linePush_other {line' w' : Nat} (hline : line ≠ line') (hw' : w' < cfg.dlyCap) (o : Int) (x : F32) :
    lineRead cfg (linePush cfg m sp (line' * cfg.dlyCap) w' x) sp (line * cfg.dlyCap) w o =
      lineRead cfg m sp (line * cfg.dlyCap) w o := by
  refine Memory.read_write_ne _ _ _ _ _ fun h => hline ?_
  have hoffset : (((w : Int) - clampInt o 0 ((cfg.dlyCap : Int) - 1)) % (cfg.dlyCap : Int)).toNat < cfg.dlyCap := by
    have hpos : (0 : Int) < cfg.dlyCap := by omega
    have := Int.emod_lt_of_pos ((w : Int) - clampInt o 0 ((cfg.dlyCap : Int) - 1)) hpos
    omega
  rw [← row_add_div hoffset (r := line), h.2, row_add_div hw']

theorem lineRead_of_cells {n : Memory} (h : m.cells sp = n.cells sp) (base w : Nat) (o : Int) :
    lineRead cfg m sp base w o = lineRead cfg n sp base w o := read_of_cells h _

end

/-- Settles O51: once the cursor has moved on, offset o + 1 is where offset o was, and only offset 0 is where the push
went. -/
theorem delayLineReturnsWhatWasPushed : Obligations.DelayLineReturnsWhatWasPushed := by
  intro cfg m sp base w o x hm hw hN
  have hbehind (j : Nat) (hj : j + 1 < cfg.dlyCap) :
      lineRead cfg (linePush cfg m sp base w x) sp base (cursorStep cfg w) ((j + 1 : Nat) : Int) =
        (linePush cfg m sp base w x).read cfg sp (base + (w + cfg.dlyCap - j) % cfg.dlyCap) := by
    rw [lineRead_eq hj, cursorStep, mod_of_lt_two_mul (a := w + 1) (by omega)]
    split
    · rw [show w + 1 + cfg.dlyCap - (j + 1) = w + cfg.dlyCap - j by omega]
    · rw [show w + 1 - cfg.dlyCap + cfg.dlyCap - (j + 1) = w - j by omega,
        show w + cfg.dlyCap - j = w - j + cfg.dlyCap by omega, Nat.add_mod_right]
  refine ⟨?_, fun h1 h2 => ?_⟩
  · have hself : (w + cfg.dlyCap - 0) % cfg.dlyCap = w := by
      rw [Nat.sub_zero, Nat.add_mod_right, Nat.mod_eq_of_lt hw]
    have hread := hbehind 0 hN
    rw [hself] at hread
    exact hread.trans (Memory.read_write_same hm sp _ x)
  · lift o to Nat using (by omega)
    have hne : (w + cfg.dlyCap - o) % cfg.dlyCap ≠ w := by
      rw [mod_of_lt_two_mul (by omega)]
      split <;> omega
    rw [lineRead_eq (by omega)]
    exact (hbehind o (by exact_mod_cast h2)).trans (Memory.read_write_ne _ _ _ _ _ fun h => hne (by omega))

/-! ## The comb lines (47_delay.md R751) -/

/-- What comb line i of length l.1 with cursor l.2 is read as. -/
def combRead (cfg : Config.Params) (m : Memory) (i : Nat) (l : Nat × Nat) : F32 :=
  lineRead cfg m .comb (i * cfg.dlyCap) l.2 l.1

section
variable {cfg : Config.Params} (fb x : F32) (lines : List (Nat × Nat))

/-- Every comb line stores input plus feedback at its cursor. -/
theorem combsTick_read_in : ∀ (i : Nat) (m : Memory) (sum : F32), m.wf cfg = true → i + lines.length ≤ cfg.nComb →
    (∀ l ∈ lines, l.2 < cfg.dlyCap) → ∀ k l, lines[k]? = some l →
      (combsTick cfg fb x i lines m sum).2.1.read cfg .comb ((i + k) * cfg.dlyCap + l.2) =
        fadd x (fmul fb (combRead cfg m (i + k) l)) := by
  induction lines with
  | nil => intro i m sum _ _ _ k l h; simp at h
  | cons c lines ih =>
    intro i m sum hm hi hw k l hk
    obtain ⟨len, w⟩ := c
    have hwc : w < cfg.dlyCap := hw (len, w) List.mem_cons_self
    have hwl : ∀ l ∈ lines, l.2 < cfg.dlyCap := fun l hl => hw l (List.mem_cons_of_mem _ hl)
    rw [List.length_cons] at hi
    cases k with
    | zero =>
      obtain rfl : (len, w) = l := by simpa using hk
      refine (combsTick_read_out cfg fb x _ lines (i + 1) _ _ fun j l hj heq => ?_).trans
        (Memory.read_write_same hm _ _ _)
      have hrow := congrArg (· / cfg.dlyCap) heq
      simp only [Nat.add_zero, row_add_div hwc, row_add_div (hwl l (List.mem_of_getElem? hj))] at hrow
      omega
    | succ k =>
      have hpush (v : F32) : (linePush cfg m .comb (i * cfg.dlyCap) w v).wf cfg = true :=
        Memory.wf_write v hm (row_add_lt (by omega) hwc)
      have h := ih (i + 1) _ (fadd sum (combRead cfg m i (len, w)))
        (hpush (fadd x (fmul fb (combRead cfg m i (len, w))))) (by omega) hwl k l (by simpa using hk)
      rw [show i + 1 + k = i + (k + 1) by omega] at h
      refine h.trans ?_
      rw [combRead]
      exact congrArg (fun y => fadd x (fmul fb y)) (lineRead_linePush_other (by omega) hwc l.1 _)

/-- The reads are summed in ascending order. -/
theorem combsTick_sum : ∀ (i : Nat) (m : Memory) (sum : F32), (∀ l ∈ lines, l.2 < cfg.dlyCap) →
    (combsTick cfg fb x i lines m sum).2.2 =
      (List.range lines.length).foldl (fun acc k => fadd acc (combRead cfg m (i + k) (lines.getD k (0, 0)))) sum := by
  induction lines with
  | nil => intros; rfl
  | cons c lines ih =>
    intro i m sum hw
    obtain ⟨len, w⟩ := c
    have hwc : w < cfg.dlyCap := hw (len, w) List.mem_cons_self
    rw [List.length_cons, List.range_succ_eq_map, List.foldl_cons, List.foldl_map]
    refine (ih (i + 1) _ _ fun l hl => hw l (List.mem_cons_of_mem _ hl)).trans ?_
    refine List.foldl_ext _ _ _ fun acc k _ => congrArg (fadd acc) ?_
    rw [show i + 1 + k = i + (k + 1) by omega]
    exact lineRead_linePush_other (by omega) hwc _ _

end

/-! ## One tick of DLY (47_delay.md R751, R755) -/

section
variable {cfg : Config.Params} {u : DlyUnit} {m : Memory} {g : GlobalRegs}

/-- The echo stores into ECHO only. -/
theorem dlyTick_read_comb (a : Nat) :
    (dlyTick cfg g u m).2.read cfg .comb a = (reverbTick cfg u m).2.read cfg .comb a := by
  have hecho (b : Nat) : ¬ (Space.comb = .echo ∧ a = b) := fun h => absurd h.1 (by decide)
  exact (Memory.read_write_ne _ _ _ _ _ (hecho _)).trans (Memory.read_write_ne _ _ _ _ _ (hecho _))

theorem reverbTick_cells_echo : (reverbTick cfg u m).2.cells .echo = m.cells .echo :=
  combsTick_cells _ _ _ _ (by decide) _ _ _

/-- Comb line i with its length and its cursor. -/
theorem getElem?_combLines (h : u.CursorsOk cfg) {i : Nat} (hi : i < cfg.nComb) :
    (cfg.combLen.zip u.combW)[i]? = some (cfg.combLen.getD i 0, u.combW.getD i 0) := by
  have hlen : i < cfg.combLen.length := hi
  have hcur : i < u.combW.length := h.lines.symm ▸ hi
  rw [List.getElem?_zip_eq_some, List.getD_eq_getElem _ _ hlen, List.getD_eq_getElem _ _ hcur]
  exact ⟨List.getElem?_eq_getElem hlen, List.getElem?_eq_getElem hcur⟩

theorem DlyUnit.CursorsOk.combW_lt (h : u.CursorsOk cfg) {i : Nat} (hi : i < cfg.nComb) :
    u.combW.getD i 0 < cfg.dlyCap := by
  have hcur : i < u.combW.length := h.lines.symm ▸ hi
  rw [List.getD_eq_getElem _ _ hcur]
  exact h.combs _ (List.getElem_mem hcur)

theorem combLen_lt_dlyCap (hc : cfg.Legal) {i : Nat} (hi : i < cfg.nComb) : cfg.combLen.getD i 0 < cfg.dlyCap := by
  have hlen : i < cfg.combLen.length := hi
  have hall := List.all_eq_true.1 hc.combLen_range _ (List.getElem_mem hlen)
  rw [List.getD_eq_getElem _ _ hlen]
  simp only [Bool.and_eq_true, decide_eq_true_eq] at hall
  omega

/-- What comb line i is read as. -/
theorem combRead_eq (hc : cfg.Legal) {i : Nat} (hi : i < cfg.nComb) :
    combRead cfg m i (cfg.combLen.getD i 0, u.combW.getD i 0) =
      m.read cfg .comb (lineIndex cfg.dlyCap i (u.combW.getD i 0) (cfg.combLen.getD i 0)) :=
  lineRead_lineIndex (combLen_lt_dlyCap hc hi)

/-- Every comb line stores input plus feedback at its cursor. -/
theorem dlyTick_read_comb_in (hc : cfg.Legal) (h : u.CursorsOk cfg) (hm : m.wf cfg = true) {i : Nat}
    (hi : i < cfg.nComb) : (dlyTick cfg g u m).2.read cfg .comb (i * cfg.dlyCap + u.combW.getD i 0) = fadd (fdiv u.revIn cfg.inDiv)
      (fmul u.revFb (m.read cfg .comb (lineIndex cfg.dlyCap i (u.combW.getD i 0) (cfg.combLen.getD i 0)))) := by
  have hlines : 0 + (cfg.combLen.zip u.combW).length ≤ cfg.nComb := by
    rw [List.length_zip, h.lines, Nat.zero_add]
    exact Nat.min_le_right _ _
  have hin := combsTick_read_in u.revFb (fdiv u.revIn cfg.inDiv) (cfg.combLen.zip u.combW) 0 m f0 hm hlines
    (fun l hl => h.combs l.2 (List.of_mem_zip hl).2) i _ (getElem?_combLines h hi)
  rw [Nat.zero_add, combRead_eq hc hi] at hin
  exact (dlyTick_read_comb _).trans hin

theorem dlyTick_combW (h : u.CursorsOk cfg) {i : Nat} (hi : i < cfg.nComb) :
    (dlyTick cfg g u m).1.combW[i]? = some ((u.combW.getD i 0 + 1) % cfg.dlyCap) := by
  have hcombW : (dlyTick cfg g u m).1.combW = (cfg.combLen.zip u.combW).map fun l => cursorStep cfg l.2 :=
    combsTick_cursors ..
  rw [hcombW, List.getElem?_map, getElem?_combLines h hi]
  rfl

/-- REV_OUT mixes the input with the mean of the reads (47_delay.md R751). -/
theorem dlyTick_revOut (hc : cfg.Legal) (h : u.CursorsOk cfg) : (dlyTick cfg g u m).1.revOut =
    fmul (lerp (fdiv u.revIn cfg.inDiv)
      (fdiv ((List.range cfg.nComb).foldl (fun acc i => fadd acc
        (m.read cfg .comb (lineIndex cfg.dlyCap i (u.combW.getD i 0) (cfg.combLen.getD i 0)))) f0) (toF32 cfg.nComb))
      u.revMix) cfg.outMul := by
  have hlen : (cfg.combLen.zip u.combW).length = cfg.nComb := by
    rw [List.length_zip, h.lines]
    exact Nat.min_self _
  have hsum := combsTick_sum u.revFb (fdiv u.revIn cfg.inDiv) (cfg.combLen.zip u.combW) 0 m f0
    fun l hl => h.combs l.2 (List.of_mem_zip hl).2
  have hreads : (List.range cfg.nComb).foldl (fun acc k => fadd acc
        (combRead cfg m (0 + k) ((cfg.combLen.zip u.combW).getD k (0, 0)))) f0 =
      (List.range cfg.nComb).foldl (fun acc i => fadd acc
        (m.read cfg .comb (lineIndex cfg.dlyCap i (u.combW.getD i 0) (cfg.combLen.getD i 0)))) f0 := by
    refine List.foldl_ext _ _ _ fun acc i hi => congrArg (fadd acc) ?_
    have hi := List.mem_range.1 hi
    rw [Nat.zero_add, List.getD_eq_getElem?_getD, getElem?_combLines h hi]
    exact combRead_eq hc hi
  rw [hlen, hreads] at hsum
  rw [← hsum]
  rfl

/-! ## The echo (47_delay.md R755) -/

/-- The read offset of the echo in ticks: ECHO_TIME, at least one and at most DLY_CAP − 1. -/
def echoDistance (cfg : Config.Params) (fs echoTime : F32) : Nat :=
  if ffloor (fmul echoTime fs) < 1 then 1
  else if (cfg.dlyCap : Int) - 1 < ffloor (fmul echoTime fs) then cfg.dlyCap - 1
  else (ffloor (fmul echoTime fs)).toNat

theorem echoDistance_lt (hc : cfg.Legal) (fs echoTime : F32) : echoDistance cfg fs echoTime < cfg.dlyCap := by
  have hcap := hc.dlyCap_ge
  unfold echoDistance
  split_ifs <;> omega

theorem echoOffset_eq (hc : cfg.Legal) (fs echoTime : F32) :
    echoOffset cfg fs echoTime = echoDistance cfg fs echoTime := by
  have hcap := hc.dlyCap_ge
  unfold echoOffset echoDistance clampInt
  generalize ffloor (fmul echoTime fs) = k
  split_ifs <;> omega

/-- What an echo channel with cursor w is read as. -/
def echoRead (cfg : Config.Params) (fs echoTime : F32) (m : Memory) (c w : Nat) : F32 :=
  m.read cfg .echo (lineIndex cfg.dlyCap c w (echoDistance cfg fs echoTime))

/-- The left channel reads the memory that the tick began with. -/
theorem lineRead_echoL (hc : cfg.Legal) (fs : F32) : lineRead cfg (reverbTick cfg u m).2 .echo (0 * cfg.dlyCap) u.echoWL
    (echoOffset cfg fs u.echoTime) = echoRead cfg fs u.echoTime m 0 u.echoWL := by
  rw [lineRead_of_cells reverbTick_cells_echo, echoOffset_eq hc]
  exact lineRead_lineIndex (echoDistance_lt hc fs u.echoTime)

/-- The right channel does not see what the left one stores. -/
theorem lineRead_echoR (hc : cfg.Legal) (h : u.CursorsOk cfg) (fs x : F32) :
    lineRead cfg (linePush cfg (reverbTick cfg u m).2 .echo (0 * cfg.dlyCap) u.echoWL x) .echo (1 * cfg.dlyCap) u.echoWR
      (echoOffset cfg fs u.echoTime) = echoRead cfg fs u.echoTime m 1 u.echoWR := by
  rw [lineRead_linePush_other (by decide) h.echoL, lineRead_of_cells reverbTick_cells_echo, echoOffset_eq hc]
  exact lineRead_lineIndex (echoDistance_lt hc fs u.echoTime)

/-- What one tick leaves in the registers of the echo. -/
theorem dlyTick_echo (hc : cfg.Legal) (h : u.CursorsOk cfg) :
    (dlyTick cfg g u m).1.echoOff.toNat = echoDistance cfg g.sampleRate u.echoTime ∧
      (dlyTick cfg g u m).1.echoOutL = fmul (lerp (fdiv u.echoInL cfg.inDiv)
        (echoRead cfg g.sampleRate u.echoTime m 0 u.echoWL) u.echoMix) cfg.outMul ∧
      (dlyTick cfg g u m).1.echoOutR = fmul (lerp (fdiv u.echoInR cfg.inDiv)
        (echoRead cfg g.sampleRate u.echoTime m 1 u.echoWR) u.echoMix) cfg.outMul := by
  have hoff : (dlyTick cfg g u m).1.echoOff = BitVec.ofNat 32 (echoOffset cfg g.sampleRate u.echoTime).toNat := rfl
  refine ⟨?_, ?_, ?_⟩
  · rw [hoff, echoOffset_eq hc, Int.toNat_natCast]
    exact word_ofNat_toNat ((echoDistance_lt hc _ _).trans hc.dlyCap_lt)
  · rw [← lineRead_echoL hc]; rfl
  · rw [← lineRead_echoR hc h]; rfl

theorem reverbTick_wf (h : u.CursorsOk cfg) (hm : m.wf cfg = true) : (reverbTick cfg u m).2.wf cfg = true := by
  refine combsTick_wf _ _ _ _ 0 m _ hm ?_ fun l hl => h.combs l.2 (List.of_mem_zip hl).2
  rw [List.length_zip, h.lines, Nat.zero_add]
  exact Nat.min_le_right _ _

/-- The memories after the tick: the reverb's, with a push on each echo channel. -/
theorem dlyTick_mem (hc : cfg.Legal) (h : u.CursorsOk cfg) : (dlyTick cfg g u m).2 =
    linePush cfg (linePush cfg (reverbTick cfg u m).2 .echo (0 * cfg.dlyCap) u.echoWL (fadd (fdiv u.echoInL cfg.inDiv)
      (fmul (echoRead cfg g.sampleRate u.echoTime m 0 u.echoWL) u.echoFb))) .echo (1 * cfg.dlyCap) u.echoWR
      (fadd (fdiv u.echoInR cfg.inDiv) (fmul (echoRead cfg g.sampleRate u.echoTime m 1 u.echoWR) u.echoFb)) := by
  rw [← lineRead_echoR hc h, ← lineRead_echoL hc]
  rfl

/-- Each echo channel stores input plus feedback at its cursor. -/
theorem dlyTick_read_echo_in (hc : cfg.Legal) (h : u.CursorsOk cfg) (hm : m.wf cfg = true) :
    (dlyTick cfg g u m).2.read cfg .echo u.echoWL = fadd (fdiv u.echoInL cfg.inDiv)
        (fmul (echoRead cfg g.sampleRate u.echoTime m 0 u.echoWL) u.echoFb) ∧
      (dlyTick cfg g u m).2.read cfg .echo (cfg.dlyCap + u.echoWR) = fadd (fdiv u.echoInR cfg.inDiv)
        (fmul (echoRead cfg g.sampleRate u.echoTime m 1 u.echoWR) u.echoFb) := by
  have hleft := h.echoL
  have hreverb := reverbTick_wf h hm
  rw [dlyTick_mem hc h, linePush, linePush, Nat.zero_mul, Nat.zero_add, Nat.one_mul]
  refine ⟨?_, Memory.read_write_same (Memory.wf_write _ hreverb ?_) _ _ _⟩
  · rw [Memory.read_write_ne _ _ _ _ _ (by omega), Memory.read_write_same hreverb]
  · simp only [spaceSize, Config.nch]
    omega

end

/-! ## The tick of the CORE -/

theorem exec_tick_dly {imm : BitVec 14} {s t : State} (h : exec (.tick imm) s = .next t) :
    t.dly = (dlyTick s.cfg s.global s.dly s.mem).1 := by
  rw [exec_tick_sameUnits h]
  exact s.tick_dly

theorem exec_tick_read_delay {imm : BitVec 14} {s t : State} (h : exec (.tick imm) s = .next t) (a : Nat) :
    t.read .comb a = (dlyTick s.cfg s.global s.dly s.mem).2.read s.cfg .comb a ∧
      t.read .echo a = (dlyTick s.cfg s.global s.dly s.mem).2.read s.cfg .echo a := by
  obtain ⟨hcfg, hmem⟩ := exec_tick_mem h
  obtain ⟨-, -, -, -, -, hcomb, hecho⟩ := tick_reads hcfg hmem a
  exact ⟨hcomb, hecho⟩

/-- Settles O50: each part of the tick by its equation. -/
theorem delayLinesStoreInputPlusFeedback : Obligations.DelayLinesStoreInputPlusFeedback := by
  intro imm s t ht hlegal hm hcursors N behind
  have hc := Config.Params.legal_facts hlegal
  have h := (State.cursorsOk_iff.1 hcursors).dly
  have hread := exec_tick_read_delay ht
  have hbehind : behind = lineIndex N := rfl
  rw [exec_tick_dly ht, hbehind]
  refine ⟨⟨fun i hi => ⟨?_, dlyTick_combW h hi⟩, dlyTick_revOut hc h⟩, ?_⟩
  · exact (hread _).1.trans (dlyTick_read_comb_in hc h hm hi)
  · intro k o xl xr yl yr
    obtain ⟨hoff, houtL, houtR⟩ := dlyTick_echo (m := s.mem) (g := s.global) hc h
    obtain ⟨hL, hR⟩ := dlyTick_read_echo_in (g := s.global) hc h hm
    exact ⟨hoff, (hread _).2.trans hL, (hread _).2.trans hR, rfl, rfl, houtL, houtR⟩

/-! ## The stability law (47_delay.md R752) -/

/-- Rounding never reverses the order of magnitudes. -/
theorem abs_rounded_key_le {a b : Int} {den : Nat} (h : |a| ≤ b) :
    |orderKey (rounded a den)| ≤ orderKey (rounded b den) := by
  have hb : 0 ≤ b := (abs_nonneg a).trans h
  rw [Int.abs_eq_natAbs] at h
  have hmag : roundMag a.natAbs den ≤ roundMag b.natAbs den := roundMag_mono (by omega)
  have hkey : orderKey (rounded b den) = roundMag b.natAbs den := by rw [rounded_key, if_neg (by omega)]
  rw [Int.abs_eq_natAbs, natAbs_rounded_key, hkey]
  exact_mod_cast hmag

/-- A symmetric range is a bound on the magnitude. -/
theorem inRange_fneg_iff {B x : F32} (hB : isFinite B = true) :
    inRange (fneg B) B x = true ↔ isFinite x = true ∧ |orderKey x| ≤ orderKey B := by
  rw [inRange, Bool.and_eq_true, Bool.and_eq_true, and_assoc]
  refine and_congr_right fun hx => ?_
  simp only [fle, isNaN_fneg, isNaN_of_finite hB, isNaN_of_finite hx, orderKey_fneg, Bool.not_false, Bool.true_and,
    decide_eq_true_eq, abs_le]

theorem isFinite_of_abs_key_le {B x : F32} (hB : isFinite B = true) (h : |orderKey x| ≤ orderKey B) :
    isFinite x = true := by
  rw [isFinite_iff] at hB ⊢
  rw [Int.abs_eq_natAbs, natAbs_orderKey] at h
  have hle := natAbs_orderKey B
  omega

theorem abs_scaled_le_of_inRange {B x : F32} (hB : isFinite B = true) (h : inRange (fneg B) B x = true) :
    isFinite x = true ∧ |scaled x| ≤ scaled B := by
  obtain ⟨hx, hge, hle⟩ := (inRange_iff (isFinite_fneg.trans hB) hB).1 h
  rw [scaled_fneg] at hge
  exact ⟨hx, abs_le.2 ⟨hge, hle⟩⟩

theorem fmul_comm_of_finite {a b : F32} (ha : isFinite a = true) (hb : isFinite b = true) : fmul a b = fmul b a := by
  simp only [fmul, isNaN_of_finite ha, isNaN_of_finite hb, isInf_of_finite ha, isInf_of_finite hb, Bool.or_self,
    Bool.false_eq_true, if_false, Nat.mul_comm, bne_comm]

/-- Input plus feedback stays within a bound B that X + f·B does not exceed (47_delay.md R752). -/
theorem inRange_feedback {X B f x y : F32} (hX : isFinite X = true) (hB : isFinite B = true) (hf : isFinite f = true)
    (hf0 : fle f0 f = true) (hbound : fle (fadd X (fmul f B)) B = true) (hx : inRange (fneg X) X x = true)
    (hy : inRange (fneg B) B y = true) : inRange (fneg B) B (fadd x (fmul f y)) = true := by
  obtain ⟨hxf, hxX⟩ := abs_scaled_le_of_inRange hX hx
  obtain ⟨hyf, hyB⟩ := abs_scaled_le_of_inRange hB hy
  have hf0 : 0 ≤ scaled f := scaled_nonneg_of_fle hf hf0
  have hB0 : 0 ≤ scaled B := (abs_nonneg _).trans hyB
  -- an infinite product would make X + f·B infinite, and so not at most B
  have hprod : isFinite (fmul f B) = true := by
    have hge : fle f0 (fmul f B) = true :=
      le_fmul hf hB isFinite_f0 (by rw [scaled_f0, Int.zero_mul]; exact Int.mul_nonneg hf0 hB0)
    rcases finite_or_inf_of_nonneg hge with hfin | hinf
    · exact hfin
    · rw [fadd_inf hX (by rw [hinf]; rfl)] at hbound
      exact isFinite_of_between isFinite_f0 hB hge hbound
  have hterm : |orderKey (fmul f y)| ≤ orderKey (fmul f B) := by
    rw [(fmul_key hf hyf).1, (fmul_key hf hB).1]
    refine abs_rounded_key_le ?_
    rw [abs_mul, abs_of_nonneg hf0]
    exact mul_le_mul_of_nonneg_left hyB hf0
  obtain ⟨hyP, hyPle⟩ := abs_scaled_le_of_inRange hprod
    ((inRange_fneg_iff hprod).2 ⟨isFinite_of_abs_key_le hprod hterm, hterm⟩)
  have hsum : |orderKey (fadd x (fmul f y))| ≤ orderKey B := by
    have hle : orderKey (fadd X (fmul f B)) ≤ orderKey B := by
      rw [fle_eq] at hbound
      simp only [Bool.and_eq_true, decide_eq_true_eq] at hbound
      exact hbound.2
    rw [(fadd_key hX hprod).1] at hle
    rw [(fadd_key hxf hyP).1]
    exact (abs_rounded_key_le ((abs_add_le _ _).trans (add_le_add hxX hyPle))).trans hle
  exact (inRange_fneg_iff hB).2 ⟨isFinite_of_abs_key_le hB hsum, hsum⟩

/-- Settles O49: an element that the tick stores is input plus feedback of an element that it read; the others stay. -/
theorem delayLinesStayBounded : Obligations.DelayLinesStayBounded := by
  intro imm s t X B ht hlegal hm hcursors hX hB
  have hc := Config.Params.legal_facts hlegal
  have h := (State.cursorsOk_iff.1 hcursors).dly
  have hcap : 0 < s.cfg.dlyCap := Nat.zero_lt_of_lt hc.dlyCap_ge
  refine ⟨fun hx hf hf0 hbound hold a ha => ?_, fun hxl hxr hf hf0 hbound hold a ha => ?_⟩
  · rw [(exec_tick_read_delay ht a).1]
    by_cases hin : ∃ i < s.cfg.nComb, a = i * s.cfg.dlyCap + s.dly.combW.getD i 0
    · obtain ⟨i, hi, rfl⟩ := hin
      rw [dlyTick_read_comb_in hc h hm hi]
      exact inRange_feedback hX hB hf hf0 hbound hx (hold _ (lineIndex_lt hi hcap))
    · rw [dlyTick_read_comb_out fun k w hk hka => hin ⟨k, ?_, ?_⟩]
      · exact hold a ha
      · rw [← h.lines]
        exact (List.getElem?_eq_some_iff.1 hk).1
      · rw [List.getD_eq_getElem?_getD, hk]
        exact hka
  · have hread (c w : Nat) (hch : c < 2) :
        inRange (fneg B) B (echoRead s.cfg s.global.sampleRate s.dly.echoTime s.mem c w) = true :=
      hold _ (lineIndex_lt hch hcap)
    have hstored {x y : F32} (hx : inRange (fneg X) X x = true) (hy : inRange (fneg B) B y = true) :
        inRange (fneg B) B (fadd x (fmul y s.dly.echoFb)) = true := by
      rw [fmul_comm_of_finite (abs_scaled_le_of_inRange hB hy).1 hf]
      exact inRange_feedback hX hB hf hf0 hbound hx hy
    obtain ⟨hL, hR⟩ := dlyTick_read_echo_in (g := s.global) hc h hm
    rw [(exec_tick_read_delay ht a).2]
    by_cases hl : a = s.dly.echoWL
    · rw [hl, hL]
      exact hstored hxl (hread 0 _ (by decide))
    · by_cases hr : a = s.cfg.dlyCap + s.dly.echoWR
      · rw [hr, hR]
        exact hstored hxr (hread 1 _ (by decide))
      · rw [dlyTick_read_echo_out hl hr]
        exact hold a ha

end Sys2Proof.Machine
end

section
/-! ARP: step detection, the note advance and the trigger pulse of one tick, and the beat at 120 BPM (48_arp.md
R801 to R811). -/

namespace Sys2Proof.Machine

/-! ## One tick (48_arp.md R810) -/

section
variable {cfg : Config.Params} {g : GlobalRegs} {u : ArpUnit}

/-- The clock input is connected and high. -/
def ArpUnit.high (cfg : Config.Params) (u : ArpUnit) : Bool := connectedHigh cfg u.conn 0 u.clockIn

/-- The tick brings a step. -/
def ArpUnit.steps (cfg : Config.Params) (fs : F32) (u : ArpUnit) : Bool := (arpStepDetect fs u (u.high cfg)).1

/-- The unit with its timer and its clock edge after the step detection. -/
def ArpUnit.timed (cfg : Config.Params) (fs : F32) (u : ArpUnit) : ArpUnit :=
  { u with acc := (arpStepDetect fs u (u.high cfg)).2, clkPrev := u.high cfg }

/-- A step comes at a rising edge of a connected clock, or when the timer has run out. -/
theorem ArpUnit.steps_eq (fs : F32) :
    u.steps cfg fs = if u.conn.getLsbD 0 = true then u.high cfg && !u.clkPrev else fle u.acc f0 := by
  unfold ArpUnit.steps arpStepDetect
  split <;> rfl

/-- A connected clock holds the timer; else it counts down, and gains a period at a step. -/
theorem ArpUnit.timed_acc (fs : F32) :
    (u.timed cfg fs).acc = if u.conn.getLsbD 0 = true then u.acc
      else fsub (if fle u.acc f0 = true then fadd u.acc (arpPeriod fs u) else u.acc) f1 := by
  simp only [ArpUnit.timed, arpStepDetect]
  split <;> rfl

theorem arpTick_of_steps (h : u.steps cfg g.sampleRate = true) :
    arpTick cfg g u = arpOutput cfg (arpAdvance cfg g.sampleRate (u.timed cfg g.sampleRate)) :=
  congrArg (arpOutput cfg) (if_pos h)

theorem arpTick_of_not_steps (h : u.steps cfg g.sampleRate = false) :
    arpTick cfg g u = arpOutput cfg (u.timed cfg g.sampleRate) :=
  congrArg (arpOutput cfg) (if_neg (Bool.eq_false_iff.1 h))

/-- The timer, the clock edge and the pitch after a tick, with a step and without one. -/
theorem arpTick_timing : (arpTick cfg g u).clkPrev = u.high cfg ∧
    (arpTick cfg g u).acc = (u.timed cfg g.sampleRate).acc ∧
    (arpTick cfg g u).pitchOut = fdiv (toF32 (((arpTick cfg g u).note.toNat : Int) - 60)) 0x41400000 := by
  by_cases h : u.steps cfg g.sampleRate = true
  · rw [arpTick_of_steps h]; exact ⟨rfl, rfl, rfl⟩
  · rw [arpTick_of_not_steps (Bool.eq_false_iff.2 h)]; exact ⟨rfl, rfl, rfl⟩

theorem pulseTicks_cast (cfg : Config.Params) (fs : F32) :
    (pulseTicks cfg fs : Int) = max 1 (fceil (fmul cfg.pulseS fs)) := by
  unfold pulseTicks
  omega

theorem pulseTicks_pos (cfg : Config.Params) (fs : F32) : 0 < pulseTicks cfg fs := by
  unfold pulseTicks
  omega

/-- A step restarts the trigger pulse. -/
theorem arpTick_steps_pulse (h : u.steps cfg g.sampleRate = true) :
    (arpTick cfg g u).trigOut = cfg.trigV ∧ (arpTick cfg g u).pulse = pulseTicks cfg g.sampleRate - 1 ∧
      (arpTick cfg g u).stepCount = u.stepCount + 1 := by
  rw [arpTick_of_steps h]
  exact ⟨if_pos (pulseTicks_pos cfg g.sampleRate), rfl, rfl⟩

/-- Without a step the pulse runs on. -/
theorem arpTick_holds_pulse (h : u.steps cfg g.sampleRate = false) :
    (arpTick cfg g u).trigOut = (if 0 < u.pulse then cfg.trigV else f0) ∧ (arpTick cfg g u).pulse = u.pulse - 1 ∧
      (arpTick cfg g u).stepCount = u.stepCount ∧ (arpTick cfg g u).note = u.note ∧
      (arpTick cfg g u).index = u.index := by
  rw [arpTick_of_not_steps h]
  exact ⟨rfl, rfl, rfl, rfl, rfl⟩

/-- A chord has notes (48_arp.md R801). -/
theorem chordNotes_length_pos (hc : cfg.Legal) {chord : Nat} (h : chord < cfg.nChord) (root : Nat) :
    0 < (chordNotes cfg chord root).length := by
  have hchord : chord < cfg.chordTable.length := h
  have hne := List.all_eq_true.1 hc.chords_nonempty _ (List.getElem_mem hchord)
  rw [chordNotes, List.length_map, List.getD_eq_getElem _ _ hchord, List.length_pos_iff]
  simpa using hne

/-- The notes of a chord are MIDI notes. -/
theorem le_of_mem_chordNotes {chord root n : Nat} (h : n ∈ chordNotes cfg chord root) : n ≤ 127 := by
  obtain ⟨iv, -, rfl⟩ := List.mem_map.1 h
  exact Nat.min_le_right _ _

/-- A step takes the note at INDEX of the list and moves INDEX on round it. -/
theorem arpTick_steps_note (hc : cfg.Legal) (hchord : u.chord.toNat < cfg.nChord)
    (h : u.steps cfg g.sampleRate = true) {notes : List Nat}
    (hnotes : notes = chordNotes cfg u.chord.toNat u.root.toNat) :
    (∃ n, notes[u.index.toNat % notes.length]? = some n ∧ (arpTick cfg g u).note.toNat = n) ∧
      (arpTick cfg g u).index = BitVec.ofNat 32 ((u.index.toNat % notes.length + 1) % notes.length) := by
  subst hnotes
  have hlt := Nat.mod_lt u.index.toNat (chordNotes_length_pos hc hchord u.root.toNat)
  have hmax := le_of_mem_chordNotes (List.getElem_mem hlt)
  rw [arpTick_of_steps h]
  refine ⟨⟨_, List.getElem?_eq_getElem hlt, ?_⟩, rfl⟩
  rw [← List.getD_eq_getElem _ 0 hlt] at hmax ⊢
  exact word_ofNat_toNat (Nat.lt_of_le_of_lt hmax (by decide))

end

/-- The denominators of the division codes (48_arp.md R802). -/
theorem divisionDen_eq : ∀ code ≤ 5, (divisionDen code : Int) = [1, 2, 4, 8, 16, 32].getD code 0 := by decide

theorem exec_tick_arp {imm : BitVec 14} {s t : State} (h : exec (.tick imm) s = .next t) :
    t.arp = arpTick s.cfg s.global s.arp := by
  rw [exec_tick_sameUnits h]
  exact s.tick_arp

/-- Settles O52: the step detection with a clock and without one, then a tick with a step and one without. -/
theorem arpStepsThroughItsNotes : Obligations.ArpStepsThroughItsNotes := by
  intro imm s t ht hlegal hchord hdiv u notes clocked high den period due steps
  have hc := Config.Params.legal_facts hlegal
  obtain ⟨hclk, hacc, hpitch⟩ := arpTick_timing (cfg := s.cfg) (g := s.global) (u := u)
  have hperiod : arpPeriod s.global.sampleRate u = period := by
    rw [arpPeriod, divisionDen_eq _ hdiv]
  have hsteps : steps = u.steps s.cfg s.global.sampleRate := (ArpUnit.steps_eq s.global.sampleRate).symm
  rw [ArpUnit.timed_acc, hperiod] at hacc
  rw [exec_tick_arp ht]
  refine ⟨hclk, hacc, fun hstep => ?_, fun hstep => ?_, hpitch⟩
  · rw [hsteps] at hstep
    obtain ⟨htrig, hpulse, hcount⟩ := arpTick_steps_pulse hstep
    obtain ⟨hnote, hindex⟩ := arpTick_steps_note hc hchord hstep (notes := notes) rfl
    refine ⟨hnote, hindex, ?_, htrig, ?_⟩
    · rw [hcount]
      exact BitVec.toNat_add _ _
    · have hpos := pulseTicks_pos s.cfg s.global.sampleRate
      rw [hpulse, ← pulseTicks_cast]
      omega
  · rw [hsteps] at hstep
    obtain ⟨htrig, hpulse, hcount, hnote, hindex⟩ := arpTick_holds_pulse hstep
    exact ⟨hnote, hindex, hcount, htrig, hpulse⟩

/-! ## The beat at SAMPLE_RATE 44100, BPM 120 and DIV 2 (48_arp.md R811) -/

/-- ARP m ticks into a beat of 22050 ticks that step number c began: the timer and the pulse have m ticks less to go. -/
structure ArpUnit.InBeat (m : Nat) (c : Word) (u : ArpUnit) : Prop where
  conn : u.conn = 0
  acc : u.acc = toF32 (22050 - m : Nat)
  pulse : u.pulse = 45 - m
  count : u.stepCount = c

section
variable {g : GlobalRegs} {u : ArpUnit}

theorem arpPeriod_beat (hbpm : u.bpm = 0x42F00000) (hdiv : u.div = 2) : arpPeriod 0x472C4400 u = toF32 22050 := by
  rw [arpPeriod, hbpm, hdiv]
  decide

/-- 0.001 s are 45 ticks, the last one begun. -/
theorem pulseTicks_beat : pulseTicks .default 0x472C4400 = 45 := by decide

theorem arpTick_conn (cfg : Config.Params) : (arpTick cfg g u).conn = u.conn := by
  have hinputs := arpTick_inputs cfg g u
  simp only [Prod.mk.injEq] at hinputs
  obtain ⟨-, -, -, -, hconn, -⟩ := hinputs
  exact hconn

/-- A tick of the timer. -/
theorem fsub_toF32_one {n : Nat} (h0 : 1 ≤ n) (h : n < 2 ^ 24) : fsub (toF32 n) f1 = toF32 (n - 1 : Nat) := by
  have hone : toF32 (1 : Nat) = f1 := by decide
  rw [← hone]
  exact fsub_toF32 h0 h

/-- A timer that has run out begins a beat. -/
theorem arpTick_begins_beat (hfs : g.sampleRate = 0x472C4400) (hbpm : u.bpm = 0x42F00000) (hdiv : u.div = 2)
    (hconn : u.conn = 0) (hacc : u.acc = 0) :
    (arpTick .default g u).InBeat 1 (u.stepCount + 1) ∧
      (arpTick .default g u).trigOut = Config.Params.default.trigV := by
  have hclock : ¬ u.conn.getLsbD 0 = true := by rw [hconn]; decide
  have hdue : fle u.acc f0 = true := by rw [hacc]; decide
  have hsteps : u.steps .default g.sampleRate = true := by rw [ArpUnit.steps_eq, if_neg hclock, hdue]
  obtain ⟨htrig, hpulse, hcount⟩ := arpTick_steps_pulse hsteps
  obtain ⟨-, htimer, -⟩ := arpTick_timing (cfg := .default) (g := g) (u := u)
  refine ⟨⟨(arpTick_conn _).trans hconn, ?_, ?_, hcount⟩, htrig⟩
  · rw [htimer, ArpUnit.timed_acc, if_neg hclock, if_pos hdue, hfs, arpPeriod_beat hbpm hdiv, hacc]
    decide
  · rw [hpulse, hfs, pulseTicks_beat]

/-- While the timer runs, the beat goes on. -/
theorem ArpUnit.InBeat.arpTick {m : Nat} {c : Word} (h : u.InBeat m c) (hm : m < 22050) (cfg : Config.Params)
    (g : GlobalRegs) : (arpTick cfg g u).InBeat (m + 1) c ∧
      (arpTick cfg g u).trigOut = if m + 1 ≤ 45 then cfg.trigV else f0 := by
  have hclock : ¬ u.conn.getLsbD 0 = true := by rw [h.conn]; decide
  have hdue : fle u.acc f0 = false := by
    rw [h.acc, ← toF32_zero, Bool.eq_false_iff]
    exact fun hle => by have := (fle_toF32 (b := 0) (by omega) (by decide)).1 hle; omega
  have hsteps : u.steps cfg g.sampleRate = false := by rw [ArpUnit.steps_eq, if_neg hclock, hdue]
  obtain ⟨htrig, hpulse, hcount, -, -⟩ := arpTick_holds_pulse hsteps
  obtain ⟨-, htimer, -⟩ := arpTick_timing (cfg := cfg) (g := g) (u := u)
  refine ⟨⟨(arpTick_conn _).trans h.conn, ?_, ?_, hcount.trans h.count⟩, ?_⟩
  · rw [htimer, ArpUnit.timed_acc, if_neg hclock, hdue, if_neg Bool.false_ne_true, h.acc,
      fsub_toF32_one (by omega) (by omega), Nat.sub_sub]
  · rw [hpulse, h.pulse, Nat.sub_sub]
  · rw [htrig, h.pulse]
    exact if_congr (by omega) rfl rfl

end

/-- Settles O53: the first tick begins a beat, and each tick after it takes the beat one on. -/
theorem arpTriggersOncePerBeat : Obligations.ArpTriggersOncePerBeat := by
  intro s m hcfg hfs hbpm hdiv hconn hacc h1 hm
  have hbeat : (s.ticks m).arp.InBeat m (s.arp.stepCount + 1) ∧
      (s.ticks m).arp.trigOut = if m ≤ 45 then s.cfg.trigV else f0 := by
    induction m, h1 using Nat.le_induction with
    | base =>
      show s.tick.arp.InBeat 1 _ ∧ s.tick.arp.trigOut = _
      rw [State.tick_arp, hcfg]
      exact arpTick_begins_beat hfs hbpm hdiv hconn hacc
    | succ m h1 ih =>
      obtain ⟨hin, -⟩ := ih (by omega)
      rw [State.ticks_succ, State.tick_arp, s.ticks_cfg m]
      exact hin.arpTick (by omega) s.cfg _
  obtain ⟨hin, htrig⟩ := hbeat
  refine ⟨hin.count, htrig, fun hend => ?_⟩
  rw [hin.acc, hend]
  exact toF32_zero

end Sys2Proof.Machine
end
